-- ==== Sys2Proof/Word.lean ====
section
/-! DEFINITION. The plainest data of the Jofris 2410: bytes, the handles and port numbers of its tables,
a value per colour channel, and the two ways a table of fixed size is built from a rule for its entries. -/

namespace Sys2Proof

/-- A byte on a link (spec/00_scope.md, section 4.2; spec/10, section 10.2). -/
abbrev Byte := BitVec 8

/-- A card handle, 0 to 7 (section 1.1). -/
abbrev CardId := Fin 8

/-- A clip handle, 0 to 511 (section 1.2). -/
abbrev ClipId := Fin 512

/-- A destination port, D0 to D5 (section 3.1 of the introduction). -/
abbrev DestId := Fin 6

/-- A source port, S0 to S3 (section 3.1 of the introduction). -/
abbrev PortId := Fin 4

/-- A look slot, 0 to 7 (chapter Looks and the Grading Pipeline). -/
abbrev SlotId := Fin 8

/-- A camera tag, 0 to 15 (section 1.2). -/
abbrev CameraId := Fin 16

/-- One value for each of the colour channels R, G and B. -/
structure Rgb (α : Type) where
  r : α
  g : α
  b : α
  deriving DecidableEq, Repr

/-- The same function on each channel. -/
def Rgb.map {α β : Type} (f : α → β) (x : Rgb α) : Rgb β := ⟨f x.r, f x.g, f x.b⟩

/-- Every card handle in increasing order. -/
def allCards : List CardId := [0, 1, 2, 3, 4, 5, 6, 7]

/-- Every destination in increasing order. -/
def allDests : List DestId := [0, 1, 2, 3, 4, 5]

/-- Every source port in increasing order. -/
def allPorts : List PortId := [0, 1, 2, 3]

/-- Every look slot in increasing order. -/
def allSlots : List SlotId := [0, 1, 2, 3, 4, 5, 6, 7]

/-- The table of size `n` whose entry `i` is `f i`. -/
def tabulate {α : Type} (n : Nat) (f : Nat → α) : Vector α n :=
  ⟨⟨(List.range n).map f⟩, by simp⟩

/-- `f` applied to each member of a list beside its position, the first position being `i`. -/
def mapFrom {α β : Type} (f : Nat → α → β) : Nat → List α → List β
  | _, [] => []
  | i, x :: xs => f i x :: mapFrom f (i + 1) xs

theorem mapFrom_length {α β : Type} (f : Nat → α → β) (i : Nat) (l : List α) :
    (mapFrom f i l).length = l.length := by
  induction l generalizing i with
  | nil => rfl
  | cons x xs ih => simp [mapFrom, ih]

/-- The table whose entry `i` is `f i` of the old entry `i`. -/
def mapEach {α β : Type} {n : Nat} (f : Nat → α → β) (v : Vector α n) : Vector β n :=
  ⟨⟨mapFrom f 0 v.toList⟩, by simp [mapFrom_length]⟩

end Sys2Proof
end

