-- ==== Sys2Proof/Syntax.lean ====
section
/-! DEFINITION. The commands of the Jofris 2410: one constructor of `Instr` per row of spec/opcode_table.json, with
the operands the spec gives the row. A directive carries its tag and its fields as laid out in spec/10, section 10.2;
a parcel of a bridge, of the decoder or of an unknown kind is carried whole, with its check, so that what the part
makes of a damaged one is the model's to say (R169). -/

namespace Sys2Proof

/-- A received parcel less its kind, which the command's row (or its operand) names: the header fields of section 10.2
and the bytes that followed the header. -/
structure Rx where
  status  : Nat
  tag     : Nat
  length  : Nat
  check   : Nat
  payload : List Byte
  deriving DecidableEq, Repr

/-- A port that takes parcels from a bridge (R168). -/
inductive Port where
  | source (p : PortId)
  | dest (d : DestId)
  deriving DecidableEq, Repr

/-- A timecode as it travels: four BCD bytes, FF first, and the drop flag (section 7.6). -/
structure Timecode where
  ff   : Byte
  ss   : Byte
  mm   : Byte
  hh   : Byte
  drop : Bool
  deriving DecidableEq, Repr

/-- One item of LIST-CLIPS as the directive carries it, before R13 adjusts it. A field whose presence bit is clear is
absent (section 10.2). -/
structure ClipItem where
  name         : List Byte
  start        : Nat
  length       : Nat
  camera       : Nat
  timebase     : Nat
  firstTc      : Option Timecode
  expected     : Option Nat
  cameraDigest : Option Nat
  deriving DecidableEq, Repr

/-- The item of SET-LOOK before R117 adjusts it. -/
structure LookItem where
  slopes     : Rgb Nat
  offsets    : Rgb Int
  saturation : Nat
  lattice    : Nat
  deriving DecidableEq, Repr

/-- The item of SET-PROFILE before R126 adjusts it. -/
structure ProfileItem where
  highLevel : Nat
  highLimit : Nat
  lowLevel  : Nat
  lowLimit  : Nat
  excLimit  : Nat
  deriving DecidableEq, Repr

/-- One item of WATCH-PIXEL before R133 adjusts it. -/
structure WatchItem where
  camera : Nat
  column : Nat
  line   : Nat
  level  : Nat
  run    : Nat
  deriving DecidableEq, Repr

/-- One item of UNWATCH-PIXEL, compared as given (R134). -/
structure UnwatchItem where
  camera : Nat
  column : Nat
  line   : Nat
  deriving DecidableEq, Repr

/-- The commands. The numbered rule of spec/ that owns each row stands beside it. -/
inductive Instr where
  /-- MOUNT (R8): source port, label, required copies, review, suspend mode. -/
  | mount (tag port : Nat) (label : List Byte) (copies review mode : Nat)
  /-- LIST-CLIPS (R11). -/
  | listClips (tag card : Nat) (items : List ClipItem)
  /-- DISMOUNT (R14). -/
  | dismount (tag card : Nat)
  /-- RETIRE (R15). -/
  | retire (tag card : Nat)
  /-- QUERY-CARD (R18). -/
  | queryCard (tag card : Nat)
  /-- QUERY-CLIP (R19). -/
  | queryClip (tag clip : Nat)
  /-- ROUTE (R61). -/
  | route (tag card : Nat) (ports : List Nat)
  /-- START (R62). -/
  | start (tag card : Nat)
  /-- SUSPEND (R63). -/
  | suspend (tag card : Nat)
  /-- RESUME (R66). -/
  | resume (tag card : Nat)
  /-- ABORT (R67). -/
  | abort (tag card : Nat)
  /-- HALT-ALL (R68). -/
  | haltAll (tag : Nat)
  /-- RECOPY (R69). -/
  | recopy (tag card : Nat)
  /-- SET-REGION (R39). -/
  | setRegion (tag port base length : Nat)
  /-- SET-STALL (R40). -/
  | setStall (tag port limit : Nat)
  /-- CLOSE-DEST (R41). -/
  | closeDest (tag port : Nat)
  /-- REVIVE-DEST (R42). -/
  | reviveDest (tag port : Nat)
  /-- QUERY-DEST (R43). -/
  | queryDest (tag port : Nat)
  /-- SET-PACING (R84): P and S. -/
  | setPacing (tag port p e : Nat)
  /-- SET-LOOK (R117). -/
  | setLook (tag slot : Nat) (item : LookItem)
  /-- LOAD-CURVE (R118). -/
  | loadCurve (tag slot channel start : Nat) (entries : List Nat)
  /-- LOAD-LATTICE (R119). -/
  | loadLattice (tag slot start : Nat) (entries : List (Rgb Nat))
  /-- COMMIT-LOOK (R120). -/
  | commitLook (tag slot : Nat)
  /-- MAP-CAMERA (R123): camera tag and slot code. -/
  | mapCamera (tag camera code : Nat)
  /-- SET-COMPARE (R124). -/
  | setCompare (tag on split : Nat)
  /-- SET-PROFILE (R126). -/
  | setProfile (tag camera : Nat) (item : ProfileItem)
  /-- WATCH-PIXEL (R133). -/
  | watchPixel (tag : Nat) (items : List WatchItem)
  /-- UNWATCH-PIXEL (R134). -/
  | unwatchPixel (tag : Nat) (items : List UnwatchItem)
  /-- WAIVE (R156). -/
  | waive (tag card generation : Nat)
  /-- CLEAR-STATUS (R182). -/
  | clearStatus (tag : Nat)
  /-- RESET-PART (R181). -/
  | resetPart (tag : Nat)
  /-- QUERY-PART (R183). -/
  | queryPart (tag : Nat)
  /-- A DIRECTIVE parcel that fails a form check (R176), carried whole. -/
  | malformedDirective (p : Rx)
  /-- A parcel of a kind the station link does not take (R174). -/
  | stationForeignParcel (kind : Nat) (p : Rx)
  /-- A parcel of a kind a source or destination port does not take (R168). -/
  | portForeignParcel (port : Port) (kind : Nat) (p : Rx)
  /-- Attach on a source port (R7). -/
  | sourceAttach (p : PortId)
  /-- Detach on a source port (R17). -/
  | sourceDetach (p : PortId)
  /-- Link up on a destination port (R26). -/
  | destLinkUp (d : DestId)
  /-- Link down on a destination port (R28). -/
  | destLinkDown (d : DestId)
  /-- The station link goes down (R172). -/
  | stationLinkDown
  /-- The station link comes up (R172). -/
  | stationLinkUp
  /-- Power comes up (R187). -/
  | powerOn
  /-- The RESET pin is asserted (R187). -/
  | resetPin
  /-- The full reset ends (R186, R187): the strap pins and the links as they stand at that moment. -/
  | resetEnd (srcStraps : BitVec 2) (dstStraps : BitVec 3) (present : BitVec 4) (up : BitVec 6) (station : Bool)
  /-- The source link takes the channel's FETCH (R49). -/
  | sendFetch (p : PortId)
  /-- A BLOCK arrives on a source port (R50). -/
  | sourceBlock (p : PortId) (b : Rx)
  /-- The fetch timer of the copy FETCH of this tag reaches 0 (R51). -/
  | fetchTimeout (p : PortId) (tag : Nat)
  /-- The destination link takes a STORE (R54). -/
  | sendStore (d : DestId)
  /-- A STORE-DONE arrives on a destination port (R55). -/
  | storeDone (d : DestId) (b : Rx)
  /-- The stall timer of a destination reaches 0 (R35). -/
  | stallTimeout (d : DestId)
  /-- The destination link takes a read-back FETCH (R73). -/
  | sendVerifyFetch (d : DestId)
  /-- A BLOCK arrives on a destination port (R74). -/
  | verifyBlock (d : DestId) (b : Rx)
  /-- The fetch timer of the read-back FETCH of this tag reaches 0 (R75). -/
  | verifyFetchTimeout (d : DestId) (tag : Nat)
  /-- FRAME-OPEN (R88). -/
  | frameOpen (b : Rx)
  /-- LINE (R93); `monitorTakes` says whether the monitor port takes the MONITOR-LINE it is offered (R95). -/
  | line (b : Rx) (monitorTakes : Bool)
  /-- FRAME-CLOSE (R96). -/
  | frameClose (b : Rx)
  /-- The station link takes a waiting parcel (R185). -/
  | egressSend
  deriving DecidableEq, Repr

end Sys2Proof
end

