-- ==== Sys2Proof/Decode.lean ====
section
/-! DEFINITION. Reading a command from a table word. spec/opcode_table.json gives no row any bits, so no word spells a command.
The DIRECTIVE parcels of the station link, which do have an encoding, are read by `formCheck` and written by
`directiveParcel` (Machine/Form.lean). -/

namespace Sys2Proof

/-- The command a word of `nbits` bits spells by the table's bits: none, since no row of the table gives bits (log entry
21). -/
def decodeTableWord (_nbits _w : Nat) : Option Instr := none

end Sys2Proof
end

