-- ==== Sys2Proof/Config.lean ====
section
/-! DEFINITION. The fixed numbers of the part, as its chapters state them, and the FREE VALUES: constants without
a body, for the values the spec does not state. Nothing in Lean can evaluate a free value or prove what it is. -/

namespace Sys2Proof.Config

/-- The modulus of the clip digest and of the parcel check, 2^32 − 5 (R52). -/
def digestPrime : Nat := 4294967291

/-- Bytes in a block (section 4.2 of the introduction). -/
def blockBytes : Nat := 4096

/-- Blocks in the block buffer pool (R48). -/
def poolBlocks : Nat := 64

/-- Pool blocks one copy channel may hold (R48). -/
def channelShare : Nat := 16

/-- FETCHes one copy channel may have outstanding (R48). -/
def maxFetches : Nat := 4

/-- STOREs one destination may have outstanding (R31). -/
def maxStores : Nat := 8

/-- Verify FETCHes one destination may have outstanding (R31). -/
def maxVerifyFetches : Nat := 2

/-- Blocks in a verify context's buffer (R71). -/
def verifyBuffer : Nat := 2

/-- The fetch timer of a copy FETCH and of a read-back FETCH, in milliseconds (R49, R73). -/
def fetchLimit : Nat := 1500

/-- The try at which a block has failed, and the failed attempt at which a clip has (R51, R57, R75). -/
def lastTry : Nat := 3

/-- The listed entries of the fault log; the 64th place is the overflow marker's (R149, R150). -/
def logEntries : Nat := 63

/-- Entries of the watch list (R132). -/
def watchEntries : Nat := 128

/-- The largest value of a 16-bit count that stays at its top (R143, R175). -/
def max16 : Nat := 65535

/-- The largest value of a 24-bit count that stays at its top (R98, R126). -/
def max24 : Nat := 16777215

/-- The largest value of a 32-bit count that stays at its top (R150). -/
def max32 : Nat := 4294967295

/-- FREE VALUE (log entry 4): the line index or line count that a LINE or FRAME-CLOSE "carries" when its payload is
too short to hold the field. The argument is the model's own counter of free values. -/
opaque freeWord : Nat → BitVec 16

/-- FREE VALUE (log entry 5): the bits of a FAULT or STATS parcel that the layout gives no meaning: the fields whose
flag says they are absent, and the flag bits the layout does not name. -/
opaque freeFill : Nat → BitVec 128

/-- FREE VALUE (log entry 2): which of the timers that reach 0 in the same millisecond comes next. -/
opaque freePick : Nat → Nat

end Sys2Proof.Config
end

