-- ==== Sys2Proof/Machine/Digest.lean ====
section
/-! DEFINITION. The clip digest (R52) and the parcel check (R169): the two-lane sum over the 32-bit little-endian words of
a run of bytes. -/

namespace Sys2Proof.Machine

/-- The value of little-endian bytes (R168). -/
def leNat : List Byte → Nat
  | [] => 0
  | b :: bs => b.toNat + 256 * leNat bs

/-- The `n` low bytes of a value, little-endian (R168). -/
def leBytes : Nat → Nat → List Byte
  | 0, _ => []
  | n + 1, v => BitVec.ofNat 8 v :: leBytes n (v / 256)

/-- R52: the 32-bit little-endian words of a run of bytes, a final partial word completed with zero bytes. -/
def words : List Byte → List Nat
  | a :: b :: c :: d :: rest => leNat [a, b, c, d] :: words rest
  | [] => []
  | rest => [leNat rest]

/-- R52: one word enters the lanes. -/
def laneStep (lanes : Nat × Nat) (w : Nat) : Nat × Nat :=
  ((lanes.1 + w) % Config.digestPrime, (lanes.2 + (lanes.1 + w) % Config.digestPrime) % Config.digestPrime)

/-- R52: a run of bytes enters the lanes. -/
def digestBytes (lanes : Nat × Nat) (bytes : List Byte) : Nat × Nat := (words bytes).foldl laneStep lanes

/-- R52: the digest is B × 2^32 + A. -/
def digestValue (lanes : Nat × Nat) : Nat := lanes.2 * 2 ^ 32 + lanes.1

/-- R52: the A lane of a digest. -/
def digestLaneA (digest : Nat) : Nat := digest % 2 ^ 32

end Sys2Proof.Machine
end

