-- ==== Sys2Proof/Machine/Records.lean ====
section
/-! DEFINITION. The records of the part, as the tables of its chapters give them: every table, queue, timer and
setting the spec names, as plain data. Named values stand in the order in which the manual first gives their list,
since that order is their code on the links (R168). -/

namespace Sys2Proof.Machine

/-- Card states (section 1.1). -/
inductive CardState where
  | free | mounted | copying | suspending | suspended | copied | held | halted | cleared
  deriving DecidableEq, Repr

/-- How SUSPEND treats a clip in flight (section 1.1). -/
inductive SuspendMode where
  | prompt | finish
  deriving DecidableEq, Repr

/-- Clip states (R5). -/
inductive ClipState where
  | listed | inFlight | written | failed
  deriving DecidableEq, Repr

/-- Timebases (section 1.2). -/
inductive Timebase where
  | t24 | t25 | t30 | t30D | t48 | t50 | t60
  deriving DecidableEq, Repr

/-- A copy record: its state and, in the states that have one, its offset in the destination's region (R6). -/
inductive Copy where
  | none
  | writing
  | written (offset : Nat)
  | verifying (offset : Nat)
  | verified (offset : Nat)
  | bad (offset : Nat)
  deriving DecidableEq, Repr

/-- The fault kinds, in the order of their codes 01h to 18h (section 10.2). -/
inductive FaultKind where
  | sourceRead | clipFailed | sourceLost | sourceDigest | copyShort | destShortfall | storeError | destStall
  | destLost | destFull | verifyMismatch | verifyRead | exposureHigh | exposureLow | gamutExcursion | hotPixel
  | frameGap | frameRepeat | tcBreak | shortFrame | tcMalformed | lineOrder | orphanPicture | directiveLock
  deriving DecidableEq, Repr

/-- A set of destinations: entry n says whether Dn belongs to it (R171 gives the same bit order). -/
abbrev DestSet := Vector Bool 6

/-- A set of fault kinds: entry n − 1 says whether the kind of code n belongs to it (R171). -/
abbrev MarkSet := Vector Bool 24

/-- The set with no destination. -/
def DestSet.empty : DestSet := #v[false, false, false, false, false, false]

/-- The set with no fault kind. -/
def MarkSet.empty : MarkSet := Vector.replicate 24 false

/-- A card record (section 1.1). -/
structure Card where
  label          : List Byte
  source         : Option PortId
  state          : CardState
  required       : Nat
  review         : Bool
  mode           : SuspendMode
  route          : DestSet
  clips          : List ClipId
  openMarks      : MarkSet
  waivedMarks    : MarkSet
  generation     : Nat
  suspendWaiting : Bool
  clearedUnsent  : Bool
  deriving DecidableEq, Repr

/-- A clip record in use (section 1.2). -/
structure Clip where
  card         : CardId
  name         : List Byte
  start        : Nat
  length       : Nat
  camera       : CameraId
  timebase     : Timebase
  firstTc      : Option Timecode
  expected     : Option Nat
  cameraDigest : Option Nat
  state        : ClipState
  failed       : Nat
  restarted    : Bool
  sourceDigest : Option Nat
  copies       : Vector Copy 6
  openMarks    : MarkSet
  waivedMarks  : MarkSet
  framesSeen   : Nat
  lastFrame    : Option Nat
  lastCount    : Option Nat
  lastMarker   : Bool
  deriving DecidableEq, Repr

/-- A source port: its presence and its binding (section 1.5). -/
structure SourcePort where
  attached : Bool
  binding  : Option CardId
  deriving DecidableEq, Repr

/-- Destination states (section 2.1). -/
inductive DestState where
  | absent | unset | active | full | stalled | closed
  deriving DecidableEq, Repr

/-- The service states a destination can return to (section 2.1, return state). -/
inductive Service where
  | active | full | closed
  deriving DecidableEq, Repr

/-- An outstanding STORE (section 2.1). -/
structure StoreReq where
  tag   : Nat
  block : Nat
  clip  : ClipId
  deriving DecidableEq, Repr

/-- A block and the try at which it is (to be) requested (R51, R75). -/
structure Try where
  block : Nat
  tryNo : Nat
  deriving DecidableEq, Repr

/-- An outstanding read-back FETCH: its tag, its fetch timer and, while it belongs to the verify context, the block and
try it asks for. A FETCH orphaned by release has none (R80). -/
structure VerifyFetch where
  tag   : Nat
  timer : Nat
  use   : Option Try
  deriving DecidableEq, Repr

/-- A block buffer reserved by a FETCH and, once its BLOCK has arrived, the bytes (R48, R50, R71, R74). -/
structure Held where
  block : Nat
  data  : Option (List Byte)
  deriving DecidableEq, Repr

/-- A busy verify context (section 4.2). `retries` are the tries that have failed and whose repeated FETCH the
destination link has not yet taken (R75). -/
structure VerifyContext where
  clip       : ClipId
  offset     : Nat
  nextFetch  : Nat
  nextDigest : Nat
  retries    : List Try
  held       : List Held
  laneA      : Nat
  laneB      : Nat
  deriving DecidableEq, Repr

/-- A destination record (section 2.1). -/
structure Dest where
  state      : DestState
  ret        : Option Service
  base       : Nat
  length     : Nat
  cursor     : Nat
  stallLimit : Nat
  stallTimer : Option Nat
  holder     : Option ClipId
  draining   : Bool
  stores     : List StoreReq
  fetches    : List VerifyFetch
  tagCounter : Nat
  paceP      : Nat
  paceS      : Nat
  credit     : Nat
  queue      : List ClipId
  context    : Option VerifyContext
  deriving DecidableEq, Repr

/-- Copy channel states (section 3.1). -/
inductive ChannelState where
  | idle | running | waiting
  deriving DecidableEq, Repr

/-- An outstanding copy FETCH (section 3.1). -/
structure Fetch where
  tag   : Nat
  block : Nat
  tryNo : Nat
  timer : Nat
  deriving DecidableEq, Repr

/-- A copy channel (section 3.1). `target` is the attempt's target set (R47, R64); `retries` are the failed tries whose
repeated FETCH the source link has not yet taken (R51). -/
structure Channel where
  state      : ChannelState
  clip       : Option ClipId
  target     : DestSet
  writing    : DestSet
  finished   : DestSet
  drain      : DestSet
  nextFetch  : Nat
  nextDigest : Nat
  sendIndex  : Vector Nat 6
  fetches    : List Fetch
  retries    : List Try
  held       : List Held
  laneA      : Nat
  laneB      : Nat
  tagCounter : Nat
  deriving DecidableEq, Repr

/-- A check profile (R125). -/
structure Profile where
  highLevel : Nat
  highLimit : Nat
  lowLevel  : Nat
  lowLimit  : Nat
  excLimit  : Nat
  deriving DecidableEq, Repr

/-- The open-frame context of the frame tracker (section 5.1) with the frame-check context that belongs to it
(section 7.2), but for the watched entries, whose flags stand in the watch list. -/
structure OpenFrame where
  clip        : Option ClipId
  number      : Nat
  tc          : Timecode
  width       : Nat
  height      : Nat
  last        : Bool
  camera      : Option CameraId
  slot        : Option SlotId
  compareOn   : Bool
  split       : Nat
  slotsInUse  : List SlotId
  linesTaken  : Nat
  previous    : Option (Nat × Nat)
  pixelsTaken : Nat
  profile     : Profile
  pixelCount  : Nat
  highCount   : Nat
  lowCount    : Nat
  excCount    : Nat
  lumaSum     : Nat
  deriving DecidableEq, Repr

/-- One complete look (section 6.1). The lattice entry at grid position (r, g, b) is `lattice[b][g][r]`. -/
structure Bank where
  slope      : Rgb Nat
  offset     : Rgb Int
  curve      : Rgb (Vector Nat 257)
  saturation : Nat
  latticeOn  : Bool
  lattice    : Vector (Vector (Vector (Rgb Nat) 17) 17) 17
  deriving DecidableEq, Repr

/-- The state of a STAGING bank; PENDING keeps the tag of its COMMIT-LOOK (R103, R120). -/
inductive Staging where
  | clean
  | loaded
  | pending (tag : Nat)
  deriving DecidableEq, Repr

/-- A look slot with its two banks (section 6.1). -/
structure LookSlot where
  live    : Bank
  staging : Bank
  state   : Staging
  deriving DecidableEq, Repr

/-- The compare setting (section 6.2). -/
structure Compare where
  on    : Bool
  split : Nat
  deriving DecidableEq, Repr

/-- The flags of a watched entry of the open frame (section 7.2). -/
structure Watched where
  covered : Bool
  hit     : Bool
  deriving DecidableEq, Repr

/-- A watch list entry (R132). `watched` is present while the entry is a watched entry of the open frame (R127). -/
structure WatchEntry where
  camera  : CameraId
  column  : Nat
  line    : Nat
  level   : Nat
  run     : Nat
  counter : Nat
  raised  : Bool
  watched : Option Watched
  deriving DecidableEq, Repr

/-- The checked clip (R130). -/
inductive CheckedClip where
  | unset
  | noClip
  | clip (k : ClipId)
  deriving DecidableEq, Repr

/-- The three run flags (R131). -/
structure RunFlags where
  high : Bool
  low  : Bool
  exc  : Bool
  deriving DecidableEq, Repr

/-- The frame statistics record (R142). -/
structure Stats where
  clip         : Option ClipId
  number       : Nat
  tc           : Timecode
  pixels       : Nat
  high         : Nat
  low          : Nat
  exc          : Nat
  meanLuma     : Nat
  hotHits      : Nat
  abandoned    : Bool
  droppedAfter : Nat
  deriving DecidableEq, Repr

/-- An entry of the fault log (section 8.3). -/
structure LogEntry where
  seq            : Nat
  kind           : FaultKind
  card           : Option CardId
  clip           : Option ClipId
  dest           : Option DestId
  frame          : Option (Nat × Timecode)
  detail         : Nat
  afterClearance : Bool
  deriving DecidableEq, Repr

/-- The overflow marker: its sequence number and the count of faults it stands for (R150). -/
structure Overflow where
  seq   : Nat
  count : Nat
  deriving DecidableEq, Repr

/-- The fault log: its listed entries, head first, the overflow marker, which stands behind all of them (R150), and the
next sequence number (R148). -/
structure FaultLog where
  entries : List LogEntry
  marker  : Option Overflow
  nextSeq : Nat
  deriving DecidableEq, Repr

/-- The causes of a full reset (R187, R188). -/
inductive ResetCause where
  | power | pin | directive
  deriving DecidableEq, Repr

/-- Refusal reasons, in the order of their codes 01h to 0Bh (section 10.2). -/
inductive Reason where
  | busy | wrongState | noPort | noSource | sourceConflict | tableFull | stale | collision | notFound | shortRoute
  | inUse
  deriving DecidableEq, Repr

/-- The outcome of an answer with its reason (section 10.2). -/
inductive Result where
  | done
  | adjusted
  | deferred
  | refused (r : Reason)
  | malformed (cause : Nat)
  | locked
  deriving DecidableEq, Repr

/-- The answer data of QUERY-CARD (R18) beside the card's record. -/
structure CardCounts where
  listed    : Nat
  inFlight  : Nat
  written   : Nat
  failed    : Nat
  verified  : Nat
  withMarks : Nat
  deriving DecidableEq, Repr

/-- The answer data of QUERY-DEST (R43). -/
structure DestReport where
  state       : DestState
  ret         : Option Service
  base        : Nat
  length      : Nat
  cursor      : Nat
  stallLimit  : Nat
  stallTimer  : Option Nat
  holder      : Option ClipId
  draining    : Bool
  stores      : Nat
  fetches     : Nat
  paceP       : Nat
  paceS       : Nat
  credit      : Nat
  queued      : Nat
  contextClip : Option ClipId
  pointer     : CardId
  deriving DecidableEq, Repr

/-- The lock status of the directive unit (section 10.4): locked or accepting, the lock cause (none, or 1 to 7) and the
locked-refusal count. -/
structure LockStatus where
  locked : Bool
  cause  : Option Nat
  count  : Nat
  deriving DecidableEq, Repr

/-- The answer data of QUERY-PART (R183). -/
structure PartReport where
  status     : LockStatus
  cause      : ResetCause
  sources    : Nat
  dests      : Nat
  ports      : Vector SourcePort 4
  occupancy  : Nat
  suppressed : Nat
  cards      : Nat
  clips      : Nat
  held       : Bool
  deriving DecidableEq, Repr

/-- The answer data the owning rule of a directive gives (R179). -/
inductive AnswerData where
  | nothing
  | mounted (h : CardId) (state : CardState)
  | handles (ks : List ClipId)
  | cardRecord (h : CardId) (c : Card) (n : CardCounts)
  | clipRecord (k : ClipId) (c : Clip) (generation : Nat)
  | destRecord (r : DestReport)
  | count (n : Nat)
  | waived (state : CardState) (n : Nat)
  | generation (g : Nat)
  | status (r : LockStatus)
  | part (r : PartReport)
  deriving DecidableEq, Repr

/-- The answer to a directive (section 10.2). -/
structure Answer where
  tag    : Nat
  code   : Nat
  result : Result
  data   : AnswerData
  deriving DecidableEq, Repr

/-- An entry of the notice queue: a notice with the fields its rule gives, or an answer (R184). -/
inductive Notice where
  | cardState (h : CardId) (label : List Byte) (state : CardState) (source : Option PortId)
  | destState (d : DestId) (state : DestState) (ret : Option Service) (base length cursor : Nat) (draining : Bool)
  | lookCommitted (slot : SlotId) (tag : Nat) (frame : Nat)
  | cleared (h : CardId) (label : List Byte) (clips : Nat)
  | resetDone (cause : ResetCause) (sources dests : Nat)
  | answer (a : Answer)
  deriving DecidableEq, Repr

/-- The directive unit (section 10.4). -/
structure DirectiveUnit where
  status : LockStatus
  held   : Option Answer
  deriving DecidableEq, Repr

/-- The reset cause, whether the part is held in full reset (and with which cause), and the fitted port counts the straps
gave at the last full reset (R186, R187). -/
structure ResetUnit where
  holding : Option ResetCause
  cause   : ResetCause
  sources : Nat
  dests   : Nat
  deriving DecidableEq, Repr

/-- A parcel as the part sends it: the header of section 10.2 and its payload. -/
structure Parcel where
  kind    : Nat
  status  : Nat
  tag     : Nat
  length  : Nat
  check   : Nat
  payload : List Byte
  deriving DecidableEq, Repr

/-- A parcel that has left the part, with the port it left by. -/
inductive Sent where
  | source (p : PortId) (x : Parcel)
  | dest (d : DestId) (x : Parcel)
  | station (x : Parcel)
  | monitor (x : Parcel)
  deriving DecidableEq, Repr

/-- The part: everything the spec gives the machine. Three fields at the end are the model's own: the parcels the station
link holds back while ingress is stopped (R170, R180), the parcels that have left the part, newest first, and the counter
of free values. -/
structure Part where
  reset        : ResetUnit
  cards        : Vector Card 8
  clips        : Vector (Option Clip) 512
  ports        : Vector SourcePort 4
  channels     : Vector Channel 4
  dests        : Vector Dest 6
  grantPointer : CardId
  frame        : Option OpenFrame
  looks        : Vector LookSlot 8
  cameraMap    : Vector (Option SlotId) 16
  compare      : Compare
  profiles     : Vector Profile 16
  watch        : List WatchEntry
  checkedClip  : CheckedClip
  runs         : RunFlags
  stats        : Option Stats
  log          : FaultLog
  unit         : DirectiveUnit
  notices      : List Notice
  stationUp    : Bool
  waiting      : List Instr
  out          : List Sent
  freeCount    : Nat
  deriving DecidableEq, Repr

end Sys2Proof.Machine
end

