-- ==== Sys2Proof/Machine/Flags.lean ====
section
/-! DEFINITION. Sets of destinations and of fault kinds, the properties of fault kinds (R144), and the flags a record's
fields give: live and verified copies (R6), the sizes of a clip (section 1.2), free and in-service destinations (R23). -/

namespace Sys2Proof.Machine

/-! ## Sets of destinations -/

/-- The destinations for which `p` answers true. -/
def DestSet.ofPred (p : DestId → Bool) : DestSet := #v[p 0, p 1, p 2, p 3, p 4, p 5]

def DestSet.mem (s : DestSet) (d : DestId) : Bool := s[d]

def DestSet.insert (s : DestSet) (d : DestId) : DestSet := s.set d true

def DestSet.erase (s : DestSet) (d : DestId) : DestSet := s.set d false

def DestSet.members (s : DestSet) : List DestId := allDests.filter s.mem

def DestSet.size (s : DestSet) : Nat := s.members.length

def DestSet.isEmpty (s : DestSet) : Bool := s.members.isEmpty

/-- Every member of `s` satisfies `p`. -/
def DestSet.allMembers (s : DestSet) (p : DestId → Bool) : Bool := s.members.all p

/-! ## Fault kinds (R144) and sets of them -/

/-- R144: the position of a kind in the list of codes, one below its code. -/
def FaultKind.index : FaultKind → Fin 24
  | .sourceRead => 0
  | .clipFailed => 1
  | .sourceLost => 2
  | .sourceDigest => 3
  | .copyShort => 4
  | .destShortfall => 5
  | .storeError => 6
  | .destStall => 7
  | .destLost => 8
  | .destFull => 9
  | .verifyMismatch => 10
  | .verifyRead => 11
  | .exposureHigh => 12
  | .exposureLow => 13
  | .gamutExcursion => 14
  | .hotPixel => 15
  | .frameGap => 16
  | .frameRepeat => 17
  | .tcBreak => 18
  | .shortFrame => 19
  | .tcMalformed => 20
  | .lineOrder => 21
  | .orphanPicture => 22
  | .directiveLock => 23

/-- Section 10.2: the fault kind code. -/
def FaultKind.code (k : FaultKind) : Nat := k.index.val + 1

/-- R144: the kinds whose mark opens on the card. -/
def FaultKind.marksCard : FaultKind → Bool
  | .sourceLost | .destShortfall => true
  | _ => false

/-- R144: the kinds whose mark opens on the clip. -/
def FaultKind.marksClip : FaultKind → Bool
  | .clipFailed | .sourceDigest | .copyShort | .verifyMismatch | .verifyRead | .hotPixel | .frameGap | .frameRepeat
  | .tcBreak | .shortFrame => true
  | _ => false

def MarkSet.has (m : MarkSet) (k : FaultKind) : Bool := m[k.index]

def MarkSet.insert (m : MarkSet) (k : FaultKind) : MarkSet := m.set k.index true

def MarkSet.erase (m : MarkSet) (k : FaultKind) : MarkSet := m.set k.index false

def MarkSet.isEmpty (m : MarkSet) : Bool := m.toList.all (fun x => !x)

def MarkSet.size (m : MarkSet) : Nat := m.toList.countP id

/-- The kinds of either set. -/
def MarkSet.union (a b : MarkSet) : MarkSet := ⟨⟨List.zipWith (· || ·) a.toList b.toList⟩, by simp⟩

/-! ## Copies and clips -/

/-- R6: a copy is live when its record is WRITTEN, VERIFYING or VERIFIED. -/
def Copy.live : Copy → Bool
  | .written _ | .verifying _ | .verified _ => true
  | _ => false

def Copy.isVerified : Copy → Bool
  | .verified _ => true
  | _ => false

/-- R6: the clip's live count. -/
def Clip.live (c : Clip) : Nat := c.copies.toList.countP Copy.live

/-- R6: the clip's verified count. -/
def Clip.verified (c : Clip) : Nat := c.copies.toList.countP Copy.isVerified

/-- R6: a clip needs copies when it is LISTED, or WRITTEN with a live count below its card's required copies. -/
def Clip.needsCopies (required : Nat) (c : Clip) : Bool :=
  c.state == .listed || (c.state == .written && decide (c.live < required))

/-- Section 1.2: the blocks of a clip of `length` bytes. -/
def blocksOf (length : Nat) : Nat := (length + (Config.blockBytes - 1)) / Config.blockBytes

/-- Section 1.2: the sectors of a clip of `length` bytes. -/
def sectorsOf (length : Nat) : Nat := 8 * blocksOf length

/-- R53: the clip's bytes in its block `k`: 4,096 but for the last block. -/
def bytesInBlock (length k : Nat) : Nat := min Config.blockBytes (length - Config.blockBytes * k)

/-- R153: "a mark open on the card" in the clip's own set. -/
def Clip.marked (c : Clip) : Bool := !c.openMarks.isEmpty

/-- R161: a clip (not FAILED) is reviewed. -/
def Clip.reviewed (c : Clip) : Bool := c.lastMarker || c.expected == some c.framesSeen

/-! ## Destinations -/

/-- R23: free, with no holder and not draining. -/
def Dest.isFree (x : Dest) : Bool := x.holder.isNone && !x.draining

/-- R23: in service for reading, ACTIVE, FULL or CLOSED. -/
def DestState.serves : DestState → Bool
  | .active | .full | .closed => true
  | _ => false

/-- R27: a clip of n sectors fits. -/
def Dest.fits (x : Dest) (sectors : Nat) : Bool := decide (x.cursor + sectors ≤ x.length)

/-- R83: the pacing ratio P × 2^S. -/
def Dest.ratio (x : Dest) : Nat := x.paceP * 2 ^ x.paceS

/-- R83: paced while d has a holder or any outstanding STORE. -/
def Dest.paced (x : Dest) : Bool := x.holder.isSome || !x.stores.isEmpty

/-- Requests outstanding on the destination. -/
def Dest.idleLink (x : Dest) : Bool := x.stores.isEmpty && x.fetches.isEmpty

/-- Section 2.1: the service state a destination in service is in. -/
def DestState.service : DestState → Option Service
  | .active => some .active
  | .full => some .full
  | .closed => some .closed
  | _ => none

/-- The state a return state names (R42). -/
def Service.state : Service → DestState
  | .active => .active
  | .full => .full
  | .closed => .closed

end Sys2Proof.Machine
end

