-- ==== Sys2Proof/Machine/Operands.lean ====
section
/-! DEFINITION. The values a directive carries and the ranges they are adjusted into, one definition per rule. Each
adjustment answers the value taken and whether it differs from the value carried (the answer is then ADJUSTED, R179). -/

namespace Sys2Proof.Machine

/-- The value clamped to `lo` to `hi` (section 4.1 of the introduction). -/
def clampNat (lo hi v : Nat) : Nat := if v < lo then lo else if hi < v then hi else v

/-- A directive's target read as a card handle: none above 7. -/
def asCard (target : Nat) : Option CardId := if h : target < 8 then some ⟨target, h⟩ else none

/-- A directive's target read as a clip handle: none above 511. -/
def asClip (target : Nat) : Option ClipId := if h : target < 512 then some ⟨target, h⟩ else none

/-- A directive's target read as a look slot: none above 7. -/
def asSlot (target : Nat) : Option SlotId := if h : target < 8 then some ⟨target, h⟩ else none

/-- A directive's target read as a camera tag: none above 15. -/
def asCamera (target : Nat) : Option CameraId := if h : target < 16 then some ⟨target, h⟩ else none

/-- R186: a target read as a fitted source port. -/
def asPort (s : Part) (target : Nat) : Option PortId :=
  if h : target < 4 then (if target < s.reset.sources then some ⟨target, h⟩ else none) else none

/-- R38, R186: a target read as a fitted destination port. -/
def asDest (s : Part) (target : Nat) : Option DestId :=
  if h : target < 6 then (if target < s.reset.dests then some ⟨target, h⟩ else none) else none

/-- R8: required copies, 0 taken as 1 and above 4 as 4. -/
def adjustCopies (n : Nat) : Nat := clampNat 1 4 n

/-- R8: suspend mode, PROMPT at 0 and FINISH otherwise. -/
def suspendModeOf (n : Nat) : SuspendMode := if n = 0 then .prompt else .finish

/-- R8: whether a MOUNT's items had to be adjusted. -/
def mountAdjusted (copies mode : Nat) : Bool := adjustCopies copies != copies || decide (1 < mode)

/-- Section 10.2: the timebase of a code, none outside the seven. -/
def timebaseOf : Nat → Option Timebase
  | 0 => some .t24
  | 1 => some .t25
  | 2 => some .t30
  | 3 => some .t30D
  | 4 => some .t48
  | 5 => some .t50
  | 6 => some .t60
  | _ => none

/-- R13: a clip item's length, 0 taken as 1. -/
def adjustLength (n : Nat) : Nat := if n = 0 then 1 else n

/-- R13: a clip item's start sector, taken as 2^40 − sectors where the clip would end beyond 2^40 − 1. -/
def adjustStart (start sectors : Nat) : Nat := if 2 ^ 40 < start + sectors then 2 ^ 40 - sectors else start

/-- R13: an expected-frames item present with 0 is taken as absent. -/
def adjustExpected : Option Nat → Option Nat
  | some 0 => none
  | e => e

/-- R13: whether any value of a clip item had to be adjusted. -/
def clipItemAdjusted (i : ClipItem) : Bool :=
  i.length == 0 || (timebaseOf i.timebase).isNone
    || decide (2 ^ 40 < i.start + sectorsOf (adjustLength i.length)) || i.expected == some 0

/-- R4, R13: the clip record an item gives. The camera tag is a field of four bits (section 10.2). -/
def clipOfItem (card : CardId) (i : ClipItem) : Clip where
  card := card
  name := i.name
  start := adjustStart i.start (sectorsOf (adjustLength i.length))
  length := adjustLength i.length
  camera := Fin.ofNat 16 i.camera
  timebase := (timebaseOf i.timebase).getD .t60
  firstTc := i.firstTc
  expected := adjustExpected i.expected
  cameraDigest := i.cameraDigest
  state := .listed
  failed := 0
  restarted := false
  sourceDigest := none
  copies := #v[.none, .none, .none, .none, .none, .none]
  openMarks := MarkSet.empty
  waivedMarks := MarkSet.empty
  framesSeen := 0
  lastFrame := none
  lastCount := none
  lastMarker := false

/-- R39: the region length taken. -/
def adjustRegionLength (n : Nat) : Nat := clampNat 8 (2 ^ 44) (n / 8 * 8)

/-- R39: the region base taken, for a length already adjusted. -/
def adjustRegionBase (base length : Nat) : Nat :=
  if 2 ^ 48 < min base (2 ^ 48 - 1) + length then 2 ^ 48 - length else min base (2 ^ 48 - 1)

/-- R40: the stall limit taken. -/
def adjustStall (ms : Nat) : Nat := clampNat 50 10000 ms

/-- R84: P taken to the nearest of 1, 2, 3, 5 at or below it, 0 taken as 1. -/
def adjustP (p : Nat) : Nat := if p ≤ 1 then 1 else if p = 2 then 2 else if p ≤ 4 then 3 else 5

/-- R84: S above 7 taken as 7. -/
def adjustS (e : Nat) : Nat := min e 7

/-- An integer clamped to `lo` to `hi`. -/
def clampInt (lo hi v : Int) : Int := if v < lo then lo else if hi < v then hi else v

/-- R117: the SET-LOOK item taken. -/
def adjustLook (i : LookItem) : LookItem :=
  { i with
    slopes := i.slopes.map (min · 65535)
    offsets := i.offsets.map (clampInt (-65536) 65535)
    saturation := min i.saturation 16383 }

/-- R123: the slot a slot code names: 0 to 7 a slot, anything else NONE. -/
def slotOfCode (code : Nat) : Option SlotId := asSlot code

/-- R123: a slot code from 8 to FEh is adjusted. -/
def slotCodeAdjusted (code : Nat) : Bool := decide (8 ≤ code) && code != 255

/-- R126: the SET-PROFILE item taken. -/
def adjustProfile (i : ProfileItem) : Profile :=
  ⟨min i.highLevel 4095, min i.highLimit Config.max24, min i.lowLevel 4095, min i.lowLimit Config.max24,
    min i.excLimit Config.max24⟩

/-- R126: whether any value of a SET-PROFILE item had to be adjusted. -/
def profileAdjusted (i : ProfileItem) : Bool :=
  decide (4095 < i.highLevel) || decide (Config.max24 < i.highLimit) || decide (4095 < i.lowLevel)
    || decide (Config.max24 < i.lowLimit) || decide (Config.max24 < i.excLimit)

/-- R133: the entry a WATCH-PIXEL item gives. -/
def watchEntryOf (i : WatchItem) : WatchEntry where
  camera := Fin.ofNat 16 i.camera
  column := min i.column 4095
  line := min i.line 2303
  level := min i.level 4095
  run := if i.run = 0 then 1 else i.run
  counter := 0
  raised := false
  watched := none

/-- R133: whether any value of a WATCH-PIXEL item had to be adjusted. -/
def watchAdjusted (i : WatchItem) : Bool :=
  decide (4095 < i.column) || decide (2303 < i.line) || decide (4095 < i.level) || i.run == 0

/-- R134: an entry matches an item, whatever its level and run length. -/
def unwatchHits (e : WatchEntry) (i : UnwatchItem) : Bool :=
  e.camera.val == i.camera && e.column == i.column && e.line == i.line

end Sys2Proof.Machine
end

