-- ==== Sys2Proof/Machine/Reset.lean ====
section
/-! DEFINITION. The value of every piece of state after a full reset (R187): one definition per record, from the rule
that states it, and `Part.afterReset`, which the end of a full reset puts in place. -/

namespace Sys2Proof.Machine

/-- R20: the fields of a free card record, but for the fault generation, which release keeps. -/
def Card.blank (generation : Nat) : Card where
  label := List.replicate 16 0
  source := none
  state := .free
  required := 1
  review := false
  mode := .finish
  route := DestSet.empty
  clips := []
  openMarks := MarkSet.empty
  waivedMarks := MarkSet.empty
  generation := generation
  suspendWaiting := false
  clearedUnsent := false

/-- R24: a destination record after a full reset, in the state its link gives it. -/
def Dest.blank (state : DestState) : Dest where
  state := state
  ret := none
  base := 0
  length := 0
  cursor := 0
  stallLimit := 2000
  stallTimer := none
  holder := none
  draining := false
  stores := []
  fetches := []
  tagCounter := 0
  paceP := 1
  paceS := 2
  credit := 0
  queue := []
  context := none

/-- R47: an IDLE channel whose next FETCH takes the tag given. -/
def Channel.idle (tagCounter : Nat) : Channel where
  state := .idle
  clip := none
  target := DestSet.empty
  writing := DestSet.empty
  finished := DestSet.empty
  drain := DestSet.empty
  nextFetch := 0
  nextDigest := 0
  sendIndex := #v[0, 0, 0, 0, 0, 0]
  fetches := []
  retries := []
  held := []
  laneA := 1
  laneB := 0
  tagCounter := tagCounter

/-- R102: the identity curve. -/
def Bank.identityCurve : Vector Nat 257 :=
  tabulate 257 fun i => if i = 256 then 65535 else 256 * i

/-- R102: e(k), the identity lattice's value at grid line k. -/
def Bank.identityLevel (k : Nat) : Nat := if k = 16 then 65535 else 4096 * k

/-- R102: the identity look. -/
def Bank.identity : Bank where
  slope := ⟨4096, 4096, 4096⟩
  offset := ⟨0, 0, 0⟩
  curve := ⟨identityCurve, identityCurve, identityCurve⟩
  saturation := 4096
  latticeOn := false
  lattice := tabulate 17 fun b => tabulate 17 fun g => tabulate 17 fun r =>
    ⟨identityLevel r, identityLevel g, identityLevel b⟩

/-- R102, R103: a slot after a full reset. -/
def LookSlot.initial : LookSlot := ⟨Bank.identity, Bank.identity, .clean⟩

/-- R125: the default check profile. -/
def Profile.default : Profile := ⟨4080, 16777215, 16, 16777215, 16777215⟩

/-- R186: the number of fitted source ports a strap value gives. -/
def fittedSources (straps : BitVec 2) : Nat := straps.toNat + 1

/-- R186: the number of fitted destination ports a strap value gives. -/
def fittedDests (straps : BitVec 3) : Nat := min (straps.toNat + 2) 6

/-- R22, R186: the source ports after a full reset. -/
def portsAfterReset (sources : Nat) (present : BitVec 4) : Vector SourcePort 4 :=
  tabulate 4 fun i => ⟨decide (i < sources) && present.getLsbD i, none⟩

/-- R24, R186: the destinations after a full reset. -/
def destsAfterReset (dests : Nat) (up : BitVec 6) : Vector Dest 6 :=
  tabulate 6 fun i => Dest.blank (if i < dests ∧ up.getLsbD i = true then .unset else .absent)

/-- R187: the part at the end of a full reset of the cause given, with the straps and links as they stand then. -/
def Part.afterReset (cause : ResetCause) (srcStraps : BitVec 2) (dstStraps : BitVec 3) (present : BitVec 4)
    (up : BitVec 6) (station : Bool) : Part where
  reset := ⟨none, cause, fittedSources srcStraps, fittedDests dstStraps⟩
  cards := Vector.replicate 8 (Card.blank 0)
  clips := Vector.replicate 512 none
  ports := portsAfterReset (fittedSources srcStraps) present
  channels := Vector.replicate 4 (Channel.idle 0)
  dests := destsAfterReset (fittedDests dstStraps) up
  grantPointer := 0
  frame := none
  looks := Vector.replicate 8 LookSlot.initial
  cameraMap := Vector.replicate 16 none
  compare := ⟨false, 0⟩
  profiles := Vector.replicate 16 Profile.default
  watch := []
  checkedClip := .unset
  runs := ⟨false, false, false⟩
  stats := none
  log := ⟨[], none, 0⟩
  unit := ⟨⟨false, none, 0⟩, none⟩
  notices := [.resetDone cause (fittedSources srcStraps) (fittedDests dstStraps)]
  stationUp := station
  waiting := []
  out := []
  freeCount := 0

end Sys2Proof.Machine
end

