-- ==== Sys2Proof/Machine/Ops.lean ====
section
/-! DEFINITION. The named operations every meaning is built from: the notice queue (R184), the one write of a card record
and of a destination record (which queue the notices of R2 and R25), raising a fault (R146 to R150) with the opening of its
mark (R153 to R155), the clearance evaluation (R160 to R165), the stall timer (R33), and the search of the tables. -/

namespace Sys2Proof.Machine

/-! ## The notice queue -/

/-- R184: an unsent entry of the same subject: the same kind of notice for the same card, destination or slot. -/
def Notice.sameSubject : Notice → Notice → Bool
  | .cardState h _ _ _, .cardState h' _ _ _ => h == h'
  | .destState d _ _ _ _ _ _, .destState d' _ _ _ _ _ _ => d == d'
  | .lookCommitted k _ _, .lookCommitted k' _ _ => k == k'
  | _, _ => false

/-- R180, R184: an entry that is an answer. -/
def Notice.isAnswer : Notice → Bool
  | .answer _ => true
  | _ => false

/-- R184: a notice takes the place of the unsent notice of its subject, or joins the tail. -/
def enqueue (n : Notice) (q : List Notice) : List Notice :=
  if q.any n.sameSubject then q.map (fun m => if n.sameSubject m then n else m) else q ++ [n]

/-- R184. -/
def queueNotice (n : Notice) (s : Part) : Part := { s with notices := enqueue n s.notices }

/-! ## Records -/

/-- R2: the one write of a card record; a change of its state or its source port queues a CARD-STATE notice, with the
label the card held before when it goes to FREE. -/
def writeCard (h : CardId) (c : Card) (s : Part) : Part :=
  if s.cards[h].state = c.state ∧ s.cards[h].source = c.source then { s with cards := s.cards.set h c }
  else
    queueNotice
      (.cardState h (if c.state = .free then s.cards[h].label else c.label) c.state c.source)
      { s with cards := s.cards.set h c }

/-- A card in a new state. R63: the suspend-waiting flag becomes no when the card leaves SUSPENDING. -/
def Card.toState (st : CardState) (c : Card) : Card :=
  { c with state := st, suspendWaiting := c.suspendWaiting && st == .suspending }

/-- A card moved to a new state (R2). -/
def moveCard (h : CardId) (st : CardState) (s : Part) : Part := writeCard h (s.cards[h].toState st) s

/-- R25: the one write of a destination record; a change of its state or its draining flag queues a DEST-STATE notice. -/
def writeDest (d : DestId) (x : Dest) (s : Part) : Part :=
  if s.dests[d].state = x.state ∧ s.dests[d].draining = x.draining then { s with dests := s.dests.set d x }
  else
    queueNotice (.destState d x.state x.ret x.base x.length x.cursor x.draining)
      { s with dests := s.dests.set d x }

/-- A clip record in use, changed by `f`; a free record is left free. -/
def modClip (k : ClipId) (f : Clip → Clip) (s : Part) : Part :=
  match s.clips[k] with
  | some c => { s with clips := s.clips.set k (some (f c)) }
  | none => s

def setChannel (p : PortId) (c : Channel) (s : Part) : Part := { s with channels := s.channels.set p c }

def setPort (p : PortId) (x : SourcePort) (s : Part) : Part := { s with ports := s.ports.set p x }

/-- The clip records of a card's manifest, in manifest order. -/
def cardClips (s : Part) (h : CardId) : List Clip := s.cards[h].clips.filterMap fun k => s.clips[k]

/-- The clip record of a handle, if it is in use, with the handle. -/
def findClip (s : Part) (h : CardId) (p : Clip → Bool) : Option ClipId :=
  s.cards[h].clips.find? fun k => match s.clips[k] with
    | some c => p c
    | none => false

/-- R5: a card's clip in flight. -/
def inFlightClip (s : Part) (h : CardId) : Option ClipId := findClip s h fun c => c.state == .inFlight

/-- R44: a card's first LISTED clip in manifest order. -/
def firstListed (s : Part) (h : CardId) : Option ClipId := findClip s h fun c => c.state == .listed

/-- R153: a mark is open on the card: in its own open set or in that of one of its clips. -/
def anyMarkOpen (s : Part) (h : CardId) : Bool :=
  !s.cards[h].openMarks.isEmpty || (cardClips s h).any Clip.marked

/-- The free positions of a table, in increasing order, the first position being `i`. -/
def freeFrom {α : Type} : Nat → List (Option α) → List Nat
  | _, [] => []
  | i, none :: rest => i :: freeFrom (i + 1) rest
  | i, some _ :: rest => freeFrom (i + 1) rest

/-- R3: the free clip handles, lowest first. -/
def freeClips (s : Part) : List ClipId := (freeFrom 0 s.clips.toList).map (Fin.ofNat 512)

/-- R1: the free card record of lowest handle. -/
def freeCard (s : Part) : Option CardId := allCards.find? fun h => s.cards[h].state == .free

/-- R8: the card in use that holds a label. -/
def cardLabelled (s : Part) (label : List Byte) : Option CardId :=
  allCards.find? fun h => s.cards[h].state != .free && s.cards[h].label == label

/-! ## Faults -/

/-- What a raiser hands to the fault unit (R145). -/
structure Report where
  kind   : FaultKind
  card   : Option CardId
  clip   : Option ClipId
  dest   : Option DestId
  frame  : Option (Nat × Timecode)
  detail : Nat
  deriving DecidableEq, Repr

/-- R147: the card field names a card in CLEARED at the moment the fault is raised. -/
def afterClearance (s : Part) (r : Report) : Bool :=
  match r.card with
  | some h => s.cards[h].state == .cleared
  | none => false

/-- R148 to R150: the entry is appended, or counted in the overflow marker. -/
def logFault (after : Bool) (r : Report) (l : FaultLog) : FaultLog :=
  match l.marker with
  | some m => { l with marker := some { m with count := min (m.count + 1) Config.max32 } }
  | none =>
    if l.entries.length < Config.logEntries then
      { l with
        entries := l.entries ++ [⟨l.nextSeq, r.kind, r.card, r.clip, r.dest, r.frame, r.detail, after⟩]
        nextSeq := (l.nextSeq + 1) % 65536 }
    else
      { l with marker := some ⟨l.nextSeq, 1⟩, nextSeq := (l.nextSeq + 1) % 65536 }

/-- R154, R155: an opening advances the card's fault generation and moves a COPIED card to HELD. -/
def noteOpening (h : CardId) (s : Part) : Part :=
  writeCard h
    { s.cards[h] with
      generation := (s.cards[h].generation + 1) % 65536
      state := if s.cards[h].state = .copied then .held else s.cards[h].state } s

/-- R153: a kind raised against a card opens in the card's open set, unless it is open already. -/
def openCardMark (h : CardId) (k : FaultKind) (s : Part) : Part :=
  if s.cards[h].openMarks.has k then s
  else
    noteOpening h
      { s with
        cards := s.cards.set h
          { s.cards[h] with
            openMarks := s.cards[h].openMarks.insert k, waivedMarks := s.cards[h].waivedMarks.erase k } }

/-- R153: a kind raised against a clip opens in the clip's open set, unless it is open already. -/
def openClipMark (k : ClipId) (f : FaultKind) (s : Part) : Part :=
  match s.clips[k] with
  | none => s
  | some c =>
    if c.openMarks.has f then s
    else
      noteOpening c.card
        { s with
          clips := s.clips.set k
            (some { c with openMarks := c.openMarks.insert f, waivedMarks := c.waivedMarks.erase f }) }

/-- R146: step 3, the mark opens where the kind, the attachment and R147 let it. -/
def openMark (r : Report) (s : Part) : Part :=
  if r.kind.marksCard then
    match r.card with
    | some h => openCardMark h r.kind s
    | none => s
  else if r.kind.marksClip then
    match r.clip with
    | some k => openClipMark k r.kind s
    | none => s
  else s

/-- R146: a fault is logged or counted, and its mark opens unless its card is CLEARED (R147). -/
def raise (r : Report) (s : Part) : Part :=
  if afterClearance s r then { s with log := logFault true r s.log }
  else openMark r { s with log := logFault false r s.log }

/-- The card of a clip in use (R145: the card field of an entry that names a clip). -/
def clipCard (s : Part) (k : ClipId) : Option CardId := s.clips[k].map Clip.card

/-- R145: a report against a clip and, where the raiser names one, a destination. -/
def clipReport (s : Part) (kind : FaultKind) (k : ClipId) (d : Option DestId) (detail : Nat) : Report :=
  ⟨kind, clipCard s k, some k, d, none, detail⟩

/-! ## Clearance -/

/-- R160: the clearance condition of a card, its four parts. -/
def clearanceHolds (s : Part) (h : CardId) : Bool :=
  ((cardClips s h).all fun c => c.state == .failed || decide (s.cards[h].required ≤ c.verified))
    && ((cardClips s h).all fun c => c.state != .failed || c.waivedMarks.has .clipFailed)
    && (!s.cards[h].review || (cardClips s h).all fun c => c.state == .failed || c.reviewed)
    && !anyMarkOpen s h

/-- R164, R165: the card enters CLEARED, its CARD-STATE and then its CLEARED notice are queued, its flag becomes yes. -/
def enterCleared (h : CardId) (s : Part) : Part :=
  queueNotice (.cleared h s.cards[h].label s.cards[h].clips.length)
    (writeCard h { s.cards[h].toState .cleared with clearedUnsent := true } s)

/-- R162: the evaluation, which acts on a card in COPIED alone. -/
def evalClearance (h : CardId) (s : Part) : Part :=
  if s.cards[h].state = .copied ∧ clearanceHolds s h = true then enterCleared h s else s

/-- R162: the evaluation for the card of a clip in use. -/
def evalClipClearance (k : ClipId) (s : Part) : Part :=
  match clipCard s k with
  | some h => evalClearance h s
  | none => s

/-! ## The stall timer (R33) -/

/-- An answer has been taken: the timer is set back to the limit, or stops when nothing is outstanding. -/
def Dest.answered (x : Dest) : Dest :=
  { x with stallTimer := if x.idleLink then none else some x.stallLimit }

/-- A request has been counted failed: the timer stops when nothing is outstanding. -/
def Dest.failedRequest (x : Dest) : Dest :=
  { x with stallTimer := if x.idleLink then none else x.stallTimer }

/-- The timer a request sent now leaves: started at the limit if nothing was outstanding, as it was otherwise. -/
def Dest.timerAfterSend (x : Dest) : Option Nat := if x.idleLink then some x.stallLimit else x.stallTimer

/-- The tag after this one (R31, R49). -/
def nextTag (t : Nat) : Nat := (t + 1) % 65536

end Sys2Proof.Machine
end

