-- ==== Sys2Proof/Machine/Engine.lean ====
section
/-! DEFINITION. What the copy engine, the grant arbiter and the verify engine do inside an event: the end of an attempt
(R57 to R60), dropping out and draining (R30, R36, R65), the grant evaluation (R37, R44 to R46), the start and the stopping
of a verify (R72, R78), and the release of a card (R10). -/

namespace Sys2Proof.Machine

/-! ## Copy channels -/

/-- The RUNNING channel of a clip's attempt. -/
def runningChannel (s : Part) (k : ClipId) : Option PortId :=
  allPorts.find? fun p => s.channels[p].state == .running && s.channels[p].clip == some k

/-- R47: the channel returns to IDLE: outstanding FETCHes dropped, held blocks freed, its sets emptied. -/
def idleChannel (p : PortId) (s : Part) : Part := setChannel p (Channel.idle s.channels[p].tagCounter) s

/-- R48, R54: a digested block that every destination of the writing set has been sent is freed. -/
def Channel.sentToAll (c : Channel) (b : Held) : Bool :=
  decide (b.block < c.nextDigest) && c.writing.allMembers fun d => decide (b.block < c.sendIndex[d])

/-- R48: the blocks the channel goes on holding. -/
def Channel.freeSent (c : Channel) : Channel := { c with held := c.held.filter fun b => !c.sentToAll b }

/-- R55, R56: a destination leaves the writing set, and the blocks held only for it are freed. -/
def Channel.without (d : DestId) (c : Channel) : Channel := { c with writing := c.writing.erase d }.freeSent

/-- R48: the pool blocks no channel holds. -/
def poolFree (s : Part) : Nat :=
  Config.poolBlocks - (s.channels.toList.map fun c => c.held.length).sum

/-! ## Dropping out and draining -/

/-- R30: the destination drops out of its holder's attempt; with STOREs outstanding it is set draining (R36). -/
def dropOut (d : DestId) (s : Part) : Part :=
  match s.dests[d].holder with
  | none => s
  | some k =>
    writeDest d { s.dests[d] with holder := none, draining := !s.dests[d].stores.isEmpty }
      (modClip k (fun c => { c with copies := c.copies.set d .none }) s)

/-- R30: every destination of a set drops out. R59, R60, R64 and R67 withdraw a writing set in no stated order; the model takes
D0 to D5, the order of the DEST-STATE notices of those set draining (DESIGN CHOICE, log entry 22). -/
def withdrawAll (ds : DestSet) (s : Part) : Part := ds.members.foldl (fun t d => dropOut d t) s

/-- R55, R56: a destination drops out and leaves the writing set of the attempt it belonged to. -/
def leaveAttempt (d : DestId) (s : Part) : Part :=
  match s.dests[d].holder with
  | none => s
  | some k =>
    match runningChannel s k with
    | none => dropOut d s
    | some p => setChannel p (s.channels[p].without d) (dropOut d s)

/-- R65: a WAITING channel takes a destination out of its drain set; when the set becomes empty the channel returns to
IDLE and a card still in SUSPENDING goes to SUSPENDED. -/
def drainedFor (d : DestId) (p : PortId) (s : Part) : Part :=
  if s.channels[p].state = .waiting ∧ s.channels[p].drain.mem d = true then
    if (s.channels[p].drain.erase d).isEmpty then
      match s.ports[p].binding with
      | some h => if s.cards[h].state = .suspending then moveCard h .suspended (idleChannel p s) else idleChannel p s
      | none => idleChannel p s
    else setChannel p { s.channels[p] with drain := s.channels[p].drain.erase d } s
  else s

/-- R36, R65: the draining of a destination has ended; every WAITING channel hears of it. The spec gives no order of several;
the model takes S0 to S3, the order of their cards' CARD-STATE notices (DESIGN CHOICE, log entry 22). -/
def drainEnded (d : DestId) (s : Part) : Part := allPorts.foldl (fun t p => drainedFor d p t) s

/-! ## The end of an attempt -/

/-- R57 step 2: each destination of the finished set puts the clip at the tail of its verify queue. -/
def joinQueues (k : ClipId) (ds : DestSet) (s : Part) : Part :=
  ds.members.foldl (fun t d => writeDest d { t.dests[d] with queue := t.dests[d].queue ++ [k] } t) s

/-- R57 step 4, R59, R67: the clip counts a failed attempt: LISTED again below 3, FAILED with CLIP_FAILED at 3. -/
def countFailed (k : ClipId) (s : Part) : Part :=
  match s.clips[k] with
  | none => s
  | some c =>
    if c.failed + 1 < Config.lastTry then
      modClip k (fun c => { c with failed := c.failed + 1, state := .listed }) s
    else
      raise (clipReport s .clipFailed k none 3)
        (modClip k (fun c => { c with failed := 3, state := .failed }) s)

/-- R57 steps 3 and 4: the clip's state after an attempt. -/
def settleClip (k : ClipId) (s : Part) : Part :=
  match s.clips[k] with
  | none => s
  | some c =>
    if c.live = 0 then countFailed k s
    else if c.live < s.cards[c.card].required then
      raise (clipReport s .copyShort k none c.live) (modClip k (fun c => { c with state := .written }) s)
    else modClip k (fun c => { c with state := .written }) s

/-- R58: a card in COPYING with no LISTED clip and none in flight goes to COPIED, where clearance is evaluated at once, or
to HELD when a mark is open. -/
def settleCopying (h : CardId) (s : Part) : Part :=
  if s.cards[h].state = .copying ∧ (firstListed s h).isNone ∧ (inFlightClip s h).isNone then
    if anyMarkOpen s h then moveCard h .held s else evalClearance h (moveCard h .copied s)
  else s

/-- R57 step 5, R63: the card's state at attempt end; from SUSPENDING it goes to SUSPENDED, whatever its clips. -/
def settleCard (h : CardId) (s : Part) : Part :=
  if s.cards[h].state = .suspending then moveCard h .suspended s else settleCopying h s

/-- R57 step 5 for the card of a clip. -/
def settleCardOf (k : ClipId) (s : Part) : Part :=
  match clipCard s k with
  | some h => settleCard h s
  | none => s

/-- R57 steps 1 to 4, R60: the channel returns to IDLE, the finished destinations queue the clip and its state is
settled. -/
def closeAttempt (p : PortId) (k : ClipId) (s : Part) : Part :=
  settleClip k (joinQueues k s.channels[p].finished (idleChannel p s))

/-- R57 steps 1 to 5. -/
def endAttempt (p : PortId) (s : Part) : Part :=
  match s.channels[p].clip with
  | some k => settleCardOf k (closeAttempt p k s)
  | none => idleChannel p s

/-- R55 to R57: the attempt ends when its writing set is empty. -/
def endIfEmpty (p : PortId) (s : Part) : Part :=
  if s.channels[p].state = .running ∧ s.channels[p].writing.isEmpty = true then endAttempt p s else s

/-- R55 to R57 for the attempt of a clip. -/
def endAttemptOf (k : ClipId) (s : Part) : Part :=
  match runningChannel s k with
  | some p => endIfEmpty p s
  | none => s

/-! ## The grant arbiter -/

/-- R44: the card's copy channel, when it is free. -/
def freeChannel (s : Part) (h : CardId) : Option PortId :=
  match s.cards[h].source with
  | some p => if s.channels[p].state = .idle then some p else none
  | none => none

/-- R44: the next clip of a card that is ready. -/
def readyClip (s : Part) (h : CardId) : Option ClipId :=
  if s.cards[h].state = .copying ∧ (inFlightClip s h).isNone ∧ (freeChannel s h).isSome then firstListed s h else none

/-- R37: a destination in the card's route that is ACTIVE, holds no live copy of the clip and on which the clip does not
fit goes to FULL, with DEST_FULL. -/
def testFit (h : CardId) (k : ClipId) (c : Clip) (s : Part) (d : DestId) : Part :=
  if s.cards[h].route.mem d = true ∧ s.dests[d].state = .active ∧ c.copies[d].live = false
      ∧ s.dests[d].fits (sectorsOf c.length) = false then
    raise ⟨.destFull, some c.card, some k, some d, none, s.dests[d].length - s.dests[d].cursor⟩
      (writeDest d { s.dests[d] with state := .full } s)
  else s

/-- R44: the route destinations usable for the clip on which it has no live copy. -/
def targetSet (h : CardId) (c : Clip) (s : Part) : DestSet :=
  DestSet.ofPred fun d =>
    s.cards[h].route.mem d && s.dests[d].state == .active && s.dests[d].fits (sectorsOf c.length) && !c.copies[d].live

/-- A ready card with its next clip and that clip's target set (R45 step 2). -/
structure Candidate where
  card    : CardId
  clip    : ClipId
  targets : DestSet
  deriving DecidableEq, Repr

/-- R44: a card found short is marked DEST_SHORTFALL and goes to HELD. -/
def shortfall (h : CardId) (k : ClipId) (missing : Nat) (s : Part) : Part :=
  moveCard h .held (raise ⟨.destShortfall, some h, some k, none, none, missing⟩ s)

/-- R44, R45 step 2: a card is considered; the candidate it gives, if it is ready and not short. R37 gives no order of the
destinations one consideration finds full; the model tests D0 to D5, the order in which they go to FULL, queue their
DEST-STATE notices and raise DEST_FULL (DESIGN CHOICE, log entry 22). -/
def consider (s : Part) (h : CardId) : Part × Option Candidate :=
  match readyClip s h with
  | none => (s, none)
  | some k =>
    match s.clips[k] with
    | none => (s, none)
    | some c =>
      if s.cards[h].required ≤ c.live then (s, some ⟨h, k, DestSet.empty⟩)
      else
        let t := allDests.foldl (testFit h k c) s
        if c.live + (targetSet h c t).size < t.cards[h].required then
          (shortfall h k (t.cards[h].required - (c.live + (targetSet h c t).size)) t, none)
        else (t, some ⟨h, k, targetSet h c t⟩)

/-- R45 step 2 over a list of cards: the part after the considerations, and the candidates in order. -/
def considerAll : List CardId → Part → Part × List Candidate
  | [], s => (s, [])
  | h :: hs, s =>
    let r := consider s h
    let rest := considerAll hs r.1
    (rest.1, match r.2 with
      | some c => c :: rest.2
      | none => rest.2)

/-- R45 step 1: the cards in handle order from the grant pointer, wrapping from 7 to 0. -/
def cardOrder (pointer : CardId) : List CardId := [0, 1, 2, 3, 4, 5, 6, 7].map fun i => pointer + i

/-- R45 step 4: every destination of the target set is free and none of them is in `reserved`. -/
def grantable (s : Part) (reserved : DestSet) (c : Candidate) : Bool :=
  c.targets.allMembers fun d => s.dests[d].isFree && !reserved.mem d

/-- R45 step 3: the free destinations of the senior card's target set. -/
def reservedFor (s : Part) (senior : Candidate) : DestSet :=
  DestSet.ofPred fun d => senior.targets.mem d && s.dests[d].isFree

/-- R45 steps 3 and 4: the candidate that is granted. Nothing is reserved against the senior card itself. -/
def chooseGrant (s : Part) : List Candidate → Option Candidate
  | [] => none
  | senior :: rest =>
    if grantable s DestSet.empty senior then some senior else rest.find? (grantable s (reservedFor s senior))

/-- R46: the clip becomes the holder of a destination. -/
def takeDest (k : ClipId) (s : Part) (d : DestId) : Part :=
  { s with dests := s.dests.set d { s.dests[d] with holder := some k } }

/-- R46: the clip's copy record on each target becomes WRITING, and the clip becomes IN_FLIGHT. -/
def Clip.granted (targets : DestSet) (c : Clip) : Clip :=
  { c with
    state := .inFlight
    copies := #v[if targets.mem 0 then .writing else c.copies[0], if targets.mem 1 then .writing else c.copies[1],
      if targets.mem 2 then .writing else c.copies[2], if targets.mem 3 then .writing else c.copies[3],
      if targets.mem 4 then .writing else c.copies[4], if targets.mem 5 then .writing else c.copies[5]] }

/-- R47: the channel at the start of an attempt. -/
def Channel.begin (k : ClipId) (targets : DestSet) (tagCounter : Nat) : Channel :=
  { Channel.idle tagCounter with state := .running, clip := some k, target := targets, writing := targets }

/-- R46, R47: a grant; with an empty target set the attempt ends at once. -/
def grant (c : Candidate) (s : Part) : Part :=
  match freeChannel s c.card with
  | none => s
  | some p =>
    endIfEmpty p
      (setChannel p (Channel.begin c.clip c.targets s.channels[p].tagCounter)
        (modClip c.clip (Clip.granted c.targets)
          { c.targets.members.foldl (takeDest c.clip) s with grantPointer := c.card + 1 }))

/-- R45: passes are made until one makes no grant. Each grant takes a clip out of LISTED, of which there are at most 512, so
the fuel of `evalGrant` never runs out. -/
def grantPasses : Nat → Part → Part
  | 0, s => s
  | fuel + 1, s =>
    match chooseGrant (considerAll (cardOrder s.grantPointer) s).1 (considerAll (cardOrder s.grantPointer) s).2 with
    | some c => grantPasses fuel (grant c (considerAll (cardOrder s.grantPointer) s).1)
    | none => (considerAll (cardOrder s.grantPointer) s).1

/-- R45: the grant evaluation. -/
def evalGrant (s : Part) : Part := grantPasses 513 s

/-! ## The verify engine -/

/-- R72: a verify's context at its start. -/
def VerifyContext.begin (k : ClipId) (offset : Nat) : VerifyContext := ⟨k, offset, 0, 0, [], [], 1, 0⟩

/-- R72: a verify starts on a destination where its conditions hold. -/
def startVerify (s : Part) (d : DestId) : Part :=
  if s.dests[d].context.isNone ∧ s.dests[d].state.serves = true then
    match s.dests[d].queue with
    | [] => s
    | k :: rest =>
      match s.clips[k] with
      | none => s
      | some c =>
        match c.copies[d] with
        | .written o =>
          writeDest d { s.dests[d] with queue := rest, context := some (VerifyContext.begin k o) }
            (modClip k (fun c => { c with copies := c.copies.set d (.verifying o) }) s)
        | _ => s
  else s

/-- R72: the start conditions are tested on every destination, after the full effect of an event. -/
def startVerifies (s : Part) : Part := allDests.foldl startVerify s

/-- R45, R72: what follows an event's own effects: the grant evaluation, then the verifies that can start. -/
def afterEvent (s : Part) : Part := startVerifies (evalGrant s)

/-- R78, R79: a verify in progress is stopped: the copy returns to WRITTEN and the clip to the head of the queue. -/
def stopVerify (d : DestId) (s : Part) : Part :=
  match s.dests[d].context with
  | none => s
  | some v =>
    writeDest d { s.dests[d] with queue := v.clip :: s.dests[d].queue, context := none }
      (modClip v.clip (fun c => { c with copies := c.copies.set d (.written v.offset) }) s)

/-! ## Release of a card (R10) -/

/-- R10 step 1: the clip records on the list are freed. -/
def freeClipRecords (ks : List ClipId) (s : Part) : Part :=
  ks.foldl (fun (t : Part) (k : ClipId) => { t with clips := t.clips.set k none }) s

/-- R80: a FETCH of a stopped verify stays outstanding but answers no verify. -/
def VerifyFetch.orphan (f : VerifyFetch) : VerifyFetch := { f with use := none }

/-- R10 step 2, R80: a destination without the freed clips: out of its queue, and out of its context. -/
def Dest.forget (ks : List ClipId) (x : Dest) : Dest :=
  match x.context with
  | some v =>
    if ks.contains v.clip then
      { x with
        queue := x.queue.filter fun k => !ks.contains k
        context := none
        fetches := x.fetches.map VerifyFetch.orphan }
    else { x with queue := x.queue.filter fun k => !ks.contains k }
  | none => { x with queue := x.queue.filter fun k => !ks.contains k }

/-- R10 step 3, R101: the open frame loses its clip attribution to a freed clip. -/
def OpenFrame.forget (ks : List ClipId) (f : OpenFrame) : OpenFrame :=
  match f.clip with
  | some k => if ks.contains k then { f with clip := none } else f
  | none => f

/-- R130: the checked clip becomes unset when it is one of the freed clips. -/
def CheckedClip.forget (ks : List ClipId) : CheckedClip → CheckedClip
  | .clip k => if ks.contains k then .unset else .clip k
  | x => x

/-- R10 step 4: the card's source port, if it had one, becomes unbound and keeps its presence. -/
def unbindPort (o : Option PortId) (s : Part) : Part :=
  match o with
  | some p => setPort p { s.ports[p] with binding := none } s
  | none => s

/-- R10: a card is released and goes to FREE, keeping its fault generation; then the verifies that can start do (R80). -/
def release (h : CardId) (s : Part) : Part :=
  startVerifies
    (writeCard h (Card.blank s.cards[h].generation)
      (unbindPort s.cards[h].source
        (freeClipRecords s.cards[h].clips
          { s with
            dests := mapEach (fun _ x => x.forget s.cards[h].clips) s.dests
            frame := s.frame.map (OpenFrame.forget s.cards[h].clips)
            checkedClip := s.checkedClip.forget s.cards[h].clips })))

end Sys2Proof.Machine
end

