-- ==== Sys2Proof/Machine/State.lean ====
section
/-! DEFINITION. The machine's state: the part (Machine/Records.lean holds its records) and the queue of the commands that
wait, first in, first out; the reasons a step can stop; and the machine right after reset. -/

namespace Sys2Proof.Machine

/-- The machine: the part, and the commands that wait for it, the front first. -/
structure State where
  part    : Part
  pending : List Instr
  deriving DecidableEq, Repr

/-- The reasons a step can stop with a fault. The spec gives every command an effect in every state of the part, so
there is none: nothing raises a fault. -/
inductive Fault where
  deriving DecidableEq, Repr

/-- The reasons the model can refuse a command. -/
inductive Refusal where
  /-- Raised by an arm of `exec` whose command has no meaning yet, with its mnemonic; safe. No arm raises it. -/
  | notModelled (mnemonic : String)
  deriving DecidableEq, Repr

/-- The part with an effect applied, the queue untouched. -/
def State.onPart (f : Part → Part) (s : State) : State := { s with part := f s.part }

/-- The machine right after a power-on reset (R187, R188), no command waiting. The straps and the links are inputs of the
part, which the spec does not fix; DESIGN CHOICE (log entry 1, unsafe): every port fitted, no card present, no
destination link up, the station link up. -/
def State.reset : State := ⟨Part.afterReset .power 3#2 4#3 0#4 0#6 true, []⟩

end Sys2Proof.Machine
end

