-- ==== Sys2Proof/Machine/Unit.lean ====
section
/-! DEFINITION. The directive unit: the place of an answer (R180), the answering of a well-formed directive in both lock
states (R178, R179), the malformed directive (R176, R177), station ingress (R173, R180), and what the part takes while it
is held in reset (R187). -/

namespace Sys2Proof.Machine

/-- What the owner of a directive answers: the outcome and its data (R179). -/
structure Reply where
  result : Result
  data   : AnswerData
  deriving DecidableEq, Repr

/-- DONE with no data. -/
def Reply.done : Reply := ⟨.done, .nothing⟩

/-- A refusal with its reason. -/
def Reply.refuse (r : Reason) : Reply := ⟨.refused r, .nothing⟩

/-- DONE, or ADJUSTED when a value was adjusted, with data (R179). -/
def Reply.taken (adjusted : Bool) (data : AnswerData) : Reply := ⟨if adjusted then .adjusted else .done, data⟩

/-- R180: an answer enters the notice queue, or is held by the unit while the queue holds an answer. -/
def placeAnswer (a : Answer) (s : Part) : Part :=
  if s.notices.any Notice.isAnswer then { s with unit := { s.unit with held := some a } }
  else queueNotice (.answer a) s

/-- R177, R178: the locked-refusal count increases by 1 and stays at 65,535. -/
def countRefusal (s : Part) : Part :=
  { s with
    unit := { s.unit with status := { s.unit.status with count := min (s.unit.status.count + 1) Config.max16 } } }

/-- R178, R179: a well-formed directive is dispatched to its owner, whose effects are complete before the answer is placed;
in LOCKED, one that is not taken in both states is answered LOCKED and counted. -/
def directive (tag code : Nat) (both : Bool) (owner : Part → Part × Reply) (s : Part) : Part :=
  if s.unit.status.locked && !both then placeAnswer ⟨tag, code, .locked, .nothing⟩ (countRefusal s)
  else placeAnswer ⟨tag, code, (owner s).2.result, (owner s).2.data⟩ (owner s).1

/-- R177: the effect of a malformed directive on the unit: it locks with DIRECTIVE_LOCK, or counts a refusal. -/
def lockUnit (cause : Nat) (s : Part) : Part :=
  if s.unit.status.locked then countRefusal s
  else
    raise ⟨.directiveLock, none, none, none, none, cause⟩
      { s with unit := { s.unit with status := { s.unit.status with locked := true, cause := some cause } } }

/-- R176, R177: a malformed directive and its answer. -/
def malformed (cause tag code : Nat) (s : Part) : Part :=
  placeAnswer ⟨tag, code, .malformed cause, .nothing⟩ (lockUnit cause s)

/-- R175: the unit returns to ACCEPTING with cause NONE, the count as given. -/
def acceptWith (count : Nat) (s : Part) : Part := { s with unit := { s.unit with status := ⟨false, none, count⟩ } }

/-- R187: while it is held in reset the part takes no parcel, runs no timer and ignores link events. -/
def unlessReset (f : Part → Part) (s : Part) : Part := if s.reset.holding.isSome then s else f s

/-- R173, R180: a parcel on the station link is taken, or waits at the link while the unit holds an answer. -/
def ingress (c : Instr) (f : Part → Part) (s : Part) : Part :=
  unlessReset (fun s => if s.unit.held.isSome then { s with waiting := s.waiting ++ [c] } else f s) s

end Sys2Proof.Machine
end

