-- ==== Sys2Proof/Machine/Cards.lean ====
section
/-! DEFINITION. The commands of the chapter Cards and Clips: MOUNT, LIST-CLIPS, DISMOUNT, RETIRE, QUERY-CARD, QUERY-CLIP, and
the source attach and detach events. -/

namespace Sys2Proof.Machine

/-- A target read as a card in use: none for a card in FREE or a handle above 7 (R11, R14, R15, R18 and every other
directive that names a card). -/
def usedCard (s : Part) (target : Nat) : Option CardId :=
  match asCard target with
  | some h => if s.cards[h].state = .free then none else some h
  | none => none

/-! ## MOUNT -/

/-- R1: the record of a new card. -/
def newCard (generation : Nat) (p : PortId) (label : List Byte) (copies review mode : Nat) : Card :=
  { Card.blank generation with
    label := label
    source := some p
    state := .mounted
    required := adjustCopies copies
    review := review != 0
    mode := suspendModeOf mode }

/-- R1, R8 check 5: a new card is created and the port bound to it. -/
def createCard (h : CardId) (p : PortId) (label : List Byte) (copies review mode : Nat) (s : Part) : Part :=
  writeCard h (newCard s.cards[h].generation p label copies review mode)
    (setPort p { s.ports[p] with binding := some h } s)

/-- R9: the source port is bound to the matching card, whose every other field is left as it was. -/
def reattach (h : CardId) (p : PortId) (s : Part) : Part :=
  writeCard h { s.cards[h] with source := some p } (setPort p { s.ports[p] with binding := some h } s)

/-- R9: the states in which a card without a source is re-attached by its label. -/
def CardState.reattaches : CardState → Bool
  | .copied | .held | .halted => true
  | _ => false

/-- R8: the checks of MOUNT in their order. -/
def mount (port : Nat) (label : List Byte) (copies review mode : Nat) (s : Part) : Part × Reply :=
  match asPort s port with
  | none => (s, .refuse .noPort)
  | some p =>
    if s.ports[p].attached = false ∨ s.ports[p].binding.isSome = true then (s, .refuse .sourceConflict)
    else
      match cardLabelled s label with
      | some h =>
        if s.cards[h].source.isSome then (s, .refuse .sourceConflict)
        else if s.cards[h].state.reattaches then
          (reattach h p s, .taken false (.mounted h s.cards[h].state))
        else (s, .refuse .wrongState)
      | none =>
        match freeCard s with
        | none => (s, .refuse .tableFull)
        | some h =>
          (createCard h p label copies review mode s,
            .taken (mountAdjusted copies mode) (.mounted h .mounted))

def mountTaken (tag port : Nat) (label : List Byte) (copies review mode : Nat) : Part → Part :=
  directive tag 0x10 false (mount port label copies review mode)

/-- MOUNT (R8). -/
def execMount (tag port : Nat) (label : List Byte) (copies review mode : Nat) (s : State) :
    Host.Outcome State Fault Refusal :=
  .next (s.onPart (ingress (.mount tag port label copies review mode) (mountTaken tag port label copies review mode)))

/-! ## LIST-CLIPS -/

/-- R3, R11: the handles the items take, in item order. -/
def assignedHandles (s : Part) (items : List ClipItem) : List ClipId := (freeClips s).take items.length

/-- R3, R4: each item is assigned its record. -/
def assignClips (h : CardId) : List (ClipId × ClipItem) → Part → Part
  | [], s => s
  | (k, i) :: rest, s => assignClips h rest { s with clips := s.clips.set k (some (clipOfItem h i)) }

/-- R11: the handles are appended to the card's clip list. -/
def appendClips (h : CardId) (items : List ClipItem) (s : Part) : Part :=
  writeCard h { s.cards[h] with clips := s.cards[h].clips ++ assignedHandles s items }
    (assignClips h ((assignedHandles s items).zip items) s)

/-- R11: the states in which a card takes LIST-CLIPS. -/
def CardState.lists : CardState → Bool
  | .mounted | .copying | .suspended => true
  | _ => false

/-- R11, R12: the checks and the effect of LIST-CLIPS; on a card in COPYING the grant is evaluated. R45 names the LIST-CLIPS
that makes a card ready; the model evaluates at every LIST-CLIPS to a card in COPYING, also where it has a clip in flight or
had one LISTED (DESIGN CHOICE, log entry 8). -/
def listClips (card : Nat) (items : List ClipItem) (s : Part) : Part × Reply :=
  match usedCard s card with
  | none => (s, .refuse .notFound)
  | some h =>
    if s.cards[h].state.lists = false then (s, .refuse .wrongState)
    else if (freeClips s).length < items.length then (s, .refuse .tableFull)
    else
      (if s.cards[h].state = .copying then afterEvent (appendClips h items s) else appendClips h items s,
        .taken (items.any clipItemAdjusted) (.handles (assignedHandles s items)))

/-- R11, R176 cause 5: LIST-CLIPS carries from 1 to 512 items. -/
def listClipsTaken (tag card : Nat) (items : List ClipItem) : Part → Part :=
  if items.length = 0 ∨ 512 < items.length then malformed 5 tag 0x11
  else directive tag 0x11 false (listClips card items)

/-- LIST-CLIPS (R11). -/
def execListClips (tag card : Nat) (items : List ClipItem) (s : State) : Host.Outcome State Fault Refusal :=
  .next (s.onPart (ingress (.listClips tag card items) (listClipsTaken tag card items)))

/-! ## DISMOUNT -/

/-- R14, R17: the card's source port field becomes absent; its state is kept. -/
def loseSource (h : CardId) (s : Part) : Part := writeCard h { s.cards[h] with source := none } s

/-- R14. -/
def dismount (card : Nat) (s : Part) : Part × Reply :=
  match usedCard s card with
  | none => (s, .refuse .notFound)
  | some h =>
    match s.cards[h].state with
    | .copying | .suspending | .suspended => (s, .refuse .busy)
    | .mounted => (release h s, .done)
    | _ => (loseSource h (unbindPort s.cards[h].source s), .done)

def dismountTaken (tag card : Nat) : Part → Part := directive tag 0x12 false (dismount card)

/-- DISMOUNT (R14). -/
def execDismount (tag card : Nat) (s : State) : Host.Outcome State Fault Refusal :=
  .next (s.onPart (ingress (.dismount tag card) (dismountTaken tag card)))

/-! ## RETIRE -/

/-- R15: the open frame refers to one of the card's clips. -/
def frameRefersTo (s : Part) (h : CardId) : Bool :=
  match s.frame with
  | some f => match f.clip with
    | some k => s.cards[h].clips.contains k
    | none => false
  | none => false

/-- R14, R15: the states of a card that is copying. -/
def CardState.isCopying : CardState → Bool
  | .copying | .suspending | .suspended => true
  | _ => false

/-- R15. -/
def retire (card : Nat) (s : Part) : Part × Reply :=
  match usedCard s card with
  | none => (s, .refuse .notFound)
  | some h =>
    if s.cards[h].state.isCopying || frameRefersTo s h || s.cards[h].clearedUnsent then (s, .refuse .busy)
    else (release h s, .done)

def retireTaken (tag card : Nat) : Part → Part := directive tag 0x13 false (retire card)

/-- RETIRE (R15). -/
def execRetire (tag card : Nat) (s : State) : Host.Outcome State Fault Refusal :=
  .next (s.onPart (ingress (.retire tag card) (retireTaken tag card)))

/-! ## QUERY-CARD and QUERY-CLIP -/

/-- R18: the counts QUERY-CARD carries. -/
def cardCounts (s : Part) (h : CardId) : CardCounts where
  listed := (cardClips s h).countP fun c => c.state == .listed
  inFlight := (cardClips s h).countP fun c => c.state == .inFlight
  written := (cardClips s h).countP fun c => c.state == .written
  failed := (cardClips s h).countP fun c => c.state == .failed
  verified := (cardClips s h).countP fun c => decide (s.cards[h].required ≤ c.verified)
  withMarks := (cardClips s h).countP Clip.marked

/-- R18. -/
def queryCard (card : Nat) (s : Part) : Part × Reply :=
  match usedCard s card with
  | none => (s, .refuse .notFound)
  | some h => (s, .taken false (.cardRecord h s.cards[h] (cardCounts s h)))

def queryCardTaken (tag card : Nat) : Part → Part := directive tag 0x14 true (queryCard card)

/-- QUERY-CARD (R18). -/
def execQueryCard (tag card : Nat) (s : State) : Host.Outcome State Fault Refusal :=
  .next (s.onPart (ingress (.queryCard tag card) (queryCardTaken tag card)))

/-- R19. -/
def queryClip (clip : Nat) (s : Part) : Part × Reply :=
  match openedRecord s clip with
  | none => (s, .refuse .notFound)
  | some x => (s, .taken false (.clipRecord x.1 x.2 s.cards[x.2.card].generation))
where
  /-- R19: the clip record in use that a handle names. -/
  openedRecord (s : Part) (target : Nat) : Option (ClipId × Clip) :=
    match asClip target with
    | some k => s.clips[k].map fun c => (k, c)
    | none => none

def queryClipTaken (tag clip : Nat) : Part → Part := directive tag 0x15 true (queryClip clip)

/-- QUERY-CLIP (R19). -/
def execQueryClip (tag clip : Nat) (s : State) : Host.Outcome State Fault Refusal :=
  .next (s.onPart (ingress (.queryClip tag clip) (queryClipTaken tag clip)))

/-! ## Source attach and detach -/

/-- R60: a RUNNING channel's attempt ends with its writing set withdrawn; a WAITING channel returns to IDLE. -/
def detachChannel (p : PortId) (s : Part) : Part :=
  match s.channels[p].state with
  | .idle => s
  | .waiting => idleChannel p s
  | .running =>
    match s.channels[p].clip with
    | some k => closeAttempt p k (withdrawAll s.channels[p].writing s)
    | none => idleChannel p s

/-- R17: the card of a copying state loses its source: SOURCE_LOST, then HELD with no source, then R60, where a channel that
returns to IDLE has the grant evaluated (log entry 8). -/
def detachCopying (h : CardId) (p : PortId) (s : Part) : Part :=
  let s1 := raise ⟨.sourceLost, some h, inFlightClip s h, none, none, p.val⟩ s
  let s2 := writeCard h { s1.cards[h].toState .held with source := none } s1
  if s.channels[p].state = .idle then s2 else afterEvent (detachChannel p s2)

/-- R17: what a detach does to the card that was bound to the port. -/
def detachCard (h : CardId) (p : PortId) (s : Part) : Part :=
  match s.cards[h].state with
  | .mounted => release h s
  | .copying | .suspending | .suspended => detachCopying h p s
  | _ => loseSource h s

/-- R17: a detach on a fitted source port. -/
def detach (p : PortId) (s : Part) : Part :=
  match s.ports[p].binding with
  | some h => detachCard h p (setPort p ⟨false, none⟩ s)
  | none => setPort p ⟨false, none⟩ s

/-- R7, R17, R186: link events of an unfitted source port have no effect. -/
def sourceDetach (p : PortId) (s : Part) : Part := if p.val < s.reset.sources then detach p s else s

/-- R7: an attach makes the port ATTACHED and unbound, after a detach if the port was ATTACHED already. -/
def sourceAttach (p : PortId) (s : Part) : Part :=
  if p.val < s.reset.sources then
    setPort p ⟨true, none⟩ (if s.ports[p].attached then detach p s else s)
  else s

/-- SOURCE_ATTACH (R7). -/
def execSourceAttach (p : PortId) (s : State) : Host.Outcome State Fault Refusal :=
  .next (s.onPart (unlessReset (sourceAttach p)))

/-- SOURCE_DETACH (R17). -/
def execSourceDetach (p : PortId) (s : State) : Host.Outcome State Fault Refusal :=
  .next (s.onPart (unlessReset (sourceDetach p)))

end Sys2Proof.Machine
end

