-- ==== Sys2Proof/Machine/Parcel.lean ====
section
/-! DEFINITION. Parcels: the parcel check (R169), when a received parcel is damaged, the parcels the part sends, and the
layout of every payload that leaves it (spec/10, section 10.2 and R171). -/

namespace Sys2Proof.Machine

/-! ## The header and the parcel check -/

/-- R169: the A lane of the clip digest over the 12 header bytes, the check field zero, and the payload. -/
def parcelCheck (kind status tag length : Nat) (payload : List Byte) : Nat :=
  (digestBytes (1, 0)
    (leBytes 1 kind ++ leBytes 1 status ++ leBytes 2 tag ++ leBytes 4 length ++ leBytes 4 0 ++ payload)).1

/-- R169: a received parcel of the kind given is damaged when its check differs from the check over its content, or the
bytes after its header differ in number from its payload length field. -/
def damaged (kind : Nat) (p : Rx) : Bool :=
  p.check != parcelCheck kind p.status p.tag p.length p.payload || p.payload.length != p.length

/-- A parcel the part sends: its length and check are placed (R169). -/
def sealParcel (kind status tag : Nat) (payload : List Byte) : Parcel :=
  ⟨kind, status, tag, payload.length, parcelCheck kind status tag payload.length payload, payload⟩

/-- The bytes of a field of a received payload. -/
def fieldBytes (bytes : List Byte) (offset size : Nat) : List Byte := (bytes.drop offset).take size

/-- The value of a field of a received payload (R168). -/
def field (bytes : List Byte) (offset size : Nat) : Nat := leNat (fieldBytes bytes offset size)

/-- A timecode laid out FF first, with the drop flag it has beside it (section 10.2). -/
def timecodeAt (bytes : List Byte) (offset : Nat) (drop : Bool) : Timecode :=
  ⟨bytes.getD offset 0, bytes.getD (offset + 1) 0, bytes.getD (offset + 2) 0, bytes.getD (offset + 3) 0, drop⟩

/-- Section 10.2: the kinds the station link takes. -/
def stationKind (kind : Nat) : Bool := kind == 0x10 || kind == 0x11 || kind == 0x12 || kind == 0x13

/-- R168, section 3.1: the kinds a source or destination port takes. -/
def portKind (port : Port) (kind : Nat) : Bool :=
  match port with
  | .source _ => kind == 0x02
  | .dest _ => kind == 0x02 || kind == 0x04

/-! ## Requests -/

/-- Section 10.2: a FETCH of the 8 sectors at `sector`. -/
def fetchParcel (tag sector : Nat) : Parcel := sealParcel 0x01 0 tag (leBytes 8 sector ++ leBytes 2 8)

/-- Section 10.2: a STORE of a block to the 8 sectors at `sector`. -/
def storeParcel (tag sector : Nat) (data : List Byte) : Parcel :=
  sealParcel 0x03 0 tag (leBytes 8 sector ++ leBytes 2 8 ++ data)

/-- Section 10.2: a monitor pixel word, R in bits 0–9, G in 10–19, B in 20–29. -/
def monitorWord (codes : Rgb Nat) : List Byte := leBytes 4 (codes.r + 2 ^ 10 * codes.g + 2 ^ 20 * codes.b)

/-- Section 10.2, R95: a MONITOR-LINE. -/
def monitorParcel (frame line column : Nat) (pixels : List (Rgb Nat)) : Parcel :=
  sealParcel 0x30 0 0
    (leBytes 4 frame ++ leBytes 2 line ++ leBytes 2 column ++ leBytes 2 pixels.length ++ pixels.flatMap monitorWord)

/-! ## Fields of answers and notices (R171) -/

/-- R171: a yes or no value. -/
def flagByte (b : Bool) : List Byte := [if b then 1 else 0]

/-- R171: an optional integer of `size` bytes, behind its presence byte. -/
def optBytes (size : Nat) : Option Nat → List Byte
  | some v => flagByte true ++ leBytes size v
  | none => flagByte false ++ leBytes size 0

/-- R171: an optional handle or port number of `size` bytes. -/
def optFin {n : Nat} (size : Nat) (o : Option (Fin n)) : List Byte := optBytes size (o.map Fin.val)

/-- R171: a set takes one bit per member. -/
def setValue : List Bool → Nat
  | [] => 0
  | b :: bs => (if b then 1 else 0) + 2 * setValue bs

def destSetBytes (s : DestSet) : List Byte := leBytes 1 (setValue s.toList)

def markSetBytes (m : MarkSet) : List Byte := leBytes 3 (setValue m.toList)

/-- R171: a timecode, FF first, then its drop flag. -/
def timecodeBytes (t : Timecode) : List Byte := [t.ff, t.ss, t.mm, t.hh] ++ flagByte t.drop

def optTimecode : Option Timecode → List Byte
  | some t => flagByte true ++ timecodeBytes t
  | none => flagByte false ++ leBytes 5 0

/-- R171: a list is preceded by a 2-byte count of its members. -/
def clipListBytes (ks : List ClipId) : List Byte := leBytes 2 ks.length ++ ks.flatMap fun k => leBytes 2 k.val

/-- R168: positions in the named lists. -/
def CardState.position : CardState → Nat
  | .free => 0
  | .mounted => 1
  | .copying => 2
  | .suspending => 3
  | .suspended => 4
  | .copied => 5
  | .held => 6
  | .halted => 7
  | .cleared => 8

def SuspendMode.position : SuspendMode → Nat
  | .prompt => 0
  | .finish => 1

def ClipState.position : ClipState → Nat
  | .listed => 0
  | .inFlight => 1
  | .written => 2
  | .failed => 3

def Timebase.position : Timebase → Nat
  | .t24 => 0
  | .t25 => 1
  | .t30 => 2
  | .t30D => 3
  | .t48 => 4
  | .t50 => 5
  | .t60 => 6

def DestState.position : DestState → Nat
  | .absent => 0
  | .unset => 1
  | .active => 2
  | .full => 3
  | .stalled => 4
  | .closed => 5

/-- R168: the return state's own list is ACTIVE, FULL, CLOSED (section 2.1; log entry 9). -/
def Service.position : Service → Nat
  | .active => 0
  | .full => 1
  | .closed => 2

def ResetCause.position : ResetCause → Nat
  | .power => 0
  | .pin => 1
  | .directive => 2

/-- Section 1.3: the copy states, in the order of the table, and the offset a state has. -/
def Copy.position : Copy → Nat
  | .none => 0
  | .writing => 1
  | .written _ => 2
  | .verifying _ => 3
  | .verified _ => 4
  | .bad _ => 5

def Copy.offset : Copy → Option Nat
  | .none | .writing => Option.none
  | .written o | .verifying o | .verified o | .bad o => some o

def copyBytes (c : Copy) : List Byte := leBytes 1 c.position ++ optBytes 6 c.offset

/-- R183: the presence of a source port, ATTACHED or DETACHED in that order (section 1.5), and its binding. -/
def portBytes (p : SourcePort) : List Byte := leBytes 1 (if p.attached then 0 else 1) ++ optFin 1 p.binding

/-- R182, R183: the lock state, ACCEPTING or LOCKED, the lock cause (whose range includes NONE) and the count. -/
def statusBytes (r : LockStatus) : List Byte :=
  leBytes 1 (if r.locked then 1 else 0) ++ optBytes 1 r.cause ++ leBytes 2 r.count

/-- R18: the record QUERY-CARD answers, field by field in the rule's order. -/
def cardBytes (h : CardId) (c : Card) (n : CardCounts) : List Byte :=
  leBytes 1 h.val ++ c.label ++ leBytes 1 c.state.position ++ optFin 1 c.source ++ leBytes 1 c.required
    ++ flagByte c.review ++ leBytes 1 c.mode.position ++ destSetBytes c.route ++ leBytes 2 c.clips.length
    ++ leBytes 2 n.listed ++ leBytes 2 n.inFlight ++ leBytes 2 n.written ++ leBytes 2 n.failed
    ++ leBytes 2 n.verified ++ leBytes 2 n.withMarks ++ markSetBytes c.openMarks ++ markSetBytes c.waivedMarks
    ++ leBytes 2 c.generation ++ flagByte c.suspendWaiting ++ flagByte c.clearedUnsent

/-- R19: the record QUERY-CLIP answers, in the order of the table of section 1.2, then the card's generation. -/
def clipBytes (k : ClipId) (c : Clip) (generation : Nat) : List Byte :=
  leBytes 2 k.val ++ leBytes 1 c.card.val ++ c.name ++ leBytes 5 c.start ++ leBytes 5 c.length
    ++ leBytes 1 c.camera.val ++ leBytes 1 c.timebase.position ++ optTimecode c.firstTc ++ optBytes 3 c.expected
    ++ optBytes 8 c.cameraDigest ++ leBytes 1 c.state.position ++ leBytes 1 c.failed ++ flagByte c.restarted
    ++ optBytes 8 c.sourceDigest ++ c.copies.toList.flatMap copyBytes ++ markSetBytes c.openMarks
    ++ markSetBytes c.waivedMarks ++ leBytes 3 c.framesSeen ++ optBytes 3 c.lastFrame ++ optBytes 3 c.lastCount
    ++ flagByte c.lastMarker ++ leBytes 2 generation

/-- R43: the record QUERY-DEST answers, in the rule's order. -/
def destBytes (r : DestReport) : List Byte :=
  leBytes 1 r.state.position ++ optBytes 1 (r.ret.map Service.position) ++ leBytes 6 r.base ++ leBytes 6 r.length
    ++ leBytes 6 r.cursor ++ leBytes 2 r.stallLimit ++ optBytes 2 r.stallTimer ++ optFin 2 r.holder
    ++ flagByte r.draining ++ leBytes 1 r.stores ++ leBytes 1 r.fetches ++ leBytes 1 r.paceP ++ leBytes 1 r.paceS
    ++ leBytes 2 r.credit ++ leBytes 2 r.queued ++ optFin 2 r.contextClip ++ leBytes 1 r.pointer.val

/-- R183: the data QUERY-PART answers, in the rule's order. -/
def partBytes (r : PartReport) : List Byte :=
  statusBytes r.status ++ leBytes 1 r.cause.position ++ leBytes 1 r.sources ++ leBytes 1 r.dests
    ++ r.ports.toList.flatMap portBytes ++ leBytes 1 r.occupancy ++ leBytes 4 r.suppressed ++ leBytes 1 r.cards
    ++ leBytes 2 r.clips ++ flagByte r.held

/-- R171: the bytes of a count. The count of kinds a WAIVE moved may pass 255; the others do not. -/
def AnswerData.bytes : AnswerData → List Byte
  | .nothing => []
  | .mounted h st => leBytes 1 h.val ++ leBytes 1 st.position
  | .handles ks => clipListBytes ks
  | .cardRecord h c n => cardBytes h c n
  | .clipRecord k c g => clipBytes k c g
  | .destRecord r => destBytes r
  | .count n => leBytes 1 n
  | .waived st n => leBytes 1 st.position ++ leBytes 2 n
  | .generation g => leBytes 2 g
  | .status r => statusBytes r
  | .part r => partBytes r

/-- Section 10.2: the reason codes. -/
def Reason.code : Reason → Nat
  | .busy => 1
  | .wrongState => 2
  | .noPort => 3
  | .noSource => 4
  | .sourceConflict => 5
  | .tableFull => 6
  | .stale => 7
  | .collision => 8
  | .notFound => 9
  | .shortRoute => 10
  | .inUse => 11

/-- Section 10.2: the outcome code of an answer. -/
def Result.outcome : Result → Nat
  | .done => 0
  | .adjusted => 1
  | .deferred => 2
  | .refused _ => 3
  | .malformed _ => 4
  | .locked => 5

/-- Section 10.2: the reason byte of an answer. -/
def Result.reason : Result → Nat
  | .refused r => r.code
  | .malformed cause => cause
  | _ => 0

/-- Section 10.2: the payload of an ANSWER. -/
def answerPayload (a : Answer) : List Byte :=
  leBytes 2 a.tag ++ leBytes 1 a.code ++ leBytes 1 a.result.outcome ++ leBytes 1 a.result.reason ++ a.data.bytes

/-- Section 10.2: the parcel of an entry of the notice queue, an ANSWER or a NOTICE. -/
def Notice.parcel : Notice → Parcel
  | .cardState h label st src =>
    sealParcel 0x21 0 0 (leBytes 1 1 ++ leBytes 1 h.val ++ label ++ leBytes 1 st.position ++ optFin 1 src)
  | .destState d st ret base length cursor draining =>
    sealParcel 0x21 0 0 (leBytes 1 2 ++ leBytes 1 d.val ++ leBytes 1 st.position
      ++ optBytes 1 (ret.map Service.position) ++ leBytes 6 base ++ leBytes 6 length ++ leBytes 6 cursor
      ++ flagByte draining)
  | .lookCommitted slot tag frame =>
    sealParcel 0x21 0 0 (leBytes 1 3 ++ leBytes 1 slot.val ++ leBytes 2 tag ++ leBytes 3 frame)
  | .cleared h label clips => sealParcel 0x21 0 0 (leBytes 1 4 ++ leBytes 1 h.val ++ label ++ leBytes 2 clips)
  | .resetDone cause sources dests =>
    sealParcel 0x21 0 0 (leBytes 1 5 ++ leBytes 1 cause.position ++ leBytes 1 sources ++ leBytes 1 dests)
  | .answer a => sealParcel 0x20 0 0 (answerPayload a)

/-! ## FAULT and STATS -/

/-- The bits of a free value from bit `lo` up, as `n` bytes. -/
def fillBytes (fill : BitVec 128) (lo n : Nat) : List Byte := leBytes n (fill.toNat / 2 ^ lo)

/-- One bit of a free value. -/
def fillBit (fill : BitVec 128) (i : Nat) : Bool := fill.getLsbD i

/-- A field whose flag says whether it is present; when absent the layout gives its bytes no value (log entry 5). -/
def presentOr (n : Nat) (v : Option Nat) (other : List Byte) : List Byte :=
  match v with
  | some x => leBytes n x
  | none => other

/-- Section 10.2: the payload of the FAULT parcel of a log entry. -/
def faultPayload (fill : BitVec 128) (e : LogEntry) : List Byte :=
  leBytes 2 e.seq ++ leBytes 1 e.kind.code
    ++ leBytes 1 (setValue [e.card.isSome, e.clip.isSome, e.dest.isSome, e.frame.isSome,
        (e.frame.map fun f => f.2.drop).getD (fillBit fill 4), e.afterClearance, fillBit fill 6, fillBit fill 7])
    ++ presentOr 1 (e.card.map Fin.val) (fillBytes fill 8 1)
    ++ presentOr 1 (e.dest.map Fin.val) (fillBytes fill 16 1)
    ++ presentOr 2 (e.clip.map Fin.val) (fillBytes fill 24 2)
    ++ presentOr 4 (e.frame.map Prod.fst) (fillBytes fill 40 4)
    ++ (match e.frame with
        | some f => [f.2.ff, f.2.ss, f.2.mm, f.2.hh]
        | none => fillBytes fill 72 4)
    ++ leBytes 4 e.detail

/-- R150, R151: the payload of the FAULT parcel of the overflow marker: kind OVERFLOW and the count as its detail. -/
def overflowPayload (fill : BitVec 128) (m : Overflow) : List Byte :=
  leBytes 2 m.seq ++ leBytes 1 255
    ++ leBytes 1 (setValue [false, false, false, false, fillBit fill 4, false, fillBit fill 6, fillBit fill 7])
    ++ fillBytes fill 8 1 ++ fillBytes fill 16 1 ++ fillBytes fill 24 2 ++ fillBytes fill 40 4 ++ fillBytes fill 72 4
    ++ leBytes 4 m.count

/-- Section 10.2: the payload of a STATS parcel. -/
def statsPayload (fill : BitVec 128) (r : Stats) : List Byte :=
  leBytes 1 (setValue [r.clip.isSome, r.abandoned, r.tc.drop, fillBit fill 3, fillBit fill 4, fillBit fill 5,
      fillBit fill 6, fillBit fill 7])
    ++ leBytes 1 r.hotHits
    ++ presentOr 2 (r.clip.map Fin.val) (fillBytes fill 24 2)
    ++ leBytes 4 r.number ++ [r.tc.ff, r.tc.ss, r.tc.mm, r.tc.hh]
    ++ leBytes 4 r.pixels ++ leBytes 4 r.high ++ leBytes 4 r.low ++ leBytes 4 r.exc
    ++ leBytes 2 r.meanLuma ++ leBytes 2 r.droppedAfter

end Sys2Proof.Machine
end

