-- ==== Sys2Proof/Machine/Copying.lean ====
section
/-! DEFINITION. The commands of the chapter Copying: ROUTE, START, SUSPEND, RESUME, ABORT, HALT-ALL, RECOPY, and the events of
a copy channel: a FETCH taken by the source link, a BLOCK from the card, a fetch timer at 0. -/

namespace Sys2Proof.Machine

/-! ## ROUTE -/

/-- R61 check 3: the fitted ports a list names, none when a port is above D5 or not fitted. -/
def routePorts (s : Part) : List Nat → Option (List DestId)
  | [] => some []
  | x :: xs =>
    match asDest s x with
    | none => none
    | some d => (routePorts s xs).map (d :: ·)

/-- R61: the set of the ports named; a port named twice counts once. -/
def routeSet (ds : List DestId) : DestSet := DestSet.ofPred ds.contains

/-- R61 check 2: what the card's state refuses. -/
def routeRefusal : CardState → Option Reason
  | .copying | .suspending => some .busy
  | .copied | .cleared => some .wrongState
  | _ => none

/-- R61: the checks and the effect of ROUTE. -/
def route (card : Nat) (ports : List Nat) (s : Part) : Part × Reply :=
  match usedCard s card with
  | none => (s, .refuse .notFound)
  | some h =>
    match routeRefusal s.cards[h].state with
    | some r => (s, .refuse r)
    | none =>
      match routePorts s ports with
      | none => (s, .refuse .noPort)
      | some ds =>
        if (routeSet ds).isEmpty = true ∨ (routeSet ds).size < s.cards[h].required then (s, .refuse .shortRoute)
        else (writeCard h { s.cards[h] with route := routeSet ds } s, .done)

/-- R176 cause 5: ROUTE carries at most 6 items. -/
def routeTaken (tag card : Nat) (ports : List Nat) : Part → Part :=
  if 6 < ports.length then malformed 5 tag 0x20 else directive tag 0x20 false (route card ports)

/-- ROUTE (R61). -/
def execRoute (tag card : Nat) (ports : List Nat) (s : State) : Host.Outcome State Fault Refusal :=
  .next (s.onPart (ingress (.route tag card ports) (routeTaken tag card ports)))

/-! ## START -/

/-- R62: the checks and the effect of START. R62 refuses a MOUNTED card with an empty route with SHORT_ROUTE and one with no
clip with WRONG_STATE, and gives no order of the two; the model answers SHORT_ROUTE to a card that has neither (DESIGN CHOICE,
log entry 24). -/
def start (card : Nat) (s : Part) : Part × Reply :=
  match usedCard s card with
  | none => (s, .refuse .notFound)
  | some h =>
    if s.cards[h].state ≠ .mounted then (s, .refuse .wrongState)
    else if s.cards[h].route.isEmpty then (s, .refuse .shortRoute)
    else if s.cards[h].clips.isEmpty then (s, .refuse .wrongState)
    else (afterEvent (settleCopying h (moveCard h .copying s)), .done)

def startTaken (tag card : Nat) : Part → Part := directive tag 0x21 false (start card)

/-- START (R62). -/
def execStart (tag card : Nat) (s : State) : Host.Outcome State Fault Refusal :=
  .next (s.onPart (ingress (.start tag card) (startTaken tag card)))

/-! ## SUSPEND -/

/-- R64 step 5: the destinations of the target set that are draining. -/
def drainingOf (target : DestSet) (s : Part) : DestSet := DestSet.ofPred fun d => target.mem d && s.dests[d].draining

/-- R64: the clip as an abandon leaves it. -/
def Clip.abandoned (c : Clip) : Clip := { c with state := .listed, restarted := true }

/-- R64 steps 1 to 4. -/
def abandonClip (p : PortId) (k : ClipId) (s : Part) : Part :=
  modClip k Clip.abandoned
    (joinQueues k s.channels[p].finished (idleChannel p (withdrawAll s.channels[p].writing s)))

/-- R64 step 5: with nothing draining the channel stays IDLE and the card is SUSPENDED; otherwise the channel waits for the
drain set and the card is SUSPENDING. -/
def settleAbandon (h : CardId) (p : PortId) (drain : DestSet) (s : Part) : Part :=
  if drain.isEmpty then moveCard h .suspended s
  else
    moveCard h .suspending
      (setChannel p { Channel.idle s.channels[p].tagCounter with state := .waiting, drain := drain } s)

/-- R64: the PROMPT abandon of a card's clip in flight, with the evaluation its drop-outs and its channel call for. -/
def promptAbandon (h : CardId) (p : PortId) (k : ClipId) (s : Part) : Part :=
  afterEvent
    (settleAbandon h p (drainingOf s.channels[p].target (abandonClip p k s)) (abandonClip p k s))

/-- R63: the clip in flight has been abandoned once. -/
def restartedOnce (s : Part) (k : ClipId) : Bool :=
  match s.clips[k] with
  | some c => c.restarted
  | none => false

/-- R63: SUSPEND on a card in COPYING with a clip in flight. -/
def suspendInFlight (h : CardId) (k : ClipId) (s : Part) : Part :=
  match s.cards[h].mode with
  | .finish => moveCard h .suspending s
  | .prompt =>
    if restartedOnce s k then writeCard h { s.cards[h] with state := .suspending, suspendWaiting := true } s
    else
      match runningChannel s k with
      | some p => promptAbandon h p k s
      | none => moveCard h .suspending s

/-- R63: the checks and the effect of SUSPEND. -/
def suspend (card : Nat) (s : Part) : Part × Reply :=
  match usedCard s card with
  | none => (s, .refuse .notFound)
  | some h =>
    if s.cards[h].state ≠ .copying then (s, .refuse .wrongState)
    else
      match inFlightClip s h with
      | none => (moveCard h .suspended s, .done)
      | some k => (suspendInFlight h k s, .done)

def suspendTaken (tag card : Nat) : Part → Part := directive tag 0x22 false (suspend card)

/-- SUSPEND (R63). -/
def execSuspend (tag card : Nat) (s : State) : Host.Outcome State Fault Refusal :=
  .next (s.onPart (ingress (.suspend tag card) (suspendTaken tag card)))

/-! ## RESUME -/

/-- R66: a card resumed: R58 is applied, and the grant is evaluated for one that stays in COPYING. -/
def resumeCard (h : CardId) (s : Part) : Part :=
  let s1 := settleCopying h (moveCard h .copying s)
  if s1.cards[h].state = .copying then afterEvent s1 else s1

/-- R66: the checks and the effect of RESUME. -/
def resume (card : Nat) (s : Part) : Part × Reply :=
  match usedCard s card with
  | none => (s, .refuse .notFound)
  | some h =>
    if s.cards[h].state ≠ .suspended then (s, .refuse .wrongState) else (resumeCard h s, .done)

def resumeTaken (tag card : Nat) : Part → Part := directive tag 0x23 false (resume card)

/-- RESUME (R66). -/
def execResume (tag card : Nat) (s : State) : Host.Outcome State Fault Refusal :=
  .next (s.onPart (ingress (.resume tag card) (resumeTaken tag card)))

/-! ## ABORT and HALT-ALL -/

/-- R67 step 1: the clip in flight of a RUNNING channel is stopped. -/
def stopClip (p : PortId) (k : ClipId) (s : Part) : Part :=
  countFailed k (joinQueues k s.channels[p].finished (idleChannel p (withdrawAll s.channels[p].writing s)))

/-- R67 steps 1 to 3: the channel of the card returns to IDLE. -/
def stopChannel (p : PortId) (s : Part) : Part :=
  match s.channels[p].state with
  | .idle => s
  | .waiting => idleChannel p s
  | .running =>
    match s.channels[p].clip with
    | some k => stopClip p k s
    | none => idleChannel p s

/-- R67: a card is stopped and goes to HALTED. -/
def abortCard (h : CardId) (s : Part) : Part :=
  moveCard h .halted
    (match s.cards[h].source with
      | some p => stopChannel p s
      | none => s)

/-- R45, R47: the channel of a card is not IDLE, so that stopping the card returns it there, an event at which the grant is
evaluated (log entry 8). -/
def channelBusy (s : Part) (h : CardId) : Bool := s.cards[h].source.isSome && (freeChannel s h).isNone

/-- R67: the checks and the effect of ABORT. -/
def abort (card : Nat) (s : Part) : Part × Reply :=
  match usedCard s card with
  | none => (s, .refuse .notFound)
  | some h =>
    if s.cards[h].state.isCopying = false then (s, .refuse .wrongState)
    else (if channelBusy s h then afterEvent (abortCard h s) else abortCard h s, .done)

def abortTaken (tag card : Nat) : Part → Part := directive tag 0x24 false (abort card)

/-- ABORT (R67). -/
def execAbort (tag card : Nat) (s : State) : Host.Outcome State Fault Refusal :=
  .next (s.onPart (ingress (.abort tag card) (abortTaken tag card)))

/-- R68: one card of HALT-ALL. -/
def haltCard (s : Part) (h : CardId) : Part := if s.cards[h].state.isCopying then abortCard h s else s

/-- R68: the cards HALT-ALL moves to HALTED. -/
def haltCount (s : Part) : Nat := allCards.countP fun h => s.cards[h].state.isCopying

/-- R68: the FETCHes of the stopped verify leave the list; those orphaned by a release stay (R80). -/
def Dest.dropReads (x : Dest) : Dest := { x with fetches := x.fetches.filter fun f => f.use.isNone }

/-- R68, R79: a verify in progress is stopped and its FETCHes are counted failed. -/
def haltVerify (s : Part) (d : DestId) : Part :=
  match s.dests[d].context with
  | none => s
  | some _ =>
    writeDest d ((stopVerify d s).dests[d].dropReads.failedRequest) (stopVerify d s)

/-- R68: the effect of HALT-ALL; a LOCKED unit returns to ACCEPTING and keeps its count (R175). R68 stops the cards "each in the
same way" in no stated order; the model takes them in increasing handle order, the order of their CLIP_FAILED faults, of
their notices and of their clips' places in a shared verify queue, and then the verifies from D0 to D5 (DESIGN CHOICE, log
entry 22). -/
def haltAll (s : Part) : Part × Reply :=
  (afterEvent (acceptWith s.unit.status.count (allDests.foldl haltVerify (allCards.foldl haltCard s))),
    .taken false (.count (haltCount s)))

def haltAllTaken (tag : Nat) : Part → Part := directive tag 0x26 true haltAll

/-- HALT-ALL (R68). -/
def execHaltAll (tag : Nat) (s : State) : Host.Outcome State Fault Refusal :=
  .next (s.onPart (ingress (.haltAll tag) (haltAllTaken tag)))

/-! ## RECOPY -/

/-- R69 check 2: the states RECOPY takes. -/
def CardState.recopies : CardState → Bool
  | .held | .halted | .copied => true
  | _ => false

/-- R69: a WRITTEN clip below the required copies returns to LISTED. -/
def Clip.relisted (required : Nat) (c : Clip) : Clip := if c.needsCopies required then { c with state := .listed } else c

/-- R69: every clip of a manifest is relisted where it needs copies. -/
def relistAll (required : Nat) (ks : List ClipId) (s : Part) : Part :=
  ks.foldl (fun t k => modClip k (Clip.relisted required) t) s

/-- R69 check 5: a card none of whose clips needs copies. -/
def recopyNothing (h : CardId) (s : Part) : Part :=
  if s.cards[h].state = .halted then
    (if anyMarkOpen s h then moveCard h .held s else evalClearance h (moveCard h .copied s))
  else s

/-- R69: the checks and the effect of RECOPY. -/
def recopy (card : Nat) (s : Part) : Part × Reply :=
  match usedCard s card with
  | none => (s, .refuse .notFound)
  | some h =>
    if s.cards[h].state.recopies = false then (s, .refuse .wrongState)
    else if s.cards[h].source.isNone then (s, .refuse .noSource)
    else if s.cards[h].openMarks.isEmpty = false then (s, .refuse .wrongState)
    else if (cardClips s h).any (Clip.needsCopies s.cards[h].required) then
      (afterEvent (moveCard h .copying (relistAll s.cards[h].required s.cards[h].clips s)), .done)
    else (recopyNothing h s, .done)

def recopyTaken (tag card : Nat) : Part → Part := directive tag 0x25 false (recopy card)

/-- RECOPY (R69). -/
def execRecopy (tag card : Nat) (s : State) : Host.Outcome State Fault Refusal :=
  .next (s.onPart (ingress (.recopy tag card) (recopyTaken tag card)))

/-! ## A FETCH taken by the source link -/

/-- R48, R51: the FETCH a channel has ready: a repeated one before a new one (log entry 7), and a new one when the pool and
the limits allow it. -/
def readyFetch (s : Part) (c : Channel) (blocks : Nat) : Option Try :=
  if c.state ≠ .running ∨ c.writing.isEmpty = true ∨ Config.maxFetches ≤ c.fetches.length then none
  else
    match c.retries with
    | t :: _ => some t
    | [] =>
      if c.nextFetch < blocks ∧ c.held.length < Config.channelShare ∧ 0 < poolFree s then some ⟨c.nextFetch, 1⟩
      else none

/-- R48, R49, R51: the channel after its link has taken the FETCH `t`. -/
def Channel.fetched (t : Try) (c : Channel) : Channel :=
  { c with
    fetches := c.fetches ++ [⟨c.tagCounter, t.block, t.tryNo, Config.fetchLimit⟩]
    tagCounter := nextTag c.tagCounter
    retries := c.retries.drop 1
    nextFetch := if c.retries.isEmpty then c.nextFetch + 1 else c.nextFetch
    held := if c.retries.isEmpty then c.held ++ [⟨t.block, none⟩] else c.held }

/-- R49: the FETCH for block `t` of a clip leaves by the source link. -/
def sendFetchOf (p : PortId) (clip : Clip) (t : Try) (s : Part) : Part :=
  setChannel p (s.channels[p].fetched t)
    { s with out := .source p (fetchParcel s.channels[p].tagCounter (clip.start + 8 * t.block)) :: s.out }

/-- The clip record a channel is copying. -/
def channelClip (s : Part) (p : PortId) : Option (ClipId × Clip) :=
  match s.channels[p].clip with
  | some k => s.clips[k].map fun c => (k, c)
  | none => none

/-- R49: the source link takes the channel's FETCH, if it has one ready. -/
def sendFetch (p : PortId) (s : Part) : Part :=
  match channelClip s p with
  | none => s
  | some x =>
    match readyFetch s s.channels[p] (blocksOf x.2.length) with
    | some t => sendFetchOf p x.2 t s
    | none => s

/-- SEND_FETCH (R49). -/
def execSendFetch (p : PortId) (s : State) : Host.Outcome State Fault Refusal :=
  .next (s.onPart (unlessReset (sendFetch p)))

/-! ## The digest -/

/-- R53: the block at next digest enters the lanes when it has arrived. -/
def Channel.digestNext (length : Nat) (c : Channel) : Channel :=
  match c.held.find? fun b => b.block == c.nextDigest with
  | some ⟨_, some data⟩ =>
    { c with
      laneA := (digestBytes (c.laneA, c.laneB) (data.take (bytesInBlock length c.nextDigest))).1
      laneB := (digestBytes (c.laneA, c.laneB) (data.take (bytesInBlock length c.nextDigest))).2
      nextDigest := c.nextDigest + 1 }
  | _ => c

/-- R53: every block that is next in turn and has arrived enters the lanes. -/
def Channel.digestArrived (length : Nat) : Nat → Channel → Channel
  | 0, c => c
  | n + 1, c => digestArrived length n (c.digestNext length)

/-- R53: the final value of the digest sets the clip's source digest, or is compared with the one it keeps. -/
def finishDigest (k : ClipId) (value : Nat) (s : Part) : Part :=
  match s.clips[k] with
  | none => s
  | some c =>
    match c.sourceDigest with
    | none =>
      let s1 := modClip k (fun c => { c with sourceDigest := some value }) s
      if c.cameraDigest.isSome ∧ c.cameraDigest ≠ some value then
        raise (clipReport s1 .sourceDigest k none (digestLaneA value)) s1
      else s1
    | some kept =>
      if kept = value then s else raise (clipReport s .sourceDigest k none (digestLaneA value)) s

/-- R50, R53: the bytes of a block are placed in its pool block, and the digest goes as far as it can. -/
def blockArrived (p : PortId) (x : ClipId × Clip) (block : Nat) (data : List Byte) (s : Part) : Part :=
  let c := { s.channels[p] with
    held := s.channels[p].held.map fun b => if b.block = block then { b with data := some data } else b }
  let c1 := Channel.digestArrived x.2.length c.held.length c
  let s1 := setChannel p c1 s
  if c.nextDigest < blocksOf x.2.length ∧ c1.nextDigest = blocksOf x.2.length then
    finishDigest x.1 (digestValue (c1.laneA, c1.laneB)) s1
  else s1

/-! ## Failed tries -/

/-- R59: a block's third failed try ends the attempt as failed. -/
def blockFailed (p : PortId) (k : ClipId) (block : Nat) (s : Part) : Part :=
  let s1 := raise (clipReport s .sourceRead k none block) s
  let s2 := idleChannel p (withdrawAll s1.channels[p].writing s1)
  afterEvent (settleCardOf k (countFailed k s2))

/-- R51: a try has failed: the block is asked for again, or at its third try has failed. -/
def tryFailed (p : PortId) (k : ClipId) (f : Fetch) (s : Part) : Part :=
  if f.tryNo < Config.lastTry then
    setChannel p { s.channels[p] with retries := s.channels[p].retries ++ [⟨f.block, f.tryNo + 1⟩] } s
  else blockFailed p k f.block s

/-- R50: the try of a BLOCK has failed: ERROR status, a damaged parcel or a payload that is not a block. -/
def blockBad (b : Rx) : Bool := b.status != 0 || damaged 0x02 b || b.payload.length != Config.blockBytes

/-- R50, R51: the FETCH of a tag leaves the outstanding list; where the tag counter has wrapped and two have the tag, both do
(DESIGN CHOICE, log entry 23). -/
def dropFetch (p : PortId) (tag : Nat) (s : Part) : Part :=
  setChannel p { s.channels[p] with fetches := s.channels[p].fetches.filter fun f => f.tag != tag } s

/-- R50: a BLOCK is matched by tag against the channel's FETCHes. -/
def sourceBlock (p : PortId) (b : Rx) (s : Part) : Part :=
  match s.channels[p].fetches.find? fun f => f.tag == b.tag with
  | none => s
  | some f =>
    match channelClip s p with
    | none => dropFetch p b.tag s
    | some x =>
      if blockBad b then tryFailed p x.1 f (dropFetch p b.tag s)
      else blockArrived p x f.block b.payload (dropFetch p b.tag s)

/-- SOURCE_BLOCK (R50). -/
def execSourceBlock (p : PortId) (b : Rx) (s : State) : Host.Outcome State Fault Refusal :=
  .next (s.onPart (unlessReset (sourceBlock p b)))

/-- R51: the fetch timer of the FETCH of a tag reaches 0. -/
def fetchTimeout (p : PortId) (tag : Nat) (s : Part) : Part :=
  match s.channels[p].fetches.find? fun f => f.tag == tag with
  | none => s
  | some f =>
    match channelClip s p with
    | none => dropFetch p tag s
    | some x => tryFailed p x.1 f (dropFetch p tag s)

/-- FETCH_TIMEOUT (R51). -/
def execFetchTimeout (p : PortId) (tag : Nat) (s : State) : Host.Outcome State Fault Refusal :=
  .next (s.onPart (unlessReset (fetchTimeout p tag)))

end Sys2Proof.Machine
end

