-- ==== Sys2Proof/Machine/Verification.lean ====
section
/-! DEFINITION. The commands of the chapter Verification: SET-PACING, a read-back FETCH taken by the destination link, a BLOCK
on a destination port, a read-back fetch timer at 0, and the end of a verify. -/

namespace Sys2Proof.Machine

/-! ## SET-PACING -/

/-- R84: the pacing values taken, the credit 0. -/
def Dest.pacedBy (p e : Nat) (x : Dest) : Dest := { x with paceP := adjustP p, paceS := adjustS e, credit := 0 }

/-- R84: the check and the effect of SET-PACING. -/
def setPacing (port p e : Nat) (s : Part) : Part × Reply :=
  match asDest s port with
  | none => (s, .refuse .noPort)
  | some d =>
    (writeDest d (s.dests[d].pacedBy p e) s, .taken (adjustP p != p || adjustS e != e) .nothing)

def setPacingTaken (tag port p e : Nat) : Part → Part := directive tag 0x38 false (setPacing port p e)

/-- SET-PACING (R84). -/
def execSetPacing (tag port p e : Nat) (s : State) : Host.Outcome State Fault Refusal :=
  .next (s.onPart (ingress (.setPacing tag port p e) (setPacingTaken tag port p e)))

/-! ## A read-back FETCH taken by the link -/

/-- R73, R75: the block and try the context asks for next: a repeat before a new block (log entry 7). -/
def VerifyContext.wants (v : VerifyContext) (blocks : Nat) : Option Try :=
  match v.retries with
  | t :: _ => some t
  | [] => if v.nextFetch < blocks ∧ v.held.length < Config.verifyBuffer then some ⟨v.nextFetch, 1⟩ else none

/-- R83: pacing lets a read-back FETCH go. -/
def Dest.paceAllows (x : Dest) : Bool := !x.paced || x.credit == x.ratio

/-- R73: the read-back FETCH a destination has ready to send. -/
def readyRead (s : Part) (d : DestId) : Option (VerifyContext × Try) :=
  match s.dests[d].context with
  | none => none
  | some v =>
    match s.clips[v.clip] with
    | none => none
    | some c =>
      if s.dests[d].state.serves = true ∧ s.dests[d].fetches.length < Config.maxVerifyFetches
          ∧ s.dests[d].paceAllows = true then
        (v.wants (blocksOf c.length)).map fun t => (v, t)
      else none

/-- R73, R75: the context after its FETCH `t` has been sent. -/
def VerifyContext.fetched (t : Try) (v : VerifyContext) : VerifyContext :=
  { v with
    retries := v.retries.drop 1
    nextFetch := if v.retries.isEmpty then v.nextFetch + 1 else v.nextFetch
    held := if v.retries.isEmpty then v.held ++ [⟨t.block, none⟩] else v.held }

/-- R31, R33, R73, R83: the destination after its link has taken the FETCH `t` of the context `v`. -/
def Dest.readSent (v : VerifyContext) (t : Try) (x : Dest) : Dest :=
  { x with
    context := some (v.fetched t)
    fetches := x.fetches ++ [⟨x.tagCounter, Config.fetchLimit, some t⟩]
    tagCounter := nextTag x.tagCounter
    stallTimer := x.timerAfterSend
    credit := if x.paced then 0 else x.credit }

/-- R73: the destination link takes the context's FETCH, if it has one ready. -/
def sendVerifyFetch (d : DestId) (s : Part) : Part :=
  match readyRead s d with
  | none => s
  | some x =>
    writeDest d (s.dests[d].readSent x.1 x.2)
      { s with
        out := .dest d (fetchParcel s.dests[d].tagCounter (s.dests[d].base + x.1.offset + 8 * x.2.block)) :: s.out }

/-- SEND_VERIFY_FETCH (R73). -/
def execSendVerifyFetch (d : DestId) (s : State) : Host.Outcome State Fault Refusal :=
  .next (s.onPart (unlessReset (sendVerifyFetch d)))

/-! ## The end of a verify -/

/-- R75, R77: the destination after its verify has ended: the context free, its other FETCH counted failed. -/
def Dest.verifyOver (x : Dest) : Dest := ({ x with context := none } : Dest).dropReads.failedRequest

/-- R75 to R77: the copy record takes its final state, the fault is raised where there is one, clearance is evaluated for the
card, and the verifies that can start do. -/
def endVerify (d : DestId) (v : VerifyContext) (verdict : Copy) (fault : Option (FaultKind × Nat)) (s : Part) : Part :=
  let s1 := writeDest d s.dests[d].verifyOver
    (modClip v.clip (fun c => { c with copies := c.copies.set d verdict }) s)
  let s2 := match fault with
    | some x => raise (clipReport s1 x.1 v.clip (some d) x.2) s1
    | none => s1
  startVerifies (evalClipClearance v.clip s2)

/-- R76: the verify digest is compared with the clip's source digest. -/
def compareDigest (d : DestId) (v : VerifyContext) (c : Clip) (s : Part) : Part :=
  if c.sourceDigest = some (digestValue (v.laneA, v.laneB)) then
    endVerify d v (.verified v.offset) none s
  else endVerify d v (.bad v.offset) (some (.verifyMismatch, v.laneA)) s

/-! ## A BLOCK on a destination port -/

/-- R74, R76: the block at next digest enters the lanes when it has arrived, and its buffer block is free at once. -/
def VerifyContext.digestNext (length : Nat) (v : VerifyContext) : VerifyContext :=
  match v.held.find? fun b => b.block == v.nextDigest with
  | some ⟨_, some data⟩ =>
    { v with
      laneA := (digestBytes (v.laneA, v.laneB) (data.take (bytesInBlock length v.nextDigest))).1
      laneB := (digestBytes (v.laneA, v.laneB) (data.take (bytesInBlock length v.nextDigest))).2
      nextDigest := v.nextDigest + 1
      held := v.held.filter fun b => b.block != v.nextDigest }
  | _ => v

/-- R74: the buffer holds two blocks, so two rounds digest all that can be. -/
def VerifyContext.digestArrived (length : Nat) (v : VerifyContext) : VerifyContext :=
  (v.digestNext length).digestNext length

/-- R74: the bytes of a block are placed in its buffer block. -/
def VerifyContext.place (block : Nat) (data : List Byte) (v : VerifyContext) : VerifyContext :=
  { v with held := v.held.map fun b => if b.block = block then { b with data := some data } else b }

/-- R74, R76: a read-back block has arrived. -/
def readArrived (d : DestId) (v : VerifyContext) (block : Nat) (data : List Byte) (s : Part) : Part :=
  match s.clips[v.clip] with
  | none => s
  | some c =>
    let v1 := (v.place block data).digestArrived c.length
    let s1 := writeDest d { s.dests[d] with context := some v1 } s
    if v1.nextDigest = blocksOf c.length then compareDigest d v1 c s1 else s1

/-- R75: a read-back try has failed: the block is asked for again, or at its third try the copy cannot be read. -/
def readFailed (d : DestId) (v : VerifyContext) (t : Try) (s : Part) : Part :=
  if t.tryNo < Config.lastTry then
    writeDest d { s.dests[d] with context := some { v with retries := v.retries ++ [⟨t.block, t.tryNo + 1⟩] } } s
  else endVerify d v (.bad v.offset) (some (.verifyRead, t.block)) s

/-- R32: the FETCH of a tag leaves the outstanding list of a destination; where the tag counter has wrapped and two have the
tag, both do (DESIGN CHOICE, log entry 23). -/
def Dest.withoutFetch (tag : Nat) (x : Dest) : Dest := { x with fetches := x.fetches.filter fun f => f.tag != tag }

/-- R32, R33: a BLOCK is matched by tag against the outstanding FETCHes, and an answer taken sets the stall timer back. The
content answering a FETCH orphaned by release is discarded (R80). -/
def verifyBlock (d : DestId) (b : Rx) (s : Part) : Part :=
  match s.dests[d].fetches.find? fun f => f.tag == b.tag with
  | none => s
  | some f =>
    let s1 := writeDest d (s.dests[d].withoutFetch b.tag).answered s
    match f.use, s.dests[d].context with
    | some t, some v => if blockBad b then readFailed d v t s1 else readArrived d v t.block b.payload s1
    | _, _ => s1

/-- VERIFY_BLOCK (R74). -/
def execVerifyBlock (d : DestId) (b : Rx) (s : State) : Host.Outcome State Fault Refusal :=
  .next (s.onPart (unlessReset (verifyBlock d b)))

/-- R75, R80: the fetch timer of the FETCH of a tag reaches 0: its try fails, or it leaves the list if it is orphaned. -/
def verifyFetchTimeout (d : DestId) (tag : Nat) (s : Part) : Part :=
  match s.dests[d].fetches.find? fun f => f.tag == tag with
  | none => s
  | some f =>
    let s1 := writeDest d (s.dests[d].withoutFetch tag).failedRequest s
    match f.use, s.dests[d].context with
    | some t, some v => readFailed d v t s1
    | _, _ => s1

/-- VERIFY_FETCH_TIMEOUT (R75). -/
def execVerifyFetchTimeout (d : DestId) (tag : Nat) (s : State) : Host.Outcome State Fault Refusal :=
  .next (s.onPart (unlessReset (verifyFetchTimeout d tag)))

end Sys2Proof.Machine
end

