-- ==== Sys2Proof/Machine/Destinations.lean ====
section
/-! DEFINITION. The commands of the chapter Destinations: SET-REGION, SET-STALL, CLOSE-DEST, REVIVE-DEST, QUERY-DEST, the link
events of a destination, its stall timer at 0, and its STOREs and their answers (with R54 and R55 of the chapter
Copying). -/

namespace Sys2Proof.Machine

/-! ## SET-REGION -/

/-- R39: a clip record in use holds a copy record for the destination in a state other than NONE. -/
def anyCopyOn (s : Part) (d : DestId) : Bool :=
  s.clips.toList.any fun o => match o with
    | some c => c.copies[d] != .none
    | none => false

/-- R39: the destination with its new region. -/
def Dest.withRegion (base length : Nat) (x : Dest) : Dest :=
  { x with base := base, length := length, cursor := 0, ret := none, state := .active }

/-- R45: a directive's write of a destination; a change of its state is an event at which the grant is evaluated and the
start conditions of R72 are tested. -/
def changeDest (d : DestId) (x : Dest) (s : Part) : Part :=
  if s.dests[d].state = x.state then writeDest d x s else afterEvent (writeDest d x s)

/-- R39: the checks and the effect of SET-REGION, its values adjusted first. -/
def setRegion (port base length : Nat) (s : Part) : Part × Reply :=
  match asDest s port with
  | none => (s, .refuse .noPort)
  | some d =>
    if s.dests[d].state = .absent then (s, .refuse .wrongState)
    else if s.dests[d].holder.isSome || s.dests[d].draining || anyCopyOn s d then (s, .refuse .inUse)
    else
      (changeDest d
          (s.dests[d].withRegion (adjustRegionBase base (adjustRegionLength length)) (adjustRegionLength length)) s,
        .taken
          (adjustRegionLength length != length || adjustRegionBase base (adjustRegionLength length) != base) .nothing)

def setRegionTaken (tag port base length : Nat) : Part → Part := directive tag 0x30 false (setRegion port base length)

/-- SET-REGION (R39). -/
def execSetRegion (tag port base length : Nat) (s : State) : Host.Outcome State Fault Refusal :=
  .next (s.onPart (ingress (.setRegion tag port base length) (setRegionTaken tag port base length)))

/-! ## SET-STALL -/

/-- R40: the check and the effect of SET-STALL; a count in progress goes on from its value (R33). -/
def setStall (port limit : Nat) (s : Part) : Part × Reply :=
  match asDest s port with
  | none => (s, .refuse .noPort)
  | some d =>
    (writeDest d { s.dests[d] with stallLimit := adjustStall limit } s, .taken (adjustStall limit != limit) .nothing)

def setStallTaken (tag port limit : Nat) : Part → Part := directive tag 0x31 false (setStall port limit)

/-- SET-STALL (R40). -/
def execSetStall (tag port limit : Nat) (s : State) : Host.Outcome State Fault Refusal :=
  .next (s.onPart (ingress (.setStall tag port limit) (setStallTaken tag port limit)))

/-! ## CLOSE-DEST -/

/-- R41: the checks and the effect of CLOSE-DEST. -/
def closeDest (port : Nat) (s : Part) : Part × Reply :=
  match asDest s port with
  | none => (s, .refuse .noPort)
  | some d =>
    match s.dests[d].state with
    | .active | .full => (changeDest d { s.dests[d] with state := .closed } s, .done)
    | .closed => (s, .done)
    | .absent | .unset | .stalled => (s, .refuse .wrongState)

def closeDestTaken (tag port : Nat) : Part → Part := directive tag 0x32 false (closeDest port)

/-- CLOSE-DEST (R41). -/
def execCloseDest (tag port : Nat) (s : State) : Host.Outcome State Fault Refusal :=
  .next (s.onPart (ingress (.closeDest tag port) (closeDestTaken tag port)))

/-! ## REVIVE-DEST -/

/-- R42: the state REVIVE-DEST returns a destination to, none where it is refused. An UNSET destination with a length and no
return state does not arise (log entry 15). -/
def Dest.revivesTo (x : Dest) : Option DestState :=
  match x.state with
  | .stalled => x.ret.map Service.state
  | .unset => if x.length = 0 then none else x.ret.map Service.state
  | _ => none

/-- R42: the checks and the effect of REVIVE-DEST. -/
def reviveDest (port : Nat) (s : Part) : Part × Reply :=
  match asDest s port with
  | none => (s, .refuse .noPort)
  | some d =>
    match s.dests[d].revivesTo with
    | some st => (changeDest d { s.dests[d] with state := st, ret := none } s, .done)
    | none => (s, .refuse .wrongState)

def reviveDestTaken (tag port : Nat) : Part → Part := directive tag 0x33 false (reviveDest port)

/-- REVIVE-DEST (R42). -/
def execReviveDest (tag port : Nat) (s : State) : Host.Outcome State Fault Refusal :=
  .next (s.onPart (ingress (.reviveDest tag port) (reviveDestTaken tag port)))

/-! ## QUERY-DEST -/

/-- R43: the record QUERY-DEST answers. -/
def destReport (x : Dest) (pointer : CardId) : DestReport where
  state := x.state
  ret := x.ret
  base := x.base
  length := x.length
  cursor := x.cursor
  stallLimit := x.stallLimit
  stallTimer := x.stallTimer
  holder := x.holder
  draining := x.draining
  stores := x.stores.length
  fetches := x.fetches.length
  paceP := x.paceP
  paceS := x.paceS
  credit := x.credit
  queued := x.queue.length
  contextClip := x.context.map VerifyContext.clip
  pointer := pointer

/-- R43. -/
def queryDest (port : Nat) (s : Part) : Part × Reply :=
  match asDest s port with
  | none => (s, .refuse .noPort)
  | some d => (s, .taken false (.destRecord (destReport s.dests[d] s.grantPointer)))

def queryDestTaken (tag port : Nat) : Part → Part := directive tag 0x34 true (queryDest port)

/-- QUERY-DEST (R43). -/
def execQueryDest (tag port : Nat) (s : State) : Host.Outcome State Fault Refusal :=
  .next (s.onPart (ingress (.queryDest tag port) (queryDestTaken tag port)))

/-! ## Link events and the stall -/

/-- R26: a link-up event moves a fitted destination from ABSENT to UNSET, all else kept. -/
def destLinkUp (d : DestId) (s : Part) : Part :=
  if d.val < s.reset.dests ∧ s.dests[d].state = .absent then
    afterEvent (writeDest d { s.dests[d] with state := .unset } s)
  else s

/-- DEST_LINK_UP (R26). -/
def execDestLinkUp (d : DestId) (s : State) : Host.Outcome State Fault Refusal :=
  .next (s.onPart (unlessReset (destLinkUp d)))

/-- R28, R35: the requests outstanding on a destination. -/
def Dest.outstanding (x : Dest) : Nat := x.stores.length + x.fetches.length

/-- R28, R35: a destination out of service: its return state set, every request counted failed, its timer stopped and its
draining flag no. -/
def Dest.lost (st : DestState) (ret : Option Service) (x : Dest) : Dest :=
  { x with state := st, ret := ret, stores := [], fetches := [], stallTimer := none, draining := false }

/-- R28, R35: what the loss of a destination's service brings about: the requests fail, its holder's attempt loses it, its
verify stops, the fault is raised, and channels waiting for its draining and an attempt left empty hear of it. -/
def loseDest (d : DestId) (st : DestState) (ret : Option Service) (kind : FaultKind) (s : Part) : Part :=
  let s1 := stopVerify d (leaveAttempt d (writeDest d (s.dests[d].lost st ret) s))
  let s2 := raise ⟨kind, none, none, some d, none, s.dests[d].outstanding⟩ s1
  let s3 := if s.dests[d].draining then drainEnded d s2 else s2
  afterEvent (match s.dests[d].holder with
    | some k => endAttemptOf k s3
    | none => s3)

/-- R28: the return state after a link loss: the service state it was in, or the one it kept. -/
def Dest.keptReturn (x : Dest) : Option Service :=
  match x.state.service with
  | some v => some v
  | none => x.ret

/-- R28: a link-down event on a destination that is not ABSENT. -/
def destLinkDown (d : DestId) (s : Part) : Part :=
  if d.val < s.reset.dests ∧ s.dests[d].state ≠ .absent then
    loseDest d .absent s.dests[d].keptReturn .destLost s
  else s

/-- DEST_LINK_DOWN (R28). -/
def execDestLinkDown (d : DestId) (s : State) : Host.Outcome State Fault Refusal :=
  .next (s.onPart (unlessReset (destLinkDown d)))

/-- R35: the stall timer reaches 0; the event comes about only while the timer runs (R33). -/
def stallTimeout (d : DestId) (s : Part) : Part :=
  if s.dests[d].stallTimer.isSome then loseDest d .stalled s.dests[d].keptReturn .destStall s else s

/-- STALL_TIMEOUT (R35). -/
def execStallTimeout (d : DestId) (s : State) : Host.Outcome State Fault Refusal :=
  .next (s.onPart (unlessReset (stallTimeout d)))

/-! ## STOREs -/

/-- A STORE that is ready: the channel of the holder's attempt, its clip, the block and its bytes. -/
structure ReadyStore where
  channel : PortId
  clip    : ClipId
  block   : Nat
  data    : List Byte
  deriving DecidableEq, Repr

/-- The bytes of a block a channel holds. -/
def Channel.heldData (c : Channel) (block : Nat) : Option (List Byte) :=
  (c.held.find? fun b => b.block == block).bind Held.data

/-- R54: the digested block a destination of the writing set is to be sent next, while it has fewer than 8 STOREs
outstanding. -/
def readyStore (s : Part) (d : DestId) : Option ReadyStore :=
  match s.dests[d].holder with
  | none => none
  | some k =>
    match runningChannel s k with
    | none => none
    | some p =>
      if s.channels[p].writing.mem d = true ∧ s.channels[p].sendIndex[d] < s.channels[p].nextDigest
          ∧ s.dests[d].stores.length < Config.maxStores then
        (s.channels[p].heldData s.channels[p].sendIndex[d]).map fun data =>
          ⟨p, k, s.channels[p].sendIndex[d], data⟩
      else none

/-- R31, R33, R54: the destination after its link has taken the STORE. -/
def Dest.storeSent (r : ReadyStore) (x : Dest) : Dest :=
  { x with
    stores := x.stores ++ [⟨x.tagCounter, r.block, r.clip⟩]
    tagCounter := nextTag x.tagCounter
    stallTimer := x.timerAfterSend }

/-- R54: the channel after the block has been sent to the destination; a block sent to all is freed (R48). -/
def Channel.stored (d : DestId) (block : Nat) (c : Channel) : Channel :=
  { c with sendIndex := c.sendIndex.set d (block + 1) }.freeSent

/-- R31, R54: the destination link takes the STORE that is ready; a read-back FETCH that is ready goes first (log entry
11). -/
def sendStore (d : DestId) (s : Part) : Part :=
  match readyStore s d, readyRead s d with
  | some r, none =>
    writeDest d (s.dests[d].storeSent r)
      (setChannel r.channel (s.channels[r.channel].stored d r.block)
        { s with
          out := .dest d
            (storeParcel s.dests[d].tagCounter (s.dests[d].base + s.dests[d].cursor + 8 * r.block) r.data) :: s.out })
  | _, _ => s

/-- SEND_STORE (R54). -/
def execSendStore (d : DestId) (s : State) : Host.Outcome State Fault Refusal :=
  .next (s.onPart (unlessReset (sendStore d)))

/-! ## STORE-DONE -/

/-- R32, R33: the STORE of a tag leaves the outstanding list and the stall timer is set back; where the tag counter has wrapped
and two have the tag, both leave (DESIGN CHOICE, log entry 23). -/
def Dest.storeTaken (tag : Nat) (x : Dest) : Dest :=
  Dest.answered { x with stores := x.stores.filter fun r => r.tag != tag }

/-- R83: a STORE-DONE taken with success toward a completion adds 1 to the credit, up to the ratio. -/
def Dest.earned (x : Dest) : Dest := { x with credit := min (x.credit + 1) x.ratio }

/-- R36: a draining answer; draining ends when no STORE is outstanding. -/
def drainingAnswer (d : DestId) (s : Part) : Part :=
  if s.dests[d].stores.isEmpty then
    afterEvent (drainEnded d (writeDest d { s.dests[d] with draining := false } s))
  else s

/-- R29, R55: the destination has finished: the copy is WRITTEN at the cursor, which advances, and the destination moves from
the writing set to the finished set. -/
def completeDest (d : DestId) (k : ClipId) (p : PortId) (sectors : Nat) (s : Part) : Part :=
  let s1 := modClip k (fun c => { c with copies := c.copies.set d (.written s.dests[d].cursor) }) s
  let s2 := writeDest d { s1.dests[d] with cursor := s1.dests[d].cursor + sectors, holder := none } s1
  let c := s2.channels[p].without d
  afterEvent (endIfEmpty p (setChannel p { c with finished := c.finished.insert d } s2))

/-- R29: every block of the holder has been sent to the destination, and answered. -/
def allStored (s : Part) (d : DestId) (p : PortId) (blocks : Nat) : Bool :=
  s.channels[p].sendIndex[d] == blocks && s.dests[d].stores.isEmpty

/-- R55: a STORE-DONE with success status on a destination of the writing set. -/
def storeSucceeded (d : DestId) (k : ClipId) (s : Part) : Part :=
  let s1 := writeDest d s.dests[d].earned s
  match runningChannel s k, s.clips[k] with
  | some p, some c =>
    if allStored s1 d p (blocksOf c.length) then completeDest d k p (sectorsOf c.length) s1 else s1
  | _, _ => s1

/-- R55: a STORE-DONE with ERROR status: STORE_ERROR, and the destination is withdrawn. -/
def storeFailed (d : DestId) (k : ClipId) (block : Nat) (s : Part) : Part :=
  afterEvent (endAttemptOf k (leaveAttempt d (raise (clipReport s .storeError k (some d) block) s)))

/-- R32, R36, R55, R169: a STORE-DONE is matched by tag against the outstanding STOREs; a damaged one answers none. -/
def storeDone (d : DestId) (b : Rx) (s : Part) : Part :=
  if damaged 0x04 b then s
  else
    match s.dests[d].stores.find? fun r => r.tag == b.tag with
    | none => s
    | some r =>
      let s1 := writeDest d (s.dests[d].storeTaken b.tag) s
      if s.dests[d].draining then drainingAnswer d s1
      else
        match s.dests[d].holder with
        | some k => if b.status = 0 then storeSucceeded d k s1 else storeFailed d k r.block s1
        | none => s1

/-- STORE_DONE (R55). -/
def execStoreDone (d : DestId) (b : Rx) (s : State) : Host.Outcome State Fault Refusal :=
  .next (s.onPart (unlessReset (storeDone d b)))

end Sys2Proof.Machine
end

