-- ==== Sys2Proof/Machine/Form.lean ====
section
/-! DEFINITION. DIRECTIVE parcels: the directive table and item layouts of spec/10, section 10.2, the form checks of R176, the
command a well-formed parcel spells, and the parcel that spells a command. -/

namespace Sys2Proof.Machine

/-! ## The directive table -/

/-- Section 10.2: the item size and the range of N of a directive code; none for a code that is not in the table. A code
without items has size 0. -/
def directiveShape : Nat → Option (Nat × Nat × Nat)
  | 0x10 => some (19, 1, 1)
  | 0x11 => some (60, 1, 512)
  | 0x12 => some (0, 0, 0)
  | 0x13 => some (0, 0, 0)
  | 0x14 => some (0, 0, 0)
  | 0x15 => some (0, 0, 0)
  | 0x20 => some (1, 0, 6)
  | 0x21 => some (0, 0, 0)
  | 0x22 => some (0, 0, 0)
  | 0x23 => some (0, 0, 0)
  | 0x24 => some (0, 0, 0)
  | 0x25 => some (0, 0, 0)
  | 0x26 => some (0, 0, 0)
  | 0x30 => some (16, 1, 1)
  | 0x31 => some (2, 1, 1)
  | 0x32 => some (0, 0, 0)
  | 0x33 => some (0, 0, 0)
  | 0x34 => some (0, 0, 0)
  | 0x38 => some (2, 1, 1)
  | 0x40 => some (27, 1, 1)
  | 0x41 => some (2, 1, 257)
  | 0x42 => some (6, 1, 512)
  | 0x43 => some (0, 0, 0)
  | 0x44 => some (1, 1, 1)
  | 0x45 => some (3, 1, 1)
  | 0x50 => some (16, 1, 1)
  | 0x51 => some (8, 1, 65535)
  | 0x52 => some (5, 1, 65535)
  | 0x60 => some (0, 0, 0)
  | 0x70 => some (0, 0, 0)
  | 0x71 => some (0, 0, 0)
  | 0x72 => some (0, 0, 0)
  | _ => none

/-- R118, R176 cause 6: the range a LOAD-CURVE writes lies outside a curve. -/
def curveRangeBad (channel start n : Nat) : Bool := decide (2 < channel) || decide (257 < start + n)

/-- R119, R176 cause 6: the range a LOAD-LATTICE writes lies outside the lattice. -/
def latticeRangeBad (start n : Nat) : Bool := decide (4913 < start + n)

/-- R176 cause 6 for the code, argument and item count of a parcel. -/
def itemRangeBad (code argument n : Nat) : Bool :=
  if code = 0x41 then curveRangeBad (argument / 65536 % 256) (argument % 65536) n
  else if code = 0x42 then latticeRangeBad (argument % 65536) n
  else false

/-! ## Reading the items -/

/-- The first `n` groups of `size` bytes. -/
def chunks (size : Nat) : Nat → List Byte → List (List Byte)
  | 0, _ => []
  | n + 1, bytes => bytes.take size :: chunks size n (bytes.drop size)

/-- A signed 32-bit field (section 10.2). -/
def signed32 (v : Nat) : Int := if v < 2 ^ 31 then v else (v : Int) - 2 ^ 32

/-- Section 10.2: a LIST-CLIPS item. A field whose presence bit is clear is absent. -/
def readClipItem (x : List Byte) : ClipItem where
  name := x.take 32
  start := field x 32 5
  length := field x 37 5
  camera := field x 42 1 % 16
  timebase := field x 42 1 / 16
  firstTc :=
    if (x.getD 43 0).getLsbD 0 then some (timecodeAt x 44 (x.getD 51 0 != 0)) else none
  expected := if (x.getD 43 0).getLsbD 1 then some (field x 48 3) else none
  cameraDigest := if (x.getD 43 0).getLsbD 2 then some (field x 52 8) else none

/-- Section 10.2: the SET-LOOK item. -/
def readLookItem (x : List Byte) : LookItem where
  slopes := ⟨field x 0 4, field x 4 4, field x 8 4⟩
  offsets := ⟨signed32 (field x 12 4), signed32 (field x 16 4), signed32 (field x 20 4)⟩
  saturation := field x 24 2
  lattice := field x 26 1

/-- Section 10.2: the SET-PROFILE item. -/
def readProfileItem (x : List Byte) : ProfileItem :=
  ⟨field x 0 2, field x 2 4, field x 6 2, field x 8 4, field x 12 4⟩

/-- Section 10.2: a WATCH-PIXEL item. -/
def readWatchItem (x : List Byte) : WatchItem := ⟨field x 0 1, field x 1 2, field x 3 2, field x 5 2, field x 7 1⟩

/-- Section 10.2: an UNWATCH-PIXEL item. -/
def readUnwatchItem (x : List Byte) : UnwatchItem := ⟨field x 0 1, field x 1 2, field x 3 2⟩

/-- Section 10.2: a LOAD-LATTICE entry. -/
def readLatticeEntry (x : List Byte) : Rgb Nat := ⟨field x 0 2, field x 2 2, field x 4 2⟩

/-- The command of a directive code with its tag, target, argument and items (section 10.2); `items` holds the bytes after
the argument, cut at the code's item size. -/
def directiveCommand (code tag target argument : Nat) (items : List (List Byte)) : Option Instr :=
  let item := items.headD []
  match code with
  | 0x10 => some (.mount tag target (item.take 16) (field item 16 1) (field item 17 1) (field item 18 1))
  | 0x11 => some (.listClips tag target (items.map readClipItem))
  | 0x12 => some (.dismount tag target)
  | 0x13 => some (.retire tag target)
  | 0x14 => some (.queryCard tag target)
  | 0x15 => some (.queryClip tag target)
  | 0x20 => some (.route tag target (items.map leNat))
  | 0x21 => some (.start tag target)
  | 0x22 => some (.suspend tag target)
  | 0x23 => some (.resume tag target)
  | 0x24 => some (.abort tag target)
  | 0x25 => some (.recopy tag target)
  | 0x26 => some (.haltAll tag)
  | 0x30 => some (.setRegion tag target (field item 0 8) (field item 8 8))
  | 0x31 => some (.setStall tag target (field item 0 2))
  | 0x32 => some (.closeDest tag target)
  | 0x33 => some (.reviveDest tag target)
  | 0x34 => some (.queryDest tag target)
  | 0x38 => some (.setPacing tag target (field item 0 1) (field item 1 1))
  | 0x40 => some (.setLook tag target (readLookItem item))
  | 0x41 => some (.loadCurve tag target (argument / 65536 % 256) (argument % 65536) (items.map leNat))
  | 0x42 => some (.loadLattice tag target (argument % 65536) (items.map readLatticeEntry))
  | 0x43 => some (.commitLook tag target)
  | 0x44 => some (.mapCamera tag target (field item 0 1))
  | 0x45 => some (.setCompare tag (field item 0 1) (field item 1 2))
  | 0x50 => some (.setProfile tag target (readProfileItem item))
  | 0x51 => some (.watchPixel tag (items.map readWatchItem))
  | 0x52 => some (.unwatchPixel tag (items.map readUnwatchItem))
  | 0x60 => some (.waive tag target (argument % 65536))
  | 0x70 => some (.clearStatus tag)
  | 0x71 => some (.resetPart tag)
  | 0x72 => some (.queryPart tag)
  | _ => none

/-! ## The form checks (R176) -/

/-- What the form checks make of a DIRECTIVE parcel: a cause with the tag and code its answer carries, or the command of a
well-formed one. -/
inductive FormResult where
  | bad (cause tag code : Nat)
  | good (c : Instr)
  deriving DecidableEq, Repr

/-- R176: the checks of a DIRECTIVE parcel, in their order; check 7 is the kind's and is made before (R174). -/
def formCheck (p : Rx) : FormResult :=
  let x := p.payload
  let code := field x 0 1
  let tag := field x 2 2
  let n := field x 6 2
  let argument := field x 8 4
  if damaged 0x10 p then .bad 1 65535 255
  else if x.length < 12 then .bad 4 65535 255
  else if field x 1 1 ≠ 255 - code then .bad 2 tag code
  else
    match directiveShape code with
    | none => .bad 3 tag code
    | some (size, lo, hi) =>
      if x.length ≠ 12 + n * size then .bad 4 tag code
      else if n < lo ∨ hi < n then .bad 5 tag code
      else if itemRangeBad code argument n then .bad 6 tag code
      else
        match directiveCommand code tag (field x 4 2) argument (chunks size n (x.drop 12)) with
        | some c => .good c
        | none => .bad 3 tag code

/-! ## Writing a DIRECTIVE parcel -/

/-- Section 10.2: the payload of a DIRECTIVE. -/
def directivePayload (code tag target argument : Nat) (items : List (List Byte)) : List Byte :=
  leBytes 1 code ++ leBytes 1 (255 - code) ++ leBytes 2 tag ++ leBytes 2 target ++ leBytes 2 items.length
    ++ leBytes 4 argument ++ items.flatten

/-- A signed value as 32 bits. -/
def unsigned32 (v : Int) : Nat := (v % 2 ^ 32).toNat

/-- Section 10.2: the bytes of a LIST-CLIPS item; the bytes of an absent field are zero. -/
def clipItemBytes (i : ClipItem) : List Byte :=
  i.name ++ leBytes 5 i.start ++ leBytes 5 i.length ++ leBytes 1 (i.camera + 16 * i.timebase)
    ++ leBytes 1 (setValue [i.firstTc.isSome, i.expected.isSome, i.cameraDigest.isSome])
    ++ (match i.firstTc with
        | some t => [t.ff, t.ss, t.mm, t.hh]
        | none => leBytes 4 0)
    ++ leBytes 3 (i.expected.getD 0)
    ++ flagByte ((i.firstTc.map Timecode.drop).getD false)
    ++ leBytes 8 (i.cameraDigest.getD 0)

/-- Section 10.2: the bytes of the SET-LOOK item. -/
def lookItemBytes (i : LookItem) : List Byte :=
  leBytes 4 i.slopes.r ++ leBytes 4 i.slopes.g ++ leBytes 4 i.slopes.b
    ++ leBytes 4 (unsigned32 i.offsets.r) ++ leBytes 4 (unsigned32 i.offsets.g) ++ leBytes 4 (unsigned32 i.offsets.b)
    ++ leBytes 2 i.saturation ++ leBytes 1 i.lattice

/-- Section 10.2: the bytes of the SET-PROFILE item. -/
def profileItemBytes (i : ProfileItem) : List Byte :=
  leBytes 2 i.highLevel ++ leBytes 4 i.highLimit ++ leBytes 2 i.lowLevel ++ leBytes 4 i.lowLimit ++ leBytes 4 i.excLimit

/-- Section 10.2: the payload that spells a directive; none for a command that is no directive. A target or argument the
table shows as a dash is written 0. -/
def directiveBytes : Instr → Option (List Byte)
  | .mount tag port label copies review mode =>
    some (directivePayload 0x10 tag port 0 [label ++ leBytes 1 copies ++ leBytes 1 review ++ leBytes 1 mode])
  | .listClips tag card items => some (directivePayload 0x11 tag card 0 (items.map clipItemBytes))
  | .dismount tag card => some (directivePayload 0x12 tag card 0 [])
  | .retire tag card => some (directivePayload 0x13 tag card 0 [])
  | .queryCard tag card => some (directivePayload 0x14 tag card 0 [])
  | .queryClip tag clip => some (directivePayload 0x15 tag clip 0 [])
  | .route tag card ports => some (directivePayload 0x20 tag card 0 (ports.map (leBytes 1)))
  | .start tag card => some (directivePayload 0x21 tag card 0 [])
  | .suspend tag card => some (directivePayload 0x22 tag card 0 [])
  | .resume tag card => some (directivePayload 0x23 tag card 0 [])
  | .abort tag card => some (directivePayload 0x24 tag card 0 [])
  | .recopy tag card => some (directivePayload 0x25 tag card 0 [])
  | .haltAll tag => some (directivePayload 0x26 tag 0 0 [])
  | .setRegion tag port base length =>
    some (directivePayload 0x30 tag port 0 [leBytes 8 base ++ leBytes 8 length])
  | .setStall tag port limit => some (directivePayload 0x31 tag port 0 [leBytes 2 limit])
  | .closeDest tag port => some (directivePayload 0x32 tag port 0 [])
  | .reviveDest tag port => some (directivePayload 0x33 tag port 0 [])
  | .queryDest tag port => some (directivePayload 0x34 tag port 0 [])
  | .setPacing tag port p e => some (directivePayload 0x38 tag port 0 [leBytes 1 p ++ leBytes 1 e])
  | .setLook tag slot item => some (directivePayload 0x40 tag slot 0 [lookItemBytes item])
  | .loadCurve tag slot channel start entries =>
    some (directivePayload 0x41 tag slot (start + 65536 * channel) (entries.map (leBytes 2)))
  | .loadLattice tag slot start entries =>
    some (directivePayload 0x42 tag slot start
      (entries.map fun x => leBytes 2 x.r ++ leBytes 2 x.g ++ leBytes 2 x.b))
  | .commitLook tag slot => some (directivePayload 0x43 tag slot 0 [])
  | .mapCamera tag camera code => some (directivePayload 0x44 tag camera 0 [leBytes 1 code])
  | .setCompare tag on split => some (directivePayload 0x45 tag 0 0 [leBytes 1 on ++ leBytes 2 split])
  | .setProfile tag camera item => some (directivePayload 0x50 tag camera 0 [profileItemBytes item])
  | .watchPixel tag items =>
    some (directivePayload 0x51 tag 0 0 (items.map fun i =>
      leBytes 1 i.camera ++ leBytes 2 i.column ++ leBytes 2 i.line ++ leBytes 2 i.level ++ leBytes 1 i.run))
  | .unwatchPixel tag items =>
    some (directivePayload 0x52 tag 0 0 (items.map fun i =>
      leBytes 1 i.camera ++ leBytes 2 i.column ++ leBytes 2 i.line))
  | .waive tag card generation => some (directivePayload 0x60 tag card generation [])
  | .clearStatus tag => some (directivePayload 0x70 tag 0 0 [])
  | .resetPart tag => some (directivePayload 0x71 tag 0 0 [])
  | .queryPart tag => some (directivePayload 0x72 tag 0 0 [])
  | _ => none

/-- A whole, undamaged received parcel of the kind given (R169). -/
def sealRx (kind status tag : Nat) (payload : List Byte) : Rx :=
  ⟨status, tag, payload.length, parcelCheck kind status tag payload.length payload, payload⟩

/-- The DIRECTIVE parcel that spells a command. -/
def directiveParcel (c : Instr) : Option Rx := (directiveBytes c).map (sealRx 0x10 0 0)

end Sys2Proof.Machine
end

