-- ==== Sys2Proof/Machine/Looks.lean ====
section
/-! DEFINITION. The commands of the chapter Looks and the Grading Pipeline: the staging writes SET-LOOK, LOAD-CURVE and
LOAD-LATTICE, and COMMIT-LOOK, MAP-CAMERA and SET-COMPARE. -/

namespace Sys2Proof.Machine

/-! ## Staging writes -/

/-- R103, R116: a look slot after a staging write. -/
def LookSlot.stage (f : Bank → Bank) (x : LookSlot) : LookSlot := { x with staging := f x.staging, state := .loaded }

/-- R103: a STAGING bank whose commit waits for the open frame. -/
def Staging.isPending : Staging → Bool
  | .pending _ => true
  | _ => false

/-- R116: the checks of a staging write and its effect. -/
def stagingWrite (slot : Nat) (adjusted : Bool) (f : Bank → Bank) (s : Part) : Part × Reply :=
  match asSlot slot with
  | none => (s, .refuse .notFound)
  | some k =>
    if s.looks[k].state.isPending then (s, .refuse .collision)
    else ({ s with looks := s.looks.set k (s.looks[k].stage f) }, .taken adjusted .nothing)

/-- R117: the scalar fields of a bank, from an item already adjusted. -/
def Bank.withScalars (i : LookItem) (b : Bank) : Bank :=
  { b with slope := i.slopes, offset := i.offsets, saturation := i.saturation, latticeOn := i.lattice != 0 }

/-- R117: SET-LOOK. -/
def setLook (slot : Nat) (item : LookItem) : Part → Part × Reply :=
  stagingWrite slot (decide (adjustLook item ≠ item)) (Bank.withScalars (adjustLook item))

def setLookTaken (tag slot : Nat) (item : LookItem) : Part → Part := directive tag 0x40 false (setLook slot item)

/-- SET-LOOK (R117). -/
def execSetLook (tag slot : Nat) (item : LookItem) (s : State) : Host.Outcome State Fault Refusal :=
  .next (s.onPart (ingress (.setLook tag slot item) (setLookTaken tag slot item)))

/-- R118: the entries of a curve from `start` on replaced by those given. -/
def curveWritten (start : Nat) (entries : List Nat) (curve : Vector Nat 257) : Vector Nat 257 :=
  mapEach (fun i v => if start ≤ i then (entries[i - start]?).getD v else v) curve

/-- R118: the curve of one channel, 0 for R, 1 for G, 2 for B, changed. -/
def Bank.withCurve (channel start : Nat) (entries : List Nat) (b : Bank) : Bank :=
  match channel with
  | 0 => { b with curve := { b.curve with r := curveWritten start entries b.curve.r } }
  | 1 => { b with curve := { b.curve with g := curveWritten start entries b.curve.g } }
  | _ => { b with curve := { b.curve with b := curveWritten start entries b.curve.b } }

/-- R118: LOAD-CURVE. -/
def loadCurve (slot channel start : Nat) (entries : List Nat) : Part → Part × Reply :=
  stagingWrite slot false (Bank.withCurve channel start entries)

/-- R118, R176 causes 5 and 6. -/
def loadCurveTaken (tag slot channel start : Nat) (entries : List Nat) : Part → Part :=
  if entries.length = 0 ∨ 257 < entries.length then malformed 5 tag 0x41
  else if curveRangeBad channel start entries.length then malformed 6 tag 0x41
  else directive tag 0x41 false (loadCurve slot channel start entries)

/-- LOAD-CURVE (R118). -/
def execLoadCurve (tag slot channel start : Nat) (entries : List Nat) (s : State) : Host.Outcome State Fault Refusal :=
  .next (s.onPart (ingress (.loadCurve tag slot channel start entries)
    (loadCurveTaken tag slot channel start entries)))

/-- Section 6.1: the index of a lattice entry. -/
def latticeIndex (r g b : Nat) : Nat := r + 17 * g + 289 * b

/-- R119: the lattice entries from index `start` on replaced by those given. -/
def Bank.withLattice (start : Nat) (entries : List (Rgb Nat)) (x : Bank) : Bank :=
  { x with
    lattice := mapEach (fun b plane => mapEach (fun g row => mapEach (fun r v =>
      if start ≤ latticeIndex r g b then (entries[latticeIndex r g b - start]?).getD v else v) row) plane) x.lattice }

/-- R119: LOAD-LATTICE. -/
def loadLattice (slot start : Nat) (entries : List (Rgb Nat)) : Part → Part × Reply :=
  stagingWrite slot false (Bank.withLattice start entries)

/-- R119, R176 causes 5 and 6. -/
def loadLatticeTaken (tag slot start : Nat) (entries : List (Rgb Nat)) : Part → Part :=
  if entries.length = 0 ∨ 512 < entries.length then malformed 5 tag 0x42
  else if latticeRangeBad start entries.length then malformed 6 tag 0x42
  else directive tag 0x42 false (loadLattice slot start entries)

/-- LOAD-LATTICE (R119). -/
def execLoadLattice (tag slot start : Nat) (entries : List (Rgb Nat)) (s : State) : Host.Outcome State Fault Refusal :=
  .next (s.onPart (ingress (.loadLattice tag slot start entries) (loadLatticeTaken tag slot start entries)))

/-! ## COMMIT-LOOK -/

/-- R120: a slot is in use by the open frame. -/
def slotInUse (s : Part) (k : SlotId) : Bool :=
  match s.frame with
  | some f => f.slotsInUse.contains k
  | none => false

/-- R120: a slot whose STAGING bank is committed. -/
def LookSlot.commit (x : LookSlot) : LookSlot := { x with live := x.staging, state := .clean }

/-- R120: the effect of COMMIT-LOOK on a slot and its outcome. -/
def commitSlot (tag : Nat) (k : SlotId) (s : Part) : Part × Reply :=
  match s.looks[k].state with
  | .clean => (s, .done)
  | .loaded =>
    if slotInUse s k then
      ({ s with looks := s.looks.set k { s.looks[k] with state := .pending tag } }, ⟨.deferred, .nothing⟩)
    else ({ s with looks := s.looks.set k s.looks[k].commit }, .done)
  | .pending _ =>
    ({ s with looks := s.looks.set k { s.looks[k] with state := .pending tag } }, ⟨.deferred, .nothing⟩)

/-- R120: COMMIT-LOOK. -/
def commitLook (tag slot : Nat) (s : Part) : Part × Reply :=
  match asSlot slot with
  | none => (s, .refuse .notFound)
  | some k => commitSlot tag k s

def commitLookTaken (tag slot : Nat) : Part → Part := directive tag 0x43 false (commitLook tag slot)

/-- COMMIT-LOOK (R120). -/
def execCommitLook (tag slot : Nat) (s : State) : Host.Outcome State Fault Refusal :=
  .next (s.onPart (ingress (.commitLook tag slot) (commitLookTaken tag slot)))

/-! ## MAP-CAMERA and SET-COMPARE -/

/-- R123: MAP-CAMERA. -/
def mapCamera (camera code : Nat) (s : Part) : Part × Reply :=
  match asCamera camera with
  | none => (s, .refuse .notFound)
  | some t =>
    ({ s with cameraMap := s.cameraMap.set t (slotOfCode code) }, .taken (slotCodeAdjusted code) .nothing)

def mapCameraTaken (tag camera code : Nat) : Part → Part := directive tag 0x44 false (mapCamera camera code)

/-- MAP-CAMERA (R123). -/
def execMapCamera (tag camera code : Nat) (s : State) : Host.Outcome State Fault Refusal :=
  .next (s.onPart (ingress (.mapCamera tag camera code) (mapCameraTaken tag camera code)))

/-- R124: SET-COMPARE. -/
def setCompare (on split : Nat) (s : Part) : Part × Reply :=
  ({ s with compare := ⟨on != 0, min split 4096⟩ }, .taken (decide (4096 < split)) .nothing)

def setCompareTaken (tag on split : Nat) : Part → Part := directive tag 0x45 false (setCompare on split)

/-- SET-COMPARE (R124). -/
def execSetCompare (tag on split : Nat) (s : State) : Host.Outcome State Fault Refusal :=
  .next (s.onPart (ingress (.setCompare tag on split) (setCompareTaken tag on split)))

end Sys2Proof.Machine
end

