-- ==== Sys2Proof/Machine/Grading.lean ====
section
/-! DEFINITION. The grading pipeline: the six stages of one pixel (R106 to R113), in exact integer arithmetic. Lean's `/` and
`%` on integers round toward minus infinity for the positive divisors used here, as section 4.1 of the introduction
asks of "floor". -/

namespace Sys2Proof.Machine

/-- R106: stage 1, expansion. -/
def expand (c : Nat) : Nat := 16 * c + c / 256

/-- R107, R109: a graded value clamped to 0 to 65,535. -/
def clampGraded (t : Int) : Nat := if t < 0 then 0 else if 65535 < t then 65535 else t.toNat

/-- R107, R109: whether the clamp changed the value. -/
def clampsGraded (t : Int) : Bool := decide (t < 0) || decide (65535 < t)

/-- R107: stage 2 before its clamp. -/
def slopeOffset (slope : Nat) (offset : Int) (v : Nat) : Int := ((v : Int) * slope + 2048) / 4096 + offset

/-- R108: an entry of a curve. -/
def curveEntry (curve : Vector Nat 257) (i : Nat) : Int := (curve[i]?.getD 0 : Nat)

/-- R108: stage 3, the curve. -/
def curveStage (curve : Vector Nat 257) (t : Nat) : Nat :=
  (curveEntry curve (t / 256)
    + ((curveEntry curve (t / 256 + 1) - curveEntry curve (t / 256)) * (t % 256 : Nat) + 128) / 256).toNat

/-- R109, R128: the luma of three values. -/
def luma (x : Rgb Nat) : Nat := (13933 * x.r + 46871 * x.g + 4732 * x.b + 32768) / 65536

/-- R109: stage 4 before its clamp, for one channel about the luma. -/
def saturate (saturation l x : Nat) : Int := l + (((x : Int) - l) * saturation + 2048) / 4096

/-- R110: a channel's cell in the lattice. -/
def latticeCell (x : Nat) : Nat := 16 * x / 65536

/-- R110: a channel's fraction in its cell. -/
def latticeFraction (x : Nat) : Nat := 16 * x % 65536

/-- R110: the three axes of the lattice. -/
inductive Axis where
  | r | g | b
  deriving DecidableEq, Repr

/-- R110: the axes ranked by fraction, largest first, R before G before B at equal fractions. -/
def rankAxes (f : Rgb Nat) : Axis × Axis × Axis :=
  if f.g ≤ f.r then
    if f.b ≤ f.g then (.r, .g, .b) else if f.b ≤ f.r then (.r, .b, .g) else (.b, .r, .g)
  else if f.b ≤ f.r then (.g, .r, .b)
  else if f.b ≤ f.g then (.g, .b, .r)
  else (.b, .g, .r)

def Axis.of {α : Type} (x : Rgb α) : Axis → α
  | .r => x.r
  | .g => x.g
  | .b => x.b

/-- R110: one step of the walk, 1 added on an axis. -/
def Axis.step (p : Rgb Nat) : Axis → Rgb Nat
  | .r => { p with r := p.r + 1 }
  | .g => { p with g := p.g + 1 }
  | .b => { p with b := p.b + 1 }

/-- R110: the lattice entry at a grid position. -/
def latticeAt (bank : Bank) (p : Rgb Nat) : Rgb Nat :=
  (((bank.lattice[p.b]?.bind (·[p.g]?)).bind (·[p.r]?))).getD ⟨0, 0, 0⟩

/-- R111: one component interpolated over the four vertices of the walk. -/
def interpolate (f1 f2 f3 c0 c1 c2 c3 : Nat) : Nat :=
  ((65536 * (c0 : Int) + f1 * ((c1 : Int) - c0) + f2 * ((c2 : Int) - c1) + f3 * ((c3 : Int) - c2) + 32768)
    / 65536).toNat

/-- R110, R111: stage 5, the lattice. -/
def latticeStage (bank : Bank) (x : Rgb Nat) : Rgb Nat :=
  let f := x.map latticeFraction
  let order := rankAxes f
  let p0 := x.map latticeCell
  let p1 := Axis.step p0 order.1
  let p2 := Axis.step p1 order.2.1
  let p3 := Axis.step p2 order.2.2
  let mix := interpolate (Axis.of f order.1) (Axis.of f order.2.1) (Axis.of f order.2.2)
  ⟨mix (latticeAt bank p0).r (latticeAt bank p1).r (latticeAt bank p2).r (latticeAt bank p3).r,
    mix (latticeAt bank p0).g (latticeAt bank p1).g (latticeAt bank p2).g (latticeAt bank p3).g,
    mix (latticeAt bank p0).b (latticeAt bank p1).b (latticeAt bank p2).b (latticeAt bank p3).b⟩

/-- R112: stage 6, output. -/
def monitorCode (y : Nat) : Nat := (y * 1023 + 32768) / 65536

/-- A graded pixel: its monitor codes and its excursion result (R113). -/
structure Graded where
  codes     : Rgb Nat
  excursion : Bool
  deriving DecidableEq, Repr

/-- Stage 2 of the three channels, before the clamp. -/
def stage2 (bank : Bank) (codes : Rgb Nat) : Rgb Int :=
  ⟨slopeOffset bank.slope.r bank.offset.r (expand codes.r), slopeOffset bank.slope.g bank.offset.g (expand codes.g),
    slopeOffset bank.slope.b bank.offset.b (expand codes.b)⟩

/-- Stage 3 of the three channels. -/
def stage3 (bank : Bank) (t : Rgb Nat) : Rgb Nat :=
  ⟨curveStage bank.curve.r t.r, curveStage bank.curve.g t.g, curveStage bank.curve.b t.b⟩

/-- Stage 4 of the three channels, before the clamp (R109: one luma for all three). -/
def stage4 (bank : Bank) (u : Rgb Nat) : Rgb Int := u.map (saturate bank.saturation (luma u))

/-- Whether any channel clamps. -/
def anyClamp (t : Rgb Int) : Bool := clampsGraded t.r || clampsGraded t.g || clampsGraded t.b

/-- R105 to R113: a pixel graded through a bank. -/
def gradeThrough (bank : Bank) (codes : Rgb Nat) : Graded :=
  let t := stage2 bank codes
  let x := stage4 bank (stage3 bank (t.map clampGraded))
  let y := if bank.latticeOn then latticeStage bank (x.map clampGraded) else x.map clampGraded
  ⟨y.map monitorCode, anyClamp t || anyClamp x⟩

/-- R104, R113: a pixel graded without a look. -/
def gradePlain (codes : Rgb Nat) : Graded := ⟨codes.map fun c => monitorCode (expand c), false⟩

/-- R90, R104: the slot a column of the frame is graded through. -/
def slotAt (f : OpenFrame) (column : Nat) : Option SlotId :=
  match f.slot with
  | none => none
  | some k => if f.compareOn && decide (f.split ≤ column) then some (k + 1) else some k

/-- R104, R105: a pixel of the open frame, graded through the LIVE bank of its column's slot. -/
def gradePixel (looks : Vector LookSlot 8) (f : OpenFrame) (column : Nat) (codes : Rgb Nat) : Graded :=
  match slotAt f column with
  | some k => gradeThrough looks[k].live codes
  | none => gradePlain codes

end Sys2Proof.Machine
end

