-- ==== Sys2Proof/Machine/Checks.lean ====
section
/-! DEFINITION. The check unit: counting a pixel (R128), the end-of-frame work (R129 to R137), timecode (R138 to R141) and
the frame statistics record (R142, R143). -/

namespace Sys2Proof.Machine

/-! ## Counting a pixel -/

def maxCode (c : Rgb Nat) : Nat := max c.r (max c.g c.b)

/-- R128: a pixel is counted on its codes and its excursion result. -/
def OpenFrame.count (codes : Rgb Nat) (excursion : Bool) (f : OpenFrame) : OpenFrame :=
  { f with
    pixelCount := f.pixelCount + 1
    highCount := f.highCount + (if f.profile.highLevel ≤ maxCode codes then 1 else 0)
    lowCount := f.lowCount + (if maxCode codes ≤ f.profile.lowLevel then 1 else 0)
    excCount := f.excCount + (if excursion then 1 else 0)
    lumaSum := f.lumaSum + luma codes }

/-- R128: the flags of a watched entry at the pixel's position. -/
def WatchEntry.see (line column : Nat) (codes : Rgb Nat) (e : WatchEntry) : WatchEntry :=
  match e.watched with
  | none => e
  | some w =>
    if e.column = column ∧ e.line = line then
      { e with watched := some ⟨true, w.hit || decide (e.level ≤ maxCode codes)⟩ }
    else e

/-- R127: the watched entries of a frame of the camera tag given. -/
def WatchEntry.arm (camera : Option CameraId) (e : WatchEntry) : WatchEntry :=
  { e with watched := if some e.camera = camera then some ⟨false, false⟩ else none }

/-! ## Faults of a frame -/

/-- R145: a report on the open frame: its clip and that clip's card, or neither, and its frame number and timecode. -/
def frameReport (s : Part) (f : OpenFrame) (kind : FaultKind) (detail : Nat) : Report :=
  ⟨kind, f.clip.bind (clipCard s), f.clip, none, some (f.number, f.tc), detail⟩

def raiseFrame (f : OpenFrame) (kind : FaultKind) (detail : Nat) (s : Part) : Part :=
  raise (frameReport s f kind detail) s

/-! ## Part 1: the clip change test (R130) -/

def checkedOf : Option ClipId → CheckedClip
  | some k => .clip k
  | none => .noClip

/-- R130: a frame of another clip than the checked clip clears the run flags and every run. -/
def clipChange (f : OpenFrame) (s : Part) : Part :=
  if s.checkedClip = checkedOf f.clip then s
  else
    { s with
      checkedClip := checkedOf f.clip
      runs := ⟨false, false, false⟩
      watch := s.watch.map fun e => { e with counter := 0, raised := false } }

/-! ## Part 2: the run-coalesced faults (R131) -/

/-- R131: one count against its limit, raised at the first frame of a run. -/
def runFault (f : OpenFrame) (kind : FaultKind) (count limit : Nat) (flag : Bool) (s : Part) : Part :=
  if limit < count ∧ flag = false then raiseFrame f kind count s else s

/-- R131: the three flags, in order. -/
def runFaults (f : OpenFrame) (s : Part) : Part :=
  let s1 := runFault f .exposureHigh f.highCount f.profile.highLimit s.runs.high s
  let s2 := runFault f .exposureLow f.lowCount f.profile.lowLimit s.runs.low s1
  let s3 := runFault f .gamutExcursion f.excCount f.profile.excLimit s.runs.exc s2
  { s3 with
    runs := ⟨decide (f.profile.highLimit < f.highCount), decide (f.profile.lowLimit < f.lowCount),
      decide (f.profile.excLimit < f.excCount)⟩ }

/-! ## Part 3: the hot-pixel runs (R135) -/

/-- R135: the run counter of an entry after a hitting frame. -/
def WatchEntry.advanced (e : WatchEntry) : Nat := min (e.counter + 1) 255

/-- R135: whether an entry raises HOT_PIXEL at this frame. -/
def WatchEntry.raises (e : WatchEntry) : Bool :=
  match e.watched with
  | some ⟨true, true⟩ => decide (e.run ≤ e.advanced) && !e.raised
  | _ => false

/-- R135: whether an entry was covered and hit. -/
def WatchEntry.isHit (e : WatchEntry) : Bool := e.watched == some ⟨true, true⟩

/-- R135: an entry after the frame, its flags discarded with the context (R129). -/
def WatchEntry.judged (e : WatchEntry) : WatchEntry :=
  match e.watched with
  | some ⟨true, true⟩ => { e with counter := e.advanced, raised := e.raised || e.raises, watched := none }
  | some ⟨true, false⟩ => { e with counter := 0, raised := false, watched := none }
  | _ => { e with watched := none }

/-- R135: HOT_PIXEL of an entry that raises it. -/
def raiseHot (f : OpenFrame) (s : Part) (e : WatchEntry) : Part :=
  if e.raises then raiseFrame f .hotPixel (e.column * 65536 + e.line) s else s

/-- R135: every watched entry is judged, in list order. -/
def hotPixels (f : OpenFrame) (s : Part) : Part :=
  s.watch.foldl (raiseHot f) { s with watch := s.watch.map WatchEntry.judged }

/-- R135: the frame's hot hits. -/
def hotHits (watch : List WatchEntry) : Nat := watch.countP WatchEntry.isHit

/-! ## Timecode (R138 to R141) -/

/-- R138: the rate of a timebase. -/
def Timebase.rate : Timebase → Nat
  | .t24 => 24
  | .t25 => 25
  | .t30 | .t30D => 30
  | .t48 => 48
  | .t50 => 50
  | .t60 => 60

/-- R139: the day length of a timebase. -/
def Timebase.dayLength : Timebase → Nat
  | .t24 => 2073600
  | .t25 => 2160000
  | .t30 => 2592000
  | .t30D => 2589408
  | .t48 => 4147200
  | .t50 => 4320000
  | .t60 => 5184000

/-- Every nibble of a BCD byte is 9 or less. -/
def bcdOk (b : Byte) : Bool := decide (b.toNat / 16 ≤ 9) && decide (b.toNat % 16 ≤ 9)

/-- The value of a BCD byte. -/
def bcdValue (b : Byte) : Nat := b.toNat / 16 * 10 + b.toNat % 16

/-- A value below 100 as a BCD byte. -/
def toBcd (n : Nat) : Nat := n / 10 * 16 + n % 10

/-- R138: whether a timecode is valid in a timebase. -/
def tcValid (tb : Timebase) (t : Timecode) : Bool :=
  bcdOk t.hh && bcdOk t.mm && bcdOk t.ss && bcdOk t.ff
    && decide (bcdValue t.hh ≤ 23) && decide (bcdValue t.mm ≤ 59) && decide (bcdValue t.ss ≤ 59)
    && decide (bcdValue t.ff < tb.rate)
    && !(tb == .t30D && decide (bcdValue t.ff < 2) && bcdValue t.ss == 0 && bcdValue t.mm % 10 != 0)
    && t.drop == (tb == .t30D)

/-- R138: the eight digits as received. -/
def tcDigits (t : Timecode) : Nat :=
  t.hh.toNat * 2 ^ 24 + t.mm.toNat * 2 ^ 16 + t.ss.toNat * 2 ^ 8 + t.ff.toNat

/-- R139: the minutes of a timecode. -/
def tcMinutes (t : Timecode) : Nat := bcdValue t.hh * 60 + bcdValue t.mm

/-- R139: the count of a valid timecode. -/
def tcCount (tb : Timebase) (t : Timecode) : Nat :=
  match tb with
  | .t30D =>
    (tcMinutes t * 60 + bcdValue t.ss) * 30 + bcdValue t.ff - 2 * (tcMinutes t - tcMinutes t / 10)
  | _ => (tcMinutes t * 60 + bcdValue t.ss) * tb.rate + bcdValue t.ff

/-- R141: a 30D count turned into a non-drop count. -/
def dropToNonDrop (e : Nat) : Nat :=
  e + 18 * (e / 17982) + (if 2 ≤ e % 17982 then 2 * ((e % 17982 - 2) / 1798) else 0)

/-- R141: the expected timecode of a count, as its eight BCD digits. -/
def expectedDigits (tb : Timebase) (e : Nat) : Nat :=
  let n := if tb = .t30D then dropToNonDrop e else e
  let r := tb.rate
  toBcd (n / (3600 * r)) * 2 ^ 24 + toBcd (n / (60 * r) % 60) * 2 ^ 16 + toBcd (n / r % 60) * 2 ^ 8 + toBcd (n % r)

/-! ## Parts 4 and 5: continuity (R136 to R140) -/

/-- R136: whether frame number `n` is a repeat for a clip. -/
def isRepeat (c : Clip) (n : Nat) : Bool :=
  match c.lastFrame with
  | some l => decide (n ≤ l)
  | none => false

/-- R136: the fault of part 4. -/
def frameNumberFault (c : Clip) (n : Nat) : Option (FaultKind × Nat) :=
  match c.lastFrame with
  | none => none
  | some l =>
    if n ≤ l then some (.frameRepeat, l) else if l + 1 < n then some (.frameGap, n - l - 1) else none

/-- R138: the frames a clip has advanced by at frame number `n`. -/
def advanceBy (c : Clip) (n : Nat) : Nat := n - c.lastFrame.getD 0

/-- R140: the expected count, where there is one. -/
def expectedCount (c : Clip) (n : Nat) : Option Nat :=
  match c.lastCount with
  | some k => some ((k + advanceBy c n) % c.timebase.dayLength)
  | none =>
    match c.firstTc with
    | some t => if tcValid c.timebase t then some ((tcCount c.timebase t + n) % c.timebase.dayLength) else none
    | none => none

/-- R140: the fault of the first timecode, when this frame is the one that judges it and it is invalid. -/
def firstTcFault (c : Clip) : Option (FaultKind × Nat) :=
  match c.lastCount, c.firstTc with
  | none, some t => if tcValid c.timebase t then none else some (.tcMalformed, tcDigits t)
  | _, _ => none

/-- R140: TC_BREAK when the frame's count differs from the expected one. -/
def breakFault (c : Clip) (n : Nat) (t : Timecode) : Option (FaultKind × Nat) :=
  match expectedCount c n with
  | some e => if tcCount c.timebase t = e then none else some (.tcBreak, expectedDigits c.timebase e)
  | none => none

/-- R136 to R140: the faults of parts 4 and 5 on a frame of a clip, in order. -/
def continuityFaults (c : Clip) (n : Nat) (t : Timecode) : List (FaultKind × Nat) :=
  (frameNumberFault c n).toList
    ++ (if tcValid c.timebase t then
          (if isRepeat c n then [] else (firstTcFault c).toList ++ (breakFault c n t).toList)
        else [(.tcMalformed, tcDigits t)])

/-- R136, R138, R140: the continuity fields after a frame of the clip. -/
def continuityUpdate (n : Nat) (t : Timecode) (c : Clip) : Clip :=
  if isRepeat c n then c
  else
    { c with
      lastFrame := some n
      lastCount :=
        if tcValid c.timebase t then some (tcCount c.timebase t)
        else c.lastCount.map fun k => (k + advanceBy c n) % c.timebase.dayLength }

/-- R136, R137: parts 4 and 5, on a frame with a clip. -/
def continuity (f : OpenFrame) (s : Part) : Part :=
  match f.clip with
  | none => s
  | some k =>
    match s.clips[k] with
    | none => s
    | some c =>
      modClip k (continuityUpdate f.number f.tc)
        ((continuityFaults c f.number f.tc).foldl (fun t x => raiseFrame f x.1 x.2 t) s)

/-! ## Part 6: the statistics record (R142, R143) -/

/-- R142: the record of a frame. -/
def statsOf (f : OpenFrame) (hits : Nat) (abandoned : Bool) : Stats where
  clip := f.clip
  number := f.number
  tc := f.tc
  pixels := f.pixelsTaken
  high := f.highCount
  low := f.lowCount
  exc := f.excCount
  meanLuma := if f.pixelCount = 0 then 0 else f.lumaSum / f.pixelCount
  hotHits := hits
  abandoned := abandoned
  droppedAfter := 0

/-- R143: the record is placed in an empty slot, or dropped and counted in the record the slot holds. -/
def offerStats (r : Stats) (s : Part) : Part :=
  { s with
    stats := match s.stats with
      | none => some r
      | some held => some { held with droppedAfter := min (held.droppedAfter + 1) Config.max16 } }

/-- R129: the end-of-frame work. -/
def endOfFrameChecks (f : OpenFrame) (abandoned : Bool) (s : Part) : Part :=
  offerStats (statsOf f (hotHits s.watch) abandoned)
    (continuity f (hotPixels f (runFaults f (clipChange f s))))

end Sys2Proof.Machine
end

