-- ==== Sys2Proof/Machine/Frames.lean ====
section
/-! DEFINITION. The frame tracker: opening a frame (R88 to R92), taking a LINE (R93 to R95), and the end of a frame, by close
(R97) or abandonment (R99), with the accounting (R98) and the deferred commits (R121). -/

namespace Sys2Proof.Machine

/-! ## The end of a frame -/

/-- R97 step 1, R99: the detail of SHORT_FRAME. -/
def shortDetail (f : OpenFrame) : Nat := f.linesTaken * 65536 + f.height

/-- R98: a frame is accounted to its clip. -/
def accountFrame (f : OpenFrame) (s : Part) : Part :=
  match f.clip with
  | none => s
  | some k =>
    modClip k (fun c => { c with framesSeen := min (c.framesSeen + 1) Config.max24, lastMarker := c.lastMarker || f.last })
      s

/-- R121: a PENDING slot is committed at the end of the frame, and LOOK-COMMITTED is queued. -/
def applyCommit (frame : Nat) (s : Part) (k : SlotId) : Part :=
  match s.looks[k].state with
  | .pending tag =>
    queueNotice (.lookCommitted k tag frame)
      { s with looks := s.looks.set k { s.looks[k] with live := s.looks[k].staging, state := .clean } }
  | _ => s

/-- R97 step 4, R121: every PENDING slot, in increasing slot number. -/
def applyCommits (frame : Nat) (s : Part) : Part := allSlots.foldl (applyCommit frame) s

/-- R97 step 6: clearance is evaluated for the card of the frame's clip. -/
def clearanceOfFrame (f : OpenFrame) (s : Part) : Part :=
  match f.clip with
  | some k => evalClipClearance k s
  | none => s

/-- R97, R99: the six steps of the end of a frame. -/
def endFrame (f : OpenFrame) (short abandoned : Bool) (s : Part) : Part :=
  let s1 := if short then raiseFrame f .shortFrame (shortDetail f) s else s
  let s2 := accountFrame f s1
  let s3 := endOfFrameChecks f abandoned s2
  let s4 := applyCommits f.number s3
  clearanceOfFrame f { s4 with frame := none }

/-- R99: the open frame, if there is one, is abandoned. -/
def abandonFrame (s : Part) : Part :=
  match s.frame with
  | some f => endFrame f true true s
  | none => s

/-! ## Opening a frame -/

/-- The fields of a FRAME-OPEN (section 10.2). -/
structure FrameOpening where
  clip   : Nat
  number : Nat
  tc     : Timecode
  last   : Bool
  width  : Nat
  height : Nat
  deriving DecidableEq, Repr

/-- R88: the fields of a FRAME-OPEN, none when it is damaged. -/
def readFrameOpen (p : Rx) : Option FrameOpening :=
  if damaged 0x11 p || p.payload.length != 14 then none
  else
    some
      { clip := field p.payload 0 2
        number := field p.payload 2 3
        tc := timecodeAt p.payload 6 ((p.payload.getD 5 0).getLsbD 0)
        last := (p.payload.getD 5 0).getLsbD 1
        width := field p.payload 10 2
        height := field p.payload 12 2 }

/-- R90: the slots whose LIVE banks grade the frame. -/
def slotsInUse (slot : Option SlotId) (compareOn : Bool) : List SlotId :=
  match slot with
  | none => []
  | some k => if compareOn then [k, k + 1] else [k]

/-- R90, R91: the clip record in use that a FRAME-OPEN names. -/
def openedClip (s : Part) (handle : Nat) : Option (ClipId × Clip) :=
  match asClip handle with
  | some k => s.clips[k].map fun c => (k, c)
  | none => none

/-- R88 to R91, R127: the context of a frame at its open. -/
def newFrame (s : Part) (o : FrameOpening) : OpenFrame :=
  let attributed := openedClip s o.clip
  let camera := attributed.map fun x => x.2.camera
  let slot := camera.bind fun t => s.cameraMap[t]
  { clip := attributed.map Prod.fst
    number := o.number
    tc := o.tc
    width := clampNat 16 4096 o.width
    height := clampNat 1 2304 o.height
    last := o.last
    camera := camera
    slot := slot
    compareOn := s.compare.on
    split := s.compare.split
    slotsInUse := slotsInUse slot s.compare.on
    linesTaken := 0
    previous := none
    pixelsTaken := 0
    profile := match camera with
      | some t => s.profiles[t]
      | none => Profile.default
    pixelCount := 0
    highCount := 0
    lowCount := 0
    excCount := 0
    lumaSum := 0 }

/-- R90, R91: a frame opens; a free or out-of-range handle raises ORPHAN_PICTURE. -/
def openFrame (o : FrameOpening) (s : Part) : Part :=
  let s1 :=
    if (openedClip s o.clip).isSome then s
    else raise ⟨.orphanPicture, none, none, none, some (o.number, o.tc), o.clip⟩ s
  { s1 with frame := some (newFrame s o), watch := s1.watch.map (WatchEntry.arm (newFrame s o).camera) }

/-- R88, R89: a FRAME-OPEN is taken. -/
def frameOpenTaken (p : Rx) (s : Part) : Part :=
  match readFrameOpen p with
  | none => raise ⟨.orphanPicture, none, none, none, none, 0xFFFFFFFF⟩ (abandonFrame s)
  | some o => openFrame o (abandonFrame s)

/-! ## Lines -/

/-- R93: a report of LINE_ORDER, against the open frame's clip, or against none. -/
def lineOrderReport (s : Part) (reason value : Nat) : Report :=
  match s.frame with
  | some f => frameReport s f .lineOrder (reason * 65536 + value % 65536)
  | none => ⟨.lineOrder, none, none, none, none, reason * 65536 + value % 65536⟩

/-- The 16-bit value at the start of a payload, and the part after reading it: a payload too short to hold it carries
none, and the value is then a free value (log entry 4). -/
def carried (p : Rx) (s : Part) : Nat × Part :=
  if 2 ≤ p.payload.length then (field p.payload 0 2, s)
  else ((Config.freeWord s.freeCount).toNat, { s with freeCount := s.freeCount + 1 })

/-- The pixel samples of a LINE, three little-endian words each (section 10.2). -/
def readPixels : List Byte → List (Rgb Nat)
  | a :: b :: c :: d :: e :: f :: rest => ⟨leNat [a, b], leNat [c, d], leNat [e, f]⟩ :: readPixels rest
  | _ => []

/-- R93: reason 4, a damaged LINE. -/
def lineDamaged (p : Rx) : Bool :=
  damaged 0x12 p || field p.payload 4 2 == 0 || decide (1024 < field p.payload 4 2)
    || p.payload.length != 6 + 6 * field p.payload 4 2

/-- R93: reason 3, a LINE that does not follow the previous parcel. -/
def outOfOrder (f : OpenFrame) (line column : Nat) : Bool :=
  match f.previous with
  | some prev => decide (line < prev.1) || (line == prev.1 && decide (column < prev.2))
  | none => false

/-- R93: whether a taken LINE begins a new line. -/
def beginsLine (f : OpenFrame) (line : Nat) : Bool :=
  match f.previous with
  | some prev => decide (prev.1 < line)
  | none => true

/-- R94: a sample word as a code. -/
def sampleCode (w : Nat) : Nat := if 4095 < w then 4095 else w

/-- What the pixels of a LINE have come to so far: the frame's context, the watch list, and the monitor codes in column
order. -/
structure LineWork where
  frame : OpenFrame
  watch : List WatchEntry
  codes : List (Rgb Nat)
  deriving DecidableEq, Repr

/-- R94, R105, R128: one pixel is graded and counted. -/
def takePixel (looks : Vector LookSlot 8) (line column : Nat) (sample : Rgb Nat) (w : LineWork) : LineWork :=
  let codes := sample.map sampleCode
  let graded := gradePixel looks w.frame column codes
  { frame := { w.frame.count codes graded.excursion with pixelsTaken := w.frame.pixelsTaken + 1 }
    watch := w.watch.map (WatchEntry.see line column codes)
    codes := w.codes ++ [graded.codes] }

/-- R94: the pixels of a LINE in increasing column order; those at or beyond the width are ignored. -/
def takePixels (looks : Vector LookSlot 8) (line : Nat) : Nat → List (Rgb Nat) → LineWork → LineWork
  | _, [], w => w
  | column, x :: xs, w =>
    if column < w.frame.width then takePixels looks line (column + 1) xs (takePixel looks line column x w)
    else takePixels looks line (column + 1) xs w

/-- R93 to R95: a LINE that passes its checks is taken; its MONITOR-LINE, if it has a pixel in the frame, is offered to the
monitor port once. -/
def lineTaken (p : Rx) (monitorTakes : Bool) (f : OpenFrame) (s : Part) : Part :=
  let line := field p.payload 0 2
  let column := field p.payload 2 2
  let f1 :=
    { f with
      linesTaken := if beginsLine f line then f.linesTaken + 1 else f.linesTaken
      previous := some (line, column + field p.payload 4 2) }
  let w := takePixels s.looks line column (readPixels (p.payload.drop 6)) ⟨f1, s.watch, []⟩
  { s with
    frame := some w.frame
    watch := w.watch
    out := if monitorTakes && !w.codes.isEmpty
      then .monitor (monitorParcel f.number line column w.codes) :: s.out else s.out }

/-- R93: a LINE is checked, then dropped with LINE_ORDER or taken. -/
def lineArrives (p : Rx) (monitorTakes : Bool) (s : Part) : Part :=
  if lineDamaged p then
    raise (lineOrderReport s 4 (carried p s).1) (carried p s).2
  else
    match s.frame with
    | none => raise (lineOrderReport s 1 (field p.payload 0 2)) s
    | some f =>
      if f.height ≤ field p.payload 0 2 then raise (lineOrderReport s 2 (field p.payload 0 2)) s
      else if outOfOrder f (field p.payload 0 2) (field p.payload 2 2) then
        raise (lineOrderReport s 3 (field p.payload 0 2)) s
      else lineTaken p monitorTakes f s

/-! ## Closing a frame -/

/-- R96: a FRAME-CLOSE is damaged. -/
def closeDamaged (p : Rx) : Bool := damaged 0x13 p || p.payload.length != 2

/-- R96: the frame is short, its lines taken below the count sent or below its height. -/
def isShort (f : OpenFrame) (sent : Nat) : Bool := decide (f.linesTaken < sent) || decide (f.linesTaken < f.height)

/-- R96: a FRAME-CLOSE closes the open frame, abandons it when damaged, or is discarded when none is open. -/
def frameCloseTaken (p : Rx) (s : Part) : Part :=
  match s.frame with
  | none => raise (lineOrderReport s 5 (carried p s).1) (carried p s).2
  | some f =>
    if closeDamaged p then endFrame f true true s
    else endFrame f (isShort f (field p.payload 0 2)) false s

end Sys2Proof.Machine
end

