-- ==== Sys2Proof/Machine/Picture.lean ====
section
/-! DEFINITION. The picture parcels of the station stream (FRAME-OPEN, LINE, FRAME-CLOSE) as commands, and the directives of
the chapter Picture Checks: SET-PROFILE, WATCH-PIXEL and UNWATCH-PIXEL. -/

namespace Sys2Proof.Machine

/-! ## SET-PROFILE -/

/-- R126: SET-PROFILE. -/
def setProfile (camera : Nat) (item : ProfileItem) (s : Part) : Part × Reply :=
  match asCamera camera with
  | none => (s, .refuse .notFound)
  | some t =>
    ({ s with profiles := s.profiles.set t (adjustProfile item) }, .taken (profileAdjusted item) .nothing)

def setProfileTaken (tag camera : Nat) (item : ProfileItem) : Part → Part :=
  directive tag 0x50 false (setProfile camera item)

/-- SET-PROFILE (R126). -/
def execSetProfile (tag camera : Nat) (item : ProfileItem) (s : State) : Host.Outcome State Fault Refusal :=
  .next (s.onPart (ingress (.setProfile tag camera item) (setProfileTaken tag camera item)))

/-! ## WATCH-PIXEL and UNWATCH-PIXEL -/

/-- R133: WATCH-PIXEL. -/
def watchPixel (items : List WatchItem) (s : Part) : Part × Reply :=
  if items.any fun i => decide (15 < i.camera) then (s, .refuse .notFound)
  else if Config.watchEntries - s.watch.length < items.length then (s, .refuse .tableFull)
  else
    ({ s with watch := s.watch ++ items.map watchEntryOf },
      .taken (items.any watchAdjusted) (.count (s.watch.length + items.length)))

/-- R176 cause 5: WATCH-PIXEL carries from 1 to 65,535 items. -/
def watchPixelTaken (tag : Nat) (items : List WatchItem) : Part → Part :=
  if items.length = 0 ∨ 65535 < items.length then malformed 5 tag 0x51 else directive tag 0x51 false (watchPixel items)

/-- WATCH-PIXEL (R133). -/
def execWatchPixel (tag : Nat) (items : List WatchItem) (s : State) : Host.Outcome State Fault Refusal :=
  .next (s.onPart (ingress (.watchPixel tag items) (watchPixelTaken tag items)))

/-- R134: UNWATCH-PIXEL. -/
def unwatchPixel (items : List UnwatchItem) (s : Part) : Part × Reply :=
  if (s.watch.filter fun e => items.any (unwatchHits e)).isEmpty then (s, .refuse .notFound)
  else
    ({ s with watch := s.watch.filter fun e => !items.any (unwatchHits e) },
      .taken false (.count (s.watch.filter fun e => items.any (unwatchHits e)).length))

/-- R176 cause 5: UNWATCH-PIXEL carries from 1 to 65,535 items. -/
def unwatchPixelTaken (tag : Nat) (items : List UnwatchItem) : Part → Part :=
  if items.length = 0 ∨ 65535 < items.length then malformed 5 tag 0x52
  else directive tag 0x52 false (unwatchPixel items)

/-- UNWATCH-PIXEL (R134). -/
def execUnwatchPixel (tag : Nat) (items : List UnwatchItem) (s : State) : Host.Outcome State Fault Refusal :=
  .next (s.onPart (ingress (.unwatchPixel tag items) (unwatchPixelTaken tag items)))

/-! ## Picture parcels -/

/-- FRAME-OPEN (R88). -/
def execFrameOpen (b : Rx) (s : State) : Host.Outcome State Fault Refusal :=
  .next (s.onPart (ingress (.frameOpen b) (frameOpenTaken b)))

/-- LINE (R93). -/
def execLine (b : Rx) (monitorTakes : Bool) (s : State) : Host.Outcome State Fault Refusal :=
  .next (s.onPart (ingress (.line b monitorTakes) (lineArrives b monitorTakes)))

/-- FRAME-CLOSE (R96). -/
def execFrameClose (b : Rx) (s : State) : Host.Outcome State Fault Refusal :=
  .next (s.onPart (ingress (.frameClose b) (frameCloseTaken b)))

end Sys2Proof.Machine
end

