-- ==== Sys2Proof/Machine/Waivers.lean ====
section
/-! DEFINITION. WAIVE, of the chapter Faults and Waivers (R156, R157). -/

namespace Sys2Proof.Machine

/-- R157: every kind in the clip's open marks moves to its waived marks. -/
def Clip.waiveMarks (c : Clip) : Clip :=
  { c with openMarks := MarkSet.empty, waivedMarks := c.waivedMarks.union c.openMarks }

/-- R157: every kind in the card's open marks moves to its waived marks, and a HELD card goes to COPIED. -/
def Card.waiveMarks (c : Card) : Card :=
  { c with
    openMarks := MarkSet.empty
    waivedMarks := c.waivedMarks.union c.openMarks
    state := if c.state = .held then .copied else c.state }

/-- R157: the number of kinds moved, counting each record's set separately. -/
def openKinds (s : Part) (h : CardId) : Nat :=
  s.cards[h].openMarks.size + ((cardClips s h).map fun c => c.openMarks.size).sum

/-- R157: the marks of the clips of a manifest are waived. -/
def waiveClips (ks : List ClipId) (s : Part) : Part := ks.foldl (fun t k => modClip k Clip.waiveMarks t) s

/-- R157: a WAIVE that is taken, with the clearance evaluation it calls for. -/
def waiveCard (h : CardId) (s : Part) : Part :=
  evalClearance h (writeCard h s.cards[h].waiveMarks (waiveClips s.cards[h].clips s))

/-- R156 check 2: the states in which a WAIVE is refused. -/
def CardState.refusesWaive : CardState → Bool
  | .mounted | .suspending | .suspended | .cleared => true
  | _ => false

/-- R156, R157: the checks and the effect of WAIVE; the answer carries the state the card has once all is done (log entry
10). -/
def waive (card generation : Nat) (s : Part) : Part × Reply :=
  match usedCard s card with
  | none => (s, .refuse .notFound)
  | some h =>
    if s.cards[h].state.refusesWaive then (s, .refuse .wrongState)
    else if generation ≠ s.cards[h].generation then
      (s, ⟨.refused .stale, .generation s.cards[h].generation⟩)
    else (waiveCard h s, .taken false (.waived (waiveCard h s).cards[h].state (openKinds s h)))

def waiveTaken (tag card generation : Nat) : Part → Part := directive tag 0x60 false (waive card generation)

/-- WAIVE (R156). -/
def execWaive (tag card generation : Nat) (s : State) : Host.Outcome State Fault Refusal :=
  .next (s.onPart (ingress (.waive tag card generation) (waiveTaken tag card generation)))

end Sys2Proof.Machine
end

