-- ==== Sys2Proof/Machine/Station.lean ====
section
/-! DEFINITION. The directive unit's own directives (CLEAR-STATUS, RESET-PART, QUERY-PART), the malformed and foreign parcels,
the station link events, the full reset (R186 to R188) and station egress (R180, R185). -/

namespace Sys2Proof.Machine

/-! ## CLEAR-STATUS, RESET-PART and QUERY-PART -/

/-- R182: CLEAR-STATUS. -/
def clearStatus (s : Part) : Part × Reply := (acceptWith 0 s, .taken false (.status s.unit.status))

def clearStatusTaken (tag : Nat) : Part → Part := directive tag 0x70 true clearStatus

/-- CLEAR-STATUS (R182). -/
def execClearStatus (tag : Nat) (s : State) : Host.Outcome State Fault Refusal :=
  .next (s.onPart (ingress (.clearStatus tag) (clearStatusTaken tag)))

/-- R187: the part is held in a full reset of the cause given; the parcels the link has not delivered are discarded
(R181). -/
def holdReset (cause : ResetCause) (s : Part) : Part :=
  { s with reset := { s.reset with holding := some cause }, waiting := [] }

/-- R181: RESET-PART, which has no answer. -/
def resetPartTaken : Part → Part := holdReset .directive

/-- RESET-PART (R181). -/
def execResetPart (tag : Nat) (s : State) : Host.Outcome State Fault Refusal :=
  .next (s.onPart (ingress (.resetPart tag) resetPartTaken))

/-- R152, R183: the occupancy of the fault log, counting the overflow marker. -/
def FaultLog.occupancy (l : FaultLog) : Nat := l.entries.length + (if l.marker.isSome then 1 else 0)

/-- R183: the card records in use. -/
def cardsInUse (s : Part) : Nat := s.cards.toList.countP fun c => c.state != .free

/-- R183: the clip records in use. -/
def clipsInUse (s : Part) : Nat := s.clips.toList.countP Option.isSome

/-- R183: the data QUERY-PART answers. -/
def partReport (s : Part) : PartReport where
  status := s.unit.status
  cause := s.reset.cause
  sources := s.reset.sources
  dests := s.reset.dests
  ports := s.ports
  occupancy := s.log.occupancy
  suppressed := (s.log.marker.map Overflow.count).getD 0
  cards := cardsInUse s
  clips := clipsInUse s
  held := s.unit.held.isSome

/-- R183: QUERY-PART. -/
def queryPart (s : Part) : Part × Reply := (s, .taken false (.part (partReport s)))

def queryPartTaken (tag : Nat) : Part → Part := directive tag 0x72 true queryPart

/-- QUERY-PART (R183). -/
def execQueryPart (tag : Nat) (s : State) : Host.Outcome State Fault Refusal :=
  .next (s.onPart (ingress (.queryPart tag) (queryPartTaken tag)))

/-! ## What a parcel of the station stream does when it is taken (R173) -/

/-- R179: a well-formed directive is handed to its owner. -/
def takeDirective : Instr → Part → Part
  | .mount tag port label copies review mode => mountTaken tag port label copies review mode
  | .listClips tag card items => listClipsTaken tag card items
  | .dismount tag card => dismountTaken tag card
  | .retire tag card => retireTaken tag card
  | .queryCard tag card => queryCardTaken tag card
  | .queryClip tag clip => queryClipTaken tag clip
  | .route tag card ports => routeTaken tag card ports
  | .start tag card => startTaken tag card
  | .suspend tag card => suspendTaken tag card
  | .resume tag card => resumeTaken tag card
  | .abort tag card => abortTaken tag card
  | .haltAll tag => haltAllTaken tag
  | .recopy tag card => recopyTaken tag card
  | .setRegion tag port base length => setRegionTaken tag port base length
  | .setStall tag port limit => setStallTaken tag port limit
  | .closeDest tag port => closeDestTaken tag port
  | .reviveDest tag port => reviveDestTaken tag port
  | .queryDest tag port => queryDestTaken tag port
  | .setPacing tag port p e => setPacingTaken tag port p e
  | .setLook tag slot item => setLookTaken tag slot item
  | .loadCurve tag slot channel start entries => loadCurveTaken tag slot channel start entries
  | .loadLattice tag slot start entries => loadLatticeTaken tag slot start entries
  | .commitLook tag slot => commitLookTaken tag slot
  | .mapCamera tag camera code => mapCameraTaken tag camera code
  | .setCompare tag on split => setCompareTaken tag on split
  | .setProfile tag camera item => setProfileTaken tag camera item
  | .watchPixel tag items => watchPixelTaken tag items
  | .unwatchPixel tag items => unwatchPixelTaken tag items
  | .waive tag card generation => waiveTaken tag card generation
  | .clearStatus tag => clearStatusTaken tag
  | .resetPart _ => resetPartTaken
  | .queryPart tag => queryPartTaken tag
  | _ => id

/-- R176: a DIRECTIVE parcel is checked for form; one that passes is a directive like any other. -/
def directiveParcelTaken (p : Rx) (s : Part) : Part :=
  match formCheck p with
  | .bad cause tag code => malformed cause tag code s
  | .good c => takeDirective c s

/-- MALFORMED_DIRECTIVE (R176). -/
def execMalformedDirective (p : Rx) (s : State) : Host.Outcome State Fault Refusal :=
  .next (s.onPart (ingress (.malformedDirective p) (directiveParcelTaken p)))

/-- R173, R174: a parcel of the station link by the kind its header reads; one of a kind the link does not take is a
malformed directive of cause 7. -/
def stationParcelTaken (kind : Nat) (p : Rx) (s : Part) : Part :=
  match kind with
  | 0x10 => directiveParcelTaken p s
  | 0x11 => frameOpenTaken p s
  | 0x12 => lineArrives p false s
  | 0x13 => frameCloseTaken p s
  | _ => malformed 7 65535 255 s

/-- STATION_FOREIGN_PARCEL (R174). -/
def execStationForeignParcel (kind : Nat) (p : Rx) (s : State) : Host.Outcome State Fault Refusal :=
  .next (s.onPart (ingress (.stationForeignParcel kind p) (stationParcelTaken kind p)))

/-- R173: a parcel of the station stream is taken whole. -/
def takeStation : Instr → Part → Part
  | .malformedDirective p => directiveParcelTaken p
  | .stationForeignParcel kind p => stationParcelTaken kind p
  | .frameOpen b => frameOpenTaken b
  | .line b monitorTakes => lineArrives b monitorTakes
  | .frameClose b => frameCloseTaken b
  | c => takeDirective c

/-! ## Parcels of other kinds on the ports -/

/-- R168: a parcel of another kind than the port takes is discarded and changes nothing; one of a kind it takes is handled
as that kind. -/
def portParcelTaken (port : Port) (kind : Nat) (p : Rx) (s : Part) : Part :=
  match port, kind with
  | .source q, 0x02 => sourceBlock q p s
  | .dest d, 0x02 => verifyBlock d p s
  | .dest d, 0x04 => storeDone d p s
  | _, _ => s

/-- PORT_FOREIGN_PARCEL (R168). -/
def execPortForeignParcel (port : Port) (kind : Nat) (p : Rx) (s : State) : Host.Outcome State Fault Refusal :=
  .next (s.onPart (unlessReset (portParcelTaken port kind p)))

/-! ## Station link events -/

/-- R100, R172: the station link goes down: an open frame is abandoned, and egress stops. -/
def stationDown (s : Part) : Part := { abandonFrame s with stationUp := false }

/-- STATION_LINK_DOWN (R172). -/
def execStationLinkDown (s : State) : Host.Outcome State Fault Refusal := .next (s.onPart (unlessReset stationDown))

/-- R172, R185: the station link comes up, and egress offers again. -/
def stationRises (s : Part) : Part := { s with stationUp := true }

/-- STATION_LINK_UP (R172). -/
def execStationLinkUp (s : State) : Host.Outcome State Fault Refusal := .next (s.onPart (unlessReset stationRises))

/-! ## The full reset -/

/-- POWER_ON (R187): power comes up and the part is held in reset. -/
def execPowerOn (s : State) : Host.Outcome State Fault Refusal := .next (s.onPart (holdReset .power))

/-- R187: the cause of a reset once the pin is asserted: POWER through a power-on, PIN otherwise. -/
def pinCause (holding : Option ResetCause) : ResetCause := if holding = some .power then .power else .pin

/-- R187: the RESET pin is asserted. -/
def pinAsserted (s : Part) : Part := holdReset (pinCause s.reset.holding) s

/-- RESET_PIN (R187). -/
def execResetPin (s : State) : Host.Outcome State Fault Refusal := .next (s.onPart pinAsserted)

/-- R187: the end of a full reset; it comes about only while the part is held in one. What has left the part and the count
of free values are the model's own and stay. -/
def resetEnds (srcStraps : BitVec 2) (dstStraps : BitVec 3) (present : BitVec 4) (up : BitVec 6) (station : Bool)
    (s : Part) : Part :=
  match s.reset.holding with
  | some cause =>
    { Part.afterReset cause srcStraps dstStraps present up station with out := s.out, freeCount := s.freeCount }
  | none => s

/-- RESET_END (R187). -/
def execResetEnd (srcStraps : BitVec 2) (dstStraps : BitVec 3) (present : BitVec 4) (up : BitVec 6) (station : Bool)
    (s : State) : Host.Outcome State Fault Refusal :=
  .next (s.onPart (resetEnds srcStraps dstStraps present up station))

/-! ## Station egress -/

/-- R170, R173: the parcels waiting at the station link are offered to ingress again, in their order. -/
def offerWaiting (s : Part) : Part :=
  s.waiting.foldl (fun t c => ingress c (takeStation c) t) { s with waiting := [] }

/-- R180: the held answer enters the notice queue and ingress takes its next parcel. -/
def releaseHeld (s : Part) : Part :=
  match s.unit.held with
  | some a => offerWaiting (queueNotice (.answer a) { s with unit := { s.unit with held := none } })
  | none => s

/-- R165: the card's CLEARED notice unsent flag becomes no. -/
def clearedSent (h : CardId) (s : Part) : Part := writeCard h { s.cards[h] with clearedUnsent := false } s

/-- R185: what the owner of a notice does when it has left. -/
def noticeSent (n : Notice) (s : Part) : Part :=
  match n with
  | .answer _ => releaseHeld s
  | .cleared h _ _ => clearedSent h s
  | _ => s

/-- R185: a parcel leaves by the station link. -/
def leaves (x : Parcel) (s : Part) : Part := { s with out := .station x :: s.out }

/-- R151: the head of the fault log leaves: an entry, or the overflow marker when no entry stands before it. -/
def sendFault (s : Part) : Option Part :=
  match s.log.entries with
  | e :: rest =>
    some (leaves (sealParcel 0x22 0 0 (faultPayload (Config.freeFill s.freeCount) e))
      { s with log := { s.log with entries := rest }, freeCount := s.freeCount + 1 })
  | [] =>
    match s.log.marker with
    | some m =>
      some (leaves (sealParcel 0x22 0 0 (overflowPayload (Config.freeFill s.freeCount) m))
        { s with log := { s.log with marker := none }, freeCount := s.freeCount + 1 })
    | none => none

/-- R143: the statistics record leaves and its slot becomes empty. -/
def sendStats (s : Part) : Option Part :=
  match s.stats with
  | some r =>
    some (leaves (sealParcel 0x23 0 0 (statsPayload (Config.freeFill s.freeCount) r))
      { s with stats := none, freeCount := s.freeCount + 1 })
  | none => none

/-- R185: the link takes the waiting parcel of highest priority: notice queue, then fault log, then statistics slot. -/
def egress (s : Part) : Part :=
  if s.stationUp = false then s
  else
    match s.notices with
    | n :: rest => noticeSent n (leaves n.parcel { s with notices := rest })
    | [] =>
      match sendFault s with
      | some t => t
      | none => (sendStats s).getD s

/-- EGRESS_SEND (R185). -/
def execEgressSend (s : State) : Host.Outcome State Fault Refusal := .next (s.onPart (unlessReset egress))

end Sys2Proof.Machine
end

