-- ==== Sys2Proof/Machine/Dispatch.lean ====
section
/-! DEFINITION. The dispatch: one arm per command, each one call of the command's meaning. -/

namespace Sys2Proof.Machine

/-- The effect of a command on everything but the queue. -/
def exec (i : Instr) (s : State) : Host.Outcome State Fault Refusal :=
  match i with
  | .mount tag port label copies review mode => Sys2Proof.Machine.execMount tag port label copies review mode s
  | .listClips tag card items => Sys2Proof.Machine.execListClips tag card items s
  | .dismount tag card => Sys2Proof.Machine.execDismount tag card s
  | .retire tag card => Sys2Proof.Machine.execRetire tag card s
  | .queryCard tag card => Sys2Proof.Machine.execQueryCard tag card s
  | .queryClip tag clip => Sys2Proof.Machine.execQueryClip tag clip s
  | .route tag card ports => Sys2Proof.Machine.execRoute tag card ports s
  | .start tag card => Sys2Proof.Machine.execStart tag card s
  | .suspend tag card => Sys2Proof.Machine.execSuspend tag card s
  | .resume tag card => Sys2Proof.Machine.execResume tag card s
  | .abort tag card => Sys2Proof.Machine.execAbort tag card s
  | .haltAll tag => Sys2Proof.Machine.execHaltAll tag s
  | .recopy tag card => Sys2Proof.Machine.execRecopy tag card s
  | .setRegion tag port base length => Sys2Proof.Machine.execSetRegion tag port base length s
  | .setStall tag port limit => Sys2Proof.Machine.execSetStall tag port limit s
  | .closeDest tag port => Sys2Proof.Machine.execCloseDest tag port s
  | .reviveDest tag port => Sys2Proof.Machine.execReviveDest tag port s
  | .queryDest tag port => Sys2Proof.Machine.execQueryDest tag port s
  | .setPacing tag port p e => Sys2Proof.Machine.execSetPacing tag port p e s
  | .setLook tag slot item => Sys2Proof.Machine.execSetLook tag slot item s
  | .loadCurve tag slot channel start entries => Sys2Proof.Machine.execLoadCurve tag slot channel start entries s
  | .loadLattice tag slot start entries => Sys2Proof.Machine.execLoadLattice tag slot start entries s
  | .commitLook tag slot => Sys2Proof.Machine.execCommitLook tag slot s
  | .mapCamera tag camera code => Sys2Proof.Machine.execMapCamera tag camera code s
  | .setCompare tag on split => Sys2Proof.Machine.execSetCompare tag on split s
  | .setProfile tag camera item => Sys2Proof.Machine.execSetProfile tag camera item s
  | .watchPixel tag items => Sys2Proof.Machine.execWatchPixel tag items s
  | .unwatchPixel tag items => Sys2Proof.Machine.execUnwatchPixel tag items s
  | .waive tag card generation => Sys2Proof.Machine.execWaive tag card generation s
  | .clearStatus tag => Sys2Proof.Machine.execClearStatus tag s
  | .resetPart tag => Sys2Proof.Machine.execResetPart tag s
  | .queryPart tag => Sys2Proof.Machine.execQueryPart tag s
  | .malformedDirective p => Sys2Proof.Machine.execMalformedDirective p s
  | .stationForeignParcel kind p => Sys2Proof.Machine.execStationForeignParcel kind p s
  | .portForeignParcel port kind p => Sys2Proof.Machine.execPortForeignParcel port kind p s
  | .sourceAttach p => Sys2Proof.Machine.execSourceAttach p s
  | .sourceDetach p => Sys2Proof.Machine.execSourceDetach p s
  | .destLinkUp d => Sys2Proof.Machine.execDestLinkUp d s
  | .destLinkDown d => Sys2Proof.Machine.execDestLinkDown d s
  | .stationLinkDown => Sys2Proof.Machine.execStationLinkDown s
  | .stationLinkUp => Sys2Proof.Machine.execStationLinkUp s
  | .powerOn => Sys2Proof.Machine.execPowerOn s
  | .resetPin => Sys2Proof.Machine.execResetPin s
  | .resetEnd srcStraps dstStraps present up station => Sys2Proof.Machine.execResetEnd srcStraps dstStraps present up station s
  | .sendFetch p => Sys2Proof.Machine.execSendFetch p s
  | .sourceBlock p b => Sys2Proof.Machine.execSourceBlock p b s
  | .fetchTimeout p tag => Sys2Proof.Machine.execFetchTimeout p tag s
  | .sendStore d => Sys2Proof.Machine.execSendStore d s
  | .storeDone d b => Sys2Proof.Machine.execStoreDone d b s
  | .stallTimeout d => Sys2Proof.Machine.execStallTimeout d s
  | .sendVerifyFetch d => Sys2Proof.Machine.execSendVerifyFetch d s
  | .verifyBlock d b => Sys2Proof.Machine.execVerifyBlock d b s
  | .verifyFetchTimeout d tag => Sys2Proof.Machine.execVerifyFetchTimeout d tag s
  | .frameOpen b => Sys2Proof.Machine.execFrameOpen b s
  | .line b monitorTakes => Sys2Proof.Machine.execLine b monitorTakes s
  | .frameClose b => Sys2Proof.Machine.execFrameClose b s
  | .egressSend => Sys2Proof.Machine.execEgressSend s

end Sys2Proof.Machine
end

