-- ==== Sys2Proof/Machine/Timers.lean ====
section
/-! DEFINITION. The 1 ms timebase: what one millisecond does to the timers of the part (R33, R49, R73), and the events it
brings about. The model's step takes a millisecond when no command waits (DESIGN CHOICE, log entry 2). -/

namespace Sys2Proof.Machine

/-- A running timer one millisecond later. -/
def timerAfter (t : Nat) : Nat := t - 1

def Fetch.after (f : Fetch) : Fetch := { f with timer := timerAfter f.timer }

def VerifyFetch.after (f : VerifyFetch) : VerifyFetch := { f with timer := timerAfter f.timer }

/-- A channel one millisecond later. -/
def Channel.after (c : Channel) : Channel := { c with fetches := c.fetches.map Fetch.after }

/-- A destination one millisecond later. -/
def Dest.after (x : Dest) : Dest :=
  { x with fetches := x.fetches.map VerifyFetch.after, stallTimer := x.stallTimer.map timerAfter }

/-- The copy fetch timers that reach 0 this millisecond. -/
def channelExpiries (s : Part) (p : PortId) : List Instr :=
  (s.channels[p].fetches.filter fun f => f.timer == 1).map fun f => .fetchTimeout p f.tag

/-- The read-back fetch timers that reach 0 this millisecond. -/
def readExpiries (s : Part) (d : DestId) : List Instr :=
  (s.dests[d].fetches.filter fun f => f.timer == 1).map fun f => .verifyFetchTimeout d f.tag

/-- The stall timer that reaches 0 this millisecond. -/
def stallExpiries (s : Part) (d : DestId) : List Instr :=
  if s.dests[d].stallTimer = some 1 then [.stallTimeout d] else []

/-- Every timer that reaches 0 this millisecond, as the event it brings about. -/
def expiries (s : Part) : List Instr :=
  allPorts.flatMap (channelExpiries s) ++ allDests.flatMap (readExpiries s) ++ allDests.flatMap (stallExpiries s)

/-- Events of one millisecond in the order in which they come about: the spec gives none (R78), so each next one is drawn by
a free value (log entry 2). `fuel` is the number of events. -/
def drawOrder : Nat → Nat → List Instr → List Instr
  | 0, _, l => l
  | _ + 1, _, [] => []
  | _ + 1, _, [c] => [c]
  | fuel + 1, n, l =>
    (l[Config.freePick n % l.length]?).toList ++ drawOrder fuel (n + 1) (l.eraseIdx (Config.freePick n % l.length))

/-- The timers of the part one millisecond later. -/
def passMillisecond (s : Part) : Part :=
  { s with
    channels := mapEach (fun _ c => c.after) s.channels
    dests := mapEach (fun _ x => x.after) s.dests
    freeCount := s.freeCount + (expiries s).length }

/-- One millisecond: every running timer counts down, and the expiries wait as commands. Held in reset, the part runs no timer
(R187). -/
def tick (s : State) : State :=
  if s.part.reset.holding.isSome then s
  else ⟨passMillisecond s.part, s.pending ++ drawOrder (expiries s.part).length s.part.freeCount (expiries s.part)⟩

end Sys2Proof.Machine
end

