-- ==== Sys2Proof/WellFormed.lean ====
section
/-! DEFINITION. Which commands can be written: every operand inside the field that carries it (spec/10, section 10.2), every
item count inside the directive's range, a malformed parcel one that fails a form check, a foreign parcel of a kind the
link or port does not take. A well-formed command may still be refused, or its values adjusted: that is its owner's
matter (R176). `exec` gives a meaning to ill-formed commands too (log entry 16). -/

namespace Sys2Proof

open Machine

/-- A value that fits a field of `n` bytes. -/
def fits (n v : Nat) : Bool := decide (v < 256 ^ n)

/-- The header fields of a received parcel in their widths (section 10.2). -/
def Rx.wf (p : Rx) : Bool := fits 1 p.status && fits 2 p.tag && fits 4 p.length && fits 4 p.check

/-- Section 10.2: the fields of a LIST-CLIPS item. -/
def ClipItem.wf (i : ClipItem) : Bool :=
  i.name.length == 32 && fits 5 i.start && fits 5 i.length && decide (i.camera < 16) && decide (i.timebase < 16)
    && (i.expected.map (fits 3)).getD true && (i.cameraDigest.map (fits 8)).getD true

/-- Section 10.2: the fields of the SET-LOOK item; the offsets are signed. -/
def LookItem.wf (i : LookItem) : Bool :=
  fits 4 i.slopes.r && fits 4 i.slopes.g && fits 4 i.slopes.b
    && [i.offsets.r, i.offsets.g, i.offsets.b].all (fun v => decide (-(2 ^ 31) ≤ v) && decide (v < 2 ^ 31))
    && fits 2 i.saturation && fits 1 i.lattice

/-- Section 10.2: the fields of the SET-PROFILE item. -/
def ProfileItem.wf (i : ProfileItem) : Bool :=
  fits 2 i.highLevel && fits 4 i.highLimit && fits 2 i.lowLevel && fits 4 i.lowLimit && fits 4 i.excLimit

/-- Section 10.2: the fields of a WATCH-PIXEL item. -/
def WatchItem.wf (i : WatchItem) : Bool :=
  fits 1 i.camera && fits 2 i.column && fits 2 i.line && fits 2 i.level && fits 1 i.run

/-- Section 10.2: the fields of an UNWATCH-PIXEL item. -/
def UnwatchItem.wf (i : UnwatchItem) : Bool := fits 1 i.camera && fits 2 i.column && fits 2 i.line

/-- Section 10.2: a LOAD-LATTICE entry. -/
def latticeEntryWf (x : Rgb Nat) : Bool := fits 2 x.r && fits 2 x.g && fits 2 x.b

/-- A list of `lo` to `hi` items, each passing `p`. -/
def itemsWf {α : Type} (lo hi : Nat) (p : α → Bool) (l : List α) : Bool :=
  decide (lo ≤ l.length) && decide (l.length ≤ hi) && l.all p

/-- R176: a DIRECTIVE parcel that fails a form check. -/
def failsForm (p : Rx) : Bool :=
  match formCheck p with
  | .bad _ _ _ => true
  | .good _ => false

/-- The commands that can be written. -/
def Instr.wf : Instr → Bool
  | .mount tag port label copies review mode =>
    fits 2 tag && fits 2 port && label.length == 16 && fits 1 copies && fits 1 review && fits 1 mode
  | .listClips tag card items => fits 2 tag && fits 2 card && itemsWf 1 512 ClipItem.wf items
  | .dismount tag card => fits 2 tag && fits 2 card
  | .retire tag card => fits 2 tag && fits 2 card
  | .queryCard tag card => fits 2 tag && fits 2 card
  | .queryClip tag clip => fits 2 tag && fits 2 clip
  | .route tag card ports => fits 2 tag && fits 2 card && itemsWf 0 6 (fits 1) ports
  | .start tag card => fits 2 tag && fits 2 card
  | .suspend tag card => fits 2 tag && fits 2 card
  | .resume tag card => fits 2 tag && fits 2 card
  | .abort tag card => fits 2 tag && fits 2 card
  | .haltAll tag => fits 2 tag
  | .recopy tag card => fits 2 tag && fits 2 card
  | .setRegion tag port base length => fits 2 tag && fits 2 port && fits 8 base && fits 8 length
  | .setStall tag port limit => fits 2 tag && fits 2 port && fits 2 limit
  | .closeDest tag port => fits 2 tag && fits 2 port
  | .reviveDest tag port => fits 2 tag && fits 2 port
  | .queryDest tag port => fits 2 tag && fits 2 port
  | .setPacing tag port p e => fits 2 tag && fits 2 port && fits 1 p && fits 1 e
  | .setLook tag slot item => fits 2 tag && fits 2 slot && item.wf
  | .loadCurve tag slot channel first entries =>
    fits 2 tag && fits 2 slot && itemsWf 1 257 (fits 2) entries && !curveRangeBad channel first entries.length
  | .loadLattice tag slot first entries =>
    fits 2 tag && fits 2 slot && itemsWf 1 512 latticeEntryWf entries && !latticeRangeBad first entries.length
  | .commitLook tag slot => fits 2 tag && fits 2 slot
  | .mapCamera tag camera code => fits 2 tag && fits 2 camera && fits 1 code
  | .setCompare tag on split => fits 2 tag && fits 1 on && fits 2 split
  | .setProfile tag camera item => fits 2 tag && fits 2 camera && item.wf
  | .watchPixel tag items => fits 2 tag && itemsWf 1 65535 WatchItem.wf items
  | .unwatchPixel tag items => fits 2 tag && itemsWf 1 65535 UnwatchItem.wf items
  | .waive tag card generation => fits 2 tag && fits 2 card && fits 2 generation
  | .clearStatus tag => fits 2 tag
  | .resetPart tag => fits 2 tag
  | .queryPart tag => fits 2 tag
  | .malformedDirective p => p.wf && failsForm p
  | .stationForeignParcel kind p => fits 1 kind && p.wf && !stationKind kind
  | .portForeignParcel port kind p => fits 1 kind && p.wf && !portKind port kind
  | .sourceAttach _ => true
  | .sourceDetach _ => true
  | .destLinkUp _ => true
  | .destLinkDown _ => true
  | .stationLinkDown => true
  | .stationLinkUp => true
  | .powerOn => true
  | .resetPin => true
  | .resetEnd _ _ _ _ _ => true
  | .sendFetch _ => true
  | .sourceBlock _ b => b.wf
  | .fetchTimeout _ tag => fits 2 tag
  | .sendStore _ => true
  | .storeDone _ b => b.wf
  | .stallTimeout _ => true
  | .sendVerifyFetch _ => true
  | .verifyBlock _ b => b.wf
  | .verifyFetchTimeout _ tag => fits 2 tag
  | .frameOpen b => b.wf
  | .line b _ => b.wf
  | .frameClose b => b.wf
  | .egressSend => true

end Sys2Proof
end

