-- ==== Sys2Proof/Safety.lean ====
section
/-! DEFINITION. The terms the claims are stated in: when the part takes a command, what an answer leaves, and the invariants of
its records, each from the sentence of spec/ that its docstring names. -/

namespace Sys2Proof.Machine

/-! ## When a command is taken -/

/-- The part is not held in reset (R187). -/
def State.runs (s : State) : Prop := s.part.reset.holding = none

/-- The station link takes a parcel: the part runs and the directive unit holds no answer (R173, R180). -/
def State.listens (s : State) : Prop := s.runs ∧ s.part.unit.held = none

/-- A parcel is taken with the directive unit in ACCEPTING (R175). -/
def State.accepts (s : State) : Prop := s.listens ∧ s.part.unit.status.locked = false

/-- The part `p`, with the answer `a` placed, and the queue as it was (R179, R180). -/
def State.answering (s : State) (a : Answer) (p : Part) : State := ⟨placeAnswer a p, s.pending⟩

/-- The outcome of a directive that is answered `a` and leaves the part `p` but for the answer. -/
def Answers (c : Instr) (s : State) (a : Answer) (p : Part) : Prop := exec c s = .next (s.answering a p)

/-- A directive refused with the reason `r`: nothing changes but the answer. -/
def Refuses (c : Instr) (s : State) (tag code : Nat) (r : Reason) : Prop :=
  Answers c s ⟨tag, code, .refused r, .nothing⟩ s.part

/-- The commands that are well-formed directives: those the directive table of section 10.2 spells. -/
def isDirective (c : Instr) : Bool := (directiveBytes c).isSome

/-- R178: the directives taken in LOCKED too. -/
def takenLocked : Instr → Bool
  | .clearStatus _ | .haltAll _ | .resetPart _ | .queryPart _ | .queryCard _ _ | .queryClip _ _ | .queryDest _ _ => true
  | _ => false

/-- The commands that arrive as parcels of the station link (R173, R174). -/
def onStation (c : Instr) : Bool :=
  isDirective c || match c with
    | .malformedDirective _ | .stationForeignParcel _ _ | .frameOpen _ | .line _ _ | .frameClose _ => true
    | _ => false

/-- R187: the commands that act while the part is held in reset. -/
def actsInReset : Instr → Bool
  | .powerOn | .resetPin | .resetEnd _ _ _ _ _ => true
  | _ => false

/-- Commands run one after the other, each from the state the one before leads to. -/
def runAll : List Instr → State → Option State
  | [], s => some s
  | c :: rest, s =>
    match exec c s with
    | .next t => runAll rest t
    | _ => none

/-! ## The end of an attempt (R47, R57, R58) -/

/-- R47: an IDLE channel, with no clip, empty sets, no FETCH, no block and its lanes at their start, and the tag counter
given. -/
def Channel.Idles (c : Channel) (tag : Nat) : Prop :=
  c.state = .idle ∧ c.clip = none ∧ c.writing = DestSet.empty ∧ c.finished = DestSet.empty ∧ c.drain = DestSet.empty
    ∧ c.fetches = [] ∧ c.held = [] ∧ c.laneA = 1 ∧ c.laneB = 0 ∧ c.tagCounter = tag

/-- R57 step 4, R59, R67: from the part `s` with the fault log `l`, `q` has counted a failed attempt of the clip `k`, whose
record was `c`: LISTED below 3, FAILED with CLIP_FAILED, detail 3, at 3. -/
def FailureCounted (s : Part) (l : FaultLog) (k : ClipId) (c : Clip) (q : Part) : Prop :=
  ∃ y, q.clips[k] = some y
    ∧ (c.failed + 1 < 3 → y.failed = c.failed + 1 ∧ y.state = .listed ∧ y.openMarks = c.openMarks ∧ q.log = l)
    ∧ (3 ≤ c.failed + 1 → y.failed = 3 ∧ y.state = .failed
      ∧ q.log = logFault (decide (s.cards[c.card].state = .cleared)) ⟨.clipFailed, some c.card, some k, none, none, 3⟩ l
      ∧ (s.cards[c.card].state ≠ .cleared → y.openMarks.has .clipFailed = true))

/-- R57 steps 3 and 4, R60: from the part `s` with the fault log `l`, the attempt of the clip `k`, whose record was `c`, has
ended with `live` live copies in `q`: WRITTEN with one or more, COPY_SHORT raised below the required ones; a failed attempt
counted with none. -/
def AttemptSettled (s : Part) (l : FaultLog) (k : ClipId) (c : Clip) (live : Nat) (q : Part) : Prop :=
  (live = 0 → FailureCounted s l k c q)
    ∧ (1 ≤ live → ∃ y, q.clips[k] = some y ∧ y.state = .written ∧ y.failed = c.failed
      ∧ (s.cards[c.card].required ≤ live → y.openMarks = c.openMarks ∧ q.log = l)
      ∧ (live < s.cards[c.card].required →
        (s.cards[c.card].state ≠ .cleared → y.openMarks.has .copyShort = true)
          ∧ q.log = logFault (decide (s.cards[c.card].state = .cleared))
              ⟨.copyShort, some c.card, some k, none, none, live⟩ l))

/-- R57 step 5, R58, R63: the state an attempt end leaves a card in, from the state `st` it had and the clips and marks of
`q`. -/
def CardSettled (st : CardState) (q : Part) (h : CardId) : Prop :=
  (st = .suspending → q.cards[h].state = .suspended)
    ∧ (st = .copying →
      ((∃ k ∈ q.cards[h].clips, ∃ c, q.clips[k] = some c ∧ (c.state = .listed ∨ c.state = .inFlight)) →
          q.cards[h].state = .copying)
        ∧ ((∀ k ∈ q.cards[h].clips, ∀ c, q.clips[k] = some c → c.state ≠ .listed ∧ c.state ≠ .inFlight) →
          q.cards[h].state =
            if anyMarkOpen q h then .held else if clearanceHolds q h then .cleared else .copied))
    ∧ (st ≠ .suspending → st ≠ .copying → st ≠ .copied → q.cards[h].state = st)

/-! ## The notice queue (R184, R180, R165) -/

/-- What R184 calls the subject of an entry, numbered: 8 CARD-STATE, 6 DEST-STATE, 8 LOOK-COMMITTED, 8 CLEARED, RESET-DONE and
the answer. -/
def Notice.subject : Notice → Nat
  | .cardState h _ _ _ => h.val
  | .destState d _ _ _ _ _ _ => 8 + d.val
  | .lookCommitted k _ _ => 14 + k.val
  | .cleared h _ _ => 22 + h.val
  | .resetDone _ _ _ => 30
  | .answer _ => 31

/-- R165: a CLEARED notice for a card is queued. -/
def clearedQueued (h : CardId) (q : List Notice) : Prop := ∃ label n, Notice.cleared h label n ∈ q

/-- R184: no two entries of the notice queue have one subject; R180: an answer is held only while the queue holds one;
R165: a card's CLEARED notice unsent flag says whether its CLEARED notice is queued, and only a CLEARED card's is yes. -/
def NoticesOk (s : Part) : Prop :=
  (s.notices.map Notice.subject).Nodup
    ∧ (s.unit.held.isSome = true → s.notices.any Notice.isAnswer = true)
    ∧ ∀ h : CardId, (s.cards[h].clearedUnsent = true ↔ clearedQueued h s.notices)
        ∧ (s.cards[h].clearedUnsent = true → s.cards[h].state = .cleared)

/-! ## The fault log (R148 to R150) -/

/-- R148: entries carry consecutive sequence numbers, modulo 65,536, from head to tail, the first being `n`; the number after
the last is `next`. -/
def consecutive : Nat → List LogEntry → Nat → Prop
  | n, [], next => n = next
  | n, e :: rest, next => e.seq = n ∧ consecutive ((n + 1) % 65536) rest next

/-- R148 to R150: at most 63 entries and, behind them, at most one marker of a count from 1 to 4,294,967,295; consecutive
numbers, the marker's after the last entry's, the next number after all of them. -/
def LogOk (l : FaultLog) : Prop :=
  l.entries.length ≤ 63 ∧ l.nextSeq < 65536 ∧
    ∃ first, first < 65536 ∧
      match l.marker with
      | none => consecutive first l.entries l.nextSeq
      | some m => consecutive first l.entries m.seq ∧ l.nextSeq = (m.seq + 1) % 65536 ∧ m.seq < 65536
          ∧ 1 ≤ m.count ∧ m.count ≤ 4294967295

/-! ## Marks (R153) -/

/-- R153: a kind is never in both sets of one record. -/
def MarkSet.disjoint (a b : MarkSet) : Prop := ∀ k : FaultKind, ¬ (a.has k = true ∧ b.has k = true)

/-- R153: a card's sets hold only the card kinds, a clip's only the clip kinds, and no kind is both open and waived. -/
def MarksOk (s : Part) : Prop :=
  (∀ h : CardId, MarkSet.disjoint s.cards[h].openMarks s.cards[h].waivedMarks
      ∧ ∀ k : FaultKind, (s.cards[h].openMarks.has k || s.cards[h].waivedMarks.has k) = true → k.marksCard = true)
    ∧ ∀ (i : ClipId) (c : Clip), s.clips[i] = some c →
        MarkSet.disjoint c.openMarks c.waivedMarks
          ∧ ∀ k : FaultKind, (c.openMarks.has k || c.waivedMarks.has k) = true → k.marksClip = true

/-! ## Destinations (R31, R33, R36, R83) -/

/-- R31: at most 8 STOREs and 2 verify FETCHes outstanding; R33: the stall timer runs exactly while a request is; R36: a
draining destination has no holder and a STORE outstanding; R83: the credit runs from 0 to the ratio; section 2.1: the
stall limit, P and S in their ranges. -/
def Dest.ok (x : Dest) : Prop :=
  x.stores.length ≤ 8 ∧ x.fetches.length ≤ 2
    ∧ (x.stallTimer.isSome = true ↔ x.outstanding ≠ 0)
    ∧ (x.draining = true → x.holder = none ∧ x.stores ≠ [])
    ∧ x.credit ≤ x.ratio
    ∧ 50 ≤ x.stallLimit ∧ x.stallLimit ≤ 10000
    ∧ (x.paceP = 1 ∨ x.paceP = 2 ∨ x.paceP = 3 ∨ x.paceP = 5) ∧ x.paceS ≤ 7

def DestsOk (s : Part) : Prop := ∀ d : DestId, s.dests[d].ok

/-! ## Copy channels (R47, R48) -/

/-- R48: at most 4 FETCHes outstanding and 16 blocks held; R47: an IDLE channel holds no clip, no FETCH, no block and empty
sets; R65: a WAITING channel waits for some destination, and has no clip, FETCH or block. -/
def Channel.ok (c : Channel) : Prop :=
  c.fetches.length ≤ 4 ∧ c.held.length ≤ 16
    ∧ (c.state = .idle → c.drain = DestSet.empty)
    ∧ (c.state = .waiting → c.drain.isEmpty = false)
    ∧ (c.state ≠ .running → c.clip = none ∧ c.writing = DestSet.empty ∧ c.finished = DestSet.empty ∧ c.fetches = []
        ∧ c.held = [])

def ChannelsOk (s : Part) : Prop := ∀ p : PortId, s.channels[p].ok

/-! ## Clearance (R164) and the links between the tables it leans on -/

/-- R164: of a CLEARED card every clip is VERIFIED on at least the required copies or FAILED with CLIP_FAILED waived, and no
mark is open on the card or its clips. -/
def ClearedOk (s : Part) : Prop :=
  ∀ h : CardId, s.cards[h].state = .cleared →
    s.cards[h].openMarks = MarkSet.empty
      ∧ ∀ k ∈ s.cards[h].clips, ∀ c, s.clips[k] = some c →
        c.openMarks = MarkSet.empty
          ∧ ((c.state = .failed ∧ c.waivedMarks.has .clipFailed = true)
            ∨ (c.state ≠ .failed ∧ s.cards[h].required ≤ c.verified))

/-- R1, R3, R4, R10: a clip record in use is on the clip list of its card and on no other, and a free card lists none and has
no source; R7, R8: a port is bound to the card whose source it is, and only while it is ATTACHED. -/
def TablesOk (s : Part) : Prop :=
  (∀ (h : CardId) (k : ClipId), k ∈ s.cards[h].clips ↔ ∃ c, s.clips[k] = some c ∧ c.card = h)
    ∧ (∀ h : CardId, s.cards[h].state = .free → s.cards[h].clips = [] ∧ s.cards[h].source = none)
    ∧ (∀ (p : PortId) (h : CardId), s.ports[p].binding = some h ↔ s.cards[h].source = some p)
    ∧ ∀ p : PortId, s.ports[p].binding.isSome = true → s.ports[p].attached = true

/-- R5, R46, R47: a RUNNING channel copies a clip that is IN_FLIGHT, from the source of its card, and no other channel has a
clip; a clip is IN_FLIGHT only on a RUNNING channel, its card in COPYING or SUSPENDING; a destination's holder is the clip
of a RUNNING channel whose writing set it is in, with its copy record WRITING. R71: a copy record is VERIFYING exactly when
the destination's context names its clip. -/
def AttemptsOk (s : Part) : Prop :=
  (∀ p : PortId, s.channels[p].state ≠ .running → s.channels[p].clip = none)
    ∧ (∀ p : PortId, s.channels[p].state = .running → ∃ k c, s.channels[p].clip = some k ∧ s.clips[k] = some c
        ∧ c.state = .inFlight ∧ s.cards[c.card].source = some p
        ∧ ∀ d : DestId, s.channels[p].writing.mem d = true → s.dests[d].holder = some k)
    ∧ (∀ (k : ClipId) (c : Clip), s.clips[k] = some c → c.state = .inFlight →
        (s.cards[c.card].state = .copying ∨ s.cards[c.card].state = .suspending)
          ∧ ∃ p : PortId, s.channels[p].state = .running ∧ s.channels[p].clip = some k)
    ∧ (∀ (d : DestId) (k : ClipId), s.dests[d].holder = some k → ∃ (p : PortId) (c : Clip),
        s.channels[p].state = .running ∧ s.channels[p].clip = some k ∧ s.channels[p].writing.mem d = true
          ∧ s.clips[k] = some c ∧ c.copies[d] = .writing)
    ∧ ∀ (d : DestId) (k : ClipId) (o : Nat),
        (∃ c, s.clips[k] = some c ∧ c.copies[d] = .verifying o)
          ↔ ∃ v, s.dests[d].context = some v ∧ v.clip = k ∧ v.offset = o

def ClearanceOk (s : Part) : Prop := ClearedOk s ∧ TablesOk s ∧ AttemptsOk s

/-! ## Looks (R103, R120) -/

/-- R103: in CLEAN the STAGING bank holds the same contents as the LIVE bank; R120: a slot is PENDING only while the open
frame uses it. -/
def LooksOk (s : Part) : Prop :=
  ∀ k : SlotId, (s.looks[k].state = .clean → s.looks[k].staging = s.looks[k].live)
    ∧ (s.looks[k].state.isPending = true → slotInUse s k = true)

/-! ## Fitted ports (R186) -/

/-- R186: an unfitted source port is DETACHED and unbound, an unfitted destination is ABSENT with nothing to do; the straps
give 1 to 4 source ports and 2 to 6 destinations. -/
def FittedOk (s : Part) : Prop :=
  1 ≤ s.reset.sources ∧ s.reset.sources ≤ 4 ∧ 2 ≤ s.reset.dests ∧ s.reset.dests ≤ 6
    ∧ (∀ p : PortId, s.reset.sources ≤ p.val → s.ports[p] = ⟨false, none⟩)
    ∧ ∀ d : DestId, s.reset.dests ≤ d.val →
        s.dests[d].state = .absent ∧ s.dests[d].holder = none ∧ s.dests[d].stores = [] ∧ s.dests[d].fetches = []
          ∧ s.dests[d].stallTimer = none

end Sys2Proof.Machine
end

