-- ==== Sys2Proof/Certificates/Slice0/Obligations.lean ====
section
/-! DEFINITION. The statements for the provers: what the rules of spec/ say the commands and the machine do. -/

open Sys2Proof Sys2Proof.Machine

/-! ## The queue, the millisecond, answers and ingress -/

/-- A step with a command at the front of the queue is that command's `exec` on the rest, and it completes: every command
has an effect in every state, and takes nothing else from the queue. -/
def Obligations.StepRunsTheFrontCommand : Prop :=
  ∀ (s : State) (c : Instr) (rest : List Instr), s.pending = c :: rest →
    step s = exec c { s with pending := rest } ∧ ∃ t, step s = .next t ∧ t.pending = rest

/-- With no command waiting a millisecond passes (the model's choice, log entry 2): every fetch timer and every running stall
timer counts down by 1, the timers that reach 0 bring about their events, in some order, and nothing else changes; held
in reset the part runs no timer. -/
def Obligations.MillisecondPasses : Prop :=
  ∀ s : State, s.pending = [] →
    (s.part.reset.holding.isSome = true → step s = .next s)
      ∧ (s.runs → ∃ t, step s = .next t ∧ t.pending.Perm (expiries s.part)
          ∧ (∀ p : PortId, t.part.channels[p] =
              { s.part.channels[p] with
                fetches := s.part.channels[p].fetches.map fun f => { f with timer := f.timer - 1 } })
          ∧ (∀ d : DestId, t.part.dests[d] =
              { s.part.dests[d] with
                fetches := s.part.dests[d].fetches.map fun f => { f with timer := f.timer - 1 }
                stallTimer := s.part.dests[d].stallTimer.map (· - 1) })
          ∧ (∀ (p : PortId) (g : Nat), Instr.fetchTimeout p g ∈ t.pending ↔
              ∃ f ∈ s.part.channels[p].fetches, f.tag = g ∧ f.timer = 1)
          ∧ (∀ (d : DestId) (g : Nat), Instr.verifyFetchTimeout d g ∈ t.pending ↔
              ∃ f ∈ s.part.dests[d].fetches, f.tag = g ∧ f.timer = 1)
          ∧ (∀ d : DestId, Instr.stallTimeout d ∈ t.pending ↔ s.part.dests[d].stallTimer = some 1)
          ∧ t.part =
              { s.part with channels := t.part.channels, dests := t.part.dests, freeCount := t.part.freeCount })

/-- R180, R173: an answer enters the notice queue at once when the queue holds none and is held by the unit otherwise; while
the unit holds one, every parcel of the station link waits there in its order and changes nothing (where the parcels that
wait stand is the model's choice, log entry 6). -/
def Obligations.AnswersAndIngress : Prop :=
  (∀ (a : Answer) (p : Part), p.notices.any Notice.isAnswer = false →
      placeAnswer a p = { p with notices := p.notices ++ [.answer a] })
    ∧ (∀ (a : Answer) (p : Part), p.notices.any Notice.isAnswer = true →
        placeAnswer a p = { p with unit := { p.unit with held := some a } })
    ∧ ∀ (s : State) (c : Instr), s.runs → s.part.unit.held.isSome = true → onStation c = true →
        exec c s = .next { s with part := { s.part with waiting := s.part.waiting ++ [c] } }

/-- R178: in LOCKED a well-formed directive other than the seven taken in both states is answered LOCKED, with its own tag and
code, and counted; its owner sees nothing of it. -/
def Obligations.LockedDirectives : Prop :=
  ∀ (s : State) (c : Instr) (b : List Byte), s.listens → s.part.unit.status.locked = true → c.wf = true →
    directiveBytes c = some b → takenLocked c = false →
      Answers c s ⟨field b 2 2, field b 0 1, .locked, .nothing⟩
        { s.part with
          unit := { s.part.unit with
            status := { s.part.unit.status with count := min (s.part.unit.status.count + 1) 65535 } } }

/-- R187: held in reset the part takes no parcel, sends none and ignores link events; only power, the pin and the end of the
reset act. That any other command that comes while the part is held is lost without effect is the model's choice (log entry
13). -/
def Obligations.HeldInReset : Prop :=
  ∀ (s : State) (c : Instr), s.part.reset.holding.isSome = true → actsInReset c = false → exec c s = .next s

/-- R177: a malformed directive locks an ACCEPTING unit with its cause and DIRECTIVE_LOCK, and is counted in LOCKED. -/
def Obligations.MalformedDirective : Prop :=
  ∀ (s : State) (p : Rx) (cause tag code : Nat), s.listens → formCheck p = .bad cause tag code →
    (s.part.unit.status.locked = false →
        Answers (.malformedDirective p) s ⟨tag, code, .malformed cause, .nothing⟩
          { s.part with
            unit := { s.part.unit with status := ⟨true, some cause, s.part.unit.status.count⟩ }
            log := logFault false ⟨.directiveLock, none, none, none, none, cause⟩ s.part.log })
      ∧ (s.part.unit.status.locked = true →
        Answers (.malformedDirective p) s ⟨tag, code, .malformed cause, .nothing⟩
          { s.part with
            unit := { s.part.unit with
              status := { s.part.unit.status with count := min (s.part.unit.status.count + 1) 65535 } } })

/-- R174: a parcel of a kind the station link does not take is a malformed directive of cause 7, answered with tag 65,535 and
code FFh; the picture parcels, damaged or not, leave the directive unit as it is. -/
def Obligations.ForeignStationParcel : Prop :=
  (∀ (s : State) (kind : Nat) (p : Rx), s.listens → stationKind kind = false →
      (s.part.unit.status.locked = false →
          Answers (.stationForeignParcel kind p) s ⟨65535, 0xFF, .malformed 7, .nothing⟩
            { s.part with
              unit := { s.part.unit with status := ⟨true, some 7, s.part.unit.status.count⟩ }
              log := logFault false ⟨.directiveLock, none, none, none, none, 7⟩ s.part.log })
        ∧ (s.part.unit.status.locked = true →
          Answers (.stationForeignParcel kind p) s ⟨65535, 0xFF, .malformed 7, .nothing⟩
            { s.part with
              unit := { s.part.unit with
                status := { s.part.unit.status with count := min (s.part.unit.status.count + 1) 65535 } } }))
    ∧ ∀ (s t : State) (p : Rx) (m : Bool),
        (exec (.frameOpen p) s = .next t ∨ exec (.line p m) s = .next t ∨ exec (.frameClose p) s = .next t) →
          t.part.unit = s.part.unit

/-- R168, R50, R32, R169: a parcel of a kind its port does not take, a BLOCK or STORE-DONE whose tag answers nothing, and a
damaged STORE-DONE are discarded and change nothing. -/
def Obligations.DiscardedParcels : Prop :=
  (∀ (s : State) (port : Port) (kind : Nat) (p : Rx), portKind port kind = false →
      exec (.portForeignParcel port kind p) s = .next s)
    ∧ (∀ (s : State) (p : PortId) (b : Rx), (∀ f ∈ s.part.channels[p].fetches, f.tag ≠ b.tag) →
        exec (.sourceBlock p b) s = .next s)
    ∧ (∀ (s : State) (d : DestId) (b : Rx), (∀ f ∈ s.part.dests[d].fetches, f.tag ≠ b.tag) →
        exec (.verifyBlock d b) s = .next s)
    ∧ ∀ (s : State) (d : DestId) (b : Rx),
        ((∀ r ∈ s.part.dests[d].stores, r.tag ≠ b.tag) ∨ damaged 0x04 b = true) →
          exec (.storeDone d b) s = .next s

/-! ## The form of a directive -/

/-- R176: the checks in their order, each with its cause and the tag and code the answer carries; a parcel that passes them
all spells a well-formed directive. That a code without items has the item size 0, so that such a parcel of 12 bytes and a
count other than 0 fails check 5 and not check 4, is the model's reading (log entry 18). -/
def Obligations.FormChecks : Prop :=
  ∀ p : Rx,
    (damaged 0x10 p = true → formCheck p = .bad 1 65535 0xFF)
      ∧ (damaged 0x10 p = false → p.payload.length < 12 → formCheck p = .bad 4 65535 0xFF)
      ∧ (damaged 0x10 p = false → 12 ≤ p.payload.length →
          field p.payload 1 1 ≠ 255 - field p.payload 0 1 →
            formCheck p = .bad 2 (field p.payload 2 2) (field p.payload 0 1))
      ∧ (damaged 0x10 p = false → 12 ≤ p.payload.length →
          field p.payload 1 1 = 255 - field p.payload 0 1 →
            (directiveShape (field p.payload 0 1) = none →
                formCheck p = .bad 3 (field p.payload 2 2) (field p.payload 0 1))
              ∧ ∀ size lo hi, directiveShape (field p.payload 0 1) = some (size, lo, hi) →
                  (p.payload.length ≠ 12 + field p.payload 6 2 * size →
                      formCheck p = .bad 4 (field p.payload 2 2) (field p.payload 0 1))
                    ∧ (p.payload.length = 12 + field p.payload 6 2 * size →
                        (field p.payload 6 2 < lo ∨ hi < field p.payload 6 2) →
                          formCheck p = .bad 5 (field p.payload 2 2) (field p.payload 0 1))
                    ∧ (p.payload.length = 12 + field p.payload 6 2 * size →
                        lo ≤ field p.payload 6 2 → field p.payload 6 2 ≤ hi →
                          (itemRangeBad (field p.payload 0 1) (field p.payload 8 4) (field p.payload 6 2) = true →
                              formCheck p = .bad 6 (field p.payload 2 2) (field p.payload 0 1))
                            ∧ (itemRangeBad (field p.payload 0 1) (field p.payload 8 4) (field p.payload 6 2) = false →
                              ∃ c, formCheck p = .good c ∧ isDirective c = true ∧ c.wf = true)))

/-- Section 10.2: every well-formed directive, written as a DIRECTIVE parcel, passes the form checks and is read as itself. -/
def Obligations.DirectiveRoundTrip : Prop :=
  ∀ (c : Instr) (p : Rx), c.wf = true → directiveParcel c = some p → formCheck p = .good c

/-! ## The full reset -/

/-- R187, R186, R188 with R20 to R22, R24, R47, R102, R104, R125, R148 and R175: what the end of a full reset leaves, with
the station link up or down as it stands then and nothing left waiting at it. -/
def Obligations.ResetEnds : Prop :=
  ∀ (s : State) (cause : ResetCause) (src : BitVec 2) (dst : BitVec 3) (present : BitVec 4) (up : BitVec 6)
    (station : Bool), s.part.reset.holding = some cause →
    ∃ t, exec (.resetEnd src dst present up station) s = .next t ∧ t.pending = s.pending
      ∧ t.part.reset = ⟨none, cause, src.toNat + 1, min (dst.toNat + 2) 6⟩
      ∧ t.part.notices = [.resetDone cause (src.toNat + 1) (min (dst.toNat + 2) 6)]
      ∧ (∀ h : CardId, t.part.cards[h] =
          { label := List.replicate 16 0#8, source := none, state := .free, required := 1, review := false,
            mode := .finish, route := DestSet.empty, clips := [], openMarks := MarkSet.empty,
            waivedMarks := MarkSet.empty, generation := 0, suspendWaiting := false, clearedUnsent := false })
      ∧ (∀ k : ClipId, t.part.clips[k] = none)
      ∧ (∀ p : PortId, t.part.ports[p] = ⟨decide (p.val < src.toNat + 1) && present.getLsbD p.val, none⟩)
      ∧ (∀ d : DestId, t.part.dests[d] =
          { state := if d.val < min (dst.toNat + 2) 6 ∧ up.getLsbD d.val = true then .unset else .absent,
            ret := none, base := 0, length := 0, cursor := 0, stallLimit := 2000, stallTimer := none, holder := none,
            draining := false, stores := [], fetches := [], tagCounter := 0, paceP := 1, paceS := 2, credit := 0,
            queue := [], context := none })
      ∧ (∀ p : PortId, t.part.channels[p].Idles 0)
      ∧ (∀ k : SlotId, t.part.looks[k].state = .clean ∧ t.part.looks[k].live = t.part.looks[k].staging
          ∧ t.part.looks[k].live.slope = ⟨4096, 4096, 4096⟩ ∧ t.part.looks[k].live.offset = ⟨0, 0, 0⟩
          ∧ t.part.looks[k].live.saturation = 4096 ∧ t.part.looks[k].live.latticeOn = false
          ∧ (∀ i : Fin 257, t.part.looks[k].live.curve.r[i] = (if i.val = 256 then 65535 else 256 * i.val)
            ∧ t.part.looks[k].live.curve.g[i] = (if i.val = 256 then 65535 else 256 * i.val)
            ∧ t.part.looks[k].live.curve.b[i] = if i.val = 256 then 65535 else 256 * i.val)
          ∧ ∀ b g r : Fin 17, t.part.looks[k].live.lattice[b][g][r] =
              ⟨if r.val = 16 then 65535 else 4096 * r.val, if g.val = 16 then 65535 else 4096 * g.val,
                if b.val = 16 then 65535 else 4096 * b.val⟩)
      ∧ (∀ c : CameraId, t.part.cameraMap[c] = none ∧ t.part.profiles[c] = ⟨4080, 16777215, 16, 16777215, 16777215⟩)
      ∧ t.part.grantPointer = 0 ∧ t.part.frame = none ∧ t.part.compare = ⟨false, 0⟩ ∧ t.part.watch = []
      ∧ t.part.checkedClip = .unset ∧ t.part.runs = ⟨false, false, false⟩ ∧ t.part.stats = none
      ∧ t.part.log = ⟨[], none, 0⟩ ∧ t.part.unit = ⟨⟨false, none, 0⟩, none⟩
      ∧ t.part.stationUp = station ∧ t.part.waiting = []

/-- R187, R181: power coming up gives the cause POWER; the pin gives PIN, but POWER through a power-on, and takes over a reset
of RESET-PART; RESET-PART is taken in both lock states, gives DIRECTIVE and has no answer. That the rest of the part keeps
its values until the reset ends is the model's choice (log entry 13). -/
def Obligations.ResetCauses : Prop :=
  ∀ s : State,
    exec .powerOn s = .next { s with
        part := { s.part with reset := { s.part.reset with holding := some .power }, waiting := [] } }
      ∧ exec .resetPin s = .next { s with
          part := { s.part with
            reset := { s.part.reset with
              holding := some (if s.part.reset.holding = some .power then .power else .pin) }
            waiting := [] } }
      ∧ ∀ tag : Nat, s.listens → exec (.resetPart tag) s = .next { s with
          part := { s.part with reset := { s.part.reset with holding := some .directive }, waiting := [] } }

/-! ## Cards and clips -/

/-- R8, R1, R9: MOUNT on an attached, unbound port creates a card in the lowest free record, with its values adjusted, or
re-attaches the card of that label; and each of its refusals, in the order of its checks. That a card of that label without
a source is refused with WRONG_STATE in every state but COPIED, HELD and HALTED, where R8 speaks of CLEARED alone, is the
model's choice (log entry 19). -/
def Obligations.Mount : Prop :=
  ∀ (s : State) (tag port : Nat) (label : List Byte) (copies review mode : Nat), s.accepts →
    ((4 ≤ port ∨ s.part.reset.sources ≤ port) →
        Refuses (.mount tag port label copies review mode) s tag 0x10 .noPort)
      ∧ ∀ p : PortId, p.val = port → port < s.part.reset.sources →
        ((s.part.ports[p].attached = false ∨ s.part.ports[p].binding.isSome = true) →
            Refuses (.mount tag port label copies review mode) s tag 0x10 .sourceConflict)
          ∧ ∀ h : CardId, s.part.ports[p] = ⟨true, none⟩ →
            ((∀ g : CardId, s.part.cards[g].state ≠ .free) → (∀ g : CardId, s.part.cards[g].label ≠ label) →
                Refuses (.mount tag port label copies review mode) s tag 0x10 .tableFull)
              ∧ (s.part.cards[h].state ≠ .free → s.part.cards[h].label = label →
                (∀ g : CardId, g < h → s.part.cards[g].state ≠ .free → s.part.cards[g].label ≠ label) →
                  (s.part.cards[h].source.isSome = true →
                      Refuses (.mount tag port label copies review mode) s tag 0x10 .sourceConflict)
                    ∧ (s.part.cards[h].source = none →
                      (s.part.cards[h].state ≠ .copied ∧ s.part.cards[h].state ≠ .held
                        ∧ s.part.cards[h].state ≠ .halted) →
                        Refuses (.mount tag port label copies review mode) s tag 0x10 .wrongState)
                    ∧ (s.part.cards[h].source = none →
                      (s.part.cards[h].state = .copied ∨ s.part.cards[h].state = .held
                        ∨ s.part.cards[h].state = .halted) →
                        Answers (.mount tag port label copies review mode) s
                          ⟨tag, 0x10, .done, .mounted h s.part.cards[h].state⟩
                          (queueNotice (.cardState h label s.part.cards[h].state (some p))
                            { s.part with
                              cards := s.part.cards.set h { s.part.cards[h] with source := some p }
                              ports := s.part.ports.set p ⟨true, some h⟩ })))
              ∧ ((∀ g : CardId, s.part.cards[g].state ≠ .free → s.part.cards[g].label ≠ label) →
                s.part.cards[h].state = .free → (∀ g : CardId, g < h → s.part.cards[g].state ≠ .free) →
                  Answers (.mount tag port label copies review mode) s
                    ⟨tag, 0x10, if copies = 0 ∨ 4 < copies ∨ 1 < mode then .adjusted else .done,
                      .mounted h .mounted⟩
                    (queueNotice (.cardState h label .mounted (some p))
                      { s.part with
                        cards := s.part.cards.set h
                          { label := label, source := some p, state := .mounted
                            required := if copies = 0 then 1 else if 4 < copies then 4 else copies
                            review := review != 0, mode := if mode = 0 then .prompt else .finish
                            route := DestSet.empty, clips := [], openMarks := MarkSet.empty
                            waivedMarks := MarkSet.empty, generation := s.part.cards[h].generation
                            suspendWaiting := false, clearedUnsent := false }
                        ports := s.part.ports.set p ⟨true, some h⟩ }))

/-- R11, R12, R3, R4: LIST-CLIPS on a card in MOUNTED, SUSPENDED or COPYING gives each item, in order, the lowest free handle
left, and appends the handles to the card's list; nothing else changes, but that the grant is evaluated for a card in
COPYING: at every LIST-CLIPS, whether the card had a clip in flight or LISTED or none, which is the model's choice (log
entry 8). R13: a listed clip has a byte at least and ends by sector 2^40 − 1. -/
def Obligations.ListClips : Prop :=
  (∀ (s : State) (tag card : Nat) (items : List ClipItem) (h : CardId),
      s.accepts → h.val = card →
      (s.part.cards[h].state = .mounted ∨ s.part.cards[h].state = .suspended ∨ s.part.cards[h].state = .copying) →
      1 ≤ items.length → items.length ≤ 512 → items.length ≤ (freeClips s.part).length →
        ∃ ks q, Answers (.listClips tag card items) s
            ⟨tag, 0x11, if items.any clipItemAdjusted then .adjusted else .done, .handles ks⟩
            (if s.part.cards[h].state = .copying then afterEvent q else q)
          ∧ ks.length = items.length ∧ ks.Pairwise (· < ·) ∧ (∀ k ∈ ks, s.part.clips[k] = none)
          ∧ (∀ j : ClipId, s.part.clips[j] = none → (∃ k ∈ ks, j < k) → j ∈ ks)
          ∧ q = { s.part with cards := q.cards, clips := q.clips }
          ∧ q.cards = s.part.cards.set h { s.part.cards[h] with clips := s.part.cards[h].clips ++ ks }
          ∧ (∀ (i : Nat) (k : ClipId) (x : ClipItem), ks[i]? = some k → items[i]? = some x →
              q.clips[k] = some (clipOfItem h x))
          ∧ ∀ j : ClipId, j ∉ ks → q.clips[j] = s.part.clips[j])
    ∧ ∀ (h : CardId) (x : ClipItem), x.wf = true →
        1 ≤ (clipOfItem h x).length
          ∧ (clipOfItem h x).start + 8 * (((clipOfItem h x).length + 4095) / 4096) ≤ 2 ^ 40

/-- R11, R14, R15, R18, R19, R61 to R63, R66, R67, R69, R156: a directive on a handle of no card or clip in use is refused with
NOT_FOUND, and each directive on a card is refused, with the reason of its first check that applies, in the states and
conditions its rule names; nothing changes but the answer. That START of a MOUNTED card with neither a route nor a clip is
refused with SHORT_ROUTE is the model's choice (log entry 24). -/
def Obligations.CardRefusals : Prop :=
  ∀ (s : State) (tag card generation clip : Nat) (items : List ClipItem) (ports : List Nat),
    1 ≤ items.length → items.length ≤ 512 → ports.length ≤ 6 →
      (s.listens → (8 ≤ card ∨ ∃ h : CardId, h.val = card ∧ s.part.cards[h].state = .free) →
          Refuses (.queryCard tag card) s tag 0x14 .notFound
            ∧ (s.accepts →
              Refuses (.listClips tag card items) s tag 0x11 .notFound ∧ Refuses (.dismount tag card) s tag 0x12 .notFound
                ∧ Refuses (.retire tag card) s tag 0x13 .notFound ∧ Refuses (.route tag card ports) s tag 0x20 .notFound
                ∧ Refuses (.start tag card) s tag 0x21 .notFound ∧ Refuses (.suspend tag card) s tag 0x22 .notFound
                ∧ Refuses (.resume tag card) s tag 0x23 .notFound ∧ Refuses (.abort tag card) s tag 0x24 .notFound
                ∧ Refuses (.recopy tag card) s tag 0x25 .notFound
                ∧ Refuses (.waive tag card generation) s tag 0x60 .notFound))
        ∧ (s.listens → (512 ≤ clip ∨ ∃ k : ClipId, k.val = clip ∧ s.part.clips[k] = none) →
          Refuses (.queryClip tag clip) s tag 0x15 .notFound)
        ∧ ∀ (h : CardId) (st : CardState) (copying : Prop), s.accepts → h.val = card → st = s.part.cards[h].state →
          st ≠ .free → (copying ↔ (st = .copying ∨ st = .suspending ∨ st = .suspended)) →
            ((st ≠ .mounted ∧ st ≠ .copying ∧ st ≠ .suspended) →
                Refuses (.listClips tag card items) s tag 0x11 .wrongState)
              ∧ ((st = .mounted ∨ st = .copying ∨ st = .suspended) → (freeClips s.part).length < items.length →
                Refuses (.listClips tag card items) s tag 0x11 .tableFull)
              ∧ (copying → Refuses (.dismount tag card) s tag 0x12 .busy)
              ∧ ((copying ∨ s.part.cards[h].clearedUnsent = true
                  ∨ ∃ (f : OpenFrame) (k : ClipId), s.part.frame = some f ∧ f.clip = some k
                    ∧ k ∈ s.part.cards[h].clips) → Refuses (.retire tag card) s tag 0x13 .busy)
              ∧ ((st = .copying ∨ st = .suspending) → Refuses (.route tag card ports) s tag 0x20 .busy)
              ∧ ((st = .copied ∨ st = .cleared) → Refuses (.route tag card ports) s tag 0x20 .wrongState)
              ∧ ((st = .mounted ∨ st = .suspended ∨ st = .held ∨ st = .halted) →
                (∃ x ∈ ports, 6 ≤ x ∨ s.part.reset.dests ≤ x) → Refuses (.route tag card ports) s tag 0x20 .noPort)
              ∧ (st ≠ .mounted → Refuses (.start tag card) s tag 0x21 .wrongState)
              ∧ (st = .mounted → s.part.cards[h].route = DestSet.empty →
                Refuses (.start tag card) s tag 0x21 .shortRoute)
              ∧ (st = .mounted → s.part.cards[h].route ≠ DestSet.empty → s.part.cards[h].clips = [] →
                Refuses (.start tag card) s tag 0x21 .wrongState)
              ∧ (st ≠ .copying → Refuses (.suspend tag card) s tag 0x22 .wrongState)
              ∧ (st ≠ .suspended → Refuses (.resume tag card) s tag 0x23 .wrongState)
              ∧ (¬ copying → Refuses (.abort tag card) s tag 0x24 .wrongState)
              ∧ ((st ≠ .held ∧ st ≠ .halted ∧ st ≠ .copied) → Refuses (.recopy tag card) s tag 0x25 .wrongState)
              ∧ ((st = .held ∨ st = .halted ∨ st = .copied) →
                (s.part.cards[h].source = none → Refuses (.recopy tag card) s tag 0x25 .noSource)
                  ∧ (s.part.cards[h].source ≠ none → s.part.cards[h].openMarks ≠ MarkSet.empty →
                    Refuses (.recopy tag card) s tag 0x25 .wrongState))
              ∧ ((st = .mounted ∨ st = .suspending ∨ st = .suspended ∨ st = .cleared) →
                Refuses (.waive tag card generation) s tag 0x60 .wrongState)

/-- R10: what releasing a card does: its clips are freed and leave every verify queue and context, the open frame and the
checked clip; its port keeps its presence and becomes unbound; its record is free and keeps its generation alone. R14,
R15: DISMOUNT of a MOUNTED card and RETIRE release it; DISMOUNT of a card in COPIED, HELD, HALTED or CLEARED takes its
source port. -/
def Obligations.DismountAndRetire : Prop :=
  (∀ (s : Part) (h : CardId) (k : ClipId), k ∈ s.cards[h].clips →
      (release h s).clips[k] = none ∧ (release h s).checkedClip ≠ .clip k
        ∧ (∀ d : DestId, k ∉ (release h s).dests[d].queue
            ∧ ∀ v, (release h s).dests[d].context = some v → v.clip ≠ k)
        ∧ ∀ f, (release h s).frame = some f → f.clip ≠ some k)
    ∧ (∀ (s : Part) (h : CardId), (release h s).cards = s.cards.set h
          { label := List.replicate 16 0#8, source := none, state := .free, required := 1, review := false,
            mode := .finish, route := DestSet.empty, clips := [], openMarks := MarkSet.empty,
            waivedMarks := MarkSet.empty, generation := s.cards[h].generation, suspendWaiting := false,
            clearedUnsent := false }
        ∧ ∀ p : PortId, (release h s).ports[p] =
            if s.cards[h].source = some p then ⟨s.ports[p].attached, none⟩ else s.ports[p])
    ∧ ∀ (s : State) (tag card : Nat) (h : CardId), s.accepts → h.val = card →
        (s.part.cards[h].state = .mounted →
            Answers (.dismount tag card) s ⟨tag, 0x12, .done, .nothing⟩ (release h s.part))
          ∧ ((s.part.cards[h].state = .copied ∨ s.part.cards[h].state = .held ∨ s.part.cards[h].state = .halted
                ∨ s.part.cards[h].state = .cleared) →
              (∀ p : PortId, s.part.cards[h].source = some p →
                Answers (.dismount tag card) s ⟨tag, 0x12, .done, .nothing⟩
                  (queueNotice (.cardState h s.part.cards[h].label s.part.cards[h].state none)
                    { s.part with
                      cards := s.part.cards.set h { s.part.cards[h] with source := none }
                      ports := s.part.ports.set p ⟨s.part.ports[p].attached, none⟩ }))
              ∧ (s.part.cards[h].source = none →
                Answers (.dismount tag card) s ⟨tag, 0x12, .done, .nothing⟩ s.part))
          ∧ ((s.part.cards[h].state = .mounted ∨ s.part.cards[h].state = .copied ∨ s.part.cards[h].state = .held
                ∨ s.part.cards[h].state = .halted ∨ s.part.cards[h].state = .cleared) →
              s.part.cards[h].clearedUnsent = false →
              (∀ (f : OpenFrame) (k : ClipId), s.part.frame = some f → f.clip = some k → k ∉ s.part.cards[h].clips) →
                Answers (.retire tag card) s ⟨tag, 0x13, .done, .nothing⟩ (release h s.part))

/-- R18, R19, R43, R183: the queries are answered in both lock states, DONE, with the record they name, and change nothing. -/
def Obligations.Queries : Prop :=
  ∀ (s : State) (tag : Nat), s.listens →
    (∀ (card : Nat) (h : CardId), h.val = card → s.part.cards[h].state ≠ .free →
        Answers (.queryCard tag card) s
          ⟨tag, 0x14, .done, .cardRecord h s.part.cards[h]
            { listed := (cardClips s.part h).countP fun c => c.state == .listed
              inFlight := (cardClips s.part h).countP fun c => c.state == .inFlight
              written := (cardClips s.part h).countP fun c => c.state == .written
              failed := (cardClips s.part h).countP fun c => c.state == .failed
              verified := (cardClips s.part h).countP fun c => decide (s.part.cards[h].required ≤ c.verified)
              withMarks := (cardClips s.part h).countP fun c => !c.openMarks.isEmpty }⟩ s.part)
      ∧ (∀ (clip : Nat) (k : ClipId) (c : Clip), k.val = clip → s.part.clips[k] = some c →
          Answers (.queryClip tag clip) s
            ⟨tag, 0x15, .done, .clipRecord k c s.part.cards[c.card].generation⟩ s.part)
      ∧ (∀ (port : Nat) (d : DestId), d.val = port → port < s.part.reset.dests →
          Answers (.queryDest tag port) s
            ⟨tag, 0x34, .done, .destRecord
              { state := s.part.dests[d].state, ret := s.part.dests[d].ret, base := s.part.dests[d].base
                length := s.part.dests[d].length, cursor := s.part.dests[d].cursor
                stallLimit := s.part.dests[d].stallLimit, stallTimer := s.part.dests[d].stallTimer
                holder := s.part.dests[d].holder, draining := s.part.dests[d].draining
                stores := s.part.dests[d].stores.length, fetches := s.part.dests[d].fetches.length
                paceP := s.part.dests[d].paceP, paceS := s.part.dests[d].paceS, credit := s.part.dests[d].credit
                queued := s.part.dests[d].queue.length
                contextClip := s.part.dests[d].context.map fun v => v.clip
                pointer := s.part.grantPointer }⟩ s.part)
      ∧ Answers (.queryPart tag) s
          ⟨tag, 0x72, .done, .part
            { status := s.part.unit.status, cause := s.part.reset.cause, sources := s.part.reset.sources
              dests := s.part.reset.dests, ports := s.part.ports
              occupancy := s.part.log.entries.length + (if s.part.log.marker.isSome then 1 else 0)
              suppressed := (s.part.log.marker.map fun m => m.count).getD 0
              cards := s.part.cards.toList.countP fun c => c.state != .free
              clips := s.part.clips.toList.countP Option.isSome
              held := false }⟩ s.part

/-! ## Copying -/

/-- R61: ROUTE in MOUNTED, SUSPENDED, HELD and HALTED replaces the route with the set of ports named and changes nothing
else; a list with fewer ports than the required copies is refused with SHORT_ROUTE. -/
def Obligations.Route : Prop :=
  ∀ (s : State) (tag card : Nat) (ports : List Nat) (h : CardId) (ds : DestSet),
    s.accepts → h.val = card → ports.length ≤ 6 →
    (s.part.cards[h].state = .mounted ∨ s.part.cards[h].state = .suspended ∨ s.part.cards[h].state = .held
      ∨ s.part.cards[h].state = .halted) →
    (∀ x ∈ ports, x < s.part.reset.dests ∧ x < 6) →
    (∀ d : DestId, ds.mem d = true ↔ d.val ∈ ports) →
      (1 ≤ ds.size → s.part.cards[h].required ≤ ds.size →
          Answers (.route tag card ports) s ⟨tag, 0x20, .done, .nothing⟩
            { s.part with cards := s.part.cards.set h { s.part.cards[h] with route := ds } })
        ∧ ((ds.size = 0 ∨ ds.size < s.part.cards[h].required) → Refuses (.route tag card ports) s tag 0x20 .shortRoute)

/-- R62, R44 to R47: START of a MOUNTED card with a clip LISTED moves it to COPYING and has the grant evaluated; with no other
card copying, every destination of its route ACTIVE, free and with room for its first clip, and as many of them as its
required copies, the clip is granted to the whole route at once and its channel begins the attempt at block 0. R44: which
cards are ready, and what considering one does: a clip with the required live copies has an empty target set (R46) and no
destination is tested; else each ACTIVE destination of the route without a live copy on which it does not fit goes to FULL
with DEST_FULL (R37), the target set is those on which it fits, and a card with too few of them goes to HELD with
DEST_SHORTFALL of the copies missing. The order D0 to D5 of several DEST_FULL is the model's choice (log entry 22). -/
def Obligations.StartGrants : Prop :=
  (∀ (s : State) (tag card : Nat) (h : CardId), s.accepts → h.val = card → s.part.cards[h].state = .mounted →
      (∃ d : DestId, s.part.cards[h].route.mem d = true) →
      (∃ k ∈ s.part.cards[h].clips, ∃ c, s.part.clips[k] = some c ∧ c.state = .listed) →
        Answers (.start tag card) s ⟨tag, 0x21, .done, .nothing⟩ (afterEvent (moveCard h .copying s.part)))
    ∧ (∀ (s : State) (tag card : Nat) (h : CardId) (k : ClipId) (rest : List ClipId) (c : Clip) (p : PortId),
        s.accepts → h.val = card → s.part.cards[h].state = .mounted → s.part.cards[h].source = some p →
        1 ≤ s.part.cards[h].required → s.part.cards[h].required ≤ s.part.cards[h].route.size →
        (∀ g : CardId, s.part.cards[g].state ≠ .copying) →
        s.part.channels[p].state = .idle →
        s.part.cards[h].clips = k :: rest →
        (∀ j ∈ k :: rest, ∃ x, s.part.clips[j] = some x ∧ x.state = .listed) →
        s.part.clips[k] = some c → (∀ d : DestId, c.copies[d] = .none) →
        (∀ d : DestId, s.part.cards[h].route.mem d = true →
          s.part.dests[d].state = .active ∧ s.part.dests[d].holder = none ∧ s.part.dests[d].draining = false
            ∧ s.part.dests[d].cursor + 8 * ((c.length + 4095) / 4096) ≤ s.part.dests[d].length) →
          ∃ q, Answers (.start tag card) s ⟨tag, 0x21, .done, .nothing⟩ q
            ∧ q.cards[h].state = .copying ∧ q.grantPointer = h + 1
            ∧ (∃ x, q.clips[k] = some x ∧ x.state = .inFlight
                ∧ ∀ d : DestId, x.copies[d] = if s.part.cards[h].route.mem d then .writing else .none)
            ∧ (∀ d : DestId, q.dests[d].holder =
                if s.part.cards[h].route.mem d then some k else s.part.dests[d].holder)
            ∧ q.channels[p].state = .running ∧ q.channels[p].clip = some k
            ∧ q.channels[p].writing = s.part.cards[h].route ∧ q.channels[p].finished = DestSet.empty
            ∧ q.channels[p].nextFetch = 0 ∧ q.channels[p].nextDigest = 0 ∧ q.channels[p].fetches = []
            ∧ q.channels[p].held = [] ∧ q.channels[p].laneA = 1 ∧ q.channels[p].laneB = 0
            ∧ q.channels[p].tagCounter = s.part.channels[p].tagCounter)
    ∧ (∀ (s : Part) (h : CardId) (k : ClipId), readyClip s h = some k ↔
        s.cards[h].state = .copying
          ∧ (∀ j ∈ s.cards[h].clips, ∀ x, s.clips[j] = some x → x.state ≠ .inFlight)
          ∧ (∃ p : PortId, s.cards[h].source = some p ∧ s.channels[p].state = .idle)
          ∧ ∃ before rest x, s.cards[h].clips = before ++ k :: rest ∧ s.clips[k] = some x ∧ x.state = .listed
            ∧ ∀ j ∈ before, ∀ y, s.clips[j] = some y → y.state ≠ .listed)
    ∧ ∀ (s : Part) (h : CardId), (readyClip s h = none → consider s h = (s, none))
        ∧ ∀ (k : ClipId) (c : Clip) (asked : DestId → Bool), readyClip s h = some k → s.clips[k] = some c →
          (∀ d : DestId, asked d = true ↔
            s.cards[h].route.mem d = true ∧ s.dests[d].state = .active ∧ c.copies[d].live = false) →
          (s.cards[h].required ≤ c.live → consider s h = (s, some ⟨h, k, DestSet.empty⟩))
            ∧ (c.live < s.cards[h].required → ∃ (t : Part) (targets : DestSet),
              t = { s with dests := t.dests, notices := t.notices, log := t.log }
                ∧ (∀ d : DestId, targets.mem d = true ↔ asked d = true
                    ∧ s.dests[d].cursor + 8 * ((c.length + 4095) / 4096) ≤ s.dests[d].length)
                ∧ (∀ d : DestId, t.dests[d] =
                    if asked d = true ∧ s.dests[d].length < s.dests[d].cursor + 8 * ((c.length + 4095) / 4096)
                      then { s.dests[d] with state := .full } else s.dests[d])
                ∧ t.log = (allDests.filter fun d => asked d
                      && decide (s.dests[d].length < s.dests[d].cursor + 8 * ((c.length + 4095) / 4096))).foldl
                    (fun l d => logFault (decide (s.cards[c.card].state = .cleared))
                      ⟨.destFull, some c.card, some k, some d, none, s.dests[d].length - s.dests[d].cursor⟩ l) s.log
                ∧ (s.cards[h].required ≤ c.live + targets.size → consider s h = (t, some ⟨h, k, targets⟩))
                ∧ (c.live + targets.size < s.cards[h].required → consider s h =
                  (moveCard h .held (raise ⟨.destShortfall, some h, some k, none, none,
                    s.cards[h].required - (c.live + targets.size)⟩ t), none)))

/-- R63, R64, R66: SUSPEND with no clip in flight, under FINISH, and under PROMPT of a clip restarted before and of one that
was not; the abandon of the latter: its channel idles, its destinations are withdrawn, the finished ones queue the clip, and
with none of its target set draining the card is SUSPENDED, else the channel waits for the draining ones and the card is
SUSPENDING. R65: the end of a destination's draining takes it out of every drain set; a channel whose set is then empty
returns to IDLE and its card, still in SUSPENDING, goes to SUSPENDED. RESUME of a card with clips LISTED, and of one with
none. A card moved to another state has its CARD-STATE notice queued and its suspend-waiting flag kept only in SUSPENDING.
That a PROMPT abandon always has the grant evaluated and a SUSPEND with no clip in flight does not is the model's reading
(log entry 8). -/
def Obligations.SuspendAndResume : Prop :=
  (∀ (s : State) (tag card : Nat) (h : CardId), s.accepts → h.val = card → s.part.cards[h].state = .copying →
      (inFlightClip s.part h = none →
          Answers (.suspend tag card) s ⟨tag, 0x22, .done, .nothing⟩ (moveCard h .suspended s.part))
        ∧ ∀ (k : ClipId) (c : Clip), inFlightClip s.part h = some k → s.part.clips[k] = some c →
          (s.part.cards[h].mode = .finish →
              Answers (.suspend tag card) s ⟨tag, 0x22, .done, .nothing⟩ (moveCard h .suspending s.part))
            ∧ (s.part.cards[h].mode = .prompt → c.restarted = true →
              Answers (.suspend tag card) s ⟨tag, 0x22, .done, .nothing⟩
                (writeCard h { s.part.cards[h] with state := .suspending, suspendWaiting := true } s.part))
            ∧ ∀ p : PortId, s.part.cards[h].mode = .prompt → c.restarted = false → runningChannel s.part k = some p →
              Answers (.suspend tag card) s ⟨tag, 0x22, .done, .nothing⟩ (promptAbandon h p k s.part))
    ∧ (∀ (s : Part) (p : PortId) (k : ClipId) (c : Clip), s.clips[k] = some c →
        (∀ d : DestId, s.channels[p].writing.mem d = true → s.dests[d].holder = some k) →
          (abandonClip p k s).channels[p].state = .idle ∧ (abandonClip p k s).channels[p].fetches = []
            ∧ (abandonClip p k s).channels[p].held = []
            ∧ (∃ x, (abandonClip p k s).clips[k] = some x ∧ x.state = .listed ∧ x.restarted = true
                ∧ x.failed = c.failed ∧ x.sourceDigest = c.sourceDigest
                ∧ ∀ d : DestId, x.copies[d] = if s.channels[p].writing.mem d then .none else c.copies[d])
            ∧ ∀ d : DestId, (abandonClip p k s).dests[d].cursor = s.dests[d].cursor
                ∧ (s.channels[p].writing.mem d = true → (abandonClip p k s).dests[d].holder = none
                    ∧ (abandonClip p k s).dests[d].draining = !s.dests[d].stores.isEmpty)
                ∧ (s.channels[p].finished.mem d = true →
                    (abandonClip p k s).dests[d].queue = s.dests[d].queue ++ [k])
                ∧ (s.channels[p].finished.mem d = false →
                    (abandonClip p k s).dests[d].queue = s.dests[d].queue))
    ∧ (∀ (s q : Part) (h : CardId) (p : PortId) (k : ClipId) (drain : DestSet), q = abandonClip p k s →
        (∀ d : DestId, drain.mem d = true ↔ s.channels[p].target.mem d = true ∧ q.dests[d].draining = true) →
          ((∀ d : DestId, drain.mem d = false) → promptAbandon h p k s = afterEvent (moveCard h .suspended q))
            ∧ ((∃ d : DestId, drain.mem d = true) → promptAbandon h p k s = afterEvent (moveCard h .suspending
              { q with channels := q.channels.set p { q.channels[p] with state := .waiting, drain := drain } })))
    ∧ (∀ (s q : Part) (d : DestId), q = drainEnded d s →
        q.dests = s.dests ∧ q.clips = s.clips
          ∧ (∀ p : PortId, (s.channels[p].state ≠ .waiting ∨ s.channels[p].drain.mem d = false) →
            q.channels[p] = s.channels[p])
          ∧ (∀ p : PortId, s.channels[p].state = .waiting → s.channels[p].drain.mem d = true →
            ((∃ e : DestId, e ≠ d ∧ s.channels[p].drain.mem e = true) →
                q.channels[p] = { s.channels[p] with drain := s.channels[p].drain.erase d })
              ∧ ((∀ e : DestId, s.channels[p].drain.mem e = true → e = d) →
                q.channels[p].Idles s.channels[p].tagCounter
                  ∧ ∀ h : CardId, s.ports[p].binding = some h → s.cards[h].state = .suspending →
                    q.cards[h].state = .suspended))
          ∧ ∀ h : CardId, (s.cards[h].state ≠ .suspending
              ∨ ∀ p : PortId, s.ports[p].binding = some h → s.channels[p].state = .waiting →
                s.channels[p].drain.mem d = true → ∃ e : DestId, e ≠ d ∧ s.channels[p].drain.mem e = true) →
            q.cards[h] = s.cards[h])
    ∧ (∀ (s : Part) (h : CardId) (st : CardState), st ≠ .free → s.cards[h].state ≠ st →
        moveCard h st s = queueNotice (.cardState h s.cards[h].label st s.cards[h].source)
          { s with
            cards := s.cards.set h
              { s.cards[h] with
                state := st, suspendWaiting := s.cards[h].suspendWaiting && decide (st = .suspending) } })
    ∧ ∀ (s : State) (tag card : Nat) (h : CardId), s.accepts → h.val = card → s.part.cards[h].state = .suspended →
        ((firstListed s.part h).isSome = true →
            Answers (.resume tag card) s ⟨tag, 0x23, .done, .nothing⟩ (afterEvent (moveCard h .copying s.part)))
          ∧ (firstListed s.part h = none → inFlightClip s.part h = none → anyMarkOpen s.part h = true →
            Answers (.resume tag card) s ⟨tag, 0x23, .done, .nothing⟩
              (moveCard h .held (moveCard h .copying s.part)))
          ∧ (firstListed s.part h = none → inFlightClip s.part h = none → anyMarkOpen s.part h = false →
            Answers (.resume tag card) s ⟨tag, 0x23, .done, .nothing⟩
              (evalClearance h (moveCard h .copied (moveCard h .copying s.part))))

/-- R67: ABORT of a card whose channel is IDLE moves it to HALTED; one whose channel waits for draining has the drain set
emptied and the channel idled first; with a clip in flight the attempt is stopped first: its channel idles, its destinations
are withdrawn and drain, those that had finished queue the clip for verification, and the clip counts a failed attempt,
LISTED below 3 and FAILED with CLIP_FAILED at 3. When the grant is evaluated is the model's reading (log entry 8). -/
def Obligations.Abort : Prop :=
  (∀ (s : State) (tag card : Nat) (h : CardId) (p : PortId), s.accepts → h.val = card →
      (s.part.cards[h].state = .copying ∨ s.part.cards[h].state = .suspending
        ∨ s.part.cards[h].state = .suspended) → s.part.cards[h].source = some p →
        (s.part.channels[p].state = .idle →
            Answers (.abort tag card) s ⟨tag, 0x24, .done, .nothing⟩
              (queueNotice (.cardState h s.part.cards[h].label .halted (some p))
                { s.part with
                  cards := s.part.cards.set h { s.part.cards[h] with state := .halted, suspendWaiting := false } }))
          ∧ (s.part.channels[p].state = .waiting → ∃ idle : Channel, idle.Idles s.part.channels[p].tagCounter
            ∧ Answers (.abort tag card) s ⟨tag, 0x24, .done, .nothing⟩
              (afterEvent (queueNotice (.cardState h s.part.cards[h].label .halted (some p))
                { s.part with
                  channels := s.part.channels.set p idle
                  cards := s.part.cards.set h { s.part.cards[h] with state := .halted, suspendWaiting := false } })))
          ∧ ∀ k : ClipId, s.part.channels[p].state = .running → s.part.channels[p].clip = some k →
            Answers (.abort tag card) s ⟨tag, 0x24, .done, .nothing⟩
              (afterEvent (moveCard h .halted (stopClip p k s.part))))
    ∧ ∀ (s : Part) (p : PortId) (k : ClipId) (c : Clip), s.clips[k] = some c →
        (∀ d : DestId, s.channels[p].writing.mem d = true → s.dests[d].holder = some k) →
          (stopClip p k s).channels[p].Idles s.channels[p].tagCounter
            ∧ FailureCounted s s.log k c (stopClip p k s)
            ∧ (∃ x, (stopClip p k s).clips[k] = some x ∧ x.restarted = c.restarted
                ∧ x.sourceDigest = c.sourceDigest
                ∧ ∀ d : DestId, x.copies[d] = if s.channels[p].writing.mem d then .none else c.copies[d])
            ∧ ∀ d : DestId, (stopClip p k s).dests[d].cursor = s.dests[d].cursor
                ∧ (s.channels[p].writing.mem d = true → (stopClip p k s).dests[d].holder = none
                    ∧ (stopClip p k s).dests[d].draining = !s.dests[d].stores.isEmpty)
                ∧ (stopClip p k s).dests[d].queue =
                    if s.channels[p].finished.mem d then s.dests[d].queue ++ [k] else s.dests[d].queue

/-- R68, R175: HALT-ALL, in both lock states: no card is left copying, no verify keeps a FETCH, the unit is ACCEPTING with its
count kept, and the answer counts the cards moved. R67, R68, in a part whose records agree (`ClearedKept`): before the grant
and the starts of verifies that follow it, the attempt of every clip in flight has been stopped (its writing set withdrawn and
draining where STOREs are outstanding, its channel IDLE, the clip on the queues of the finished destinations, a failed attempt
counted, CLIP_FAILED at 3), every WAITING channel of a card moved is IDLE, and every verify in progress has been stopped (its
copy WRITTEN, the clip at the head of its destination's queue, its FETCHes gone). The order of several CLIP_FAILED, that of
the card handles, is the model's choice (log entry 22). -/
def Obligations.HaltAll : Prop :=
  ∀ (s : State) (tag : Nat), s.listens → ∃ q m, q = afterEvent m ∧ Answers (.haltAll tag) s
      ⟨tag, 0x26, .done, .count (allCards.countP fun h =>
        s.part.cards[h].state == .copying || s.part.cards[h].state == .suspending
          || s.part.cards[h].state == .suspended)⟩ q
    ∧ q.unit.status = ⟨false, none, s.part.unit.status.count⟩
    ∧ (∀ h : CardId, q.cards[h].state ≠ .copying ∧ q.cards[h].state ≠ .suspending ∧ q.cards[h].state ≠ .suspended
        ∧ ((s.part.cards[h].state = .copying ∨ s.part.cards[h].state = .suspending
            ∨ s.part.cards[h].state = .suspended) → q.cards[h].state = .halted))
    ∧ (∀ d : DestId, s.part.dests[d].context.isSome = true → ∀ f ∈ q.dests[d].fetches, f.use = none)
    ∧ (TablesOk s.part → AttemptsOk s.part →
      (∀ p : PortId, (s.part.channels[p].state = .running
            ∨ (s.part.channels[p].state = .waiting ∧ ∃ h : CardId, s.part.cards[h].source = some p
              ∧ (s.part.cards[h].state = .copying ∨ s.part.cards[h].state = .suspending
                ∨ s.part.cards[h].state = .suspended))) →
          m.channels[p].Idles s.part.channels[p].tagCounter)
        ∧ (∀ d : DestId, ∃ joined : List ClipId,
          (∀ k : ClipId, k ∈ joined ↔ ∃ p : PortId, s.part.channels[p].state = .running
              ∧ s.part.channels[p].clip = some k ∧ s.part.channels[p].finished.mem d = true)
            ∧ ∀ (x : Dest) (reads : List VerifyFetch), x = s.part.dests[d] →
              reads = x.fetches.filter (fun f => x.context.isNone || f.use.isNone) →
              m.dests[d] =
                { x with
                  holder := none
                  draining := if x.holder = none then x.draining else !x.stores.isEmpty
                  context := none
                  queue := (x.context.map VerifyContext.clip).toList ++ x.queue ++ joined
                  fetches := reads
                  stallTimer := if x.context.isSome ∧ x.stores = [] ∧ reads = [] then none else x.stallTimer })
        ∧ (∀ (k : ClipId) (c : Clip), s.part.clips[k] = some c → ∃ y, m.clips[k] = some y
          ∧ (∀ d : DestId, y.copies[d] =
              if s.part.dests[d].holder = some k then .none
              else match c.copies[d] with
                | .verifying o => .written o
                | other => other)
          ∧ (c.state ≠ .inFlight → y = { c with copies := y.copies })
          ∧ (c.state = .inFlight → y.restarted = c.restarted ∧ y.sourceDigest = c.sourceDigest
            ∧ (c.failed + 1 < 3 → y.failed = c.failed + 1 ∧ y.state = .listed ∧ y.openMarks = c.openMarks)
            ∧ (3 ≤ c.failed + 1 → y.failed = 3 ∧ y.state = .failed ∧ y.openMarks.has .clipFailed = true)))
        ∧ ∃ failed : List (CardId × ClipId), failed.Pairwise (fun a b => a.1 < b.1)
          ∧ (∀ (h : CardId) (k : ClipId), (h, k) ∈ failed ↔ ∃ c, s.part.clips[k] = some c ∧ c.card = h
              ∧ c.state = .inFlight ∧ 3 ≤ c.failed + 1)
          ∧ m.log = failed.foldl
              (fun l x => logFault false ⟨.clipFailed, some x.1, some x.2, none, none, 3⟩ l) s.part.log)

/-- R69: RECOPY of a HELD, HALTED or COPIED card with a source and no open card mark: the WRITTEN clips below the required
copies are LISTED again, the card goes to COPYING and the grant is evaluated; with nothing to copy a HELD or COPIED card
is unchanged and a HALTED one goes to HELD or COPIED as its marks say. -/
def Obligations.Recopy : Prop :=
  (∀ (s : State) (tag card : Nat) (h : CardId), s.accepts → h.val = card →
      (s.part.cards[h].state = .held ∨ s.part.cards[h].state = .halted ∨ s.part.cards[h].state = .copied) →
      s.part.cards[h].source.isSome = true → s.part.cards[h].openMarks.isEmpty = true →
        ((cardClips s.part h).any (Clip.needsCopies s.part.cards[h].required) = true →
            Answers (.recopy tag card) s ⟨tag, 0x25, .done, .nothing⟩
              (afterEvent (moveCard h .copying
                (relistAll s.part.cards[h].required s.part.cards[h].clips s.part))))
          ∧ ((cardClips s.part h).any (Clip.needsCopies s.part.cards[h].required) = false →
            ((s.part.cards[h].state = .held ∨ s.part.cards[h].state = .copied) →
                Answers (.recopy tag card) s ⟨tag, 0x25, .done, .nothing⟩ s.part)
              ∧ (s.part.cards[h].state = .halted → anyMarkOpen s.part h = true →
                Answers (.recopy tag card) s ⟨tag, 0x25, .done, .nothing⟩ (moveCard h .held s.part))
              ∧ (s.part.cards[h].state = .halted → anyMarkOpen s.part h = false →
                Answers (.recopy tag card) s ⟨tag, 0x25, .done, .nothing⟩
                  (evalClearance h (moveCard h .copied s.part)))))
    ∧ ∀ (s : Part) (required : Nat) (ks : List ClipId) (k : ClipId) (c : Clip), s.clips[k] = some c →
        (relistAll required ks s).clips[k] =
          some (if k ∈ ks ∧ c.state = .written ∧ c.live < required then { c with state := .listed } else c)

/-! ## Destinations -/

/-- R39, R45, R72: SET-REGION, its values adjusted first, on a destination with no holder, not draining and with no copy
record: the region is taken and the destination is ACTIVE, with a notice where its state changed; the region lies below
sector 2^48. That the grant and the starts of verifies are evaluated exactly where the state changed is the model's reading
(log entry 8). In ABSENT it is refused with WRONG_STATE, with a holder, draining or a copy record with IN_USE. -/
def Obligations.SetRegion : Prop :=
  ∀ (s : State) (tag port base length : Nat) (d : DestId) (len b : Nat),
    s.accepts → d.val = port → port < s.part.reset.dests →
    len = (if length / 8 * 8 < 8 then 8 else min (length / 8 * 8) (2 ^ 44)) →
    b = (if 2 ^ 48 < min base (2 ^ 48 - 1) + len then 2 ^ 48 - len else min base (2 ^ 48 - 1)) →
      (b + len ≤ 2 ^ 48 ∧ len % 8 = 0)
        ∧ (s.part.dests[d].state = .absent → Refuses (.setRegion tag port base length) s tag 0x30 .wrongState)
        ∧ (s.part.dests[d].state ≠ .absent →
            (s.part.dests[d].holder.isSome = true ∨ s.part.dests[d].draining = true
              ∨ ∃ (k : ClipId) (c : Clip), s.part.clips[k] = some c ∧ c.copies[d] ≠ .none) →
              Refuses (.setRegion tag port base length) s tag 0x30 .inUse)
        ∧ (s.part.dests[d].state ≠ .absent → s.part.dests[d].holder = none → s.part.dests[d].draining = false →
            (∀ (k : ClipId) (c : Clip), s.part.clips[k] = some c → c.copies[d] = .none) →
              (s.part.dests[d].state = .active →
                  Answers (.setRegion tag port base length) s
                    ⟨tag, 0x30, if len = length ∧ b = base then .done else .adjusted, .nothing⟩
                    { s.part with
                      dests := s.part.dests.set d
                        { s.part.dests[d] with base := b, length := len, cursor := 0, ret := none } })
                ∧ (s.part.dests[d].state ≠ .active →
                  Answers (.setRegion tag port base length) s
                    ⟨tag, 0x30, if len = length ∧ b = base then .done else .adjusted, .nothing⟩
                    (afterEvent (queueNotice (.destState d .active none b len 0 false)
                      { s.part with
                        dests := s.part.dests.set d
                          { s.part.dests[d] with
                            base := b, length := len, cursor := 0, ret := none, state := .active } }))))

/-- R38: a port above D5 or not fitted refuses each of the five directives with NO_PORT. R40: SET-STALL, in every state of a
fitted destination; only the limit changes, taken into 50 to 10,000, and a count in progress goes on. -/
def Obligations.NoPort : Prop :=
  (∀ (s : State) (tag port base length limit : Nat), s.listens → (6 ≤ port ∨ s.part.reset.dests ≤ port) →
      Refuses (.queryDest tag port) s tag 0x34 .noPort
        ∧ (s.accepts →
            Refuses (.setRegion tag port base length) s tag 0x30 .noPort
              ∧ Refuses (.setStall tag port limit) s tag 0x31 .noPort
              ∧ Refuses (.closeDest tag port) s tag 0x32 .noPort
              ∧ Refuses (.reviveDest tag port) s tag 0x33 .noPort))
    ∧ ∀ (s : State) (tag port limit : Nat) (d : DestId), s.accepts → d.val = port → port < s.part.reset.dests →
        Answers (.setStall tag port limit) s
          ⟨tag, 0x31, if limit < 50 ∨ 10000 < limit then .adjusted else .done, .nothing⟩
          { s.part with
            dests := s.part.dests.set d
              { s.part.dests[d] with
                stallLimit := if limit < 50 then 50 else if 10000 < limit then 10000 else limit } }

/-- R41, R42, R84: CLOSE-DEST, REVIVE-DEST and SET-PACING in each state of a fitted destination, and SET-PACING of a port
that is none. That CLOSE-DEST and REVIVE-DEST have the grant and the starts of verifies evaluated (R45, R72) exactly where
they change the state is the model's reading (log entry 8). -/
def Obligations.CloseReviveAndPace : Prop :=
  (∀ (s : State) (tag port p e : Nat), s.accepts → (6 ≤ port ∨ s.part.reset.dests ≤ port) →
      Refuses (.setPacing tag port p e) s tag 0x38 .noPort)
    ∧ ∀ (s : State) (tag port : Nat) (d : DestId) (x : Dest), s.accepts → d.val = port → port < s.part.reset.dests →
    x = s.part.dests[d] →
      ((x.state = .active ∨ x.state = .full) →
          Answers (.closeDest tag port) s ⟨tag, 0x32, .done, .nothing⟩
            (afterEvent (queueNotice (.destState d .closed x.ret x.base x.length x.cursor x.draining)
              { s.part with dests := s.part.dests.set d { x with state := .closed } })))
        ∧ (x.state = .closed → Answers (.closeDest tag port) s ⟨tag, 0x32, .done, .nothing⟩ s.part)
        ∧ ((x.state = .absent ∨ x.state = .unset ∨ x.state = .stalled) →
          Refuses (.closeDest tag port) s tag 0x32 .wrongState)
        ∧ (∀ v : Service, x.ret = some v → (x.state = .stalled ∨ (x.state = .unset ∧ x.length ≠ 0)) →
          Answers (.reviveDest tag port) s ⟨tag, 0x33, .done, .nothing⟩
            (afterEvent (queueNotice (.destState d v.state none x.base x.length x.cursor x.draining)
              { s.part with dests := s.part.dests.set d { x with state := v.state, ret := none } })))
        ∧ ((x.state = .active ∨ x.state = .full ∨ x.state = .closed ∨ x.state = .absent
              ∨ (x.state = .unset ∧ x.length = 0)) →
          Refuses (.reviveDest tag port) s tag 0x33 .wrongState)
        ∧ ∀ p e p' e' : Nat,
          p' = (if p ≤ 1 then 1 else if p = 2 then 2 else if p ≤ 4 then 3 else 5) → e' = (if 7 < e then 7 else e) →
            Answers (.setPacing tag port p e) s
              ⟨tag, 0x38, if p' = p ∧ e' = e then .done else .adjusted, .nothing⟩
              { s.part with dests := s.part.dests.set d { x with paceP := p', paceS := e', credit := 0 } }

/-! ## Looks, picture settings and the watch list -/

/-- R116, R117, R120: SET-LOOK: the slot's check, the collision with a pending commit, and the eight scalar values written into
the STAGING bank, clamped; the curves, the lattice and the LIVE bank stay. COMMIT-LOOK in each STAGING state, with the slot
in use by the open frame and not. -/
def Obligations.SetAndCommitLook : Prop :=
  (∀ (s : State) (tag slot : Nat) (i : LookItem), s.accepts →
      (8 ≤ slot → Refuses (.setLook tag slot i) s tag 0x40 .notFound)
        ∧ ∀ k : SlotId, k.val = slot →
          (∀ g : Nat, s.part.looks[k].state = .pending g → Refuses (.setLook tag slot i) s tag 0x40 .collision)
            ∧ ((s.part.looks[k].state = .clean ∨ s.part.looks[k].state = .loaded) → ∃ (slope : Rgb Nat)
                (offset : Rgb Int) (sat : Nat),
                slope = ⟨min i.slopes.r 65535, min i.slopes.g 65535, min i.slopes.b 65535⟩
                  ∧ offset = ⟨max (-65536) (min i.offsets.r 65535), max (-65536) (min i.offsets.g 65535),
                      max (-65536) (min i.offsets.b 65535)⟩
                  ∧ sat = min i.saturation 16383
                  ∧ Answers (.setLook tag slot i) s
                      ⟨tag, 0x40, if slope = i.slopes ∧ offset = i.offsets ∧ sat = i.saturation
                        then .done else .adjusted, .nothing⟩
                      { s.part with
                        looks := s.part.looks.set k
                          { live := s.part.looks[k].live
                            staging :=
                              { s.part.looks[k].staging with
                                slope := slope, offset := offset, saturation := sat, latticeOn := i.lattice != 0 }
                            state := .loaded } }))
    ∧ ∀ (s : State) (tag slot : Nat), s.accepts →
        (8 ≤ slot → Refuses (.commitLook tag slot) s tag 0x43 .notFound)
          ∧ ∀ k : SlotId, k.val = slot →
            (s.part.looks[k].state = .clean → Answers (.commitLook tag slot) s ⟨tag, 0x43, .done, .nothing⟩ s.part)
              ∧ (s.part.looks[k].state = .loaded →
                  (∀ f, s.part.frame = some f → k ∉ f.slotsInUse) →
                    Answers (.commitLook tag slot) s ⟨tag, 0x43, .done, .nothing⟩
                      { s.part with
                        looks := s.part.looks.set k
                          { live := s.part.looks[k].staging, staging := s.part.looks[k].staging, state := .clean } })
              ∧ (∀ f, s.part.frame = some f → k ∈ f.slotsInUse → s.part.looks[k].state = .loaded →
                  Answers (.commitLook tag slot) s ⟨tag, 0x43, .deferred, .nothing⟩
                    { s.part with looks := s.part.looks.set k { s.part.looks[k] with state := .pending tag } })
              ∧ ∀ g : Nat, s.part.looks[k].state = .pending g →
                  Answers (.commitLook tag slot) s ⟨tag, 0x43, .deferred, .nothing⟩
                    { s.part with looks := s.part.looks.set k { s.part.looks[k] with state := .pending tag } }

/-- R118, R119: LOAD-CURVE and LOAD-LATTICE write their entries, in index order, into the STAGING bank and leave the rest; a
channel above 2 or a range past the end makes the directive malformed. R116: a slot above 7 is refused with NOT_FOUND, and
one whose commit is pending with COLLISION. -/
def Obligations.LoadCurveAndLattice : Prop :=
  (∀ (s : State) (tag slot channel first start : Nat) (entries : List Nat) (colours : List (Rgb Nat)), s.accepts →
      1 ≤ entries.length → channel ≤ 2 → first + entries.length ≤ 257 →
      1 ≤ colours.length → colours.length ≤ 512 → start + colours.length ≤ 4913 →
        (8 ≤ slot → Refuses (.loadCurve tag slot channel first entries) s tag 0x41 .notFound
            ∧ Refuses (.loadLattice tag slot start colours) s tag 0x42 .notFound)
          ∧ ∀ (k : SlotId) (g : Nat), k.val = slot → s.part.looks[k].state = .pending g →
            Refuses (.loadCurve tag slot channel first entries) s tag 0x41 .collision
              ∧ Refuses (.loadLattice tag slot start colours) s tag 0x42 .collision)
    ∧ (∀ (s : State) (tag slot channel first : Nat) (entries : List Nat) (k : SlotId), s.accepts → k.val = slot →
        s.part.looks[k].state.isPending = false → 1 ≤ entries.length → entries.length ≤ 257 →
          ((2 < channel ∨ 257 < first + entries.length) → Answers (.loadCurve tag slot channel first entries) s
              ⟨tag, 0x41, .malformed 6, .nothing⟩
              { s.part with
                unit := { s.part.unit with status := ⟨true, some 6, s.part.unit.status.count⟩ }
                log := logFault false ⟨.directiveLock, none, none, none, none, 6⟩ s.part.log })
            ∧ (channel ≤ 2 → first + entries.length ≤ 257 → ∃ b : Bank,
                Answers (.loadCurve tag slot channel first entries) s ⟨tag, 0x41, .done, .nothing⟩
                  { s.part with
                    looks := s.part.looks.set k { live := s.part.looks[k].live, staging := b, state := .loaded } }
                ∧ b = { s.part.looks[k].staging with curve := b.curve }
                ∧ ∀ j : Fin 257,
                    b.curve.r[j] = (if channel = 0 ∧ first ≤ j.val ∧ j.val < first + entries.length
                      then (entries[j.val - first]?).getD 0 else s.part.looks[k].staging.curve.r[j])
                    ∧ b.curve.g[j] = (if channel = 1 ∧ first ≤ j.val ∧ j.val < first + entries.length
                      then (entries[j.val - first]?).getD 0 else s.part.looks[k].staging.curve.g[j])
                    ∧ b.curve.b[j] = (if channel = 2 ∧ first ≤ j.val ∧ j.val < first + entries.length
                      then (entries[j.val - first]?).getD 0 else s.part.looks[k].staging.curve.b[j])))
    ∧ ∀ (s : State) (tag slot first : Nat) (entries : List (Rgb Nat)) (k : SlotId), s.accepts → k.val = slot →
      s.part.looks[k].state.isPending = false → 1 ≤ entries.length → entries.length ≤ 512 →
        (4913 < first + entries.length → Answers (.loadLattice tag slot first entries) s
            ⟨tag, 0x42, .malformed 6, .nothing⟩
            { s.part with
              unit := { s.part.unit with status := ⟨true, some 6, s.part.unit.status.count⟩ }
              log := logFault false ⟨.directiveLock, none, none, none, none, 6⟩ s.part.log })
          ∧ (first + entries.length ≤ 4913 → ∃ b : Bank,
              Answers (.loadLattice tag slot first entries) s ⟨tag, 0x42, .done, .nothing⟩
                { s.part with
                  looks := s.part.looks.set k { live := s.part.looks[k].live, staging := b, state := .loaded } }
              ∧ b = { s.part.looks[k].staging with lattice := b.lattice }
              ∧ ∀ x y z : Fin 17, b.lattice[z][y][x] =
                  if first ≤ x.val + 17 * y.val + 289 * z.val
                      ∧ x.val + 17 * y.val + 289 * z.val < first + entries.length
                    then (entries[x.val + 17 * y.val + 289 * z.val - first]?).getD ⟨0, 0, 0⟩
                    else s.part.looks[k].staging.lattice[z][y][x])

/-- R123, R124, R126, R182: MAP-CAMERA, SET-COMPARE and SET-PROFILE set what they name at once, adjusted into range, and
CLEAR-STATUS, in both lock states, reports the lock status and clears it; nothing else changes. -/
def Obligations.Settings : Prop :=
  ∀ (s : State) (tag : Nat),
    (s.listens →
        Answers (.clearStatus tag) s ⟨tag, 0x70, .done, .status s.part.unit.status⟩
          { s.part with unit := { s.part.unit with status := ⟨false, none, 0⟩ } })
      ∧ (s.accepts →
        (∀ (camera code : Nat) (t : CameraId), t.val = camera →
            (∀ k : SlotId, k.val = code → Answers (.mapCamera tag camera code) s ⟨tag, 0x44, .done, .nothing⟩
                { s.part with cameraMap := s.part.cameraMap.set t (some k) })
              ∧ (8 ≤ code → Answers (.mapCamera tag camera code) s
                ⟨tag, 0x44, if code = 255 then .done else .adjusted, .nothing⟩
                { s.part with cameraMap := s.part.cameraMap.set t none }))
          ∧ (∀ on split : Nat, Answers (.setCompare tag on split) s
              ⟨tag, 0x45, if 4096 < split then .adjusted else .done, .nothing⟩
              { s.part with compare := ⟨on != 0, if 4096 < split then 4096 else split⟩ })
          ∧ (∀ (camera : Nat) (i : ProfileItem) (t : CameraId) (x : Profile), t.val = camera →
              x = ⟨min i.highLevel 4095, min i.highLimit 16777215, min i.lowLevel 4095, min i.lowLimit 16777215,
                min i.excLimit 16777215⟩ →
              Answers (.setProfile tag camera i) s
                ⟨tag, 0x50,
                  if x = ⟨i.highLevel, i.highLimit, i.lowLevel, i.lowLimit, i.excLimit⟩ then .done else .adjusted,
                  .nothing⟩
                { s.part with profiles := s.part.profiles.set t x })
          ∧ ∀ (camera code : Nat) (i : ProfileItem), 16 ≤ camera →
              Refuses (.mapCamera tag camera code) s tag 0x44 .notFound
                ∧ Refuses (.setProfile tag camera i) s tag 0x50 .notFound)

/-- R133, R134: WATCH-PIXEL appends its adjusted items or refuses them all; UNWATCH-PIXEL removes every entry at a position it
names, or answers NOT_FOUND. -/
def Obligations.WatchList : Prop :=
  (∀ (s : State) (tag : Nat) (items : List WatchItem), s.accepts → 1 ≤ items.length → items.length ≤ 65535 →
      ((∃ i ∈ items, 15 < i.camera) → Refuses (.watchPixel tag items) s tag 0x51 .notFound)
        ∧ ((∀ i ∈ items, i.camera ≤ 15) → 128 - s.part.watch.length < items.length →
          Refuses (.watchPixel tag items) s tag 0x51 .tableFull)
        ∧ ((∀ i ∈ items, i.camera ≤ 15) → s.part.watch.length + items.length ≤ 128 → ∃ added : List WatchEntry,
          Answers (.watchPixel tag items) s
              ⟨tag, 0x51,
                if ∀ i ∈ items, i.column ≤ 4095 ∧ i.line ≤ 2303 ∧ i.level ≤ 4095 ∧ i.run ≠ 0
                  then .done else .adjusted,
                .count (s.part.watch.length + items.length)⟩
              { s.part with watch := s.part.watch ++ added }
            ∧ added.length = items.length
            ∧ ∀ (n : Nat) (i : WatchItem) (e : WatchEntry), items[n]? = some i → added[n]? = some e →
                e.camera.val = i.camera ∧ e.column = min i.column 4095 ∧ e.line = min i.line 2303
                  ∧ e.level = min i.level 4095 ∧ e.run = (if i.run = 0 then 1 else i.run) ∧ e.counter = 0
                  ∧ e.raised = false ∧ e.watched = none))
    ∧ ∀ (s : State) (tag : Nat) (items : List UnwatchItem) (hit : WatchEntry → Bool), s.accepts →
        1 ≤ items.length → items.length ≤ 65535 →
        (∀ e, hit e = true ↔ ∃ i ∈ items, e.camera.val = i.camera ∧ e.column = i.column ∧ e.line = i.line) →
          ((∀ e ∈ s.part.watch, hit e = false) → Refuses (.unwatchPixel tag items) s tag 0x52 .notFound)
            ∧ ((∃ e ∈ s.part.watch, hit e = true) →
              Answers (.unwatchPixel tag items) s
                ⟨tag, 0x52, .done, .count (s.part.watch.filter hit).length⟩
                { s.part with watch := s.part.watch.filter fun e => !hit e })

/-! ## Waivers and faults -/

/-- R156, R157: WAIVE of another generation is refused with STALE and the current one; one that is taken moves every open kind
of the card and its clips to the waived sets, takes a HELD card to COPIED and has clearance evaluated; the generation
stays. That the answer carries the state the card has after that evaluation is the model's reading (log entry 10). R160 to
R162, R164, R165: the clearance condition; its evaluation changes nothing but a COPIED card on which it holds, which enters
CLEARED, its CARD-STATE and then its CLEARED notice queued and its CLEARED notice unsent flag yes. -/
def Obligations.Waive : Prop :=
  (∀ (s : Part) (h : CardId), clearanceHolds s h = true ↔
      s.cards[h].openMarks = MarkSet.empty
        ∧ ∀ k ∈ s.cards[h].clips, ∀ c, s.clips[k] = some c →
          c.openMarks = MarkSet.empty
            ∧ (c.state = .failed → c.waivedMarks.has .clipFailed = true)
            ∧ (c.state ≠ .failed → s.cards[h].required ≤
                (allDests.filter fun d => match c.copies[d] with | .verified _ => true | _ => false).length)
            ∧ (c.state ≠ .failed → s.cards[h].review = true →
                c.lastMarker = true ∨ c.expected = some c.framesSeen))
    ∧ (∀ (s : Part) (h : CardId),
      ((s.cards[h].state ≠ .copied ∨ clearanceHolds s h = false) → evalClearance h s = s)
        ∧ (s.cards[h].state = .copied → clearanceHolds s h = true → evalClearance h s =
          queueNotice (.cleared h s.cards[h].label s.cards[h].clips.length)
            (queueNotice (.cardState h s.cards[h].label .cleared s.cards[h].source)
              { s with
                cards := s.cards.set h
                  { s.cards[h] with state := .cleared, suspendWaiting := false, clearedUnsent := true } })))
    ∧ ∀ (s : State) (tag card generation : Nat) (h : CardId), s.accepts → h.val = card →
    (s.part.cards[h].state = .held ∨ s.part.cards[h].state = .copied ∨ s.part.cards[h].state = .copying
      ∨ s.part.cards[h].state = .halted) →
      (generation ≠ s.part.cards[h].generation →
          Answers (.waive tag card generation) s
            ⟨tag, 0x60, .refused .stale, .generation s.part.cards[h].generation⟩ s.part)
        ∧ (generation = s.part.cards[h].generation → ∃ q,
          Answers (.waive tag card generation) s
              ⟨tag, 0x60, .done, .waived q.cards[h].state
                (s.part.cards[h].openMarks.size
                  + ((cardClips s.part h).map fun c => c.openMarks.size).sum)⟩ q
            ∧ q.cards[h].generation = generation ∧ q.cards[h].openMarks = MarkSet.empty
            ∧ (∀ k : FaultKind, q.cards[h].waivedMarks.has k =
                (s.part.cards[h].waivedMarks.has k || s.part.cards[h].openMarks.has k))
            ∧ (∀ (j : ClipId) (c : Clip), s.part.clips[j] = some c → j ∈ s.part.cards[h].clips →
                ∃ x, q.clips[j] = some x ∧ x.openMarks = MarkSet.empty
                  ∧ ∀ k : FaultKind, x.waivedMarks.has k = (c.waivedMarks.has k || c.openMarks.has k))
            ∧ (∀ j : ClipId, j ∉ s.part.cards[h].clips → q.clips[j] = s.part.clips[j])
            ∧ (s.part.cards[h].state = .copying → q.cards[h].state = .copying)
            ∧ (s.part.cards[h].state = .halted → q.cards[h].state = .halted)
            ∧ ((s.part.cards[h].state = .held ∨ s.part.cards[h].state = .copied) →
                q.cards[h].state = if clearanceHolds q h then .cleared else .copied))

/-- R146 to R150, R153 to R155: raising a fault appends an entry with the next sequence number while the log holds fewer than
63 and no marker, makes the marker of count 1 at the 64th place, and counts in a marker that is there; a note touches
nothing else; a mark on a clip or card not CLEARED opens where it is not open already, which alone advances the card's
generation and moves a COPIED card to HELD. -/
def Obligations.RaiseFault : Prop :=
  ∀ (s : Part) (r : Report),
    (s.log.marker = none → s.log.entries.length < 63 →
        (raise r s).log =
          { entries := s.log.entries ++ [⟨s.log.nextSeq, r.kind, r.card, r.clip, r.dest, r.frame, r.detail,
              (r.card.map fun h => decide (s.cards[h].state = .cleared)).getD false⟩]
            marker := none, nextSeq := (s.log.nextSeq + 1) % 65536 })
      ∧ (s.log.marker = none → 63 ≤ s.log.entries.length →
        (raise r s).log = ⟨s.log.entries, some ⟨s.log.nextSeq, 1⟩, (s.log.nextSeq + 1) % 65536⟩)
      ∧ (∀ m, s.log.marker = some m →
        (raise r s).log = ⟨s.log.entries, some ⟨m.seq, min (m.count + 1) 4294967295⟩, s.log.nextSeq⟩)
      ∧ ((r.kind.marksCard = false ∧ r.kind.marksClip = false) → raise r s = { s with log := (raise r s).log })
      ∧ (∀ h : CardId, r.card = some h → s.cards[h].state = .cleared → raise r s = { s with log := (raise r s).log })
      ∧ (∀ (h : CardId) (k : ClipId) (c : Clip), r.kind.marksClip = true → r.card = some h → r.clip = some k →
          s.clips[k] = some c → c.card = h → s.cards[h].state ≠ .cleared →
            (c.openMarks.has r.kind = true → raise r s = { s with log := (raise r s).log })
              ∧ (c.openMarks.has r.kind = false →
                (∃ x, (raise r s).clips[k] = some x ∧ x.openMarks = c.openMarks.insert r.kind
                    ∧ x.waivedMarks.has r.kind = false)
                  ∧ (raise r s).cards[h].generation = (s.cards[h].generation + 1) % 65536
                  ∧ (raise r s).cards[h].state =
                      if s.cards[h].state = .copied then .held else s.cards[h].state))
      ∧ ∀ h : CardId, r.kind.marksCard = true → r.card = some h → s.cards[h].state ≠ .cleared →
            (s.cards[h].openMarks.has r.kind = true → raise r s = { s with log := (raise r s).log })
              ∧ (s.cards[h].openMarks.has r.kind = false →
                (raise r s).cards[h].openMarks = s.cards[h].openMarks.insert r.kind
                  ∧ (raise r s).cards[h].waivedMarks.has r.kind = false
                  ∧ (raise r s).cards[h].generation = (s.cards[h].generation + 1) % 65536
                  ∧ (raise r s).cards[h].state =
                      if s.cards[h].state = .copied then .held else s.cards[h].state)

/-! ## Events of the ports -/

/-- R7, R17, R22, R186: attach and detach. An unfitted port ignores both; an attach makes the port ATTACHED and unbound, after
a detach if it was ATTACHED; a detach leaves it DETACHED and unbound, releases a MOUNTED card, takes the source of one in
COPIED, HELD, HALTED or CLEARED, and stops one that is copying: SOURCE_LOST with the port as its detail and the clip in
flight as its clip, HELD with no source, its channel IDLE. R60: a RUNNING channel's attempt ends: its writing set is
withdrawn, those destinations draining where they have STOREs outstanding, the finished ones queue the clip, the clip with a
live copy left is WRITTEN, with COPY_SHORT below the required ones, and one without counts a failed attempt; a WAITING
channel returns to IDLE and its destinations go on draining; then the grant is evaluated, and not where the channel was IDLE
(log entry 8). -/
def Obligations.SourceEvents : Prop :=
  ∀ (s : State) (p : PortId), s.runs →
    (s.part.reset.sources ≤ p.val → exec (.sourceAttach p) s = .next s ∧ exec (.sourceDetach p) s = .next s)
      ∧ (p.val < s.part.reset.sources →
        (s.part.ports[p].attached = false → exec (.sourceAttach p) s =
            .next { s with part := { s.part with ports := s.part.ports.set p ⟨true, none⟩ } })
          ∧ (s.part.ports[p].attached = true → ∃ t, exec (.sourceDetach p) s = .next t
            ∧ exec (.sourceAttach p) s =
              .next { t with part := { t.part with ports := t.part.ports.set p ⟨true, none⟩ } })
          ∧ (s.part.ports[p].binding = none → exec (.sourceDetach p) s =
            .next { s with part := { s.part with ports := s.part.ports.set p ⟨false, none⟩ } })
          ∧ ∀ h : CardId, s.part.ports[p].binding = some h →
            (s.part.cards[h].state = .mounted → exec (.sourceDetach p) s = .next { s with
                part := release h { s.part with ports := s.part.ports.set p ⟨false, none⟩ } })
              ∧ ((s.part.cards[h].state = .copied ∨ s.part.cards[h].state = .held ∨ s.part.cards[h].state = .halted
                    ∨ s.part.cards[h].state = .cleared) → s.part.cards[h].source = some p →
                  exec (.sourceDetach p) s = .next { s with
                    part := queueNotice (.cardState h s.part.cards[h].label s.part.cards[h].state none)
                      { s.part with
                        cards := s.part.cards.set h { s.part.cards[h] with source := none }
                        ports := s.part.ports.set p ⟨false, none⟩ } })
              ∧ ((s.part.cards[h].state = .copying ∨ s.part.cards[h].state = .suspending
                    ∨ s.part.cards[h].state = .suspended) →
                  (∀ g : CardId, g ≠ h → s.part.cards[g].source ≠ some p) →
                  ∃ t, exec (.sourceDetach p) s = .next t ∧ t.part.ports[p] = ⟨false, none⟩
                    ∧ t.part.cards[h].state = .held ∧ t.part.cards[h].source = none
                    ∧ t.part.cards[h].openMarks.has .sourceLost = true ∧ t.part.channels[p].state = .idle
                    ∧ (s.part.log.marker = none → s.part.log.entries.length < 63 →
                      t.part.log.entries[s.part.log.entries.length]? =
                        some ⟨s.part.log.nextSeq, .sourceLost, some h, inFlightClip s.part h, none, none, p.val,
                          false⟩))
              ∧ ((s.part.cards[h].state = .copying ∨ s.part.cards[h].state = .suspending
                    ∨ s.part.cards[h].state = .suspended) →
                  ∃ (q : Part) (lost : FaultLog),
                    lost = logFault false ⟨.sourceLost, some h, inFlightClip s.part h, none, none, p.val⟩ s.part.log
                    ∧ exec (.sourceDetach p) s = .next { s with
                      part := if s.part.channels[p].state = .idle then q else afterEvent q }
                    ∧ q.ports = s.part.ports.set p ⟨false, none⟩
                    ∧ q.cards[h].state = .held ∧ q.cards[h].source = none
                    ∧ (∀ o : PortId, o ≠ p → q.channels[o] = s.part.channels[o])
                    ∧ (s.part.channels[p].state ≠ .idle → q.channels[p].Idles s.part.channels[p].tagCounter)
                    ∧ (s.part.channels[p].state ≠ .running →
                      q.dests = s.part.dests ∧ q.clips = s.part.clips ∧ q.log = lost
                        ∧ ∀ g : CardId, g ≠ h → q.cards[g] = s.part.cards[g])
                    ∧ ∀ (k : ClipId) (c : Clip), s.part.channels[p].state = .running →
                      s.part.channels[p].clip = some k → s.part.clips[k] = some c → c.card = h →
                      (∀ d : DestId, s.part.channels[p].writing.mem d = true → s.part.dests[d].holder = some k) →
                        (∀ d : DestId, q.dests[d] =
                            { s.part.dests[d] with
                              holder := if s.part.channels[p].writing.mem d then none else s.part.dests[d].holder
                              draining := if s.part.channels[p].writing.mem d then !s.part.dests[d].stores.isEmpty
                                else s.part.dests[d].draining
                              queue := if s.part.channels[p].finished.mem d then s.part.dests[d].queue ++ [k]
                                else s.part.dests[d].queue })
                          ∧ (∀ j : ClipId, j ≠ k → q.clips[j] = s.part.clips[j])
                          ∧ (∀ g : CardId, g ≠ h → q.cards[g] = s.part.cards[g])
                          ∧ ∃ y, q.clips[k] = some y ∧ y.restarted = c.restarted ∧ y.sourceDigest = c.sourceDigest
                            ∧ (∀ d : DestId, y.copies[d] =
                                if s.part.channels[p].writing.mem d then .none else c.copies[d])
                            ∧ AttemptSettled s.part lost k c y.live q))

/-- R26, R28, R33, R35, R78: link up and link down on a destination, and its stall timer at 0. Link up takes an ABSENT
destination to UNSET, all else kept, with the grant evaluated (R45). Link down and a stall take a destination out of
service: its state and return state, no request, no timer, no holder, not draining and in no drain set, region and cursor
kept, its verify back at the head of its queue with the copy WRITTEN, the holder's copy gone, and DEST_LOST or DEST_STALL
with the requests that were outstanding. That STALL_TIMEOUT acts whatever the count of the running stall timer, and changes
nothing where none runs, is the model's choice (log entry 3). -/
def Obligations.DestLinkEvents : Prop :=
  ∀ (s : State) (d : DestId) (x : Dest), s.runs → x = s.part.dests[d] →
    (s.part.reset.dests ≤ d.val → exec (.destLinkUp d) s = .next s ∧ exec (.destLinkDown d) s = .next s)
      ∧ (x.state ≠ .absent → exec (.destLinkUp d) s = .next s)
      ∧ (x.state = .absent → d.val < s.part.reset.dests → exec (.destLinkUp d) s = .next { s with
          part := afterEvent (queueNotice (.destState d .unset x.ret x.base x.length x.cursor x.draining)
            { s.part with dests := s.part.dests.set d { x with state := .unset } }) })
      ∧ (x.state = .absent → exec (.destLinkDown d) s = .next s)
      ∧ (x.stallTimer = none → exec (.stallTimeout d) s = .next s)
      ∧ ∀ (c : Instr) (st : DestState) (kind : FaultKind),
        ((c = .destLinkDown d ∧ st = .absent ∧ kind = .destLost ∧ d.val < s.part.reset.dests ∧ x.state ≠ .absent)
            ∨ (c = .stallTimeout d ∧ st = .stalled ∧ kind = .destStall ∧ x.stallTimer.isSome = true)) →
          ∃ t y, exec c s = .next t ∧ t.part.dests[d] = y ∧ y.state = st
            ∧ y.ret = (match x.state with
                | .active => some .active
                | .full => some .full
                | .closed => some .closed
                | .absent | .unset | .stalled => x.ret)
            ∧ y.stores = [] ∧ y.fetches = [] ∧ y.stallTimer = none ∧ y.draining = false ∧ y.holder = none
            ∧ y.context = none ∧ y.base = x.base ∧ y.length = x.length ∧ y.cursor = x.cursor
            ∧ y.stallLimit = x.stallLimit ∧ y.tagCounter = x.tagCounter
            ∧ (∀ v, x.context = some v → y.queue.head? = some v.clip
                ∧ ∀ a, s.part.clips[v.clip] = some a →
                  ∃ b, t.part.clips[v.clip] = some b ∧ b.copies[d] = .written v.offset)
            ∧ (x.draining = true → ∀ p : PortId, s.part.channels[p].state = .waiting →
                t.part.channels[p].drain.mem d = false)
            ∧ (∀ k a, x.holder = some k → s.part.clips[k] = some a → (∀ v, x.context = some v → v.clip ≠ k) →
                ∃ b, t.part.clips[k] = some b ∧ b.copies[d] = .none)
            ∧ (s.part.log.marker = none → s.part.log.entries.length < 63 →
                t.part.log.entries[s.part.log.entries.length]? =
                  some ⟨s.part.log.nextSeq, kind, none, none, some d, none, x.stores.length + x.fetches.length,
                    false⟩)

/-! ## Copying: requests and answers of a source port -/

/-- R48, R49, R51: the source link takes a channel's FETCH: a block whose try failed before a new one, the new one only below
4 FETCHes outstanding, 16 blocks held and 64 in the pool; the FETCH reads the block's 8 sectors and its timer starts at
1,500 ms. A channel with none ready sends none. That a repeat goes before a new block is the model's choice (log entry
7). -/
def Obligations.SendFetch : Prop :=
  ∀ (s : State) (p : PortId) (x : Channel), s.runs → x = s.part.channels[p] →
    (∀ (k : ClipId) (c : Clip), x.state = .running → x.clip = some k → s.part.clips[k] = some c →
        (∃ d : DestId, x.writing.mem d = true) → x.fetches.length < 4 →
          (x.retries = [] → 4096 * x.nextFetch < c.length → x.held.length < 16 →
              (s.part.channels.toList.map fun ch => ch.held.length).sum < 64 →
            exec (.sendFetch p) s = .next { s with
              part :=
                { s.part with
                  channels := s.part.channels.set p
                    { x with
                      fetches := x.fetches ++ [⟨x.tagCounter, x.nextFetch, 1, 1500⟩]
                      tagCounter := (x.tagCounter + 1) % 65536
                      nextFetch := x.nextFetch + 1
                      held := x.held ++ [⟨x.nextFetch, none⟩] }
                  out := .source p (fetchParcel x.tagCounter (c.start + 8 * x.nextFetch)) :: s.part.out } })
            ∧ ∀ (r : Try) (rest : List Try), x.retries = r :: rest →
              exec (.sendFetch p) s = .next { s with
                part :=
                  { s.part with
                    channels := s.part.channels.set p
                      { x with
                        fetches := x.fetches ++ [⟨x.tagCounter, r.block, r.tryNo, 1500⟩]
                        tagCounter := (x.tagCounter + 1) % 65536
                        retries := rest }
                    out := .source p (fetchParcel x.tagCounter (c.start + 8 * r.block)) :: s.part.out } })
      ∧ ((x.state ≠ .running ∨ x.clip = none ∨ 4 ≤ x.fetches.length
            ∨ (x.retries = [] ∧
              (16 ≤ x.held.length ∨ 64 ≤ (s.part.channels.toList.map fun ch => ch.held.length).sum
                ∨ ∀ (k : ClipId) (c : Clip), x.clip = some k → s.part.clips[k] = some c →
                    c.length ≤ 4096 * x.nextFetch))) →
          exec (.sendFetch p) s = .next s)

/-- R50, R52, R53: a good BLOCK that answers a FETCH is placed in its pool block; then every block next in turn that has arrived
enters the digest, 4,096 bytes of each but the last, of which it takes the clip's bytes: none where the block at next digest
is still awaited, the blocks that waited for this one with it. The last sets the clip's source digest or is compared with
the one it keeps, raising SOURCE_DIGEST where they differ (with the camera digest, too). That the answer takes every FETCH
of its tag off the list is the model's choice (log entry 23). -/
def Obligations.SourceBlock : Prop :=
  ∀ (s : State) (p : PortId) (b : Rx) (x : Channel) (f : Fetch) (k : ClipId) (c : Clip)
    (held : List Held) (turn : List (Nat × List Byte)) (lanes : Nat × Nat) (y : Channel), s.runs →
    x = s.part.channels[p] → x.fetches.find? (fun g => g.tag == b.tag) = some f → x.clip = some k →
    s.part.clips[k] = some c → b.status = 0 → damaged 0x02 b = false → b.payload.length = 4096 →
    held = x.held.map (fun g => if g.block = f.block then ⟨g.block, some b.payload⟩ else g) →
    (∀ (i : Nat) (g : Nat × List Byte), turn[i]? = some g →
      g.1 = x.nextDigest + i ∧ held.find? (fun h => h.block == g.1) = some ⟨g.1, some g.2⟩) →
    (∀ g, held.find? (fun h => h.block == x.nextDigest + turn.length) = some g → g.data = none) →
    lanes = turn.foldl (fun l g => digestBytes l (g.2.take (min 4096 (c.length - 4096 * g.1)))) (x.laneA, x.laneB) →
    y = { x with
      fetches := x.fetches.filter fun g => g.tag != b.tag
      held := held, nextDigest := x.nextDigest + turn.length, laneA := lanes.1, laneB := lanes.2 } →
      ((y.nextDigest ≠ (c.length + 4095) / 4096 ∨ (c.length + 4095) / 4096 ≤ x.nextDigest) →
          exec (.sourceBlock p b) s = .next { s with
            part := { s.part with channels := s.part.channels.set p y } })
        ∧ (y.nextDigest = (c.length + 4095) / 4096 → x.nextDigest < (c.length + 4095) / 4096 →
          ∃ t z, exec (.sourceBlock p b) s = .next t ∧ t.part.clips[k] = some z
            ∧ t.part.channels = s.part.channels.set p y
            ∧ z.sourceDigest = some (c.sourceDigest.getD (lanes.2 * 2 ^ 32 + lanes.1))
            ∧ ((c.sourceDigest.orElse fun _ => c.cameraDigest).getD (lanes.2 * 2 ^ 32 + lanes.1)
                = lanes.2 * 2 ^ 32 + lanes.1 → t.part.log = s.part.log)
            ∧ ((c.sourceDigest.orElse fun _ => c.cameraDigest).getD (lanes.2 * 2 ^ 32 + lanes.1)
                ≠ lanes.2 * 2 ^ 32 + lanes.1 → s.part.log.marker = none → s.part.log.entries.length < 63 →
              t.part.log.entries = s.part.log.entries ++
                [⟨s.part.log.nextSeq, .sourceDigest, some c.card, some k, none, none,
                  (lanes.2 * 2 ^ 32 + lanes.1) % 2 ^ 32,
                  decide (s.part.cards[c.card].state = .cleared)⟩]))

/-- R50, R51, R59: a try fails by its timer or by a BLOCK of ERROR status, damaged or of another length. A first or second try
is asked for again; a third ends the attempt: SOURCE_READ with the block; the channel is IDLE, its FETCHes dropped and its
blocks freed; every destination of the writing set is withdrawn, its copy record NONE again, draining where it has STOREs
outstanding; the clip counts a failed attempt, FAILED with CLIP_FAILED at 3; the card is settled (R58); then the grant is
evaluated. That FETCH_TIMEOUT fails the try whatever the count of the timer it names is the model's choice (log entry 3),
and so is that an answer or a timeout takes every FETCH of its tag off the list (log entry 23). -/
def Obligations.CopyTryFails : Prop :=
  ∀ (s : State) (p : PortId) (c : Instr) (tag : Nat) (x : Channel) (f : Fetch) (k : ClipId) (cl : Clip), s.runs →
    x = s.part.channels[p] → x.fetches.find? (fun g => g.tag == tag) = some f → x.clip = some k →
    s.part.clips[k] = some cl →
    (c = .fetchTimeout p tag ∨ ∃ b : Rx, c = .sourceBlock p b ∧ b.tag = tag
      ∧ (b.status ≠ 0 ∨ damaged 0x02 b = true ∨ b.payload.length ≠ 4096)) →
      (f.tryNo < 3 → exec c s = .next { s with
          part :=
            { s.part with
              channels := s.part.channels.set p
                { x with
                  fetches := x.fetches.filter fun g => g.tag != tag
                  retries := x.retries ++ [⟨f.block, f.tryNo + 1⟩] } } })
        ∧ (3 ≤ f.tryNo → (∀ h : CardId, 1 ≤ s.part.cards[h].required) →
          ∃ t y q, exec c s = .next t ∧ t = { s with part := afterEvent q }
            ∧ q.channels[p].Idles x.tagCounter
            ∧ FailureCounted s.part
                (logFault (decide (s.part.cards[cl.card].state = .cleared))
                  ⟨.sourceRead, some cl.card, some k, none, none, f.block⟩ s.part.log) k cl q
            ∧ CardSettled s.part.cards[cl.card].state q cl.card
            ∧ (∀ d : DestId, x.writing.mem d = false → q.dests[d] = s.part.dests[d])
            ∧ ((∀ d : DestId, x.writing.mem d = true → s.part.dests[d].holder = some k) →
              (∀ d : DestId, x.writing.mem d = true → q.dests[d] =
                  { s.part.dests[d] with holder := none, draining := !s.part.dests[d].stores.isEmpty })
                ∧ ∃ z, q.clips[k] = some z
                  ∧ ∀ d : DestId, z.copies[d] = if x.writing.mem d then .none else cl.copies[d])
            ∧ t.part.clips[k] = some y
            ∧ y.failed = min (cl.failed + 1) 3 ∧ (3 ≤ cl.failed + 1 → y.state = .failed)
            ∧ y.sourceDigest = cl.sourceDigest ∧ y.restarted = cl.restarted
            ∧ (∀ d : DestId, t.part.dests[d].cursor = s.part.dests[d].cursor)
            ∧ (s.part.log.marker = none → s.part.log.entries.length < 63 →
                t.part.log.entries[s.part.log.entries.length]? =
                  some ⟨s.part.log.nextSeq, .sourceRead, some cl.card, some k, none, none, f.block,
                    decide (s.part.cards[cl.card].state = .cleared)⟩))

/-! ## Copying: requests and answers of a destination port -/

/-- R27, R31, R33, R48, R54: the destination link takes the STORE of the next digested block the destination has not been sent,
while it has fewer than 8 outstanding and no read-back FETCH is ready: its sectors lie from the cursor on, the stall timer
starts if nothing was outstanding, and blocks sent to every destination of the writing set are freed. That the STORE waits
while a read-back FETCH is ready is the model's reading of R31 (log entry 11). -/
def Obligations.SendStore : Prop :=
  ∀ (s : State) (d : DestId) (x : Dest), s.runs → x = s.part.dests[d] →
    (∀ (k : ClipId) (p : PortId) (ch : Channel) (g : Held) (data : List Byte),
        x.holder = some k → ch = s.part.channels[p] →
        (∀ q : PortId, (s.part.channels[q].state = .running ∧ s.part.channels[q].clip = some k) ↔ q = p) →
        ch.writing.mem d = true → ch.sendIndex[d] < ch.nextDigest →
        ch.held.find? (fun b => b.block == ch.sendIndex[d]) = some g → g.data = some data →
          ((x.stores.length < 8 → readyRead s.part d = none → ∃ sent : Vector Nat 6,
              sent = ch.sendIndex.set d (ch.sendIndex[d] + 1)
              ∧ exec (.sendStore d) s = .next { s with
                part :=
                  { s.part with
                    channels := s.part.channels.set p
                      { ch with
                        sendIndex := sent
                        held := ch.held.filter fun b =>
                          !(decide (b.block < ch.nextDigest)
                            && allDests.all fun e => !ch.writing.mem e || decide (b.block < sent[e])) }
                    dests := s.part.dests.set d
                      { x with
                        stores := x.stores ++ [⟨x.tagCounter, ch.sendIndex[d], k⟩]
                        tagCounter := (x.tagCounter + 1) % 65536
                        stallTimer := if x.stores = [] ∧ x.fetches = [] then some x.stallLimit else x.stallTimer }
                    out := .dest d (storeParcel x.tagCounter (x.base + x.cursor + 8 * ch.sendIndex[d]) data)
                      :: s.part.out } })
            ∧ (readyRead s.part d ≠ none → exec (.sendStore d) s = .next s)))
      ∧ ((x.holder = none ∨ 8 ≤ x.stores.length
          ∨ ∀ p : PortId, s.part.channels[p].state = .running →
            (s.part.channels[p].writing.mem d = false
              ∨ s.part.channels[p].nextDigest ≤ s.part.channels[p].sendIndex[d])) →
        exec (.sendStore d) s = .next s)

/-- R29, R32, R33, R36, R55, R83: a STORE-DONE: on a draining destination it counts down to the end of the draining, at which the
grant is evaluated (R45, R65); toward a completion it earns credit; the one that completes makes the copy WRITTEN at the
cursor, which moves past the clip; ERROR raises STORE_ERROR with the block and withdraws the destination, which drains its
other STOREs. R57, R58: one of either kind that empties the writing set ends the attempt: the channel is IDLE, the finished
destinations queue the clip, a clip with live copies is WRITTEN, with COPY_SHORT below the required ones, one without counts
a failed attempt, and the card is settled. That completion is told by the send index at the block count with no STORE left
is the model's reading (log entry 19), and that an answer takes every STORE of its tag off the list is its choice (log entry
23). -/
def Obligations.StoreDone : Prop :=
  (∀ (s q : Part) (p : PortId) (k : ClipId) (c : Clip), s.channels[p].clip = some k → s.clips[k] = some c →
      q = endAttempt p s →
        q.channels[p].Idles s.channels[p].tagCounter
          ∧ (∀ o : PortId, o ≠ p → q.channels[o] = s.channels[o])
          ∧ (∀ d : DestId, q.dests[d] =
              { s.dests[d] with
                queue := if s.channels[p].finished.mem d then s.dests[d].queue ++ [k] else s.dests[d].queue })
          ∧ (∀ j : ClipId, j ≠ k → q.clips[j] = s.clips[j])
          ∧ (c.live = 0 → FailureCounted s s.log k c q)
          ∧ (1 ≤ c.live → ∃ y, q.clips[k] = some y ∧ y.state = .written ∧ y.failed = c.failed ∧ y.copies = c.copies
            ∧ (s.cards[c.card].required ≤ c.live → y.openMarks = c.openMarks ∧ q.log = s.log)
            ∧ (c.live < s.cards[c.card].required →
              (s.cards[c.card].state ≠ .cleared → y.openMarks.has .copyShort = true)
                ∧ q.log = logFault (decide (s.cards[c.card].state = .cleared))
                    ⟨.copyShort, some c.card, some k, none, none, c.live⟩ s.log))
          ∧ CardSettled s.cards[c.card].state q c.card)
    ∧ ∀ (s : State) (d : DestId) (b : Rx) (x : Dest) (r : StoreReq) (left : List StoreReq) (timer : Option Nat), s.runs →
      x = s.part.dests[d] → damaged 0x04 b = false → x.stores.find? (fun q => q.tag == b.tag) = some r →
      left = x.stores.filter (fun q => q.tag != b.tag) →
      timer = (if left = [] ∧ x.fetches = [] then none else some x.stallLimit) →
        (x.draining = true → left ≠ [] → exec (.storeDone d b) s = .next { s with
            part :=
              { s.part with dests := s.part.dests.set d { x with stores := left, stallTimer := timer } } })
          ∧ (x.draining = true → left = [] → exec (.storeDone d b) s = .next { s with
              part := afterEvent (drainEnded d
                (queueNotice (.destState d x.state x.ret x.base x.length x.cursor false)
                  { s.part with
                    dests := s.part.dests.set d
                      { x with stores := [], stallTimer := timer, draining := false } })) })
          ∧ ∀ (k : ClipId) (c : Clip) (p : PortId) (ch : Channel), x.draining = false → x.holder = some k →
            s.part.clips[k] = some c → ch = s.part.channels[p] →
            (∀ q : PortId, (s.part.channels[q].state = .running ∧ s.part.channels[q].clip = some k) ↔ q = p) →
              (b.status = 0 → (left ≠ [] ∨ ch.sendIndex[d] ≠ (c.length + 4095) / 4096) →
                  exec (.storeDone d b) s = .next { s with
                    part :=
                      { s.part with
                        dests := s.part.dests.set d
                          { x with
                            stores := left, stallTimer := timer
                            credit := min (x.credit + 1) (x.paceP * 2 ^ x.paceS) } } })
                ∧ (∀ e : DestId, ch.writing.mem e = true → e ≠ d → c.state = .inFlight → k ∉ x.queue →
                  (b.status = 0 → left = [] → ch.sendIndex[d] = (c.length + 4095) / 4096 →
                      ∃ t y, exec (.storeDone d b) s = .next t ∧ t.part.clips[k] = some y
                        ∧ y.copies[d] = .written x.cursor
                        ∧ t.part.dests[d].cursor = x.cursor + 8 * ((c.length + 4095) / 4096)
                        ∧ t.part.dests[d].holder ≠ some k
                        ∧ t.part.channels[p].state = .running ∧ t.part.channels[p].finished.mem d = true
                        ∧ ∀ g : DestId, t.part.channels[p].writing.mem g = (ch.writing.mem g && g != d))
                    ∧ (b.status ≠ 0 →
                      ∃ t y, exec (.storeDone d b) s = .next t ∧ t.part.clips[k] = some y
                        ∧ y.copies[d] = .none ∧ t.part.dests[d].cursor = x.cursor
                        ∧ t.part.dests[d].holder ≠ some k ∧ t.part.dests[d].draining = !left.isEmpty
                        ∧ t.part.channels[p].state = .running
                        ∧ (∀ g : DestId, t.part.channels[p].writing.mem g = (ch.writing.mem g && g != d))
                        ∧ (s.part.log.marker = none → s.part.log.entries.length < 63 →
                          t.part.log.entries[s.part.log.entries.length]? =
                            some ⟨s.part.log.nextSeq, .storeError, some c.card, some k, some d, none, r.block,
                              decide (s.part.cards[c.card].state = .cleared)⟩))
                ∧ ((∀ e : DestId, ch.writing.mem e = true → e = d) →
                  (b.status = 0 → left = [] → ch.sendIndex[d] = (c.length + 4095) / 4096 → ∃ q,
                      exec (.storeDone d b) s = .next { s with part := afterEvent (endAttempt p q) }
                        ∧ q = { s.part with
                          channels := q.channels
                          clips := s.part.clips.set k (some { c with copies := c.copies.set d (.written x.cursor) })
                          dests := s.part.dests.set d
                            { x with
                              stores := [], stallTimer := timer, holder := none
                              credit := min (x.credit + 1) (x.paceP * 2 ^ x.paceS)
                              cursor := x.cursor + 8 * ((c.length + 4095) / 4096) } }
                        ∧ (∀ o : PortId, o ≠ p → q.channels[o] = s.part.channels[o])
                        ∧ q.channels[p].clip = some k ∧ q.channels[p].tagCounter = ch.tagCounter
                        ∧ q.channels[p].finished = ch.finished.insert d)
                    ∧ (b.status ≠ 0 → ∃ q,
                      exec (.storeDone d b) s = .next { s with part := afterEvent (endAttempt p q) }
                        ∧ q = { s.part with
                          channels := q.channels, notices := q.notices
                          clips := s.part.clips.set k (some { c with copies := c.copies.set d .none })
                          dests := s.part.dests.set d
                            { x with
                              stores := left, stallTimer := timer, holder := none, draining := !left.isEmpty }
                          log := logFault (decide (s.part.cards[c.card].state = .cleared))
                            ⟨.storeError, some c.card, some k, some d, none, r.block⟩ s.part.log }
                        ∧ (∀ o : PortId, o ≠ p → q.channels[o] = s.part.channels[o])
                        ∧ q.channels[p].clip = some k ∧ q.channels[p].tagCounter = ch.tagCounter
                        ∧ q.channels[p].finished = ch.finished)))

/-! ## Verification -/

/-- R31, R33, R71, R73, R83: the destination link takes a verify's FETCH: a repeat before a new block, at most 2 outstanding
and 2 blocks in the buffer, only of a block the clip has, only in service and, while the destination has a holder or a STORE
outstanding, only at a full credit, which it then spends; its timer starts at 1,500 ms. Otherwise none is sent. That a repeat goes before a new block is the model's
choice (log entry 7). R70 to R72: the starts of verifies, tested on every destination once the grant has been evaluated: with
the context free, a queue and the destination in service, the clip at the head of the queue leaves it and enters the
context, at block 0 with lanes 1 and 0 and its copy's offset, and the copy is VERIFYING; elsewhere nothing changes. -/
def Obligations.SendVerifyFetch : Prop :=
  (∀ s : Part, afterEvent s = startVerifies (evalGrant s)
      ∧ startVerifies s = { s with clips := (startVerifies s).clips, dests := (startVerifies s).dests }
      ∧ ∀ d : DestId,
        (∀ (k : ClipId) (rest : List ClipId) (c : Clip) (o : Nat), s.dests[d].context = none →
          (s.dests[d].state = .active ∨ s.dests[d].state = .full ∨ s.dests[d].state = .closed) →
          s.dests[d].queue = k :: rest → s.clips[k] = some c → c.copies[d] = .written o →
            (startVerifies s).dests[d] =
              { s.dests[d] with
                queue := rest
                context := some
                  { clip := k, offset := o, nextFetch := 0, nextDigest := 0, retries := [], held := [], laneA := 1
                    laneB := 0 } }
              ∧ ∀ (j : ClipId) (e : Clip), s.clips[j] = some e → ∃ y, (startVerifies s).clips[j] = some y
                ∧ y = { e with copies := y.copies }
                ∧ y.copies[d] = if j = k then .verifying o else e.copies[d])
          ∧ ((s.dests[d].context ≠ none ∨ s.dests[d].queue = [] ∨ s.dests[d].state = .absent
              ∨ s.dests[d].state = .unset ∨ s.dests[d].state = .stalled) →
            (startVerifies s).dests[d] = s.dests[d]
              ∧ ∀ (j : ClipId) (e : Clip), s.clips[j] = some e → ∃ y, (startVerifies s).clips[j] = some y
                ∧ y = { e with copies := y.copies } ∧ y.copies[d] = e.copies[d]))
    ∧ ∀ (s : State) (d : DestId) (x : Dest) (paced : Bool), s.runs → x = s.part.dests[d] →
    (paced = true ↔ (x.holder ≠ none ∨ x.stores ≠ [])) →
      (∀ (v : VerifyContext) (c : Clip), x.context = some v → s.part.clips[v.clip] = some c →
          (x.state = .active ∨ x.state = .full ∨ x.state = .closed) → x.fetches.length < 2 →
          (paced = true → x.credit = x.paceP * 2 ^ x.paceS) →
            (v.retries = [] → 4096 * v.nextFetch < c.length → v.held.length < 2 →
                exec (.sendVerifyFetch d) s = .next { s with
                  part :=
                    { s.part with
                      dests := s.part.dests.set d
                        { x with
                          context := some
                            { v with nextFetch := v.nextFetch + 1, held := v.held ++ [⟨v.nextFetch, none⟩] }
                          fetches := x.fetches ++ [⟨x.tagCounter, 1500, some ⟨v.nextFetch, 1⟩⟩]
                          tagCounter := (x.tagCounter + 1) % 65536
                          stallTimer := if x.stores = [] ∧ x.fetches = [] then some x.stallLimit else x.stallTimer
                          credit := if paced then 0 else x.credit }
                      out := .dest d (fetchParcel x.tagCounter (x.base + v.offset + 8 * v.nextFetch))
                        :: s.part.out } })
              ∧ ∀ (r : Try) (rest : List Try), v.retries = r :: rest →
                exec (.sendVerifyFetch d) s = .next { s with
                  part :=
                    { s.part with
                      dests := s.part.dests.set d
                        { x with
                          context := some { v with retries := rest }
                          fetches := x.fetches ++ [⟨x.tagCounter, 1500, some r⟩]
                          tagCounter := (x.tagCounter + 1) % 65536
                          stallTimer := if x.stores = [] ∧ x.fetches = [] then some x.stallLimit else x.stallTimer
                          credit := if paced then 0 else x.credit }
                      out := .dest d (fetchParcel x.tagCounter (x.base + v.offset + 8 * r.block))
                        :: s.part.out } })
        ∧ ((x.context = none ∨ x.state = .absent ∨ x.state = .unset ∨ x.state = .stalled ∨ 2 ≤ x.fetches.length
              ∨ (paced = true ∧ x.credit ≠ x.paceP * 2 ^ x.paceS)
              ∨ ∃ v, x.context = some v ∧ v.retries = []
                ∧ (2 ≤ v.held.length
                  ∨ ∀ c : Clip, s.part.clips[v.clip] = some c → c.length ≤ 4096 * v.nextFetch)) →
            exec (.sendVerifyFetch d) s = .next s)

/-- R32, R33, R74, R76, R77, R80: a good BLOCK on a destination port: one that answers a FETCH of no verify only leaves the
list; else it is placed in its buffer block, and every block next in turn that has arrived, none, one or both of the buffer's
two, enters the verify digest and frees its buffer block; the last decides the copy, VERIFIED where the digest is the clip's
source digest, BAD with VERIFY_MISMATCH where it is not. R162: clearance is then evaluated for the clip's card. That the
answer takes every FETCH of its tag off the list is the model's choice (log entry 23). -/
def Obligations.VerifyBlock : Prop :=
  ∀ (s : State) (d : DestId) (b : Rx) (x : Dest) (f : VerifyFetch) (left : List VerifyFetch) (timer : Option Nat),
    s.runs → x = s.part.dests[d] → x.fetches.find? (fun g => g.tag == b.tag) = some f →
    left = x.fetches.filter (fun g => g.tag != b.tag) →
    timer = (if x.stores = [] ∧ left = [] then none else some x.stallLimit) →
      (f.use = none → exec (.verifyBlock d b) s = .next { s with
          part :=
            { s.part with dests := s.part.dests.set d { x with fetches := left, stallTimer := timer } } })
        ∧ ∀ (r : Try) (v : VerifyContext) (c : Clip) (held : List Held) (turn : List (Nat × List Byte))
            (lanes : Nat × Nat), f.use = some r → x.context = some v →
          s.part.clips[v.clip] = some c → b.status = 0 → damaged 0x02 b = false → b.payload.length = 4096 →
          v.held.length ≤ 2 →
          held = v.held.map (fun g => if g.block = r.block then ⟨g.block, some b.payload⟩ else g) →
          (∀ (i : Nat) (g : Nat × List Byte), turn[i]? = some g →
            g.1 = v.nextDigest + i ∧ held.find? (fun h => h.block == g.1) = some ⟨g.1, some g.2⟩) →
          (∀ g, held.find? (fun h => h.block == v.nextDigest + turn.length) = some g → g.data = none) →
          lanes = turn.foldl (fun l g => digestBytes l (g.2.take (min 4096 (c.length - 4096 * g.1))))
            (v.laneA, v.laneB) →
            (v.nextDigest + turn.length ≠ (c.length + 4095) / 4096 →
                exec (.verifyBlock d b) s = .next { s with
                  part :=
                    { s.part with
                      dests := s.part.dests.set d
                        { x with
                          fetches := left, stallTimer := timer
                          context := some
                            { v with
                              nextDigest := v.nextDigest + turn.length, laneA := lanes.1, laneB := lanes.2
                              held := held.filter fun g =>
                                decide (g.block < v.nextDigest ∨ v.nextDigest + turn.length ≤ g.block) } } } })
              ∧ (v.nextDigest + turn.length = (c.length + 4095) / 4096 →
                ∃ t y, exec (.verifyBlock d b) s = .next t ∧ t.part.clips[v.clip] = some y
                  ∧ (c.sourceDigest = some (lanes.2 * 2 ^ 32 + lanes.1) →
                    y.copies[d] = .verified v.offset ∧ t.part.log = s.part.log
                      ∧ t.part.cards[c.card].state =
                        if s.part.cards[c.card].state = .copied ∧ clearanceHolds t.part c.card = true then .cleared
                          else s.part.cards[c.card].state)
                  ∧ (c.sourceDigest ≠ some (lanes.2 * 2 ^ 32 + lanes.1) →
                    y.copies[d] = .bad v.offset
                      ∧ (s.part.cards[c.card].state ≠ .cleared → y.openMarks.has .verifyMismatch = true)
                      ∧ (s.part.cards[c.card].state = .copied → c.openMarks.has .verifyMismatch = false →
                        t.part.cards[c.card].state = .held)
                      ∧ (s.part.cards[c.card].state ≠ .copied →
                        t.part.cards[c.card].state = s.part.cards[c.card].state)
                      ∧ (s.part.log.marker = none → s.part.log.entries.length < 63 →
                        t.part.log.entries = s.part.log.entries ++
                          [⟨s.part.log.nextSeq, .verifyMismatch, some c.card, some v.clip, some d, none, lanes.1,
                            decide (s.part.cards[c.card].state = .cleared)⟩]))
                  ∧ (∀ w, t.part.dests[d].context = some w → w.nextFetch = 0 ∧ w.nextDigest = 0)
                  ∧ ∀ g ∈ t.part.dests[d].fetches, g.use = none)

/-- R33, R75, R77, R80: a try of a verify fails by its timer or by a BLOCK of ERROR status, damaged or of another length: a
FETCH of no verify only leaves the list; a first or second try is asked for again; a third makes the copy BAD, with
VERIFY_READ and the block, and a COPIED card goes to HELD where the mark opens. That VERIFY_FETCH_TIMEOUT acts whatever the
count of the timer it names is the model's choice (log entry 3), and so is that an answer or a timeout takes every FETCH of
its tag off the list (log entry 23). -/
def Obligations.VerifyTryFails : Prop :=
  ∀ (s : State) (d : DestId) (c : Instr) (tag : Nat) (x : Dest) (f : VerifyFetch) (left : List VerifyFetch)
    (timer : Option Nat), s.runs → x = s.part.dests[d] → x.fetches.find? (fun g => g.tag == tag) = some f →
    left = x.fetches.filter (fun g => g.tag != tag) →
    ((c = .verifyFetchTimeout d tag ∧ timer = (if x.stores = [] ∧ left = [] then none else x.stallTimer))
      ∨ ∃ b : Rx, c = .verifyBlock d b ∧ b.tag = tag
        ∧ (b.status ≠ 0 ∨ damaged 0x02 b = true ∨ b.payload.length ≠ 4096)
        ∧ timer = (if x.stores = [] ∧ left = [] then none else some x.stallLimit)) →
      (f.use = none → exec c s = .next { s with
          part :=
            { s.part with dests := s.part.dests.set d { x with fetches := left, stallTimer := timer } } })
        ∧ ∀ (r : Try) (v : VerifyContext), f.use = some r → x.context = some v →
          (r.tryNo < 3 → exec c s = .next { s with
              part :=
                { s.part with
                  dests := s.part.dests.set d
                    { x with
                      fetches := left, stallTimer := timer
                      context := some { v with retries := v.retries ++ [⟨r.block, r.tryNo + 1⟩] } } } })
            ∧ (3 ≤ r.tryNo → ∀ cl : Clip, s.part.clips[v.clip] = some cl →
              ∃ t y, exec c s = .next t ∧ t.part.clips[v.clip] = some y ∧ y.copies[d] = .bad v.offset
                ∧ (s.part.cards[cl.card].state = .copied → cl.openMarks.has .verifyRead = false →
                  t.part.cards[cl.card].state = .held)
                ∧ (s.part.cards[cl.card].state ≠ .copied →
                  t.part.cards[cl.card].state = s.part.cards[cl.card].state)
                ∧ (s.part.cards[cl.card].state ≠ .cleared → y.openMarks.has .verifyRead = true)
                ∧ (∀ g ∈ t.part.dests[d].fetches, g.use = none)
                ∧ (s.part.log.marker = none → s.part.log.entries.length < 63 →
                  t.part.log.entries = s.part.log.entries ++
                    [⟨s.part.log.nextSeq, .verifyRead, some cl.card, some v.clip, some d, none, r.block,
                      decide (s.part.cards[cl.card].state = .cleared)⟩]))

/-! ## Picture intake -/

/-- R88 to R91, R127, R173: FRAME-OPEN. An open frame is abandoned first; a good parcel then opens a frame attributed to the
clip record in use that it names, with its camera's slot and profile and the compare setting captured, or an orphan frame
with ORPHAN_PICTURE; a damaged one opens none. -/
def Obligations.FrameOpen : Prop :=
  ∀ (s : State) (b : Rx), s.listens →
    (∀ f, s.part.frame = some f →
        exec (.frameOpen b) s = exec (.frameOpen b) { s with part := abandonFrame s.part })
      ∧ (s.part.frame = none →
        ((damaged 0x11 b = true ∨ b.payload.length ≠ 14) → exec (.frameOpen b) s = .next { s with
            part :=
              { s.part with
                log := logFault false ⟨.orphanPicture, none, none, none, none, 4294967295⟩ s.part.log } })
          ∧ ∀ (w h : Nat) (tc : Timecode), damaged 0x11 b = false → b.payload.length = 14 →
            w = max 16 (min (field b.payload 10 2) 4096) → h = max 1 (min (field b.payload 12 2) 2304) →
            tc = timecodeAt b.payload 6 ((b.payload.getD 5 0).getLsbD 0) →
              (∀ (k : ClipId) (c : Clip) (uses : List SlotId), k.val = field b.payload 0 2 →
                s.part.clips[k] = some c →
                uses = (match s.part.cameraMap[c.camera] with
                  | none => []
                  | some m => if s.part.compare.on then [m, m + 1] else [m]) →
                exec (.frameOpen b) s = .next { s with
                  part :=
                    { s.part with
                      frame := some
                        { clip := some k, number := field b.payload 2 3, tc := tc, width := w, height := h
                          last := (b.payload.getD 5 0).getLsbD 1, camera := some c.camera
                          slot := s.part.cameraMap[c.camera], compareOn := s.part.compare.on
                          split := s.part.compare.split, slotsInUse := uses, linesTaken := 0, previous := none
                          pixelsTaken := 0, profile := s.part.profiles[c.camera], pixelCount := 0, highCount := 0
                          lowCount := 0, excCount := 0, lumaSum := 0 }
                      watch := s.part.watch.map fun e =>
                        { e with watched := if e.camera = c.camera then some ⟨false, false⟩ else none } } })
                ∧ ((∀ k : ClipId, k.val = field b.payload 0 2 → s.part.clips[k] = none) →
                  ∃ t f, exec (.frameOpen b) s = .next t
                    ∧ t.part =
                      { s.part with
                        frame := some f
                        watch := s.part.watch.map fun e => { e with watched := none }
                        log := logFault false
                          ⟨.orphanPicture, none, none, none, some (field b.payload 2 3, tc), field b.payload 0 2⟩
                          s.part.log }
                    ∧ f.clip = none ∧ f.number = field b.payload 2 3 ∧ f.tc = tc ∧ f.width = w ∧ f.height = h
                    ∧ f.slot = none ∧ f.slotsInUse = [] ∧ f.camera = none ∧ f.linesTaken = 0
                    ∧ f.profile = ⟨4080, 16777215, 16, 16777215, 16777215⟩))

/-- R93: a LINE that fails a check is dropped with LINE_ORDER, whose detail is the reason and the line index carried, against
the open frame or against none. R93 to R95, R128: one that passes is taken: the lines taken, its pixels below the width
counted and summed, the watched entries it covers, and its graded codes offered to the monitor port once. -/
def Obligations.Line : Prop :=
  ∀ (s : State) (b : Rx) (monitor : Bool) (line column : Nat), s.listens → line = field b.payload 0 2 →
    column = field b.payload 2 2 →
      (∀ (reason : Nat) (r : Report),
          r = (match s.part.frame with
            | none => ⟨.lineOrder, none, none, none, none, reason * 65536 + line⟩
            | some f => ⟨.lineOrder, f.clip.bind fun k => s.part.clips[k].map Clip.card, f.clip, none,
                some (f.number, f.tc), reason * 65536 + line⟩) →
          ((reason = 4 ∧ lineDamaged b = true ∧ 2 ≤ b.payload.length)
            ∨ (lineDamaged b = false
              ∧ ((reason = 1 ∧ s.part.frame = none)
                ∨ ∃ f, s.part.frame = some f
                  ∧ ((reason = 2 ∧ f.height ≤ line)
                    ∨ (reason = 3 ∧ line < f.height ∧ ∃ l e, f.previous = some (l, e)
                      ∧ (line < l ∨ (line = l ∧ column < e))))))) →
            exec (.line b monitor) s = .next { s with
              part :=
                { s.part with
                  log := logFault ((r.card.map fun h => decide (s.part.cards[h].state = .cleared)).getD false) r
                    s.part.log } })
        ∧ ∀ (f : OpenFrame) (codes : List (Rgb Nat)) (graded : List Graded), lineDamaged b = false →
          s.part.frame = some f → line < f.height →
          (∀ l e, f.previous = some (l, e) → l < line ∨ (l = line ∧ e ≤ column)) →
          codes = ((readPixels (b.payload.drop 6)).take (f.width - column)).map
            (fun x => ⟨min x.r 4095, min x.g 4095, min x.b 4095⟩) →
          graded = mapFrom (fun i x => gradePixel s.part.looks f i x) column codes →
            ∃ t, exec (.line b monitor) s = .next t
              ∧ t.part =
                { s.part with
                  frame := some
                    { f with
                      linesTaken := if f.previous.map Prod.fst = some line then f.linesTaken else f.linesTaken + 1
                      previous := some (line, column + field b.payload 4 2)
                      pixelsTaken := f.pixelsTaken + codes.length
                      pixelCount := f.pixelCount + codes.length
                      highCount := f.highCount
                        + codes.countP fun x => decide (f.profile.highLevel ≤ max x.r (max x.g x.b))
                      lowCount := f.lowCount
                        + codes.countP fun x => decide (max x.r (max x.g x.b) ≤ f.profile.lowLevel)
                      excCount := f.excCount + graded.countP Graded.excursion
                      lumaSum := f.lumaSum + (codes.map fun x =>
                        (13933 * x.r + 46871 * x.g + 4732 * x.b + 32768) / 65536).sum }
                  watch := t.part.watch
                  out := if monitor = true ∧ codes ≠ []
                    then .monitor (monitorParcel f.number line column (graded.map Graded.codes)) :: s.part.out
                    else s.part.out }
              ∧ t.part.watch = s.part.watch.map fun e =>
                match e.watched with
                | none => e
                | some w =>
                  if e.line = line ∧ column ≤ e.column then
                    match codes[e.column - column]? with
                    | some x => { e with watched := some ⟨true, w.hit || decide (e.level ≤ max x.r (max x.g x.b))⟩ }
                    | none => e
                  else e

/-- R96 to R101, R121, R129 to R143, R162: the end of a frame, of a clip or of none, by FRAME-CLOSE, whole or damaged, and by
the station link going down. Its faults, in their order: SHORT_FRAME of a short or abandoned frame; EXPOSURE_HIGH,
EXPOSURE_LOW and GAMUT_EXCURSION of a count above its limit whose run flag was no; HOT_PIXEL of each watched entry covered
and hit whose run counter reaches its length; and, of a frame of a clip, FRAME_REPEAT or FRAME_GAP and TC_MALFORMED or
TC_BREAK. Each opens its mark, where it has one, on a clip whose card is not CLEARED. The frame is accounted to its clip, whose
last frame number and timecode count follow; the run flags and the watch list follow, from none after a change of clip; the
PENDING looks are committed; its statistics are offered; no frame is open; clearance is evaluated for the clip's card.
FRAME-CLOSE with no frame open is dropped with LINE_ORDER reason 5. The station link coming up changes that alone. -/
def Obligations.FrameEnds : Prop :=
  ∀ s : State,
    (s.runs → exec .stationLinkUp s = .next { s with part := { s.part with stationUp := true } })
      ∧ (s.runs → s.part.frame = none →
        exec .stationLinkDown s = .next { s with part := { s.part with stationUp := false } })
      ∧ (∀ b : Rx, s.listens → s.part.frame = none → 2 ≤ b.payload.length →
        exec (.frameClose b) s = .next { s with
          part :=
            { s.part with
              log := logFault false ⟨.lineOrder, none, none, none, none, 5 * 65536 + field b.payload 0 2⟩
                s.part.log } })
      ∧ ∀ (c : Instr) (f : OpenFrame) (who : Option (ClipId × Clip)) (short abandoned : Bool) (card : Option CardId)
          (runs : RunFlags) (watch : List WatchEntry) (faults continuity : List (FaultKind × Nat)) (after : Bool),
        s.part.frame = some f → f.clip = who.map Prod.fst → (∀ k cl, who = some (k, cl) → s.part.clips[k] = some cl) →
        ((s.runs ∧ c = .stationLinkDown ∧ short = true ∧ abandoned = true)
          ∨ (s.listens ∧ ∃ b : Rx, c = .frameClose b
            ∧ (((damaged 0x13 b = true ∨ b.payload.length ≠ 2) ∧ short = true ∧ abandoned = true)
              ∨ (damaged 0x13 b = false ∧ b.payload.length = 2 ∧ abandoned = false
                ∧ (short = true ↔ f.linesTaken < field b.payload 0 2 ∨ f.linesTaken < f.height))))) →
        card = who.map (fun x => x.2.card) →
        after = (card.map fun h => decide (s.part.cards[h].state = .cleared)).getD false →
        (runs, watch) = (if s.part.checkedClip = (match f.clip with | some k => .clip k | none => .noClip)
          then (s.part.runs, s.part.watch)
          else (⟨false, false, false⟩, s.part.watch.map fun e => { e with counter := 0, raised := false })) →
        continuity = (match who with
          | none => []
          | some (_, cl) =>
            (match cl.lastFrame with
              | none => []
              | some l =>
                if f.number ≤ l then [(.frameRepeat, l)]
                else if l + 1 < f.number then [(.frameGap, f.number - l - 1)] else [])
            ++ (if tcValid cl.timebase f.tc = false then [(.tcMalformed, tcDigits f.tc)]
              else if (cl.lastFrame.any fun l => decide (f.number ≤ l)) then []
              else match cl.lastCount, cl.firstTc with
                | some n, _ =>
                  if tcCount cl.timebase f.tc = (n + (f.number - cl.lastFrame.getD 0)) % cl.timebase.dayLength then []
                  else [(.tcBreak, expectedDigits cl.timebase
                    ((n + (f.number - cl.lastFrame.getD 0)) % cl.timebase.dayLength))]
                | none, some t =>
                  if tcValid cl.timebase t = false then [(.tcMalformed, tcDigits t)]
                  else if tcCount cl.timebase f.tc = (tcCount cl.timebase t + f.number) % cl.timebase.dayLength then []
                  else [(.tcBreak, expectedDigits cl.timebase
                    ((tcCount cl.timebase t + f.number) % cl.timebase.dayLength))]
                | none, none => [])) →
        faults = (if short then [(.shortFrame, f.linesTaken * 65536 + f.height)] else [])
          ++ (if f.profile.highLimit < f.highCount ∧ runs.high = false then [(.exposureHigh, f.highCount)] else [])
          ++ (if f.profile.lowLimit < f.lowCount ∧ runs.low = false then [(.exposureLow, f.lowCount)] else [])
          ++ (if f.profile.excLimit < f.excCount ∧ runs.exc = false then [(.gamutExcursion, f.excCount)] else [])
          ++ (watch.filter fun e =>
              decide (e.watched = some ⟨true, true⟩ ∧ e.run ≤ min (e.counter + 1) 255 ∧ e.raised = false)).map
            (fun e => (.hotPixel, e.column * 65536 + e.line))
          ++ continuity →
          ∃ t, exec c s = .next t ∧ t.part.frame = none
            ∧ t.part.stationUp = (if c = .stationLinkDown then false else s.part.stationUp)
            ∧ t.part.log = faults.foldl
                (fun l x => logFault after ⟨x.1, card, f.clip, none, some (f.number, f.tc), x.2⟩ l) s.part.log
            ∧ t.part.checkedClip = (match f.clip with | some k => .clip k | none => .noClip)
            ∧ t.part.runs = ⟨decide (f.profile.highLimit < f.highCount), decide (f.profile.lowLimit < f.lowCount),
                decide (f.profile.excLimit < f.excCount)⟩
            ∧ t.part.watch = watch.map (fun e => match e.watched with
                | some ⟨true, true⟩ =>
                  { e with
                    counter := min (e.counter + 1) 255
                    raised := e.raised || decide (e.run ≤ min (e.counter + 1) 255), watched := none }
                | some ⟨true, false⟩ => { e with counter := 0, raised := false, watched := none }
                | _ => { e with watched := none })
            ∧ (∀ m : SlotId, t.part.looks[m] =
                if s.part.looks[m].state.isPending
                  then ⟨s.part.looks[m].staging, s.part.looks[m].staging, .clean⟩ else s.part.looks[m])
            ∧ (∀ (m : SlotId) (g : Nat), s.part.looks[m].state = .pending g →
                Notice.lookCommitted m g f.number ∈ t.part.notices)
            ∧ (s.part.stats = none → t.part.stats = some
                { clip := f.clip, number := f.number, tc := f.tc, pixels := f.pixelsTaken, high := f.highCount
                  low := f.lowCount, exc := f.excCount
                  meanLuma := if f.pixelCount = 0 then 0 else f.lumaSum / f.pixelCount
                  hotHits := s.part.watch.countP fun e => decide (e.watched = some ⟨true, true⟩)
                  abandoned := abandoned, droppedAfter := 0 })
            ∧ (∀ r, s.part.stats = some r →
                t.part.stats = some { r with droppedAfter := min (r.droppedAfter + 1) 65535 })
            ∧ (who = none → t.part.clips = s.part.clips ∧ t.part.cards = s.part.cards)
            ∧ ∀ k cl, who = some (k, cl) → ∃ y, t.part.clips[k] = some y
              ∧ y.framesSeen = min (cl.framesSeen + 1) 16777215 ∧ y.lastMarker = (cl.lastMarker || f.last)
              ∧ y.lastFrame = (match cl.lastFrame with
                  | some l => if f.number ≤ l then some l else some f.number
                  | none => some f.number)
              ∧ y.lastCount = (if (cl.lastFrame.any fun l => decide (f.number ≤ l)) then cl.lastCount
                  else if tcValid cl.timebase f.tc then some (tcCount cl.timebase f.tc)
                  else cl.lastCount.map fun n => (n + (f.number - cl.lastFrame.getD 0)) % cl.timebase.dayLength)
              ∧ (∀ g : FaultKind, y.openMarks.has g =
                  (cl.openMarks.has g || (!after && g.marksClip && decide (g ∈ faults.map Prod.fst))))
              ∧ (s.part.cards[cl.card].state ≠ .copied → t.part.cards[cl.card].state = s.part.cards[cl.card].state)
              ∧ (s.part.cards[cl.card].state = .copied → t.part.cards[cl.card].state =
                  if y.openMarks ≠ cl.openMarks then .held
                  else if clearanceHolds t.part cl.card then .cleared else .copied)

/-! ## Station egress -/

/-- R143, R150, R151, R165, R173, R180, R185: what the station link takes: the notice at the head of the queue, with the CLEARED
card's flag set; at the answer while another is held, the held one joins the queue and the parcels that wait at the link are
taken in their order, as if they came then (where they stand meanwhile is the model's choice, log entry 6); else the head of
the fault log, its marker after its entries; else the statistics. With the link down or nothing waiting, nothing leaves. The
bits of a FAULT or STATS parcel that the layout gives no meaning are a free value (log entry 5), and the statement holds
whatever it is. -/
def Obligations.Egress : Prop :=
  ∀ (s : State) (fill : BitVec 128), s.runs → fill = Config.freeFill s.part.freeCount →
    (s.part.stationUp = false → exec .egressSend s = .next s)
      ∧ (s.part.stationUp = true →
        (∀ (n : Notice) (rest : List Notice), s.part.notices = n :: rest →
            (n.isAnswer = false → (∀ h label m, n ≠ .cleared h label m) → exec .egressSend s = .next { s with
                part := { s.part with notices := rest, out := .station n.parcel :: s.part.out } })
              ∧ (∀ h label m, n = .cleared h label m → exec .egressSend s = .next { s with
                part :=
                  { s.part with
                    notices := rest, out := .station n.parcel :: s.part.out
                    cards := s.part.cards.set h { s.part.cards[h] with clearedUnsent := false } } })
              ∧ (n.isAnswer = true → s.part.unit.held = none → exec .egressSend s = .next { s with
                part := { s.part with notices := rest, out := .station n.parcel :: s.part.out } })
              ∧ ∀ a, n.isAnswer = true → s.part.unit.held = some a →
                (∀ c ∈ s.part.waiting, onStation c = true) →
                  ∃ t, exec .egressSend s = .next t ∧ runAll s.part.waiting { s with
                    part :=
                      { s.part with
                        notices := rest ++ [.answer a], out := .station n.parcel :: s.part.out
                        unit := { s.part.unit with held := none }, waiting := [] } } = some t)
          ∧ (s.part.notices = [] →
            (∀ (e : LogEntry) (rest : List LogEntry), s.part.log.entries = e :: rest →
                exec .egressSend s = .next { s with
                  part :=
                    { s.part with
                      log := { s.part.log with entries := rest }, freeCount := s.part.freeCount + 1
                      out := .station (sealParcel 0x22 0 0 (faultPayload fill e)) :: s.part.out } })
              ∧ (∀ m, s.part.log.entries = [] → s.part.log.marker = some m → exec .egressSend s = .next { s with
                part :=
                  { s.part with
                    log := { s.part.log with marker := none }, freeCount := s.part.freeCount + 1
                    out := .station (sealParcel 0x22 0 0 (overflowPayload fill m)) :: s.part.out } })
              ∧ (s.part.log.entries = [] → s.part.log.marker = none →
                (∀ r, s.part.stats = some r → exec .egressSend s = .next { s with
                    part :=
                      { s.part with
                        stats := none, freeCount := s.part.freeCount + 1
                        out := .station (sealParcel 0x23 0 0 (statsPayload fill r)) :: s.part.out } })
                  ∧ (s.part.stats = none → exec .egressSend s = .next s))))

/-! ## Digest, grading and timecode -/

/-- R52: the digest of a run of bytes cut at a multiple of four is that of its pieces in turn, and both lanes stay below the
prime, so that the value has 64 bits; a single changed byte changes the A lane. -/
def Obligations.DigestStreams : Prop :=
  (∀ (lanes : Nat × Nat) (a b : List Byte), a.length % 4 = 0 →
      digestBytes lanes (a ++ b) = digestBytes (digestBytes lanes a) b)
    ∧ (∀ (lanes : Nat × Nat) (a : List Byte), lanes.1 < 4294967291 → lanes.2 < 4294967291 →
        (digestBytes lanes a).1 < 4294967291 ∧ (digestBytes lanes a).2 < 4294967291
          ∧ digestValue (digestBytes lanes a) < 2 ^ 64)
    ∧ ∀ (lanes : Nat × Nat) (a b : List Byte) (x y : Byte), x ≠ y →
        (digestBytes lanes (a ++ x :: b)).1 ≠ (digestBytes lanes (a ++ y :: b)).1

/-- R106, R108, R111, R112: expansion keeps its two ends and rises with the code; the curve stage stays between the two
entries of its segment and equals the first at its start; the interpolation stays among the four vertices; the output
keeps its two ends and never falls. -/
def Obligations.GradingStages : Prop :=
  (expand 0 = 0 ∧ expand 4095 = 65535 ∧ ∀ c e : Nat, c < e → expand c < expand e)
    ∧ (∀ (curve : Vector Nat 257) (t : Nat) (ht : t < 65536),
        curveStage curve t ≤ max (curve[t / 256]'(by omega)) (curve[t / 256 + 1]'(by omega))
          ∧ min (curve[t / 256]'(by omega)) (curve[t / 256 + 1]'(by omega)) ≤ curveStage curve t
          ∧ (t % 256 = 0 → curveStage curve t = curve[t / 256]'(by omega)))
    ∧ (∀ f1 f2 f3 a b c e : Nat, f3 ≤ f2 → f2 ≤ f1 → f1 < 65536 →
        min (min a b) (min c e) ≤ interpolate f1 f2 f3 a b c e
          ∧ interpolate f1 f2 f3 a b c e ≤ max (max a b) (max c e)
          ∧ (f1 = f2 → ∀ b' : Nat, interpolate f1 f2 f3 a b c e = interpolate f1 f2 f3 a b' c e)
          ∧ (f2 = f3 → ∀ c' : Nat, interpolate f1 f2 f3 a b c e = interpolate f1 f2 f3 a b c' e))
    ∧ monitorCode 0 = 0 ∧ monitorCode 65535 = 1023 ∧ ∀ x y : Nat, x ≤ y → monitorCode x ≤ monitorCode y

/-- R114: what the identity look does: stages 2 and 4 and, but for the top of its range, the curve and the lattice return
their input; the codes whose expanded value the curve lowers are 4,088 to 4,095; a code graded through it without its lattice
has the monitor code it has without a look, and no excursion. -/
def Obligations.IdentityLook : Prop :=
  (∀ v : Nat, slopeOffset Bank.identity.slope.r Bank.identity.offset.r v = v
      ∧ slopeOffset Bank.identity.slope.g Bank.identity.offset.g v = v
      ∧ slopeOffset Bank.identity.slope.b Bank.identity.offset.b v = v)
    ∧ (∀ l x : Nat, saturate Bank.identity.saturation l x = x)
    ∧ (∀ t : Nat, t ≤ 65535 →
        curveStage Bank.identity.curve.r t = (if t ≤ 65408 then t else t - 1)
          ∧ curveStage Bank.identity.curve.g t = (if t ≤ 65408 then t else t - 1)
          ∧ curveStage Bank.identity.curve.b t = (if t ≤ 65408 then t else t - 1))
    ∧ (∀ c : Nat, c ≤ 4095 → (curveStage Bank.identity.curve.g (expand c) + 1 = expand c ↔ 4088 ≤ c))
    ∧ (∀ x : Rgb Nat, x.r ≤ 65535 → x.g ≤ 65535 → x.b ≤ 65535 →
        latticeStage Bank.identity x =
          ⟨if x.r ≤ 63488 then x.r else x.r - 1, if x.g ≤ 63488 then x.g else x.g - 1,
            if x.b ≤ 63488 then x.b else x.b - 1⟩)
    ∧ ∀ c : Rgb Nat, c.r ≤ 4095 → c.g ≤ 4095 → c.b ≤ 4095 →
        gradeThrough Bank.identity c = gradePlain c ∧ (gradePlain c).excursion = false
          ∧ (gradeThrough { Bank.identity with latticeOn := true } c).excursion = false

/-- R138, R139, R141: in every timebase the valid timecodes and the counts below the day length correspond one to one: a valid
timecode's count lies below the day length and forms back into its own digits, and every count below the day length is that
of a valid timecode, whose digits it forms. -/
def Obligations.TimecodeRoundTrip : Prop :=
  ∀ tb : Timebase,
    (∀ t : Timecode, tcValid tb t = true →
        tcCount tb t < tb.dayLength ∧ expectedDigits tb (tcCount tb t) = tcDigits t)
      ∧ ∀ e : Nat, e < tb.dayLength →
          ∃ t : Timecode, tcValid tb t = true ∧ tcCount tb t = e ∧ tcDigits t = expectedDigits tb e

/-! ## Invariants -/

/-- R165, R180, R184: every step keeps the notice queue free of two entries of one subject, an answer held only behind one that
is queued, and each card's CLEARED notice unsent flag true to the queue. -/
def Obligations.NoticesKept : Prop := ∀ s t : State, NoticesOk s.part → step s = .next t → NoticesOk t.part

/-- R148 to R150: every step keeps the fault log's entries in consecutive numbers, at most 63, its marker behind them. -/
def Obligations.LogKept : Prop := ∀ s t : State, LogOk s.part.log → step s = .next t → LogOk t.part.log

/-- R153: every step keeps the mark sets disjoint, cards' of card kinds and clips' of clip kinds. -/
def Obligations.MarksKept : Prop := ∀ s t : State, MarksOk s.part → step s = .next t → MarksOk t.part

/-- R31, R33, R36, R83: every step keeps every destination's limits, its stall timer running exactly while a request is
outstanding, its draining and its credit. -/
def Obligations.DestsKept : Prop := ∀ s t : State, DestsOk s.part → step s = .next t → DestsOk t.part

/-- R47, R48, R65: every step keeps every copy channel's limits, an IDLE or WAITING channel empty of clip, FETCHes and
blocks. -/
def Obligations.ChannelsKept : Prop := ∀ s t : State, ChannelsOk s.part → step s = .next t → ChannelsOk t.part

/-- R103, R120, R186: every step keeps a CLEAN slot's STAGING bank equal to its LIVE bank, a PENDING slot in use by the open
frame, and unfitted ports and destinations as they are. -/
def Obligations.LooksAndFittedKept : Prop :=
  ∀ s t : State, step s = .next t →
    (LooksOk s.part → LooksOk t.part) ∧ (FittedOk s.part → FittedOk t.part)

/-- R164, R71, R46, R47, R5, R3, R8: every step keeps a CLEARED card as R164 says: each of its clips VERIFIED on at least the
required copies or FAILED with CLIP_FAILED waived, and no mark open on it or them; and with it what that leans on: each clip
in use on its card's list alone, ports bound to the cards whose source they are, clips IN_FLIGHT exactly on the RUNNING
channels of their cards, holders WRITING, and copy records VERIFYING exactly where a context names their clip. -/
def Obligations.ClearedKept : Prop := ∀ s t : State, ClearanceOk s.part → step s = .next t → ClearanceOk t.part

/-- The invariants hold right after reset, in the model's reset state and at the end of every full reset, whatever the straps
and links. -/
def Obligations.ResetMeetsInvariants : Prop :=
  (NoticesOk State.reset.part ∧ LogOk State.reset.part.log ∧ MarksOk State.reset.part ∧ DestsOk State.reset.part
      ∧ ChannelsOk State.reset.part ∧ LooksOk State.reset.part ∧ FittedOk State.reset.part ∧ ClearanceOk State.reset.part)
    ∧ ∀ (s t : State) (src : BitVec 2) (dst : BitVec 3) (present : BitVec 4) (up : BitVec 6) (station : Bool),
      s.part.reset.holding.isSome = true → exec (.resetEnd src dst present up station) s = .next t →
        NoticesOk t.part ∧ LogOk t.part.log ∧ MarksOk t.part ∧ DestsOk t.part ∧ ChannelsOk t.part ∧ LooksOk t.part
          ∧ FittedOk t.part ∧ ClearanceOk t.part

/-- R2, R25, R184: whatever the front command, but the end of a full reset, a card whose state or source has changed has its
CARD-STATE notice queued with the state and source it has now, and a destination whose state or draining flag has changed
its DEST-STATE notice with those it has now. -/
def Obligations.ChangesAreNoticed : Prop :=
  ∀ s t : State, step s = .next t →
    (∀ (c : Instr) (rest : List Instr) (src : BitVec 2) (dst : BitVec 3) (present : BitVec 4) (up : BitVec 6)
        (station : Bool), s.pending = c :: rest → c ≠ .resetEnd src dst present up station) →
      (∀ h : CardId, (t.part.cards[h].state ≠ s.part.cards[h].state ∨ t.part.cards[h].source ≠ s.part.cards[h].source) →
          ∃ label, Notice.cardState h label t.part.cards[h].state t.part.cards[h].source ∈ t.part.notices)
        ∧ ∀ d : DestId, (t.part.dests[d].state ≠ s.part.dests[d].state
            ∨ t.part.dests[d].draining ≠ s.part.dests[d].draining) →
          ∃ ret base length cursor,
            Notice.destState d t.part.dests[d].state ret base length cursor t.part.dests[d].draining ∈ t.part.notices

/-- R45, R46: the grant evaluation. A pass considers the cards in handle order from the grant pointer, wrapping from 7 to 0; its
candidates are the cards still ready after it, in that order. The first of them is the senior: it is granted when every
destination of its target set is free; else the first of the others whose target set is wholly free and holds none that the
senior needs. A pass that grants nothing ends the evaluation; after a grant a new pass is made, while every card asks for a
copy, and more passes than the model makes change nothing. A grant sets the pointer behind its card, makes the clip
IN_FLIGHT, WRITING on its targets and their holder, and begins the attempt at block 0; with an empty target set it ends at
once and holds none. That the target sets of a pass stay as they were formed is the model's reading (log entry 8). -/
def Obligations.GrantPassesSuffice : Prop :=
  (∀ s : Part, (∀ h : CardId, 1 ≤ s.cards[h].required) →
      ∀ more : Nat, grantPasses (513 + more) s = evalGrant s)
    ∧ (∀ (s t : Part) (found : List Candidate), (t, found) = considerAll (cardOrder s.grantPointer) s →
        (∀ i : Fin 8, (cardOrder s.grantPointer)[i.val]? = some (s.grantPointer + i))
          ∧ (found.map Candidate.card).Sublist (cardOrder s.grantPointer)
          ∧ (∀ (h : CardId) (k : ClipId), readyClip t h = some k ↔ ∃ c ∈ found, c.card = h ∧ c.clip = k)
          ∧ (chooseGrant t found = none → evalGrant s = t)
          ∧ ∀ c, chooseGrant t found = some c → (∀ h : CardId, 1 ≤ s.cards[h].required) →
              evalGrant s = evalGrant (grant c t))
    ∧ (∀ (s : Part) (senior : Candidate) (others : List Candidate) (free : DestId → Bool) (may : Candidate → Bool),
        (∀ d : DestId, free d = true ↔ s.dests[d].holder = none ∧ s.dests[d].draining = false) →
        (∀ c : Candidate, may c = true ↔
          ∀ d : DestId, c.targets.mem d = true → free d = true ∧ senior.targets.mem d = false) →
          chooseGrant s [] = none
            ∧ ((∀ d : DestId, senior.targets.mem d = true → free d = true) →
              chooseGrant s (senior :: others) = some senior)
            ∧ ((∃ d : DestId, senior.targets.mem d = true ∧ free d = false) →
              ((∀ c ∈ others, may c = false) → chooseGrant s (senior :: others) = none)
                ∧ ∀ before c rest, others = before ++ c :: rest → (∀ e ∈ before, may e = false) → may c = true →
                  chooseGrant s (senior :: others) = some c))
    ∧ ∀ (s : Part) (c : Candidate) (p : PortId) (x : Clip) (begun : Channel), s.cards[c.card].source = some p →
        s.channels[p].state = .idle → s.clips[c.clip] = some x →
        begun = { Channel.idle s.channels[p].tagCounter with
          state := .running, clip := some c.clip, target := c.targets, writing := c.targets } →
          ((∃ d : DestId, c.targets.mem d = true) → ∃ y,
              grant c s = { s with
                grantPointer := c.card + 1, channels := s.channels.set p begun, dests := (grant c s).dests
                clips := s.clips.set c.clip (some y) }
                ∧ y = { x with state := .inFlight, copies := y.copies }
                ∧ ∀ d : DestId,
                  y.copies[d] = (if c.targets.mem d then .writing else x.copies[d])
                    ∧ (grant c s).dests[d] =
                      if c.targets.mem d then { s.dests[d] with holder := some c.clip } else s.dests[d])
            ∧ ((∀ d : DestId, c.targets.mem d = false) →
              (grant c s).dests = s.dests
                ∧ grant c s = endAttempt p { s with
                  grantPointer := c.card + 1, channels := s.channels.set p begun
                  clips := s.clips.set c.clip (some { x with state := .inFlight }) })
end

