-- ==== Sys2Proof/Laws/State.lean ====
section
/-! SUPPORT. The fields of the state under the plainest updates: one lemma per field per update, true by `rfl`, so that no
proof unfolds a record update; and the entries of a table after a write. -/

namespace Sys2Proof.Machine

variable (s : Part) (n : Notice) (p : PortId) (c : Channel) (x : SourcePort) (k : ClipId) (f : Clip → Clip)
  (h : CardId) (d : DestId)

/-! ## The machine's state -/

@[simp] theorem State.onPart_part (g : Part → Part) (m : State) : (m.onPart g).part = g m.part := rfl
@[simp] theorem State.onPart_pending (g : Part → Part) (m : State) : (m.onPart g).pending = m.pending := rfl
@[simp] theorem State.answering_part (a : Answer) (q : Part) (m : State) : (m.answering a q).part = placeAnswer a q := rfl
@[simp] theorem State.answering_pending (a : Answer) (q : Part) (m : State) : (m.answering a q).pending = m.pending := rfl

/-! ## A queued notice -/

@[simp] theorem queueNotice_reset : (queueNotice n s).reset = s.reset := rfl
@[simp] theorem queueNotice_cards : (queueNotice n s).cards = s.cards := rfl
@[simp] theorem queueNotice_clips : (queueNotice n s).clips = s.clips := rfl
@[simp] theorem queueNotice_ports : (queueNotice n s).ports = s.ports := rfl
@[simp] theorem queueNotice_channels : (queueNotice n s).channels = s.channels := rfl
@[simp] theorem queueNotice_dests : (queueNotice n s).dests = s.dests := rfl
@[simp] theorem queueNotice_grantPointer : (queueNotice n s).grantPointer = s.grantPointer := rfl
@[simp] theorem queueNotice_frame : (queueNotice n s).frame = s.frame := rfl
@[simp] theorem queueNotice_looks : (queueNotice n s).looks = s.looks := rfl
@[simp] theorem queueNotice_cameraMap : (queueNotice n s).cameraMap = s.cameraMap := rfl
@[simp] theorem queueNotice_compare : (queueNotice n s).compare = s.compare := rfl
@[simp] theorem queueNotice_profiles : (queueNotice n s).profiles = s.profiles := rfl
@[simp] theorem queueNotice_watch : (queueNotice n s).watch = s.watch := rfl
@[simp] theorem queueNotice_checkedClip : (queueNotice n s).checkedClip = s.checkedClip := rfl
@[simp] theorem queueNotice_runs : (queueNotice n s).runs = s.runs := rfl
@[simp] theorem queueNotice_stats : (queueNotice n s).stats = s.stats := rfl
@[simp] theorem queueNotice_log : (queueNotice n s).log = s.log := rfl
@[simp] theorem queueNotice_unit : (queueNotice n s).unit = s.unit := rfl
@[simp] theorem queueNotice_stationUp : (queueNotice n s).stationUp = s.stationUp := rfl
@[simp] theorem queueNotice_waiting : (queueNotice n s).waiting = s.waiting := rfl
@[simp] theorem queueNotice_out : (queueNotice n s).out = s.out := rfl
@[simp] theorem queueNotice_freeCount : (queueNotice n s).freeCount = s.freeCount := rfl
@[simp] theorem queueNotice_notices : (queueNotice n s).notices = enqueue n s.notices := rfl

/-! ## A written channel -/

@[simp] theorem setChannel_reset : (setChannel p c s).reset = s.reset := rfl
@[simp] theorem setChannel_cards : (setChannel p c s).cards = s.cards := rfl
@[simp] theorem setChannel_clips : (setChannel p c s).clips = s.clips := rfl
@[simp] theorem setChannel_ports : (setChannel p c s).ports = s.ports := rfl
@[simp] theorem setChannel_dests : (setChannel p c s).dests = s.dests := rfl
@[simp] theorem setChannel_grantPointer : (setChannel p c s).grantPointer = s.grantPointer := rfl
@[simp] theorem setChannel_frame : (setChannel p c s).frame = s.frame := rfl
@[simp] theorem setChannel_looks : (setChannel p c s).looks = s.looks := rfl
@[simp] theorem setChannel_cameraMap : (setChannel p c s).cameraMap = s.cameraMap := rfl
@[simp] theorem setChannel_compare : (setChannel p c s).compare = s.compare := rfl
@[simp] theorem setChannel_profiles : (setChannel p c s).profiles = s.profiles := rfl
@[simp] theorem setChannel_watch : (setChannel p c s).watch = s.watch := rfl
@[simp] theorem setChannel_checkedClip : (setChannel p c s).checkedClip = s.checkedClip := rfl
@[simp] theorem setChannel_runs : (setChannel p c s).runs = s.runs := rfl
@[simp] theorem setChannel_stats : (setChannel p c s).stats = s.stats := rfl
@[simp] theorem setChannel_log : (setChannel p c s).log = s.log := rfl
@[simp] theorem setChannel_unit : (setChannel p c s).unit = s.unit := rfl
@[simp] theorem setChannel_notices : (setChannel p c s).notices = s.notices := rfl
@[simp] theorem setChannel_stationUp : (setChannel p c s).stationUp = s.stationUp := rfl
@[simp] theorem setChannel_waiting : (setChannel p c s).waiting = s.waiting := rfl
@[simp] theorem setChannel_out : (setChannel p c s).out = s.out := rfl
@[simp] theorem setChannel_freeCount : (setChannel p c s).freeCount = s.freeCount := rfl
@[simp] theorem setChannel_channels : (setChannel p c s).channels = s.channels.set p c := rfl

/-! ## A written source port -/

@[simp] theorem setPort_reset : (setPort p x s).reset = s.reset := rfl
@[simp] theorem setPort_cards : (setPort p x s).cards = s.cards := rfl
@[simp] theorem setPort_clips : (setPort p x s).clips = s.clips := rfl
@[simp] theorem setPort_channels : (setPort p x s).channels = s.channels := rfl
@[simp] theorem setPort_dests : (setPort p x s).dests = s.dests := rfl
@[simp] theorem setPort_grantPointer : (setPort p x s).grantPointer = s.grantPointer := rfl
@[simp] theorem setPort_frame : (setPort p x s).frame = s.frame := rfl
@[simp] theorem setPort_looks : (setPort p x s).looks = s.looks := rfl
@[simp] theorem setPort_cameraMap : (setPort p x s).cameraMap = s.cameraMap := rfl
@[simp] theorem setPort_compare : (setPort p x s).compare = s.compare := rfl
@[simp] theorem setPort_profiles : (setPort p x s).profiles = s.profiles := rfl
@[simp] theorem setPort_watch : (setPort p x s).watch = s.watch := rfl
@[simp] theorem setPort_checkedClip : (setPort p x s).checkedClip = s.checkedClip := rfl
@[simp] theorem setPort_runs : (setPort p x s).runs = s.runs := rfl
@[simp] theorem setPort_stats : (setPort p x s).stats = s.stats := rfl
@[simp] theorem setPort_log : (setPort p x s).log = s.log := rfl
@[simp] theorem setPort_unit : (setPort p x s).unit = s.unit := rfl
@[simp] theorem setPort_notices : (setPort p x s).notices = s.notices := rfl
@[simp] theorem setPort_stationUp : (setPort p x s).stationUp = s.stationUp := rfl
@[simp] theorem setPort_waiting : (setPort p x s).waiting = s.waiting := rfl
@[simp] theorem setPort_out : (setPort p x s).out = s.out := rfl
@[simp] theorem setPort_freeCount : (setPort p x s).freeCount = s.freeCount := rfl
@[simp] theorem setPort_ports : (setPort p x s).ports = s.ports.set p x := rfl

/-! ## The entries of a table -/

/-- An entry of a table after a write. -/
theorem get_set {α : Type} {m : Nat} (v : Vector α m) (i j : Fin m) (a : α) :
    (v.set i a)[j] = if i = j then a else v[j] := by
  by_cases e : i = j
  · subst e; simp
  · simp [Vector.getElem_set, Fin.ext_iff] at e ⊢

/-- An entry of a table built from a rule. -/
@[simp] theorem tabulate_getElem {α : Type} {m : Nat} (g : Nat → α) (i : Nat) (hi : i < m) : (tabulate m g)[i] = g i := by
  simp [tabulate]

theorem tabulate_get {α : Type} {m : Nat} (g : Nat → α) (i : Fin m) : (tabulate m g)[i] = g i :=
  tabulate_getElem g i i.isLt

theorem mapFrom_get {α β : Type} (g : Nat → α → β) (i : Nat) (l : List α) (j : Nat) (hj : j < l.length)
    (hm : j < (mapFrom g i l).length) : (mapFrom g i l)[j] = g (i + j) l[j] := by
  induction l generalizing i j with
  | nil => simp at hj
  | cons a as ih =>
    cases j with
    | zero => simp [mapFrom]
    | succ j =>
      simp only [mapFrom, List.getElem_cons_succ]
      rw [ih (i + 1) j (by simpa using hj)]
      congr 1; omega

/-- An entry of a table changed entry by entry. -/
@[simp] theorem mapEach_getElem {α β : Type} {m : Nat} (g : Nat → α → β) (v : Vector α m) (i : Nat) (hi : i < m) :
    (mapEach g v)[i] = g i v[i] := by
  have e := mapFrom_get g 0 v.toList i (by simpa using hi) (by simpa [mapFrom_length] using hi)
  simp only [Nat.zero_add] at e
  simpa [mapEach] using e

theorem mapEach_get {α β : Type} {m : Nat} (g : Nat → α → β) (v : Vector α m) (i : Fin m) :
    (mapEach g v)[i] = g i v[i] :=
  mapEach_getElem g v i i.isLt

end Sys2Proof.Machine
end

