-- ==== Sys2Proof/Laws/Ops.lean ====
section
/-! SUPPORT. What the named operations of Machine/Ops.lean and Machine/Unit.lean can do: the fields each leaves alone, and
one lemma per operation that says all it does. -/

namespace Sys2Proof.Machine

variable (s : Part) (n m : Notice) (q : List Notice) (h g : CardId) (c : Card) (d : DestId) (x : Dest) (k : ClipId)
  (f : Clip → Clip) (r : Report)

/-! ## The notice queue (R184) -/

/-- A notice is in the queue once it has been queued. -/
theorem mem_enqueue_self : n ∈ enqueue n q := by
  unfold enqueue
  split
  · rename_i e
    obtain ⟨a, ha, hb⟩ := List.any_eq_true.mp e
    exact List.mem_map.mpr ⟨a, ha, by simp [hb]⟩
  · simp

/-- An entry of the queue after a notice is queued is that notice or an entry of before. -/
theorem mem_of_mem_enqueue (hm : m ∈ enqueue n q) : m = n ∨ m ∈ q := by
  unfold enqueue at hm
  split at hm
  · obtain ⟨a, ha, hb⟩ := List.mem_map.mp hm
    split at hb
    · exact .inl hb.symm
    · exact .inr (hb ▸ ha)
  · rcases List.mem_append.mp hm with e | e
    · exact .inr e
    · exact .inl (List.mem_singleton.mp e)

/-- An entry of another subject stays. -/
theorem mem_enqueue_other (hm : m ∈ q) (hn : n.sameSubject m = false) : m ∈ enqueue n q := by
  unfold enqueue
  split
  · exact List.mem_map.mpr ⟨m, hm, by simp [hn]⟩
  · exact List.mem_append_left _ hm

/-! ## A written card (R2) -/

@[simp] theorem writeCard_reset : (writeCard h c s).reset = s.reset := by unfold writeCard; split <;> rfl
@[simp] theorem writeCard_clips : (writeCard h c s).clips = s.clips := by unfold writeCard; split <;> rfl
@[simp] theorem writeCard_ports : (writeCard h c s).ports = s.ports := by unfold writeCard; split <;> rfl
@[simp] theorem writeCard_channels : (writeCard h c s).channels = s.channels := by unfold writeCard; split <;> rfl
@[simp] theorem writeCard_dests : (writeCard h c s).dests = s.dests := by unfold writeCard; split <;> rfl
@[simp] theorem writeCard_grantPointer : (writeCard h c s).grantPointer = s.grantPointer := by unfold writeCard; split <;> rfl
@[simp] theorem writeCard_frame : (writeCard h c s).frame = s.frame := by unfold writeCard; split <;> rfl
@[simp] theorem writeCard_looks : (writeCard h c s).looks = s.looks := by unfold writeCard; split <;> rfl
@[simp] theorem writeCard_cameraMap : (writeCard h c s).cameraMap = s.cameraMap := by unfold writeCard; split <;> rfl
@[simp] theorem writeCard_compare : (writeCard h c s).compare = s.compare := by unfold writeCard; split <;> rfl
@[simp] theorem writeCard_profiles : (writeCard h c s).profiles = s.profiles := by unfold writeCard; split <;> rfl
@[simp] theorem writeCard_watch : (writeCard h c s).watch = s.watch := by unfold writeCard; split <;> rfl
@[simp] theorem writeCard_checkedClip : (writeCard h c s).checkedClip = s.checkedClip := by unfold writeCard; split <;> rfl
@[simp] theorem writeCard_runs : (writeCard h c s).runs = s.runs := by unfold writeCard; split <;> rfl
@[simp] theorem writeCard_stats : (writeCard h c s).stats = s.stats := by unfold writeCard; split <;> rfl
@[simp] theorem writeCard_log : (writeCard h c s).log = s.log := by unfold writeCard; split <;> rfl
@[simp] theorem writeCard_unit : (writeCard h c s).unit = s.unit := by unfold writeCard; split <;> rfl
@[simp] theorem writeCard_stationUp : (writeCard h c s).stationUp = s.stationUp := by unfold writeCard; split <;> rfl
@[simp] theorem writeCard_waiting : (writeCard h c s).waiting = s.waiting := by unfold writeCard; split <;> rfl
@[simp] theorem writeCard_out : (writeCard h c s).out = s.out := by unfold writeCard; split <;> rfl
@[simp] theorem writeCard_freeCount : (writeCard h c s).freeCount = s.freeCount := by unfold writeCard; split <;> rfl
@[simp] theorem writeCard_cards : (writeCard h c s).cards = s.cards.set h c := by unfold writeCard; split <;> rfl

/-- R2: what a write of a card record queues. -/
theorem writeCard_notices : (writeCard h c s).notices =
    if s.cards[h].state = c.state ∧ s.cards[h].source = c.source then s.notices
    else enqueue (.cardState h (if c.state = .free then s.cards[h].label else c.label) c.state c.source) s.notices := by
  unfold writeCard; split <;> rfl

/-! ## A written destination (R25) -/

@[simp] theorem writeDest_reset : (writeDest d x s).reset = s.reset := by unfold writeDest; split <;> rfl
@[simp] theorem writeDest_cards : (writeDest d x s).cards = s.cards := by unfold writeDest; split <;> rfl
@[simp] theorem writeDest_clips : (writeDest d x s).clips = s.clips := by unfold writeDest; split <;> rfl
@[simp] theorem writeDest_ports : (writeDest d x s).ports = s.ports := by unfold writeDest; split <;> rfl
@[simp] theorem writeDest_channels : (writeDest d x s).channels = s.channels := by unfold writeDest; split <;> rfl
@[simp] theorem writeDest_grantPointer : (writeDest d x s).grantPointer = s.grantPointer := by unfold writeDest; split <;> rfl
@[simp] theorem writeDest_frame : (writeDest d x s).frame = s.frame := by unfold writeDest; split <;> rfl
@[simp] theorem writeDest_looks : (writeDest d x s).looks = s.looks := by unfold writeDest; split <;> rfl
@[simp] theorem writeDest_cameraMap : (writeDest d x s).cameraMap = s.cameraMap := by unfold writeDest; split <;> rfl
@[simp] theorem writeDest_compare : (writeDest d x s).compare = s.compare := by unfold writeDest; split <;> rfl
@[simp] theorem writeDest_profiles : (writeDest d x s).profiles = s.profiles := by unfold writeDest; split <;> rfl
@[simp] theorem writeDest_watch : (writeDest d x s).watch = s.watch := by unfold writeDest; split <;> rfl
@[simp] theorem writeDest_checkedClip : (writeDest d x s).checkedClip = s.checkedClip := by unfold writeDest; split <;> rfl
@[simp] theorem writeDest_runs : (writeDest d x s).runs = s.runs := by unfold writeDest; split <;> rfl
@[simp] theorem writeDest_stats : (writeDest d x s).stats = s.stats := by unfold writeDest; split <;> rfl
@[simp] theorem writeDest_log : (writeDest d x s).log = s.log := by unfold writeDest; split <;> rfl
@[simp] theorem writeDest_unit : (writeDest d x s).unit = s.unit := by unfold writeDest; split <;> rfl
@[simp] theorem writeDest_stationUp : (writeDest d x s).stationUp = s.stationUp := by unfold writeDest; split <;> rfl
@[simp] theorem writeDest_waiting : (writeDest d x s).waiting = s.waiting := by unfold writeDest; split <;> rfl
@[simp] theorem writeDest_out : (writeDest d x s).out = s.out := by unfold writeDest; split <;> rfl
@[simp] theorem writeDest_freeCount : (writeDest d x s).freeCount = s.freeCount := by unfold writeDest; split <;> rfl
@[simp] theorem writeDest_dests : (writeDest d x s).dests = s.dests.set d x := by unfold writeDest; split <;> rfl

/-- R25: what a write of a destination record queues. -/
theorem writeDest_notices : (writeDest d x s).notices =
    if s.dests[d].state = x.state ∧ s.dests[d].draining = x.draining then s.notices
    else enqueue (.destState d x.state x.ret x.base x.length x.cursor x.draining) s.notices := by
  unfold writeDest; split <;> rfl

/-! ## A changed clip -/

@[simp] theorem modClip_reset : (modClip k f s).reset = s.reset := by unfold modClip; split <;> rfl
@[simp] theorem modClip_cards : (modClip k f s).cards = s.cards := by unfold modClip; split <;> rfl
@[simp] theorem modClip_ports : (modClip k f s).ports = s.ports := by unfold modClip; split <;> rfl
@[simp] theorem modClip_channels : (modClip k f s).channels = s.channels := by unfold modClip; split <;> rfl
@[simp] theorem modClip_dests : (modClip k f s).dests = s.dests := by unfold modClip; split <;> rfl
@[simp] theorem modClip_grantPointer : (modClip k f s).grantPointer = s.grantPointer := by unfold modClip; split <;> rfl
@[simp] theorem modClip_frame : (modClip k f s).frame = s.frame := by unfold modClip; split <;> rfl
@[simp] theorem modClip_looks : (modClip k f s).looks = s.looks := by unfold modClip; split <;> rfl
@[simp] theorem modClip_cameraMap : (modClip k f s).cameraMap = s.cameraMap := by unfold modClip; split <;> rfl
@[simp] theorem modClip_compare : (modClip k f s).compare = s.compare := by unfold modClip; split <;> rfl
@[simp] theorem modClip_profiles : (modClip k f s).profiles = s.profiles := by unfold modClip; split <;> rfl
@[simp] theorem modClip_watch : (modClip k f s).watch = s.watch := by unfold modClip; split <;> rfl
@[simp] theorem modClip_checkedClip : (modClip k f s).checkedClip = s.checkedClip := by unfold modClip; split <;> rfl
@[simp] theorem modClip_runs : (modClip k f s).runs = s.runs := by unfold modClip; split <;> rfl
@[simp] theorem modClip_stats : (modClip k f s).stats = s.stats := by unfold modClip; split <;> rfl
@[simp] theorem modClip_log : (modClip k f s).log = s.log := by unfold modClip; split <;> rfl
@[simp] theorem modClip_unit : (modClip k f s).unit = s.unit := by unfold modClip; split <;> rfl
@[simp] theorem modClip_notices : (modClip k f s).notices = s.notices := by unfold modClip; split <;> rfl
@[simp] theorem modClip_stationUp : (modClip k f s).stationUp = s.stationUp := by unfold modClip; split <;> rfl
@[simp] theorem modClip_waiting : (modClip k f s).waiting = s.waiting := by unfold modClip; split <;> rfl
@[simp] theorem modClip_out : (modClip k f s).out = s.out := by unfold modClip; split <;> rfl
@[simp] theorem modClip_freeCount : (modClip k f s).freeCount = s.freeCount := by unfold modClip; split <;> rfl

/-- The clip records after one is changed. -/
theorem modClip_get (j : ClipId) : (modClip k f s).clips[j] = if k = j then s.clips[k].map f else s.clips[j] := by
  unfold modClip
  split
  · rename_i a e
    simp only [get_set, e, Option.map_some]
  · rename_i e
    by_cases hj : k = j
    · subst hj; simp [e]
    · simp [hj]

/-! ## Faults (R146 to R155) -/

/-- R146: raising a fault touches the log, the marks of cards and clips, and the notice queue alone. -/
theorem openMark_frame : openMark r s =
    { s with
      cards := (openMark r s).cards, clips := (openMark r s).clips, notices := (openMark r s).notices } := by
  unfold openMark openCardMark openClipMark noteOpening writeCard
  repeat' (first | rfl | split)

theorem raise_frame : raise r s =
    { s with
      log := (raise r s).log, cards := (raise r s).cards, clips := (raise r s).clips
      notices := (raise r s).notices } := by
  unfold raise
  split
  · rfl
  · rw [openMark_frame]

/-- R146, R148: every fault raised is logged, whatever else it does. -/
theorem raise_log : (raise r s).log = logFault (afterClearance s r) r s.log := by
  unfold raise
  split
  · rename_i e; simp [e]
  · rename_i e; rw [openMark_frame]; simp [e]

/-! ## Answers and ingress (R173, R178 to R180, R187) -/

theorem placeAnswer_free (a : Answer) (hq : s.notices.any Notice.isAnswer = false) :
    placeAnswer a s = { s with notices := s.notices ++ [.answer a] } := by
  have e : s.notices.any (Notice.answer a).sameSubject = false := by
    refine List.any_eq_false.mpr fun m _ => ?_
    cases m <;> simp [Notice.sameSubject]
  simp [placeAnswer, hq, queueNotice, enqueue, e]

theorem placeAnswer_held (a : Answer) (hq : s.notices.any Notice.isAnswer = true) :
    placeAnswer a s = { s with unit := { s.unit with held := some a } } := by
  simp [placeAnswer, hq]

theorem unlessReset_runs (t : Part → Part) (hr : s.reset.holding = none) : unlessReset t s = t s := by
  simp [unlessReset, hr]

theorem unlessReset_held (t : Part → Part) (hr : s.reset.holding.isSome = true) : unlessReset t s = s := by
  simp [unlessReset, hr]

theorem ingress_listens (i : Instr) (t : Part → Part) (hr : s.reset.holding = none) (hu : s.unit.held = none) :
    ingress i t s = t s := by
  simp [ingress, unlessReset, hr, hu]

theorem ingress_waits (i : Instr) (t : Part → Part) (hr : s.reset.holding = none) (hu : s.unit.held.isSome = true) :
    ingress i t s = { s with waiting := s.waiting ++ [i] } := by
  simp [ingress, unlessReset, hr, hu]

/-- R178, R179: a directive that is taken is answered as its owner says. -/
theorem directive_taken (tag code : Nat) (both : Bool) (owner : Part → Part × Reply)
    (hl : s.unit.status.locked = false ∨ both = true) :
    directive tag code both owner s =
      placeAnswer ⟨tag, code, (owner s).2.result, (owner s).2.data⟩ (owner s).1 := by
  rcases hl with hl | hl <;> simp [directive, hl]

/-- R178: a directive refused in LOCKED. -/
theorem directive_locked (tag code : Nat) (owner : Part → Part × Reply) (hl : s.unit.status.locked = true) :
    directive tag code false owner s = placeAnswer ⟨tag, code, .locked, .nothing⟩ (countRefusal s) := by
  simp [directive, hl]

end Sys2Proof.Machine
end

