-- ==== Sys2Proof/Laws/Engine.lean ====
section
/-! SUPPORT. What the copy engine, the grant arbiter and the verify engine can touch: cards, clips, channels, destinations, the
grant pointer, the notice queue and the fault log. Everything else (the ports, the frame tracker, looks, checks, the
directive unit, the link) is as before every operation of Machine/Engine.lean but the release of a card. -/

namespace Sys2Proof.Machine

/-- `t` differs from `s` at most in what the engines write. -/
def EngineFrame (s t : Part) : Prop :=
  t = { s with
    cards := t.cards, clips := t.clips, channels := t.channels, dests := t.dests, grantPointer := t.grantPointer
    notices := t.notices, log := t.log }

theorem EngineFrame.refl (s : Part) : EngineFrame s s := rfl

theorem EngineFrame.trans {s t u : Part} (a : EngineFrame s t) (b : EngineFrame t u) : EngineFrame s u := by
  unfold EngineFrame at *
  rw [b, a]

/-- A fold of operations that keep the frame keeps it. -/
theorem EngineFrame.foldl {α : Type} (f : Part → α → Part) (hf : ∀ t a, EngineFrame t (f t a)) (l : List α) (s : Part) :
    EngineFrame s (l.foldl f s) := by
  induction l generalizing s with
  | nil => exact .refl s
  | cons a as ih => exact (hf s a).trans (ih (f s a))

variable (s : Part) (h : CardId) (d : DestId) (k : ClipId) (p : PortId) (r : Report)

theorem writeCard_engine (c : Card) : EngineFrame s (writeCard h c s) := by
  unfold writeCard; split <;> rfl

theorem moveCard_engine (st : CardState) : EngineFrame s (moveCard h st s) := writeCard_engine s h _

theorem writeDest_engine (x : Dest) : EngineFrame s (writeDest d x s) := by
  unfold writeDest; split <;> rfl

theorem modClip_engine (f : Clip → Clip) : EngineFrame s (modClip k f s) := by
  unfold modClip; split <;> rfl

theorem setChannel_engine (c : Channel) : EngineFrame s (setChannel p c s) := rfl

theorem raise_engine : EngineFrame s (raise r s) := by
  unfold EngineFrame; rw [raise_frame]

theorem evalClearance_engine : EngineFrame s (evalClearance h s) := by
  unfold evalClearance
  split
  · exact (writeCard_engine s h _).trans rfl
  · rfl

theorem evalClipClearance_engine : EngineFrame s (evalClipClearance k s) := by
  unfold evalClipClearance
  split
  · exact evalClearance_engine s _
  · rfl

theorem idleChannel_engine : EngineFrame s (idleChannel p s) := rfl

theorem dropOut_engine : EngineFrame s (dropOut d s) := by
  unfold dropOut
  split
  · rfl
  · exact (modClip_engine s _ _).trans (writeDest_engine _ d _)

theorem withdrawAll_engine (ds : DestSet) : EngineFrame s (withdrawAll ds s) :=
  .foldl _ (fun t e => dropOut_engine t e) _ s

theorem leaveAttempt_engine : EngineFrame s (leaveAttempt d s) := by
  unfold leaveAttempt
  split
  · rfl
  · split
    · exact dropOut_engine s d
    · exact (dropOut_engine s d).trans rfl

theorem drainedFor_engine : EngineFrame s (drainedFor d p s) := by
  unfold drainedFor
  split
  · split
    · split
      · split
        · exact (idleChannel_engine s p).trans (moveCard_engine _ _ _)
        · rfl
      · rfl
    · rfl
  · rfl

theorem drainEnded_engine : EngineFrame s (drainEnded d s) := .foldl _ (fun t q => drainedFor_engine t d q) _ s

theorem joinQueues_engine (ds : DestSet) : EngineFrame s (joinQueues k ds s) :=
  .foldl _ (fun t e => writeDest_engine t e _) _ s

theorem countFailed_engine : EngineFrame s (countFailed k s) := by
  unfold countFailed
  split
  · rfl
  · split
    · exact modClip_engine s k _
    · exact (modClip_engine s k _).trans (raise_engine _ _)

theorem settleClip_engine : EngineFrame s (settleClip k s) := by
  unfold settleClip
  split
  · rfl
  · split
    · exact countFailed_engine s k
    · split
      · exact (modClip_engine s k _).trans (raise_engine _ _)
      · exact modClip_engine s k _

theorem settleCopying_engine : EngineFrame s (settleCopying h s) := by
  unfold settleCopying
  split
  · split
    · exact moveCard_engine s h _
    · exact (moveCard_engine s h _).trans (evalClearance_engine _ h)
  · rfl

theorem settleCard_engine : EngineFrame s (settleCard h s) := by
  unfold settleCard
  split
  · exact moveCard_engine s h _
  · exact settleCopying_engine s h

theorem settleCardOf_engine : EngineFrame s (settleCardOf k s) := by
  unfold settleCardOf
  split
  · exact settleCard_engine s _
  · rfl

theorem closeAttempt_engine : EngineFrame s (closeAttempt p k s) :=
  ((idleChannel_engine s p).trans (joinQueues_engine _ k _)).trans (settleClip_engine _ k)

theorem endAttempt_engine : EngineFrame s (endAttempt p s) := by
  unfold endAttempt
  split
  · exact (closeAttempt_engine s _ p).trans (settleCardOf_engine _ _)
  · rfl

theorem endIfEmpty_engine : EngineFrame s (endIfEmpty p s) := by
  unfold endIfEmpty
  split
  · exact endAttempt_engine s p
  · rfl

theorem endAttemptOf_engine : EngineFrame s (endAttemptOf k s) := by
  unfold endAttemptOf
  split
  · exact endIfEmpty_engine s _
  · rfl

theorem testFit_engine (c : Clip) : EngineFrame s (testFit h k c s d) := by
  unfold testFit
  split
  · exact (writeDest_engine s d _).trans (raise_engine _ _)
  · rfl

theorem shortfall_engine (n : Nat) : EngineFrame s (shortfall h k n s) :=
  (raise_engine s _).trans (moveCard_engine _ h _)

theorem consider_engine : EngineFrame s (consider s h).1 := by
  unfold consider
  split
  · rfl
  · split
    · rfl
    · split
      · rfl
      · rename_i k _ _ c _ _
        have e := EngineFrame.foldl (testFit h k c) (fun t a => testFit_engine t h a k c) allDests s
        simp only
        generalize allDests.foldl (testFit h k c) s = t at e ⊢
        split
        · exact e.trans (shortfall_engine t h k _)
        · exact e

theorem considerAll_engine (l : List CardId) : EngineFrame s (considerAll l s).1 := by
  induction l generalizing s with
  | nil => rfl
  | cons a as ih => exact (consider_engine s a).trans (ih _)

theorem grant_engine (c : Candidate) : EngineFrame s (grant c s) := by
  unfold grant
  split
  · rfl
  · rename_i q _
    have e := EngineFrame.foldl (takeDest c.clip) (fun t a => rfl) c.targets.members s
    have pointer (t : Part) : EngineFrame t { t with grantPointer := c.card + 1 } := rfl
    exact (((e.trans (pointer _)).trans (modClip_engine _ c.clip _)).trans (setChannel_engine _ q _)).trans
      (endIfEmpty_engine _ q)

theorem grantPasses_engine (n : Nat) : EngineFrame s (grantPasses n s) := by
  induction n generalizing s with
  | zero => rfl
  | succ n ih =>
    unfold grantPasses
    split
    · exact ((considerAll_engine s _).trans (grant_engine _ _)).trans (ih _)
    · exact considerAll_engine s _

theorem evalGrant_engine : EngineFrame s (evalGrant s) := grantPasses_engine s _

theorem startVerify_engine : EngineFrame s (startVerify s d) := by
  unfold startVerify
  split
  · split
    · rfl
    · split
      · rfl
      · split
        · exact (modClip_engine s _ _).trans (writeDest_engine _ d _)
        · rfl
  · rfl

theorem startVerifies_engine : EngineFrame s (startVerifies s) := .foldl _ (fun t e => startVerify_engine t e) _ s

theorem afterEvent_engine : EngineFrame s (afterEvent s) := (evalGrant_engine s).trans (startVerifies_engine _)

theorem stopVerify_engine : EngineFrame s (stopVerify d s) := by
  unfold stopVerify
  split
  · rfl
  · exact (modClip_engine s _ _).trans (writeDest_engine _ d _)

/-- What the engines leave alone, field by field. -/
theorem EngineFrame.fields {s t : Part} (e : EngineFrame s t) :
    t.reset = s.reset ∧ t.ports = s.ports ∧ t.frame = s.frame ∧ t.looks = s.looks ∧ t.cameraMap = s.cameraMap
      ∧ t.compare = s.compare ∧ t.profiles = s.profiles ∧ t.watch = s.watch ∧ t.checkedClip = s.checkedClip
      ∧ t.runs = s.runs ∧ t.stats = s.stats ∧ t.unit = s.unit ∧ t.stationUp = s.stationUp ∧ t.waiting = s.waiting
      ∧ t.out = s.out ∧ t.freeCount = s.freeCount := by
  unfold EngineFrame at e
  rw [e]
  exact ⟨rfl, rfl, rfl, rfl, rfl, rfl, rfl, rfl, rfl, rfl, rfl, rfl, rfl, rfl, rfl, rfl⟩

end Sys2Proof.Machine
end

