-- ==== Sys2Proof/Tests/Slice0.lean ====
section
/-! SUPPORT. Tests: what the well-formedness checks refuse, the worked values of the manual, single commands on small states,
and for every statement with hypotheses a state and operands that meet them. -/

namespace Sys2Proof.Tests

/- One theorem at a time: a `decide` that the kernel evaluates waits for the declarations before it. -/
set_option Elab.async false

open Sys2Proof.Machine

/-! ## Small states -/

/-- The part after a power-on reset with every port fitted, every card slot ATTACHED and every destination link up. -/
def up : State := ⟨Part.afterReset .power 3#2 4#3 15#4 63#6 true, []⟩

def label (n : Nat) : List Byte := leBytes 16 n

/-- A card on S0 that routes to D0 and D1 and lists clip 0. -/
def card (st : CardState) : Card :=
  { Card.blank 7 with
    label := label 1, source := some 0, state := st, route := #v[true, true, false, false, false, false], clips := [0] }

/-- A clip of two blocks, the second of 904 bytes, on card 0. -/
def clip (st : ClipState) : Clip :=
  { clipOfItem 0 ⟨leBytes 32 5, 100, 5000, 2, 0, none, none, none⟩ with state := st }

/-- An ACTIVE destination with a region of 96 sectors. -/
def dest : Dest := { Dest.blank .active with base := 1000, length := 96 }

/-- The channel of an attempt of clip 0 to D0 and D1. -/
def channel : Channel := Channel.begin 0 #v[true, true, false, false, false, false] 9

/-- A part with card 0 on S0, clip 0, channel C0 and destination D0 as given, and D1 as `dest`. -/
def world (c : Card) (k : Clip) (ch : Channel) (x : Dest) : State :=
  { up with
    part :=
      { up.part with
        cards := up.part.cards.set 0 c
        clips := up.part.clips.set 0 (some k)
        ports := up.part.ports.set 0 ⟨true, some 0⟩
        channels := up.part.channels.set 0 ch
        dests := (up.part.dests.set 0 x).set 1 dest } }

/-- The same with the directive unit as given. -/
def withUnit (u : DirectiveUnit) (s : State) : State := { s with part := { s.part with unit := u } }

/-- The same with the frame tracker in a frame. -/
def withFrame (f : Option OpenFrame) (s : State) : State := { s with part := { s.part with frame := f } }

/-- The part of the state a command leads to. -/
def after (c : Instr) (s : State) : Part :=
  match exec c s with
  | .next t => t.part
  | _ => s.part

/-- The answer an entry of the notice queue is. -/
def answerOf : Notice → Option Answer
  | .answer a => some a
  | _ => none

/-- The first answer in the notice queue after a command. -/
def answerTo (c : Instr) (s : State) : Option Answer := (after c s).notices.findSome? answerOf

theorem world_accepts (c : Card) (k : Clip) (ch : Channel) (x : Dest) : (world c k ch x).accepts := ⟨⟨rfl, rfl⟩, rfl⟩

/-! ## What the well-formedness checks refuse -/

theorem test_wf_tag : (Instr.haltAll 65536).wf = false := by decide
theorem test_wf_target : (Instr.dismount 0 65536).wf = false := by decide
theorem test_wf_label : (Instr.mount 0 0 (leBytes 15 1) 1 0 0).wf = false := by decide
theorem test_wf_byte : (Instr.mount 0 0 (label 1) 256 0 0).wf = false := by decide
theorem test_wf_review : (Instr.mount 0 0 (label 1) 1 256 0).wf = false := by decide
theorem test_wf_mode : (Instr.mount 0 0 (label 1) 1 0 256).wf = false := by decide
theorem test_wf_no_items : (Instr.listClips 0 0 []).wf = false := by decide
theorem test_wf_clip_name : (ClipItem.wf ⟨leBytes 31 0, 0, 1, 0, 0, none, none, none⟩) = false := by decide
theorem test_wf_clip_start : (ClipItem.wf ⟨leBytes 32 0, 2 ^ 40, 1, 0, 0, none, none, none⟩) = false := by decide
theorem test_wf_clip_length : (ClipItem.wf ⟨leBytes 32 0, 0, 2 ^ 40, 0, 0, none, none, none⟩) = false := by decide
theorem test_wf_clip_camera : (ClipItem.wf ⟨leBytes 32 0, 0, 1, 16, 0, none, none, none⟩) = false := by decide
theorem test_wf_clip_timebase : (ClipItem.wf ⟨leBytes 32 0, 0, 1, 0, 16, none, none, none⟩) = false := by decide
theorem test_wf_clip_expected : (ClipItem.wf ⟨leBytes 32 0, 0, 1, 0, 0, none, some (2 ^ 24), none⟩) = false := by decide
theorem test_wf_clip_digest : (ClipItem.wf ⟨leBytes 32 0, 0, 1, 0, 0, none, none, some (2 ^ 64)⟩) = false := by decide
theorem test_wf_route_items : (Instr.route 0 0 [0, 1, 2, 3, 4, 5, 0]).wf = false := by decide
theorem test_wf_region : (Instr.setRegion 0 0 (2 ^ 64) 8).wf = false := by decide
theorem test_wf_stall : (Instr.setStall 0 0 65536).wf = false := by decide
theorem test_wf_pacing : (Instr.setPacing 0 0 1 256).wf = false := by decide
theorem test_wf_look_slope : (LookItem.wf ⟨⟨2 ^ 32, 0, 0⟩, ⟨0, 0, 0⟩, 0, 0⟩) = false := by decide
theorem test_wf_look_offset : (LookItem.wf ⟨⟨0, 0, 0⟩, ⟨0, 2 ^ 31, 0⟩, 0, 0⟩) = false := by decide
theorem test_wf_look_saturation : (LookItem.wf ⟨⟨0, 0, 0⟩, ⟨0, 0, 0⟩, 65536, 0⟩) = false := by decide
theorem test_wf_curve_channel : (Instr.loadCurve 0 0 3 0 [1]).wf = false := by decide
theorem test_wf_curve_end : (Instr.loadCurve 0 0 0 257 [1]).wf = false := by decide
theorem test_wf_curve_entry : (Instr.loadCurve 0 0 0 0 [65536]).wf = false := by decide
theorem test_wf_lattice_end : (Instr.loadLattice 0 0 4913 [⟨0, 0, 0⟩]).wf = false := by decide
theorem test_wf_lattice_entry : latticeEntryWf ⟨0, 65536, 0⟩ = false := by decide
theorem test_wf_camera_code : (Instr.mapCamera 0 0 256).wf = false := by decide
theorem test_wf_compare : (Instr.setCompare 0 0 65536).wf = false := by decide
theorem test_wf_profile : (ProfileItem.wf ⟨65536, 0, 0, 0, 0⟩) = false := by decide
theorem test_wf_watch : (WatchItem.wf ⟨0, 0, 0, 0, 256⟩) = false := by decide
theorem test_wf_unwatch : (UnwatchItem.wf ⟨256, 0, 0⟩) = false := by decide
theorem test_wf_generation : (Instr.waive 0 0 65536).wf = false := by decide
theorem test_wf_received : (Rx.wf ⟨256, 0, 0, 0, []⟩) = false := by decide
theorem test_wf_well_formed_is_not_malformed :
    (directiveParcel (.haltAll 3)).map (fun p => (Instr.malformedDirective p).wf) = some false := by decide +kernel
theorem test_wf_station_kind : (Instr.stationForeignParcel 0x12 ⟨0, 0, 0, 0, []⟩).wf = false := by decide
theorem test_wf_port_kind : (Instr.portForeignParcel (.dest 0) 0x04 ⟨0, 0, 0, 0, []⟩).wf = false := by decide
theorem test_wf_timeout_tag : (Instr.fetchTimeout 0 65536).wf = false := by decide
theorem test_wf_accepts : (Instr.listClips 9 7 [⟨leBytes 32 0, 5, 1, 15, 6, none, some 1, none⟩]).wf = true := by decide

/-! ## Worked values of the manual -/

/-- Section 3 (R52): the digest of the five bytes 01h to 05h is 08060409_04030207h. -/
theorem test_digest_of_five_bytes : digestValue (digestBytes (1, 0) [1, 2, 3, 4, 5]) = 0x0806040904030207 := by decide

/-- Section 10.1 (R169): the check of an undamaged FRAME-CLOSE of count 1,080 is 0000044Eh. -/
theorem test_parcel_check : parcelCheck 0x13 0 0 2 [0x38, 0x04] = 0x44E := by decide

/-- Section 6.9: the look of the worked example, over the identity curves. -/
def exampleLook (offset : Int) (lattice : Bool) : Bank :=
  { Bank.identity with
    slope := ⟨4506, 4506, 4506⟩, offset := ⟨offset, offset, offset⟩, saturation := 4915, latticeOn := lattice }

theorem test_grading_example : gradeThrough (exampleLook (-1000) false) ⟨2048, 1800, 1024⟩ = ⟨⟨561, 479, 223⟩, false⟩ := by
  decide +kernel

/-- Section 6.10: the limit case. -/
theorem test_grading_limit : gradeThrough (exampleLook 0 true) ⟨4095, 4095, 4095⟩ = ⟨⟨1023, 1023, 1023⟩, true⟩ := by
  decide +kernel

/-- Section 6.11: the lattice walk, over the identity lattice with its entry 307 loaded. -/
theorem test_lattice_walk :
    latticeStage (Bank.withLattice 307 [⟨8192, 8192, 0⟩] Bank.identity) ⟨2048, 1024, 1024⟩ = ⟨3072, 2048, 0⟩ := by
  decide +kernel

/-- R128: the code luma of the manual's pixel. -/
theorem test_luma : luma ⟨2048, 1800, 1024⟩ = 1797 := by decide

/-- R139: counts in 30D. -/
theorem test_drop_frame_counts :
    tcCount .t30D ⟨0x29, 0x59, 0x00, 0x00, true⟩ = 1799 ∧ tcCount .t30D ⟨0x02, 0x00, 0x01, 0x00, true⟩ = 1800
      ∧ tcCount .t30D ⟨0x29, 0x59, 0x59, 0x23, true⟩ = 2589407 := by decide

/-- R141: expected timecodes in 30D. -/
theorem test_expected_timecodes :
    expectedDigits .t30D 1800 = 0x00010002 ∧ expectedDigits .t30D 17982 = 0x00100000
      ∧ expectedDigits .t30D 17981 = 0x00095929 := by decide

/-- R138: a dropped number is no valid timecode in 30D, and the drop flag must be the timebase's. -/
theorem test_timecode_validity :
    tcValid .t30D ⟨0x01, 0x00, 0x01, 0x00, true⟩ = false ∧ tcValid .t30D ⟨0x01, 0x00, 0x10, 0x00, true⟩ = true
      ∧ tcValid .t24 ⟨0x01, 0x00, 0x10, 0x00, true⟩ = false ∧ tcValid .t24 ⟨0x24, 0x00, 0x00, 0x00, false⟩ = false := by
  decide

/-- R186: the fitted ports of the strap values. -/
theorem test_straps : fittedSources 0#2 = 1 ∧ fittedSources 3#2 = 4 ∧ fittedDests 0#3 = 2 ∧ fittedDests 4#3 = 6
    ∧ fittedDests 7#3 = 6 := by decide

/-- Section 10.2: a FETCH of tag 7 at sector 108: kind 01h, 8 sectors, a ten-byte payload. -/
theorem test_fetch_payload : (fetchParcel 7 108).payload = [108, 0, 0, 0, 0, 0, 0, 0, 8, 0]
    ∧ (fetchParcel 7 108).kind = 1 ∧ (fetchParcel 7 108).tag = 7 ∧ (fetchParcel 7 108).length = 10 := by decide

/-- Section 10.2: a DIRECTIVE of code 31h, SET-STALL on D2 with the limit 1,000, written out byte by byte. -/
theorem test_directive_bytes :
    formCheck (sealRx 0x10 0 0 [0x31, 0xCE, 0x05, 0x00, 0x02, 0x00, 0x01, 0x00, 0, 0, 0, 0, 0xE8, 0x03]) =
      .good (.setStall 5 2 1000) := by decide +kernel

/-! ## Single commands -/

/-- R8: an answer ADJUSTED with the handle and state of the card. -/
theorem test_mount_adjusts : answerTo (.mount 1 2 (label 9) 5 1 0) up =
    some ⟨1, 0x10, .adjusted, .mounted 0 .mounted⟩ := by decide +kernel

/-- R11: two clips take the handles 1 and 2 behind clip 0. -/
theorem test_list_clips_handles : answerTo (.listClips 1 0 [⟨leBytes 32 0, 0, 1, 0, 0, none, none, none⟩,
      ⟨leBytes 32 0, 0, 1, 0, 0, none, none, none⟩]) (world (card .mounted) (clip .listed) (Channel.idle 0) dest) =
    some ⟨1, 0x11, .done, .handles [1, 2]⟩ := by decide +kernel

/-- R14: DISMOUNT of a copying card is refused. -/
theorem test_dismount_busy : answerTo (.dismount 1 0) (world (card .copying) (clip .inFlight) channel dest) =
    some ⟨1, 0x12, .refused .busy, .nothing⟩ := by decide +kernel

/-- R15: RETIRE of a card whose CLEARED notice is unsent is refused. -/
theorem test_retire_busy :
    answerTo (.retire 1 0) (world { card .cleared with clearedUnsent := true } (clip .written) (Channel.idle 0) dest) =
      some ⟨1, 0x13, .refused .busy, .nothing⟩ := by decide +kernel

/-- R62, R46: START grants the clip to both destinations of its route. -/
theorem test_start_grants :
    (after (.start 1 0) (world (card .mounted) (clip .listed) (Channel.idle 5) dest)).channels[(0 : PortId)].state = .running
      ∧ (after (.start 1 0) (world (card .mounted) (clip .listed) (Channel.idle 5) dest)).dests[(1 : DestId)].holder =
        some 0 := by decide +kernel

/-- R44: a route with a closed destination leaves the card short: HELD with DEST_SHORTFALL. -/
theorem test_start_short :
    (after (.start 1 0) (world { card .mounted with required := 2 } (clip .listed) (Channel.idle 5)
      { dest with state := .closed })).cards[(0 : CardId)].state = .held := by decide +kernel

/-- R63, R64: SUSPEND under PROMPT with a STORE outstanding leaves the card SUSPENDING and its channel waiting. -/
theorem test_prompt_suspend_drains :
    let t := after (.suspend 1 0) (world { card .copying with mode := .prompt } (clip .inFlight) channel
      { dest with holder := some 0, stores := [⟨3, 0, 0⟩], stallTimer := some 9 })
    t.cards[(0 : CardId)].state = .suspending ∧ t.channels[(0 : PortId)].state = .waiting := by decide +kernel

/-- R67: ABORT counts a failed attempt. -/
theorem test_abort_counts :
    ((after (.abort 1 0) (world (card .copying) (clip .inFlight) channel { dest with holder := some 0 })).clips[(0 : ClipId)].map
      Clip.failed) = some 1 := by decide +kernel

/-- R39: a length is rounded down to blocks and the region kept below sector 2^48. -/
theorem test_region_adjusted :
    answerTo (.setRegion 1 2 (2 ^ 48 - 1) 17) up = some ⟨1, 0x30, .adjusted, .nothing⟩
      ∧ (after (.setRegion 1 2 (2 ^ 48 - 1) 17) up).dests[(2 : DestId)].base = 2 ^ 48 - 16 := by decide +kernel

/-- R84: P 4 is taken as 3. -/
theorem test_pacing_adjusted : (after (.setPacing 1 0 4 9) up).dests[(0 : DestId)].paceP = 3
    ∧ (after (.setPacing 1 0 4 9) up).dests[(0 : DestId)].paceS = 7 := by decide +kernel

/-- R133: a run of 0 is taken as 1, a line of 3,000 as 2,303. -/
theorem test_watch_adjusted : (after (.watchPixel 1 [⟨3, 10, 3000, 4095, 0⟩]) up).watch =
    [⟨3, 10, 2303, 4095, 1, 0, false, none⟩] := by decide +kernel

/-- R153, R155: a clip mark opens once, advances the generation and holds a COPIED card. -/
theorem test_mark_holds_card :
    let t := raise ⟨.verifyRead, some 0, some 0, some 1, none, 4⟩
      (world (card .copied) (clip .written) (Channel.idle 0) dest).part
    t.cards[(0 : CardId)].state = .held ∧ t.cards[(0 : CardId)].generation = 8 := by decide +kernel

/-- R28: a link loss records the return state and fails every request. -/
theorem test_link_down :
    let t := after (.destLinkDown 0) (world (card .copying) (clip .inFlight) channel
      { dest with holder := some 0, stores := [⟨3, 0, 0⟩], stallTimer := some 9 })
    t.dests[(0 : DestId)].state = .absent ∧ t.dests[(0 : DestId)].ret = some .active
      ∧ (t.log.entries.map LogEntry.detail) = [1] := by decide +kernel

/-- R49: the FETCH of the second block of clip 0. -/
theorem test_send_fetch :
    (after (.sendFetch 0) (world (card .copying) (clip .inFlight) { channel with nextFetch := 1 } dest)).out =
      [.source 0 (fetchParcel 9 108)] := by decide +kernel

/-- R55, R29: the last STORE-DONE makes the copy WRITTEN at the cursor and moves it past two blocks. -/
theorem test_store_done_completes :
    let t := after (.storeDone 0 (sealRx 0x04 0 3 [])) (world (card .copying) (clip .inFlight)
      { channel with nextDigest := 2, sendIndex := #v[2, 0, 0, 0, 0, 0] }
      { dest with holder := some 0, stores := [⟨3, 1, 0⟩], stallTimer := some 9, cursor := 8 })
    t.dests[(0 : DestId)].cursor = 24 ∧ (t.clips[(0 : ClipId)].map fun c => c.copies[(0 : DestId)]) = some (.written 8) := by
  decide +kernel

/-- R88 to R90: a FRAME-OPEN of clip 0, 1,920 by 1,080, frame 5, last. -/
def openParcel : Rx :=
  sealRx 0x11 0 0 [0x00, 0x00, 0x05, 0x00, 0x00, 0x02, 0x10, 0x59, 0x00, 0x01, 0x80, 0x07, 0x38, 0x04]

theorem test_frame_open :
    (after (.frameOpen openParcel) (world (card .copied) (clip .written) (Channel.idle 0) dest)).frame.map
      (fun f => (f.clip, f.number, f.tc, f.width, f.height, f.last)) =
      some (some 0, 5, ⟨0x10, 0x59, 0x00, 0x01, false⟩, 1920, 1080, true) := by decide +kernel

/-- The frame `openParcel` opens on clip 0, camera 2 unmapped. -/
def frame : OpenFrame where
  clip := some 0
  number := 5
  tc := ⟨0x10, 0x59, 0x00, 0x01, false⟩
  width := 1920
  height := 1080
  last := true
  camera := some 2
  slot := none
  compareOn := false
  split := 0
  slotsInUse := []
  linesTaken := 0
  previous := none
  pixelsTaken := 0
  profile := Profile.default
  pixelCount := 0
  highCount := 0
  lowCount := 0
  excCount := 0
  lumaSum := 0

/-- A LINE of one pixel. -/
def lineParcel (line column r : Nat) : Rx :=
  sealRx 0x12 0 0 (leBytes 2 line ++ leBytes 2 column ++ leBytes 2 1 ++ leBytes 2 r ++ leBytes 4 0)

/-- R94: a sample above 4,095 is taken as 4,095 and counted as high. -/
theorem test_line_counts :
    (after (.line (lineParcel 0 1919 5000) false)
      (withFrame (some frame) (world (card .copied) (clip .written) (Channel.idle 0) dest))).frame.map
      (fun f => (f.linesTaken, f.pixelsTaken, f.highCount)) = some (1, 1, 1) := by decide +kernel

/-- R93: reason 2, a line at the height. -/
theorem test_line_outside :
    ((after (.line (lineParcel 1080 0 1) false)
      (withFrame (some frame) (world (card .copied) (clip .written) (Channel.idle 0) dest))).log.entries.map
      LogEntry.detail) = [2 * 65536 + 1080] := by decide +kernel

/-- R97, R98: a short frame is accounted and raises SHORT_FRAME. -/
theorem test_frame_close_short :
    let t := after (.frameClose (sealRx 0x13 0 0 [0x38, 0x04]))
      (withFrame (some frame) (world (card .copied) (clip .written) (Channel.idle 0) dest))
    (t.clips[(0 : ClipId)].map Clip.framesSeen) = some 1 ∧ (t.log.entries.map LogEntry.kind) = [.shortFrame]
      ∧ t.frame = none := by decide +kernel

/-- R185: the notice queue goes first. -/
theorem test_egress_notice : (after .egressSend up).notices = [] ∧ (after .egressSend up).out.length = 1 := by decide +kernel

/-- R177: a damaged DIRECTIVE locks the unit with cause 1 and tag 65,535, code FFh. -/
theorem test_damaged_directive_locks :
    answerTo (.malformedDirective ⟨0, 0, 0, 0, []⟩) up = some ⟨65535, 0xFF, .malformed 1, .nothing⟩
      ∧ (after (.malformedDirective ⟨0, 0, 0, 0, []⟩) up).unit.status = ⟨true, some 1, 0⟩ := by decide +kernel

/-- R187: the pin through a power-on gives the cause POWER. -/
theorem test_pin_through_power : (after .resetPin ⟨after .powerOn up, []⟩).reset.holding = some .power := by decide +kernel

/-! ## States and operands that meet the hypotheses of the statements -/

/-- An attempt of clip 0 to D0 alone. -/
def solo : Channel := Channel.begin 0 #v[true, false, false, false, false, false] 9

/-- The part held in a power-on reset. -/
def held : State := ⟨after .powerOn up, []⟩

/-- The part with the directive unit in LOCKED, and with an answer held. -/
def lockedUp : State := withUnit ⟨⟨true, some 3, 65535⟩, none⟩ up
def holdingUp : State := withUnit ⟨⟨false, none, 0⟩, some ⟨1, 2, .done, .nothing⟩⟩ up

/-- A part with one source port and two destinations, nothing attached. -/
def small : State := ⟨Part.afterReset .pin 0#2 0#3 0#4 0#6 true, []⟩

def item : ClipItem := ⟨leBytes 32 5, 2 ^ 40 - 1, 0, 15, 15, none, some 0, none⟩

theorem up_accepts : up.accepts := ⟨⟨rfl, rfl⟩, rfl⟩

theorem witness_StepRunsTheFrontCommand : (⟨up.part, [.haltAll 3]⟩ : State).pending = .haltAll 3 :: [] := rfl

theorem witness_MillisecondPasses : (up.pending = [] ∧ up.runs) ∧ held.pending = [] ∧ held.part.reset.holding.isSome = true :=
  ⟨⟨rfl, rfl⟩, rfl, rfl⟩

theorem witness_AnswersAndIngress : up.part.notices.any Notice.isAnswer = false
    ∧ (after (.haltAll 3) up).notices.any Notice.isAnswer = true
    ∧ holdingUp.runs ∧ holdingUp.part.unit.held.isSome = true ∧ onStation (.frameClose ⟨0, 0, 0, 0, []⟩) = true := by
  refine ⟨?_, ?_, rfl, rfl, rfl⟩ <;> decide +kernel

theorem witness_LockedDirectives : lockedUp.listens ∧ lockedUp.part.unit.status.locked = true
    ∧ (Instr.setStall 65535 2 1000).wf = true ∧ (directiveBytes (.setStall 65535 2 1000)).isSome = true
    ∧ takenLocked (.setStall 65535 2 1000) = false :=
  ⟨⟨rfl, rfl⟩, rfl, by decide, rfl, rfl⟩

theorem witness_HeldInReset : held.part.reset.holding.isSome = true ∧ actsInReset .egressSend = false := ⟨rfl, rfl⟩

theorem witness_MalformedDirective : (up.listens ∧ up.part.unit.status.locked = false)
    ∧ (lockedUp.listens ∧ lockedUp.part.unit.status.locked = true)
    ∧ formCheck ⟨0, 0, 0, 0, []⟩ = .bad 1 65535 0xFF :=
  ⟨⟨⟨rfl, rfl⟩, rfl⟩, ⟨⟨rfl, rfl⟩, rfl⟩, by decide +kernel⟩

theorem witness_ForeignStationParcel : up.listens ∧ lockedUp.listens ∧ stationKind 0x0F = false ∧ stationKind 0x14 = false
    ∧ ∃ t, exec (.line ⟨0, 0, 0, 0, []⟩ true) up = .next t :=
  ⟨⟨rfl, rfl⟩, ⟨rfl, rfl⟩, rfl, rfl, _, rfl⟩

theorem witness_DiscardedParcels : portKind (.source 3) 0x04 = false ∧ portKind (.dest 5) 0x03 = false
    ∧ (∀ f ∈ up.part.channels[(0 : PortId)].fetches, f.tag ≠ 0) ∧ (∀ f ∈ up.part.dests[(0 : DestId)].fetches, f.tag ≠ 0)
    ∧ (∀ r ∈ up.part.dests[(0 : DestId)].stores, r.tag ≠ 0) ∧ damaged 0x04 ⟨0, 0, 0, 0, []⟩ = true := by
  decide +kernel

/-- Parcels that fail each form check first, and one that passes them all. -/
def checkParcel (payload : List Byte) : Rx := sealRx 0x10 0 0 payload

theorem witness_FormChecks :
    damaged 0x10 ⟨0, 0, 0, 0, []⟩ = true
      ∧ (checkParcel (List.replicate 11 0)).payload.length = 11
      ∧ (damaged 0x10 (checkParcel (0x31 :: List.replicate 11 0)) = false
        ∧ field (checkParcel (0x31 :: List.replicate 11 0)).payload 1 1 ≠ 255 - 0x31)
      ∧ directiveShape 0x99 = none
      ∧ (directiveShape 0x26 = some (0, 0, 0)
        ∧ (checkParcel (0x26 :: 0xD9 :: List.replicate 11 0)).payload.length ≠ 12 + 0 * 0)
      ∧ (directiveShape 0x31 = some (2, 1, 1)
        ∧ (checkParcel (0x31 :: 0xCE :: List.replicate 10 0)).payload.length = 12 + 0 * 2 ∧ 0 < 1)
      ∧ itemRangeBad 0x41 (0x00030000) 1 = true ∧ itemRangeBad 0x41 257 1 = true ∧ itemRangeBad 0x41 256 1 = false
      ∧ itemRangeBad 0x42 4913 1 = true ∧ itemRangeBad 0x42 4912 1 = false := by
  decide +kernel

theorem witness_DirectiveRoundTrip : (Instr.loadCurve 1 7 2 256 [65535]).wf = true
    ∧ (directiveParcel (.loadCurve 1 7 2 256 [65535])).isSome = true := ⟨by decide, rfl⟩

theorem witness_ResetEnds : held.part.reset.holding = some .power := rfl

theorem witness_ResetCauses : up.listens := ⟨rfl, rfl⟩

theorem witness_Mount :
    up.accepts ∧ small.accepts ∧ 4 ≤ 4 ∧ small.part.reset.sources ≤ 1
      ∧ (0 < small.part.reset.sources ∧ small.part.ports[(0 : PortId)].attached = false)
      ∧ (world (card .held) (clip .written) solo dest).part.ports[(0 : PortId)].binding.isSome = true
      ∧ up.part.ports[(3 : PortId)] = ⟨true, none⟩ ∧ 3 < up.part.reset.sources
      ∧ (∀ g : CardId, (Vector.replicate 8 (card .mounted))[g].state ≠ .free
        ∧ (Vector.replicate 8 (card .mounted))[g].label ≠ label 2)
      ∧ (card .mounted).label = label 1 ∧ (card .mounted).source.isSome = true ∧ (card .held).state = .held
      ∧ (∀ g : CardId, up.part.cards[g].state = .free) := by
  refine ⟨up_accepts, ⟨⟨rfl, rfl⟩, rfl⟩, ?_⟩; decide +kernel

theorem witness_ListClips : (world (card .mounted) (clip .listed) solo dest).accepts
    ∧ (∀ st ∈ [CardState.mounted, .suspended, .copying],
      (world (card st) (clip .listed) solo dest).part.cards[(0 : CardId)].state = st)
    ∧ [item].length ≤ (freeClips (world (card .mounted) (clip .listed) solo dest).part).length ∧ item.wf = true := by
  refine ⟨world_accepts _ _ _ _, ?_⟩; decide +kernel

theorem witness_CardRefusals : up.accepts ∧ (∀ g : CardId, up.part.cards[g].state = .free)
    ∧ up.part.clips[(511 : ClipId)] = none ∧ [item].length ≤ 512
    ∧ (∀ st ∈ [CardState.mounted, .copying, .suspending, .suspended, .copied, .held, .halted, .cleared],
      (world (card st) (clip .listed) solo dest).part.cards[(0 : CardId)].state = st ∧ st ≠ .free)
    ∧ up.part.reset.dests ≤ 6
    ∧ ((withFrame (some frame) (world (card .held) (clip .listed) solo dest)).part.frame = some frame
      ∧ frame.clip = some 0 ∧ (0 : ClipId) ∈ (card .held).clips)
    ∧ (card .mounted).route ≠ DestSet.empty
    ∧ MarkSet.empty.insert .sourceLost ≠ MarkSet.empty := by
  refine ⟨up_accepts, ?_⟩; decide +kernel

theorem witness_DismountAndRetire :
    (0 : ClipId) ∈ (world (card .mounted) (clip .listed) solo dest).part.cards[(0 : CardId)].clips
      ∧ (∀ st ∈ [CardState.mounted, .copied, .held, .halted, .cleared],
        (world (card st) (clip .listed) solo dest).part.cards[(0 : CardId)].state = st
          ∧ (world (card st) (clip .listed) solo dest).part.cards[(0 : CardId)].source = some 0
          ∧ (world (card st) (clip .listed) solo dest).part.cards[(0 : CardId)].clearedUnsent = false
          ∧ (world { card st with source := none } (clip .listed) solo dest).part.cards[(0 : CardId)].source = none)
      ∧ (world (card .held) (clip .listed) solo dest).part.frame = none := by decide +kernel

theorem witness_Queries : lockedUp.listens
    ∧ (world (card .held) (clip .listed) solo dest).part.cards[(0 : CardId)].state ≠ .free
    ∧ (world (card .held) (clip .listed) solo dest).part.clips[(0 : ClipId)] = some (clip .listed)
    ∧ 5 < up.part.reset.dests := by
  refine ⟨⟨rfl, rfl⟩, ?_⟩; decide +kernel

theorem witness_Route : (∀ x ∈ [0, 5], x < up.part.reset.dests ∧ x < 6)
    ∧ (∀ d : DestId, DestSet.mem #v[true, false, false, false, false, true] d = true ↔ d.val ∈ [0, 5])
    ∧ (∀ d : DestId, DestSet.mem DestSet.empty d = true ↔ d.val ∈ ([] : List Nat))
    ∧ DestSet.size #v[true, false, false, false, false, true] = 2 ∧ DestSet.size DestSet.empty = 0
    ∧ (∀ st ∈ [CardState.mounted, .suspended, .held, .halted],
      (world { card st with required := 2 } (clip .listed) solo dest).part.cards[(0 : CardId)].required = 2) := by
  decide +kernel

theorem witness_StartGrants :
    let s := world (card .mounted) (clip .listed) (Channel.idle 5) { dest with length := 16 }
    s.accepts ∧ s.part.cards[(0 : CardId)].source = some 0 ∧ s.part.cards[(0 : CardId)].required = 1
      ∧ s.part.cards[(0 : CardId)].required ≤ s.part.cards[(0 : CardId)].route.size
      ∧ (∀ g : CardId, s.part.cards[g].state ≠ .copying) ∧ s.part.channels[(0 : PortId)].state = .idle
      ∧ s.part.cards[(0 : CardId)].clips = 0 :: [] ∧ s.part.clips[(0 : ClipId)] = some (clip .listed)
      ∧ (∀ d : DestId, (clip .listed).copies[d] = .none)
      ∧ (∀ d : DestId, s.part.cards[(0 : CardId)].route.mem d = true →
        s.part.dests[d].state = .active ∧ s.part.dests[d].holder = none ∧ s.part.dests[d].draining = false
          ∧ s.part.dests[d].cursor + 8 * (((clip .listed).length + 4095) / 4096) ≤ s.part.dests[d].length) := by
  refine ⟨world_accepts _ _ _ _, ?_⟩; decide +kernel

/-- The part with card 0 in COPYING, clip 0 LISTED, its channel IDLE, D0 as given and D1 as `dest`. -/
def ready (required : Nat) (x : Dest) : State :=
  world { card .copying with required := required } (clip .listed) (Channel.idle 5) x

theorem witness_StartGrants_listed :
    let s := world (card .mounted) (clip .listed) (Channel.idle 5) dest
    (∃ d : DestId, s.part.cards[(0 : CardId)].route.mem d = true) ∧ (0 : ClipId) ∈ s.part.cards[(0 : CardId)].clips
      ∧ s.part.clips[(0 : ClipId)] = some (clip .listed) ∧ (clip .listed).state = .listed := by
  decide +kernel

theorem witness_StartGrants_considers :
    readyClip up.part 0 = none
      ∧ (∀ x ∈ [dest, { dest with length := 8 }, { dest with state := .closed }], ∀ n ∈ [1, 2],
        readyClip (ready n x).part 0 = some 0 ∧ (ready n x).part.clips[(0 : ClipId)] = some (clip .listed)
          ∧ (clip .listed).live < n)
      ∧ (∀ d : DestId, (decide (d.val < 2)) = true ↔
        (ready 1 dest).part.cards[(0 : CardId)].route.mem d = true ∧ (ready 1 dest).part.dests[d].state = .active
          ∧ (clip .listed).copies[d].live = false)
      ∧ 1 ≤ ({ clip .listed with copies := #v[.written 0, .none, .none, .none, .none, .none] } : Clip).live := by
  decide +kernel

theorem witness_SuspendAndResume :
    inFlightClip (world (card .copying) (clip .listed) solo dest).part 0 = none
      ∧ inFlightClip (world (card .copying) (clip .inFlight) solo dest).part 0 = some 0
      ∧ runningChannel (world { card .copying with mode := .prompt } (clip .inFlight) solo dest).part 0 = some 0
      ∧ (clip .inFlight).restarted = false ∧ ({ clip .inFlight with restarted := true } : Clip).restarted = true
      ∧ (∀ d : DestId, solo.writing.mem d = true →
        (world (card .copying) (clip .inFlight) solo { dest with holder := some 0 }).part.dests[d].holder = some 0)
      ∧ (firstListed (world (card .suspended) (clip .listed) solo dest).part 0).isSome = true
      ∧ (firstListed (world (card .suspended) (clip .failed) solo dest).part 0 = none
        ∧ inFlightClip (world (card .suspended) (clip .failed) solo dest).part 0 = none
        ∧ anyMarkOpen (world (card .suspended) (clip .failed) solo dest).part 0 = false)
      ∧ anyMarkOpen (world { card .suspended with openMarks := MarkSet.empty.insert .sourceLost } (clip .failed) solo
        dest).part 0 = true := by
  decide +kernel

/-- The part with card 0 in SUSPENDING and its channel waiting for the draining of the set given. -/
def draining (ds : DestSet) : State :=
  world (card .suspending) (clip .listed) { Channel.idle 0 with state := .waiting, drain := ds }
    { dest with draining := true, stores := [⟨3, 0, 0⟩], stallTimer := some 9 }

theorem witness_SuspendAndResume_drains :
    let s := (world { card .copying with mode := .prompt } (clip .inFlight) channel
      { dest with holder := some 0, stores := [⟨3, 0, 0⟩], stallTimer := some 9 }).part
    let t := (world { card .copying with mode := .prompt } (clip .inFlight) channel { dest with holder := some 0 }).part
    (∀ d : DestId, DestSet.mem #v[true, false, false, false, false, false] d = true ↔
        s.channels[(0 : PortId)].target.mem d = true ∧ (abandonClip 0 0 s).dests[d].draining = true)
      ∧ (∀ d : DestId, DestSet.mem DestSet.empty d = true ↔
        t.channels[(0 : PortId)].target.mem d = true ∧ (abandonClip 0 0 t).dests[d].draining = true)
      ∧ (∀ d : DestId, DestSet.mem DestSet.empty d = false) := by
  decide +kernel

theorem witness_SuspendAndResume_drained :
    let one := (draining #v[true, false, false, false, false, false]).part
    let two := (draining #v[true, true, false, false, false, false]).part
    (one.channels[(0 : PortId)].state = .waiting ∧ one.channels[(0 : PortId)].drain.mem 0 = true
        ∧ (∀ e : DestId, one.channels[(0 : PortId)].drain.mem e = true → e = 0)
        ∧ one.ports[(0 : PortId)].binding = some 0 ∧ one.cards[(0 : CardId)].state = .suspending)
      ∧ ((1 : DestId) ≠ 0 ∧ two.channels[(0 : PortId)].drain.mem 1 = true)
      ∧ one.channels[(1 : PortId)].state ≠ .waiting ∧ one.cards[(1 : CardId)].state ≠ .suspending := by
  decide +kernel

theorem witness_Abort :
    (∀ st ∈ [CardState.copying, .suspending, .suspended],
      (world (card st) (clip .listed) (Channel.idle 0) dest).part.cards[(0 : CardId)].state = st
        ∧ (world (card st) (clip .listed) (Channel.idle 0) dest).part.cards[(0 : CardId)].source = some 0
        ∧ (world (card st) (clip .listed) (Channel.idle 0) dest).part.channels[(0 : PortId)].state = .idle)
      ∧ (world (card .copying) (clip .inFlight) solo dest).part.channels[(0 : PortId)].state = .running
      ∧ (world (card .copying) (clip .inFlight) solo dest).part.channels[(0 : PortId)].clip = some 0
      ∧ (∀ d : DestId, solo.writing.mem d = true →
        (world (card .copying) (clip .inFlight) solo { dest with holder := some 0 }).part.dests[d].holder = some 0)
      ∧ (clip .inFlight).failed + 1 < 3 ∧ 3 ≤ ({ clip .inFlight with failed := 2 } : Clip).failed + 1 := by
  decide +kernel

theorem witness_Abort_waiting :
    let s := draining #v[true, false, false, false, false, false]
    s.accepts ∧ s.part.cards[(0 : CardId)].state = .suspending ∧ s.part.cards[(0 : CardId)].source = some 0
      ∧ s.part.channels[(0 : PortId)].state = .waiting := by
  refine ⟨world_accepts _ _ _ _, ?_⟩; decide +kernel

/-- A part whose clip 0 is in flight to D0 while its copy on D1 is being verified. -/
def flying : Clip := { clip .inFlight with copies := #v[.writing, .verifying 8, .none, .none, .none, .none] }
def halting : State :=
  let s := world (card .copying) flying solo { dest with holder := some 0 }
  { s with
    part := { s.part with dests := s.part.dests.set 1 { dest with context := some (VerifyContext.begin 0 8) } } }

theorem halting_clips (k : ClipId) : halting.part.clips[k] = if k = 0 then some flying else none := by
  by_cases e : k = 0
  · subst e; rfl
  · have : (k : Nat) ≠ 0 := fun h => e (Fin.ext h)
    simp [halting, world, up, Part.afterReset, this.symm, e]

theorem witness_HaltAll_stopped : halting.listens ∧ TablesOk halting.part ∧ AttemptsOk halting.part := by
  have hr : ∀ p : PortId, halting.part.channels[p].state = .running → p = 0 := by decide +kernel
  have hh : ∀ d : DestId, halting.part.dests[d].holder = if d = 0 then some 0 else none := by decide +kernel
  have hc : ∀ h : CardId, halting.part.cards[h].clips = if h = 0 then [0] else [] := by decide +kernel
  have hx : ∀ d : DestId, halting.part.dests[d].context = if d = 1 then some (VerifyContext.begin 0 8) else none := by
    decide +kernel
  have hf : ∀ d : DestId, flying.copies[d] = if d = 0 then .writing else if d = 1 then .verifying 8 else .none := by
    decide +kernel
  refine ⟨⟨rfl, rfl⟩, ⟨fun h k => ?_, by decide +kernel, by decide +kernel, by decide +kernel⟩, by decide +kernel,
    fun p e => ?_, fun k c e _ => ?_, fun d k e => ?_, fun d k o => ?_⟩
  · rw [halting_clips, hc]
    by_cases z : h = 0 <;> by_cases y : k = 0 <;> simp [z, y, flying, clip, clipOfItem, eq_comm]
  · obtain rfl := hr p e
    refine ⟨0, flying, rfl, rfl, rfl, rfl, by decide +kernel⟩
  · rw [halting_clips] at e
    split at e
    · cases e; subst k; exact ⟨.inl rfl, 0, rfl, rfl⟩
    · cases e
  · rw [hh] at e
    split at e
    · cases e; subst d; exact ⟨0, flying, rfl, rfl, rfl, rfl, rfl⟩
    · cases e
  · rw [halting_clips, hx]
    constructor
    · rintro ⟨c, e, w⟩
      split at e
      · cases e; subst k
        rw [hf] at w
        by_cases a : d = 0 <;> by_cases b : d = 1 <;> simp_all [VerifyContext.begin]
      · cases e
    · rintro ⟨v, e, w, z⟩
      split at e
      · cases e; subst d; subst w; subst z; exact ⟨flying, rfl, rfl⟩
      · cases e

theorem witness_HaltAll : lockedUp.listens ∧ (world (card .copied) (clip .written) (Channel.idle 0)
    { dest with context := some (VerifyContext.begin 0 0) }).part.dests[(0 : DestId)].context.isSome = true := by
  refine ⟨⟨rfl, rfl⟩, ?_⟩; decide +kernel

theorem witness_Recopy :
    (∀ st ∈ [CardState.held, .halted, .copied],
      (world (card st) (clip .written) (Channel.idle 0) dest).part.cards[(0 : CardId)].state = st
        ∧ (cardClips (world (card st) (clip .written) (Channel.idle 0) dest).part 0).any (Clip.needsCopies 1) = true
        ∧ (cardClips (world (card st) (clip .failed) (Channel.idle 0) dest).part 0).any (Clip.needsCopies 1) = false)
      ∧ (card .held).openMarks.isEmpty = true ∧ (card .held).source.isSome = true
      ∧ anyMarkOpen (world (card .halted) (clip .failed) (Channel.idle 0) dest).part 0 = false
      ∧ anyMarkOpen (world (card .halted) { clip .failed with openMarks := MarkSet.empty.insert .clipFailed }
        (Channel.idle 0) dest).part 0 = true := by
  decide +kernel

theorem witness_SetRegion : 5 < up.part.reset.dests
    ∧ (∀ st ∈ [DestState.absent, .unset, .active, .full, .stalled, .closed],
      (world (card .held) (clip .listed) (Channel.idle 0) { dest with state := st }).part.dests[(0 : DestId)].state = st)
    ∧ (clip .listed).copies[(0 : DestId)] = .none
    ∧ ({ clip .written with copies := #v[.bad 0, .none, .none, .none, .none, .none] } : Clip).copies[(0 : DestId)] ≠ .none
    ∧ dest.holder = none ∧ dest.draining = false := by
  decide +kernel

theorem witness_SetRegion_no_copy (k : ClipId) (c : Clip) (hk : up.part.clips[k] = some c) : c.copies[(0 : DestId)] = .none := by
  simp [up, Part.afterReset] at hk

theorem witness_NoPort : up.accepts ∧ 6 ≤ 6 ∧ small.part.reset.dests ≤ 2 ∧ 5 < up.part.reset.dests
    ∧ ((49 < 50 ∧ 10000 < 10001) ∧ ¬ (50 < 50 ∨ 10000 < 50)) := by
  refine ⟨up_accepts, ?_⟩; decide +kernel

theorem witness_CloseReviveAndPace : up.accepts ∧ 5 < up.part.reset.dests
    ∧ (∀ st ∈ [DestState.absent, .unset, .active, .full, .stalled, .closed],
      ({ dest with state := st, ret := some .closed } : Dest).state = st ∧ dest.length ≠ 0)
    ∧ (up.part.dests[(0 : DestId)].state = .unset ∧ up.part.dests[(0 : DestId)].length = 0) := by
  refine ⟨up_accepts, ?_⟩; decide +kernel

/-- The same with a look slot's STAGING state as given. -/
def withStaging (k : SlotId) (st : Staging) (s : State) : State :=
  { s with part := { s.part with looks := s.part.looks.set k { s.part.looks[k] with state := st } } }

theorem witness_SetAndCommitLook : up.accepts ∧ 8 ≤ 8
    ∧ (∀ st ∈ [Staging.clean, .loaded, .pending 9], (withStaging 7 st up).part.looks[(7 : SlotId)].state = st)
    ∧ up.part.frame = none ∧ (7 : SlotId) ∈ ({ frame with slotsInUse := [7, 0] } : OpenFrame).slotsInUse := by
  refine ⟨up_accepts, ?_⟩; decide +kernel

theorem witness_LoadCurveAndLattice : up.accepts ∧ up.part.looks[(7 : SlotId)].state.isPending = false
    ∧ (2 < 3 ∧ 257 < 257 + [1].length ∧ 256 + [1].length ≤ 257)
    ∧ 4913 < 4913 + [(⟨1, 2, 3⟩ : Rgb Nat)].length ∧ 4912 + [(⟨1, 2, 3⟩ : Rgb Nat)].length ≤ 4913 := by
  refine ⟨up_accepts, ?_⟩; decide +kernel

theorem witness_LoadCurveAndLattice_refused : (withStaging 7 (.pending 9) up).accepts
    ∧ (withStaging 7 (.pending 9) up).part.looks[(7 : SlotId)].state = .pending 9
    ∧ (8 ≤ 8 ∧ 2 ≤ 2 ∧ 256 + [1].length ≤ 257 ∧ 4912 + [(⟨1, 2, 3⟩ : Rgb Nat)].length ≤ 4913) := by
  refine ⟨⟨⟨rfl, rfl⟩, rfl⟩, ?_⟩; decide +kernel

theorem witness_Settings : lockedUp.listens ∧ up.accepts ∧ (15 : CameraId).val = 15 ∧ (7 : SlotId).val = 7 ∧ 8 ≤ 8 ∧ 16 ≤ 16 :=
  ⟨⟨rfl, rfl⟩, up_accepts, rfl, rfl, Nat.le_refl _, Nat.le_refl _⟩

theorem witness_WatchList : up.accepts ∧ (∃ i ∈ [(⟨16, 0, 0, 0, 1⟩ : WatchItem)], 15 < i.camera)
    ∧ (∀ i ∈ [(⟨15, 0, 0, 0, 1⟩ : WatchItem)], i.camera ≤ 15)
    ∧ 128 - (List.replicate 128 (watchEntryOf ⟨0, 0, 0, 0, 1⟩)).length < 1 ∧ up.part.watch.length + 1 ≤ 128
    ∧ (∀ e : WatchEntry, [(⟨15, 0, 0⟩ : UnwatchItem)].any (unwatchHits e) = true ↔
      ∃ i ∈ [(⟨15, 0, 0⟩ : UnwatchItem)], e.camera.val = i.camera ∧ e.column = i.column ∧ e.line = i.line)
    ∧ [(⟨15, 0, 0⟩ : UnwatchItem)].any (unwatchHits (watchEntryOf ⟨15, 0, 0, 0, 1⟩)) = true
    ∧ [(⟨15, 0, 0⟩ : UnwatchItem)].any (unwatchHits (watchEntryOf ⟨14, 0, 0, 0, 1⟩)) = false := by
  refine ⟨up_accepts, by decide, by decide, by decide +kernel, by decide +kernel, fun e => ?_, by decide, by decide⟩
  simp [unwatchHits, and_assoc]

theorem witness_Waive :
    ∀ st ∈ [CardState.held, .copied, .copying, .halted],
      (world (card st) (clip .written) (Channel.idle 0) dest).part.cards[(0 : CardId)].state = st
        ∧ (world (card st) (clip .written) (Channel.idle 0) dest).part.cards[(0 : CardId)].generation = 7 := by
  decide +kernel

/-- A FAILED clip whose CLIP_FAILED is waived. -/
def waivedClip : Clip := { clip .failed with failed := 3, waivedMarks := MarkSet.empty.insert .clipFailed }

theorem witness_Waive_clearance :
    let s := world (card .copied) waivedClip (Channel.idle 0) dest
    (s.part.cards[(0 : CardId)].state = .copied ∧ clearanceHolds s.part 0 = true)
      ∧ clearanceHolds (world (card .copied) (clip .written) (Channel.idle 0) dest).part 0 = false := by
  decide +kernel

/-- The part with a fault log as given. -/
def withLog (l : FaultLog) (s : State) : State := { s with part := { s.part with log := l } }

def logEntry (n : Nat) : LogEntry := ⟨n, .destFull, none, none, none, none, 0, false⟩

theorem witness_RaiseFault : (up.part.log.marker = none ∧ up.part.log.entries.length < 63)
    ∧ 63 ≤ ((List.range 63).map logEntry).length
    ∧ (withLog ⟨[], some ⟨0, 4294967295⟩, 1⟩ up).part.log.marker = some ⟨0, 4294967295⟩
    ∧ (FaultKind.destFull.marksCard = false ∧ FaultKind.destFull.marksClip = false)
    ∧ FaultKind.copyShort.marksClip = true ∧ FaultKind.sourceLost.marksCard = true
    ∧ (clip .written).openMarks.has .copyShort = false ∧ (clip .written).card = 0
    ∧ (MarkSet.empty.insert .copyShort).has .copyShort = true ∧ (card .copied).openMarks.has .sourceLost = false := by
  decide +kernel

theorem witness_SourceEvents : up.runs ∧ small.part.reset.sources ≤ 1 ∧ 0 < small.part.reset.sources
    ∧ small.part.ports[(0 : PortId)].attached = false ∧ up.part.ports[(3 : PortId)] = ⟨true, none⟩
    ∧ (∀ st ∈ [CardState.mounted, .copying, .suspending, .suspended, .copied, .held, .halted, .cleared],
      (world (card st) (clip .inFlight) solo dest).part.ports[(0 : PortId)].binding = some 0
        ∧ (world (card st) (clip .inFlight) solo dest).part.cards[(0 : CardId)].source = some 0
        ∧ ∀ g : CardId, g ≠ 0 → (world (card st) (clip .inFlight) solo dest).part.cards[g].source ≠ some 0) := by
  refine ⟨rfl, ?_⟩; decide +kernel

theorem witness_SourceEvents_attempt :
    let s := world (card .copying) (clip .inFlight) solo { dest with holder := some 0, stores := [⟨3, 0, 0⟩] }
    s.part.ports[(0 : PortId)].binding = some 0 ∧ s.part.channels[(0 : PortId)].state = .running
      ∧ s.part.channels[(0 : PortId)].clip = some 0 ∧ s.part.clips[(0 : ClipId)] = some (clip .inFlight)
      ∧ (clip .inFlight).card = 0
      ∧ (∀ d : DestId, s.part.channels[(0 : PortId)].writing.mem d = true → s.part.dests[d].holder = some 0)
      ∧ (world (card .copying) (clip .listed) (Channel.idle 0) dest).part.channels[(0 : PortId)].state = .idle
      ∧ (draining #v[true, false, false, false, false, false]).part.channels[(0 : PortId)].state = .waiting := by
  decide +kernel

theorem witness_DestLinkEvents : small.part.reset.dests ≤ 2
    ∧ (small.part.dests[(1 : DestId)].state = .absent ∧ 1 < small.part.reset.dests)
    ∧ (up.part.dests[(5 : DestId)].state ≠ .absent ∧ up.part.dests[(5 : DestId)].stallTimer = none)
    ∧ (let s := world (card .copying) (clip .inFlight) solo
        { dest with
          holder := some 0, stores := [⟨3, 0, 0⟩], stallTimer := some 9, context := some (VerifyContext.begin 1 8) }
      s.part.dests[(0 : DestId)].stallTimer.isSome = true ∧ s.part.dests[(0 : DestId)].state = .active
        ∧ 0 < s.part.reset.dests ∧ s.part.dests[(0 : DestId)].holder = some 0
        ∧ s.part.clips[(0 : ClipId)] = some (clip .inFlight)) := by
  decide +kernel

theorem witness_DestLinkEvents_draining :
    let s := draining #v[true, false, false, false, false, false]
    s.part.dests[(0 : DestId)].draining = true ∧ s.part.dests[(0 : DestId)].stallTimer.isSome = true
      ∧ s.part.channels[(0 : PortId)].state = .waiting := by
  decide +kernel

theorem witness_SendFetch :
    let s := world (card .copying) (clip .inFlight)
      { solo with nextFetch := 1, fetches := List.replicate 3 ⟨0, 0, 1, 9⟩, held := List.replicate 15 ⟨0, none⟩ } dest
    s.part.channels[(0 : PortId)].state = .running ∧ s.part.clips[(0 : ClipId)] = some (clip .inFlight)
      ∧ (∃ d : DestId, s.part.channels[(0 : PortId)].writing.mem d = true)
      ∧ 4096 * s.part.channels[(0 : PortId)].nextFetch < (clip .inFlight).length
      ∧ (s.part.channels.toList.map fun ch => ch.held.length).sum < 64
      ∧ ({ solo with retries := [⟨0, 2⟩] } : Channel).retries = ⟨0, 2⟩ :: []
      ∧ (Channel.idle 0).state ≠ .running ∧ (clip .inFlight).length ≤ 4096 * 2 := by
  decide +kernel

/-- A BLOCK of zeros. -/
def block (tag : Nat) : Rx := sealRx 0x02 0 tag (List.replicate 4096 0)

theorem block_is_good : (block 3).status = 0 ∧ damaged 0x02 (block 3) = false ∧ (block 3).payload.length = 4096 := by
  decide +kernel

/-- A channel with the FETCH of a block outstanding, the block's buffer reserved, the digest at the block given. -/
def fetching (blockNo digest : Nat) : Channel :=
  { solo with fetches := [⟨3, blockNo, 1, 9⟩], held := [⟨blockNo, none⟩], nextDigest := digest, nextFetch := blockNo + 1 }

/-- A list of no, one or two blocks in turn meets what each of its places does. -/
theorem turn_places {P : Nat → Nat × List Byte → Prop} (a b : Nat × List Byte) (h0 : P 0 a) (h1 : P 1 b) :
    (∀ (i : Nat) g, ([] : List (Nat × List Byte))[i]? = some g → P i g)
      ∧ (∀ (i : Nat) g, [a][i]? = some g → P i g) ∧ ∀ (i : Nat) g, [a, b][i]? = some g → P i g := by
  refine ⟨fun i g h => by simp at h, fun i g h => ?_, fun i g h => ?_⟩
  · rcases i with - | i
    · simp at h; exact h ▸ h0
    · simp at h
  · rcases i with - | - | i
    · simp at h; exact h ▸ h0
    · simp at h; exact h ▸ h1
    · simp at h

/-- The blocks of zeros that a channel or a verify of clip 0 digests, and its buffers with both arrived. -/
def zeros : List Byte := List.replicate 4096 0

theorem block_payload (tag : Nat) : (block tag).payload = zeros := rfl

def arrived : List Held := [⟨0, some zeros⟩, ⟨1, some zeros⟩]

theorem arrived_in_turn :
    (∀ (i : Nat) (g : Nat × List Byte), [(0, zeros), (1, zeros)][i]? = some g →
        g.1 = 0 + i ∧ arrived.find? (fun h => h.block == g.1) = some ⟨g.1, some g.2⟩)
      ∧ ∀ g, arrived.find? (fun h => h.block == 0 + [(0, zeros), (1, zeros)].length) = some g → g.data = none := by
  refine ⟨(turn_places (P := fun i g => g.1 = 0 + i ∧ arrived.find? (fun h => h.block == g.1) = some ⟨g.1, some g.2⟩)
    (0, zeros) (1, zeros) ⟨rfl, rfl⟩ ⟨rfl, rfl⟩).2.2, fun g h => ?_⟩
  simp [arrived] at h

/-- Block 1 has come first and waits: the BLOCK of block 0 lets both into the digest, of two blocks, the last. -/
theorem witness_SourceBlock :
    let x : Channel := { fetching 0 0 with held := [⟨0, none⟩, ⟨1, some zeros⟩], nextFetch := 2 }
    x.fetches.find? (fun g => g.tag == (block 3).tag) = some ⟨3, 0, 1, 9⟩
      ∧ arrived = x.held.map (fun g => if g.block = 0 then ⟨g.block, some (block 3).payload⟩ else g)
      ∧ x.nextDigest + 2 = ((clip .inFlight).length + 4095) / 4096
      ∧ x.nextDigest < ((clip .inFlight).length + 4095) / 4096 := by
  refine ⟨by decide +kernel, ?_, by decide +kernel⟩
  simp [arrived, block_payload]

/-- Out of turn: the BLOCK of block 1 comes while block 0 is awaited, and none enters the digest. -/
theorem witness_SourceBlock_out_of_turn :
    let held : List Held := [⟨0, none⟩, ⟨1, some zeros⟩]
    (fetching 1 0).fetches.find? (fun g => g.tag == (block 3).tag) = some ⟨3, 1, 1, 9⟩
      ∧ (∀ g ∈ held.find? (fun h => h.block == 0), g.data = none)
      ∧ 0 + ([] : List (Nat × List Byte)).length ≠ ((clip .inFlight).length + 4095) / 4096 := by
  decide +kernel

theorem witness_CopyTryFails :
    (fetching 0 0).fetches.find? (fun g => g.tag == 3) = some ⟨3, 0, 1, 9⟩ ∧ 1 < 3
      ∧ ({ fetching 0 0 with fetches := [⟨3, 0, 3, 9⟩] } : Channel).fetches.find? (fun g => g.tag == 3) = some ⟨3, 0, 3, 9⟩
      ∧ (∀ h : CardId, 1 ≤ (world (card .copying) (clip .inFlight) (fetching 0 0) dest).part.cards[h].required)
      ∧ (∀ d : DestId, (fetching 0 0).writing.mem d = true →
        (world (card .copying) (clip .inFlight) (fetching 0 0) { dest with holder := some 0 }).part.dests[d].holder = some 0)
      ∧ (sealRx 0x02 1 3 []).status ≠ 0 := by
  decide +kernel

/-- A channel whose first block has been digested. -/
def digested : Channel := { solo with held := [⟨0, some (List.replicate 4096 0)⟩], nextDigest := 1, nextFetch := 1 }

theorem witness_SendStore :
    let s := world (card .copying) (clip .inFlight) digested { dest with holder := some 0 }
    s.part.dests[(0 : DestId)].holder = some 0
      ∧ (∀ q : PortId, (s.part.channels[q].state = .running ∧ s.part.channels[q].clip = some 0) ↔ q = 0)
      ∧ digested.writing.mem 0 = true ∧ digested.sendIndex[(0 : DestId)] < digested.nextDigest
      ∧ (digested.held.find? (fun b => b.block == digested.sendIndex[(0 : DestId)])).isSome = true
      ∧ s.part.dests[(0 : DestId)].stores.length < 8 ∧ readyRead s.part 0 = none := by
  decide +kernel

theorem witness_SendStore_waits :
    readyRead (world (card .copying) (clip .inFlight) digested
      { dest with holder := some 0, credit := 4, context := some (VerifyContext.begin 0 0) }).part 0 ≠ none := by
  decide +kernel

theorem witness_StoreDone :
    let x : Dest := { dest with holder := some 0, stores := [⟨3, 0, 0⟩, ⟨4, 1, 0⟩], stallTimer := some 9 }
    damaged 0x04 (sealRx 0x04 0 3 []) = false ∧ x.stores.find? (fun q => q.tag == 3) = some ⟨3, 0, 0⟩
      ∧ x.stores.filter (fun q => q.tag != 3) ≠ []
      ∧ ({ x with stores := [⟨3, 0, 0⟩], draining := true } : Dest).stores.filter (fun q => q.tag != 3) = []
      ∧ (let s := world (card .copying) (clip .inFlight) { channel with sendIndex := #v[2, 0, 0, 0, 0, 0] } x
        (∀ q : PortId, (s.part.channels[q].state = .running ∧ s.part.channels[q].clip = some 0) ↔ q = 0)
          ∧ s.part.channels[(0 : PortId)].writing.mem 1 = true
          ∧ s.part.channels[(0 : PortId)].sendIndex[(0 : DestId)] = ((clip .inFlight).length + 4095) / 4096
          ∧ (0 : ClipId) ∉ s.part.dests[(0 : DestId)].queue)
      ∧ (sealRx 0x04 1 3 []).status ≠ 0 := by
  decide +kernel

theorem witness_StoreDone_ends :
    let x : Dest := { dest with holder := some 0, stores := [⟨3, 1, 0⟩], stallTimer := some 9 }
    let s := world (card .copying) (clip .inFlight) { solo with sendIndex := #v[2, 0, 0, 0, 0, 0], nextDigest := 2 } x
    x.stores.filter (fun q => q.tag != 3) = []
      ∧ (∀ q : PortId, (s.part.channels[q].state = .running ∧ s.part.channels[q].clip = some 0) ↔ q = 0)
      ∧ (∀ e : DestId, s.part.channels[(0 : PortId)].writing.mem e = true → e = 0)
      ∧ s.part.channels[(0 : PortId)].sendIndex[(0 : DestId)] = ((clip .inFlight).length + 4095) / 4096
      ∧ s.part.channels[(0 : PortId)].clip = some 0 ∧ s.part.clips[(0 : ClipId)] = some (clip .inFlight)
      ∧ (clip .inFlight).live = 0
      ∧ 1 ≤ ({ clip .inFlight with copies := #v[.written 0, .none, .none, .none, .none, .none] } : Clip).live := by
  decide +kernel

theorem witness_SendVerifyFetch :
    let x : Dest := { dest with context := some (VerifyContext.begin 0 8) }
    let s := world (card .copied) (clip .written) (Channel.idle 0) x
    s.part.clips[(0 : ClipId)] = some (clip .written) ∧ s.part.dests[(0 : DestId)].fetches.length < 2
      ∧ 4096 * (VerifyContext.begin 0 8).nextFetch < (clip .written).length
      ∧ ({ x with holder := some 1, credit := 4 } : Dest).credit = x.paceP * 2 ^ x.paceS
      ∧ ({ x with holder := some 1, credit := 3 } : Dest).credit ≠ x.paceP * 2 ^ x.paceS
      ∧ ({ VerifyContext.begin 0 8 with held := [⟨0, none⟩, ⟨1, none⟩] } : VerifyContext).held.length = 2
      ∧ (clip .written).length ≤ 4096 * ({ VerifyContext.begin 0 8 with nextFetch := 2 } : VerifyContext).nextFetch := by
  decide +kernel

theorem witness_SendVerifyFetch_starts :
    let c : Clip := { clip .written with copies := #v[.written 8, .none, .none, .none, .none, .none] }
    let s := (world (card .copied) c (Channel.idle 0) { dest with queue := [0] }).part
    s.dests[(0 : DestId)].context = none ∧ s.dests[(0 : DestId)].state = .active
      ∧ s.dests[(0 : DestId)].queue = 0 :: [] ∧ s.clips[(0 : ClipId)] = some c ∧ c.copies[(0 : DestId)] = .written 8
      ∧ s.dests[(1 : DestId)].queue = [] := by
  decide +kernel

/-- A verify of clip 0 at offset 8 with the FETCH of a block outstanding. -/
def verifying (blockNo : Nat) : Dest :=
  { dest with
    fetches := [⟨3, 9, some ⟨blockNo, 1⟩⟩], stallTimer := some 9
    context := some
      { VerifyContext.begin 0 8 with nextFetch := blockNo + 1, nextDigest := blockNo, held := [⟨blockNo, none⟩] } }

/-- Block 1 has come first and waits: the BLOCK of block 0 lets both into the verify digest, the last deciding the copy
(`arrived_in_turn`). -/
theorem witness_VerifyBlock :
    let v : VerifyContext :=
      { VerifyContext.begin 0 8 with nextFetch := 2, held := [⟨0, none⟩, ⟨1, some zeros⟩] }
    (verifying 0).fetches.find? (fun g => g.tag == (block 3).tag) = some ⟨3, 9, some ⟨0, 1⟩⟩
      ∧ ({ verifying 0 with fetches := [⟨3, 9, none⟩] } : Dest).fetches.find? (fun g => g.tag == 3) = some ⟨3, 9, none⟩
      ∧ v.held.length ≤ 2
      ∧ arrived = v.held.map (fun g => if g.block = 0 then ⟨g.block, some (block 3).payload⟩ else g)
      ∧ v.nextDigest + 2 = ((clip .written).length + 4095) / 4096 := by
  refine ⟨by decide +kernel, by decide +kernel, by decide +kernel, ?_, by decide +kernel⟩
  simp [arrived, block_payload]

/-- Out of turn: the BLOCK of block 1 comes while block 0 is awaited, and none enters the digest. -/
theorem witness_VerifyBlock_out_of_turn :
    let v : VerifyContext := { VerifyContext.begin 0 8 with nextFetch := 2, held := [⟨0, none⟩, ⟨1, some zeros⟩] }
    (∀ g ∈ v.held.find? (fun h => h.block == v.nextDigest), g.data = none)
      ∧ v.nextDigest + ([] : List (Nat × List Byte)).length ≠ ((clip .written).length + 4095) / 4096 := by
  decide +kernel

theorem witness_VerifyTryFails :
    (verifying 0).fetches.find? (fun g => g.tag == 3) = some ⟨3, 9, some ⟨0, 1⟩⟩ ∧ 1 < 3
      ∧ ({ verifying 0 with fetches := [⟨3, 9, some ⟨0, 3⟩⟩] } : Dest).fetches.find? (fun g => g.tag == 3)
        = some ⟨3, 9, some ⟨0, 3⟩⟩
      ∧ (sealRx 0x02 1 3 []).status ≠ 0 := by
  decide +kernel

theorem witness_FrameOpen : up.listens ∧ up.part.frame = none
    ∧ (withFrame (some frame) up).part.frame = some frame
    ∧ damaged 0x11 openParcel = false ∧ openParcel.payload.length = 14
    ∧ damaged 0x11 ⟨0, 0, 0, 0, []⟩ = true
    ∧ field openParcel.payload 0 2 = 0 ∧ up.part.clips[(0 : ClipId)] = none
    ∧ (world (card .copied) (clip .written) (Channel.idle 0) dest).part.clips[(0 : ClipId)] = some (clip .written) := by
  refine ⟨⟨rfl, rfl⟩, ?_⟩; decide +kernel

theorem witness_Line :
    (lineDamaged ⟨0, 0, 0, 0, [1, 2]⟩ = true ∧ 2 ≤ [1, 2].length)
      ∧ lineDamaged (lineParcel 1079 0 1) = false ∧ field (lineParcel 1079 0 1).payload 0 2 = 1079
      ∧ frame.height ≤ 1080 ∧ 1079 < frame.height
      ∧ ({ frame with previous := some (1079, 1) } : OpenFrame).previous = some (1079, 1) ∧ (0 < 1 ∧ 1 ≤ 1)
      ∧ frame.previous = none := by
  decide +kernel

theorem witness_FrameEnds :
    let s := withFrame (some frame) (world (card .copied) (clip .written) (Channel.idle 0) dest)
    s.listens ∧ s.part.frame = some frame ∧ frame.clip = some 0 ∧ s.part.clips[(0 : ClipId)] = some (clip .written)
      ∧ up.part.frame = none
      ∧ (damaged 0x13 (sealRx 0x13 0 0 [0x38, 0x04]) = false ∧ (sealRx 0x13 0 0 [0x38, 0x04]).payload.length = 2)
      ∧ damaged 0x13 ⟨0, 0, 0, 0, [1, 2]⟩ = true ∧ frame.linesTaken < frame.height := by
  refine ⟨⟨rfl, rfl⟩, ?_⟩; decide +kernel

theorem witness_FrameEnds_who :
    let s := withFrame (some frame) (world (card .copied) (clip .written) (Channel.idle 0) dest)
    (frame.clip = (some ((0 : ClipId), clip .written)).map Prod.fst ∧ s.part.clips[(0 : ClipId)] = some (clip .written))
      ∧ ({ frame with clip := none } : OpenFrame).clip = (none : Option (ClipId × Clip)).map Prod.fst := by
  decide +kernel

theorem witness_Egress : up.runs ∧ up.part.stationUp = true ∧ (after .stationLinkDown up).stationUp = false
    ∧ up.part.notices = .resetDone .power 4 6 :: []
    ∧ (Notice.answer ⟨1, 2, .done, .nothing⟩).isAnswer = true ∧ holdingUp.part.waiting = []
    ∧ (after .egressSend up).notices = [] ∧ [logEntry 0] = logEntry 0 :: [] := by
  refine ⟨rfl, ?_⟩; decide +kernel

theorem witness_Egress_waiting :
    let s : State := { holdingUp with part := { holdingUp.part with waiting := [.haltAll 3, .frameClose ⟨0, 0, 0, 0, []⟩] } }
    s.runs ∧ s.part.stationUp = true ∧ s.part.unit.held = some ⟨1, 2, .done, .nothing⟩
      ∧ ∀ c ∈ s.part.waiting, onStation c = true := by
  refine ⟨rfl, ?_⟩; decide +kernel

theorem witness_DigestStreams : [(1 : Byte), 2, 3, 4].length % 4 = 0 ∧ (1 : Byte) ≠ 2 ∧ (1, 0).1 < 4294967291 := by decide

theorem witness_GradingStages : 65535 < 65536 ∧ 65280 % 256 = 0 ∧ (16 : Nat) ≤ 16 ∧ 65520 < 65536 ∧ 0 ≤ 65535 := by decide

theorem witness_IdentityLook : (65408 ≤ 65535 ∧ 65409 ≤ 65535) ∧ (63488 ≤ 65535 ∧ 63489 ≤ 65535) ∧ 4087 ≤ 4095 ∧ 4088 ≤ 4095 := by
  decide

theorem witness_TimecodeRoundTrip : tcValid .t30D ⟨0x29, 0x59, 0x59, 0x23, true⟩ = true ∧ 2589407 < Timebase.dayLength .t30D := by
  decide

theorem empty_has (k : FaultKind) : MarkSet.empty.has k = false := by cases k <;> rfl

theorem witness_NoticesKept : NoticesOk up.part ∧ ∃ t, step up = .next t := by
  refine ⟨⟨by decide +kernel, by decide +kernel, fun h => ?_⟩, _, rfl⟩
  simp [clearedQueued, up, Part.afterReset, Card.blank]

theorem witness_LogKept : LogOk up.part.log ∧ ∃ t, step up = .next t := ⟨⟨by decide, by decide, 0, by decide, rfl⟩, _, rfl⟩

theorem witness_MarksKept : MarksOk up.part ∧ ∃ t, step up = .next t := by
  refine ⟨⟨fun h => ?_, fun i c e => ?_⟩, _, rfl⟩
  · simp [up, Part.afterReset, Card.blank, MarkSet.disjoint, empty_has]
  · simp [up, Part.afterReset] at e

theorem witness_DestsKept : DestsOk up.part ∧ ∃ t, step up = .next t := by
  refine ⟨fun d => ?_, _, rfl⟩
  unfold Dest.ok; revert d; decide +kernel

theorem witness_ChannelsKept : ChannelsOk up.part ∧ ∃ t, step up = .next t := by
  refine ⟨fun p => ?_, _, rfl⟩
  unfold Channel.ok; revert p; decide +kernel

theorem witness_LooksAndFittedKept : LooksOk up.part ∧ FittedOk up.part ∧ ∃ t, step up = .next t := by
  refine ⟨fun k => ?_, by unfold FittedOk; decide +kernel, _, rfl⟩
  simp [up, Part.afterReset, LookSlot.initial, Staging.isPending]

/-- A part with a CLEARED card of one clip, FAILED and waived. -/
def cleared : State := world (card .cleared) waivedClip (Channel.idle 0) dest

theorem cleared_clips (k : ClipId) : cleared.part.clips[k] = if k = 0 then some waivedClip else none := by
  by_cases e : k = 0
  · subst e; rfl
  · have : (k : Nat) ≠ 0 := fun h => e (Fin.ext h)
    simp [cleared, world, up, Part.afterReset, this.symm, e]

theorem witness_ClearedKept : ClearanceOk cleared.part ∧ cleared.part.cards[(0 : CardId)].state = .cleared
    ∧ ∃ t, step cleared = .next t := by
  refine ⟨⟨fun h e => ?_, ⟨fun h k => ?_, by decide +kernel, by decide +kernel, by decide +kernel⟩, by decide +kernel,
    fun p e => ?_, fun k c e f => ?_, fun d k e => ?_, fun d k o => ?_⟩, rfl, _, rfl⟩
  · have z : h = 0 := by revert h; decide +kernel
    subst z
    refine ⟨rfl, fun k _ c e => ?_⟩
    rw [cleared_clips] at e
    split at e
    · cases e; exact ⟨rfl, .inl ⟨rfl, by decide +kernel⟩⟩
    · cases e
  · rw [cleared_clips]
    have hc : ∀ h : CardId, cleared.part.cards[h].clips = if h = 0 then [0] else [] := by decide +kernel
    rw [hc]
    by_cases z : h = 0 <;> by_cases y : k = 0 <;> simp [z, y, waivedClip, clip, clipOfItem, eq_comm]
  · have hr : ∀ p : PortId, cleared.part.channels[p].state ≠ .running := by decide +kernel
    exact absurd e (hr p)
  · rw [cleared_clips] at e
    split at e
    · cases e; cases f
    · cases e
  · have hn : ∀ d : DestId, cleared.part.dests[d].holder = none := by decide +kernel
    rw [hn] at e; cases e
  · have hn : ∀ d : DestId, cleared.part.dests[d].context = none := by decide +kernel
    have hv : ∀ d : DestId, waivedClip.copies[d] = .none := by decide +kernel
    rw [hn, cleared_clips]
    by_cases y : k = 0
    · simp [y]
      rw [show waivedClip.copies[(d : Nat)] = .none from hv d]
      exact fun h => by cases h
    · simp [y]

theorem witness_ResetMeetsInvariants : held.part.reset.holding.isSome = true
    ∧ ∃ t, exec (.resetEnd 0#2 7#3 0#4 0#6 false) held = .next t := ⟨rfl, _, rfl⟩

theorem witness_ChangesAreNoticed :
    let s := world (card .mounted) (clip .listed) (Channel.idle 0) dest
    (after (.start 1 0) s).cards[(0 : CardId)].state ≠ s.part.cards[(0 : CardId)].state
      ∧ (after (.destLinkDown 0) s).dests[(0 : DestId)].state ≠ s.part.dests[(0 : DestId)].state := by
  decide +kernel

theorem witness_GrantPassesSuffice : ∀ h : CardId, 1 ≤ up.part.cards[h].required := by decide +kernel

/-- A candidate with the target set given, and whether it may be granted behind a senior that needs D0 and D1 of a part
whose D0 is busy. -/
def candidate (ds : DestSet) : Candidate := ⟨0, 0, ds⟩
def busyPart : Part := (ready 1 { dest with holder := some 5 }).part
def mayGo (c : Candidate) : Bool :=
  decide (∀ d : DestId, c.targets.mem d = true →
    busyPart.dests[d].isFree = true ∧ DestSet.mem #v[true, true, false, false, false, false] d = false)

/-- The senior waits for D0 and reserves D1: a card that needs D1 waits behind it, one that needs D2 does not. -/
theorem witness_GrantPassesSuffice_choice :
    (considerAll (cardOrder busyPart.grantPointer) busyPart).2 = [candidate #v[true, true, false, false, false, false]]
      ∧ (∀ d : DestId, busyPart.dests[d].isFree = true ↔
        busyPart.dests[d].holder = none ∧ busyPart.dests[d].draining = false)
      ∧ DestSet.mem #v[true, true, false, false, false, false] 0 = true ∧ busyPart.dests[(0 : DestId)].isFree = false
      ∧ mayGo (candidate #v[false, true, false, false, false, false]) = false
      ∧ mayGo (candidate #v[false, false, true, false, false, false]) = true := by
  decide +kernel

theorem witness_GrantPassesSuffice_may (c : Candidate) : mayGo c = true ↔
    ∀ d : DestId, c.targets.mem d = true →
      busyPart.dests[d].isFree = true ∧ DestSet.mem #v[true, true, false, false, false, false] d = false := by
  simp [mayGo]

theorem witness_GrantPassesSuffice_grant :
    let s := (ready 1 dest).part
    chooseGrant (considerAll (cardOrder s.grantPointer) s).1 (considerAll (cardOrder s.grantPointer) s).2 =
        some (candidate #v[true, true, false, false, false, false])
      ∧ chooseGrant busyPart [candidate #v[true, true, false, false, false, false]] = none
      ∧ s.cards[(0 : CardId)].source = some 0 ∧ s.channels[(0 : PortId)].state = .idle
      ∧ s.clips[(0 : ClipId)] = some (clip .listed)
      ∧ (∀ d : DestId, (candidate DestSet.empty).targets.mem d = false) := by
  decide +kernel

end Sys2Proof.Tests
end

