-- ==== Sys2Proof/Proofs/Sets.lean ====
section
/-! PROOF. Membership in the sets of destinations and of fault kinds, and the searches of the card and clip tables, each said
once as an `↔`. -/

namespace Sys2Proof.Machine

/-! ## Sets of destinations -/

variable (a b : DestSet) (d e : DestId)

theorem DestSet.mem_ofPred (f : DestId → Bool) : (DestSet.ofPred f).mem d = f d := by
  fin_cases d <;> rfl

theorem DestSet.mem_empty : DestSet.empty.mem d = false := by
  fin_cases d <;> rfl

theorem DestSet.mem_erase : (a.erase d).mem e = if d = e then false else a.mem e :=
  get_set a d e false

theorem mem_allDests : d ∈ allDests := by
  fin_cases d <;> simp [allDests]

theorem mem_allCards (h : CardId) : h ∈ allCards := by
  fin_cases h <;> simp [allCards]

theorem mem_allPorts (p : PortId) : p ∈ allPorts := by
  fin_cases p <;> simp [allPorts]

theorem DestSet.mem_members : d ∈ a.members ↔ a.mem d = true := by
  simp [DestSet.members, mem_allDests]

theorem DestSet.members_nodup : a.members.Nodup :=
  List.Nodup.filter _ (by decide)

theorem DestSet.isEmpty_iff : a.isEmpty = true ↔ ∀ d, a.mem d = false := by
  simp [DestSet.isEmpty, List.isEmpty_iff, List.eq_nil_iff_forall_not_mem, DestSet.mem_members]

theorem DestSet.allMembers_iff (f : DestId → Bool) : a.allMembers f = true ↔ ∀ d, a.mem d = true → f d = true := by
  simp [DestSet.allMembers, List.all_eq_true, DestSet.mem_members]

variable {a b} in
theorem DestSet.ext_mem (hab : ∀ d, a.mem d = b.mem d) : a = b :=
  Vector.ext fun i hi => hab ⟨i, hi⟩

theorem DestSet.isEmpty_iff_eq : a.isEmpty = true ↔ a = DestSet.empty := by
  rw [DestSet.isEmpty_iff]
  refine ⟨fun ha => DestSet.ext_mem fun d => by rw [ha, DestSet.mem_empty], ?_⟩
  rintro rfl d
  exact DestSet.mem_empty d

/-! ## Sets of fault kinds -/

theorem MarkSet.isEmpty_iff_eq (m : MarkSet) : m.isEmpty = true ↔ m = MarkSet.empty := by
  constructor
  · intro hm
    refine Vector.ext fun i hi => ?_
    have hall := List.all_eq_true.mp hm m[i] (by simp)
    simpa [MarkSet.empty] using hall
  · rintro rfl
    decide

theorem MarkSet.has_insert_self (m : MarkSet) (k : FaultKind) : (m.insert k).has k = true := by
  simp [MarkSet.has, MarkSet.insert]

/-! ## The searches of the tables -/

variable (s : Part) (h : CardId) (k : ClipId)

/-- What a search of a card's manifest finds. -/
theorem findClip_some {f : Clip → Bool} (hk : findClip s h f = some k) :
    k ∈ s.cards[h].clips ∧ ∃ c, s.clips[k] = some c ∧ f c = true := by
  refine ⟨List.mem_of_find?_eq_some hk, ?_⟩
  have hf := List.find?_some hk
  split at hf
  · rename_i c hc
    exact ⟨c, hc, hf⟩
  · cases hf

theorem findClip_none {f : Clip → Bool} :
    findClip s h f = none ↔ ∀ k ∈ s.cards[h].clips, ∀ c, s.clips[k] = some c → f c = false := by
  unfold findClip
  rw [List.find?_eq_none]
  refine forall₂_congr fun j _ => ?_
  cases hj : s.clips[j] <;> simp

theorem inFlightClip_some (hk : inFlightClip s h = some k) :
    k ∈ s.cards[h].clips ∧ ∃ c, s.clips[k] = some c ∧ c.state = .inFlight := by
  obtain ⟨hm, c, hc, hf⟩ := findClip_some s h k hk
  exact ⟨hm, c, hc, by simpa using hf⟩

theorem inFlightClip_none : inFlightClip s h = none ↔
    ∀ k ∈ s.cards[h].clips, ∀ c, s.clips[k] = some c → c.state ≠ .inFlight := by
  unfold inFlightClip
  simp only [findClip_none, beq_eq_false_iff_ne]

theorem firstListed_some (hk : firstListed s h = some k) :
    k ∈ s.cards[h].clips ∧ ∃ c, s.clips[k] = some c ∧ c.state = .listed := by
  obtain ⟨hm, c, hc, hf⟩ := findClip_some s h k hk
  exact ⟨hm, c, hc, by simpa using hf⟩

theorem runningChannel_some {p : PortId} (hp : runningChannel s k = some p) :
    s.channels[p].state = .running ∧ s.channels[p].clip = some k := by
  have hf := List.find?_some hp
  simpa using hf

theorem runningChannel_none : runningChannel s k = none ↔
    ∀ p : PortId, s.channels[p].state = .running → s.channels[p].clip ≠ some k := by
  simp [runningChannel, mem_allPorts]

theorem usedCard_eq {target : Nat} (ht : h.val = target) :
    usedCard s target = if s.cards[h].state = .free then none else some h := by
  subst ht
  simp [usedCard, asCard, h.isLt]

theorem usedCard_some {target : Nat} (hu : usedCard s target = some h) : h.val = target ∧ s.cards[h].state ≠ .free := by
  unfold usedCard asCard at hu
  split at hu
  · rename_i g hg
    split at hg <;> simp only [Option.some.injEq, reduceCtorEq] at hg
    split at hu <;> simp only [Option.some.injEq, reduceCtorEq] at hu
    subst hg hu
    exact ⟨rfl, by assumption⟩
  · cases hu

end Sys2Proof.Machine
end

