-- ==== Sys2Proof/Proofs/Told.lean ====
section
/-! PROOF. R2, R25, R184: the notices of changed cards and destinations. `Told s t` says that from `s` to `t` every change of a
card's state or source and of a destination's state or draining flag has been queued, and that what was queued about a card
or a destination that has not changed is queued still. It composes, so that it holds of an event when it holds of each of its
effects. -/

namespace Sys2Proof.Machine

/-- From `s` to `t` the card has its present state and source queued, or has kept both and every CARD-STATE notice of its. -/
def CardTold (h : CardId) (s t : Part) : Prop :=
  (∃ label, Notice.cardState h label t.cards[h].state t.cards[h].source ∈ t.notices)
    ∨ t.cards[h].state = s.cards[h].state ∧ t.cards[h].source = s.cards[h].source
      ∧ ∀ label st o, Notice.cardState h label st o ∈ s.notices → Notice.cardState h label st o ∈ t.notices

/-- From `s` to `t` the destination has its present state and draining flag queued, or has kept both and every DEST-STATE
notice of its. -/
def DestTold (d : DestId) (s t : Part) : Prop :=
  (∃ ret base length cursor,
      Notice.destState d t.dests[d].state ret base length cursor t.dests[d].draining ∈ t.notices)
    ∨ t.dests[d].state = s.dests[d].state ∧ t.dests[d].draining = s.dests[d].draining
      ∧ ∀ st ret base length cursor draining, Notice.destState d st ret base length cursor draining ∈ s.notices →
        Notice.destState d st ret base length cursor draining ∈ t.notices

def Told (s t : Part) : Prop := (∀ h, CardTold h s t) ∧ ∀ d, DestTold d s t

theorem Told.refl (s : Part) : Told s s :=
  ⟨fun _ => .inr ⟨rfl, rfl, fun _ _ _ hm => hm⟩, fun _ => .inr ⟨rfl, rfl, fun _ _ _ _ _ _ hm => hm⟩⟩

theorem CardTold.trans {h : CardId} {s t u : Part} (a : CardTold h s t) (b : CardTold h t u) : CardTold h s u := by
  rcases b with b | ⟨hst, hso, hkeep⟩
  · exact .inl b
  · rcases a with ⟨label, hm⟩ | ⟨hst', hso', hkeep'⟩
    · exact .inl ⟨label, hst ▸ hso ▸ hkeep _ _ _ hm⟩
    · exact .inr ⟨hst.trans hst', hso.trans hso', fun l st o hm => hkeep l st o (hkeep' l st o hm)⟩

theorem DestTold.trans {d : DestId} {s t u : Part} (a : DestTold d s t) (b : DestTold d t u) : DestTold d s u := by
  rcases b with b | ⟨hst, hdr, hkeep⟩
  · exact .inl b
  · rcases a with ⟨ret, base, length, cursor, hm⟩ | ⟨hst', hdr', hkeep'⟩
    · exact .inl ⟨ret, base, length, cursor, hst ▸ hdr ▸ hkeep _ _ _ _ _ _ hm⟩
    · exact .inr ⟨hst.trans hst', hdr.trans hdr', fun _ _ _ _ _ _ hm => hkeep _ _ _ _ _ _ (hkeep' _ _ _ _ _ _ hm)⟩

theorem Told.trans {s t u : Part} (a : Told s t) (b : Told t u) : Told s u :=
  ⟨fun h => (a.1 h).trans (b.1 h), fun d => (a.2 d).trans (b.2 d)⟩

/-- An effect that changes no state, source or draining flag and takes no notice of them out of the queue. -/
theorem Told.of_kept {s t : Part}
    (hc : ∀ h : CardId, t.cards[h].state = s.cards[h].state ∧ t.cards[h].source = s.cards[h].source)
    (hd : ∀ d : DestId, t.dests[d].state = s.dests[d].state ∧ t.dests[d].draining = s.dests[d].draining)
    (hn : ∀ n ∈ s.notices, n.subject < 14 → n ∈ t.notices) : Told s t :=
  ⟨fun h => .inr ⟨(hc h).1, (hc h).2, fun _ _ _ hm => hn _ hm (by simp only [Notice.subject]; omega)⟩,
    fun d => .inr ⟨(hd d).1, (hd d).2, fun _ _ _ _ _ _ hm => hn _ hm (by simp only [Notice.subject]; omega)⟩⟩

/-- An effect that leaves cards, destinations and the queue alone. -/
theorem Told.of_eq {s t : Part} (hc : t.cards = s.cards) (hd : t.dests = s.dests) (hn : t.notices = s.notices) :
    Told s t :=
  .of_kept (fun _ => by simp [hc]) (fun _ => by simp [hd]) (fun _ hm _ => hn ▸ hm)

variable (s : Part) (h : CardId) (d : DestId)

/-- A notice that speaks of no card's state and no destination. -/
theorem queueNotice_told (n : Notice) (hn : 14 ≤ n.subject) : Told s (queueNotice n s) := by
  refine .of_kept (fun _ => ⟨rfl, rfl⟩) (fun _ => ⟨rfl, rfl⟩) fun m hm hs => mem_enqueue_other n m _ hm ?_
  cases n <;> cases m <;> simp only [Notice.subject, Notice.sameSubject] at hn hs ⊢ <;> omega

/-- R2: a written card. -/
theorem writeCard_told (c : Card) : Told s (writeCard h c s) := by
  refine ⟨fun g => ?_, fun e => .inr ⟨by simp, by simp, fun _ _ _ _ _ _ hm => ?_⟩⟩
  · unfold CardTold
    rw [writeCard_cards, writeCard_notices, get_set]
    by_cases hg : h = g
    · subst hg
      rw [if_pos rfl]
      split
      · rename_i hsame
        exact .inr ⟨hsame.1.symm, hsame.2.symm, fun _ _ _ hm => hm⟩
      · exact .inl ⟨_, mem_enqueue_self _ _⟩
    · rw [if_neg hg]
      refine .inr ⟨rfl, rfl, fun _ _ _ hm => ?_⟩
      split
      · exact hm
      · exact mem_enqueue_other _ _ _ hm (by simpa [Notice.sameSubject] using hg)
  · rw [writeCard_notices]
    split
    · exact hm
    · exact mem_enqueue_other _ _ _ hm rfl

/-- R25: a written destination. -/
theorem writeDest_told (x : Dest) : Told s (writeDest d x s) := by
  refine ⟨fun g => .inr ⟨by simp, by simp, fun _ _ _ hm => ?_⟩, fun e => ?_⟩
  · rw [writeDest_notices]
    split
    · exact hm
    · exact mem_enqueue_other _ _ _ hm rfl
  · unfold DestTold
    rw [writeDest_dests, writeDest_notices, get_set]
    by_cases he : d = e
    · subst he
      rw [if_pos rfl]
      split
      · rename_i hsame
        exact .inr ⟨hsame.1.symm, hsame.2.symm, fun _ _ _ _ _ _ hm => hm⟩
      · exact .inl ⟨_, _, _, _, mem_enqueue_self _ _⟩
    · rw [if_neg he]
      refine .inr ⟨rfl, rfl, fun _ _ _ _ _ _ hm => ?_⟩
      split
      · exact hm
      · exact mem_enqueue_other _ _ _ hm (by simpa [Notice.sameSubject] using he)

end Sys2Proof.Machine
end

