-- ==== Sys2Proof/Proofs/Keeps.lean ====
section
/-! PROOF. What every effect of the copy engine, the grant arbiter and the verify engine keeps, beside the frame of
Laws/Engine.lean: each card's source and manifest, each clip's card and the source ports; no card becomes free; and every
change of state is told (`Told`). -/

namespace Sys2Proof.Machine

structure Keeps (s t : Part) : Prop where
  told    : Told s t
  source  : ∀ h : CardId, t.cards[h].source = s.cards[h].source
  listing : ∀ h : CardId, t.cards[h].clips = s.cards[h].clips
  free    : ∀ h : CardId, t.cards[h].state = .free → s.cards[h].state = .free
  owner   : ∀ k : ClipId, t.clips[k].map Clip.card = s.clips[k].map Clip.card
  ports   : t.ports = s.ports

theorem Keeps.refl (s : Part) : Keeps s s :=
  ⟨.refl s, fun _ => rfl, fun _ => rfl, fun _ hf => hf, fun _ => rfl, rfl⟩

theorem Keeps.trans {s t u : Part} (a : Keeps s t) (b : Keeps t u) : Keeps s u :=
  ⟨a.told.trans b.told, fun h => (b.source h).trans (a.source h), fun h => (b.listing h).trans (a.listing h),
    fun h hf => a.free h (b.free h hf), fun k => (b.owner k).trans (a.owner k), b.ports.trans a.ports⟩

theorem Keeps.foldl {α : Type} (f : Part → α → Part) (hf : ∀ t a, Keeps t (f t a)) (l : List α) (s : Part) :
    Keeps s (l.foldl f s) := by
  induction l generalizing s with
  | nil => exact .refl s
  | cons a as ih => exact (hf s a).trans (ih (f s a))

/-- An effect that leaves all that `Keeps` speaks of alone. -/
theorem Keeps.of_eq {s t : Part} (hc : t.cards = s.cards) (hk : t.clips = s.clips) (hp : t.ports = s.ports)
    (hd : t.dests = s.dests) (hn : t.notices = s.notices) : Keeps s t :=
  ⟨.of_eq hc hd hn, fun _ => by rw [hc], fun _ => by rw [hc], fun _ => by rw [hc]; exact id, fun _ => by rw [hk], hp⟩

variable (s : Part) (h : CardId) (d : DestId) (k : ClipId) (p : PortId) (r : Report)

/-! ## The writes -/

theorem writeCard_keeps (c : Card) (hso : c.source = s.cards[h].source) (hcl : c.clips = s.cards[h].clips)
    (hfr : c.state = .free → s.cards[h].state = .free) : Keeps s (writeCard h c s) where
  told := writeCard_told s h c
  source g := by rw [writeCard_cards, get_set]; split <;> simp_all
  listing g := by rw [writeCard_cards, get_set]; split <;> simp_all
  free g := by rw [writeCard_cards, get_set]; split <;> simp_all
  owner j := by rw [writeCard_clips]
  ports := writeCard_ports s h c

theorem moveCard_keeps (st : CardState) (hst : st ≠ .free) : Keeps s (moveCard h st s) :=
  writeCard_keeps s h _ rfl rfl fun hf => absurd hf hst

theorem writeDest_keeps (x : Dest) : Keeps s (writeDest d x s) where
  told := writeDest_told s d x
  source g := by rw [writeDest_cards]
  listing g := by rw [writeDest_cards]
  free g := by rw [writeDest_cards]; exact id
  owner j := by rw [writeDest_clips]
  ports := writeDest_ports s d x

theorem modClip_owner (f : Clip → Clip) (hf : ∀ c, (f c).card = c.card) (j : ClipId) :
    (modClip k f s).clips[j].map Clip.card = s.clips[j].map Clip.card := by
  rw [modClip_get]
  split
  · rename_i hj
    subst hj
    cases s.clips[k] <;> simp [hf]
  · rfl

theorem modClip_keeps (f : Clip → Clip) (hf : ∀ c, (f c).card = c.card := by intro _; rfl) : Keeps s (modClip k f s) where
  told := .of_eq (modClip_cards s k f) (modClip_dests s k f) (modClip_notices s k f)
  source g := by rw [modClip_cards]
  listing g := by rw [modClip_cards]
  free g := by rw [modClip_cards]; exact id
  owner := modClip_owner s k f hf
  ports := modClip_ports s k f

theorem setChannel_keeps (c : Channel) : Keeps s (setChannel p c s) :=
  .of_eq rfl rfl rfl rfl rfl

theorem idleChannel_keeps : Keeps s (idleChannel p s) := setChannel_keeps s p _

/-! ## Faults and clearance -/

theorem noteOpening_keeps : Keeps s (noteOpening h s) :=
  writeCard_keeps s h _ rfl rfl (by dsimp only; split <;> simp_all)

theorem openCardMark_keeps (f : FaultKind) : Keeps s (openCardMark h f s) := by
  unfold openCardMark
  split
  · exact .refl s
  · refine Keeps.trans ?_ (noteOpening_keeps _ h)
    refine ⟨.of_kept (fun g => ?_) (fun _ => ⟨rfl, rfl⟩) (fun _ hn _ => hn), fun g => ?_, fun g => ?_, fun g => ?_,
      fun _ => rfl, rfl⟩
    all_goals
      dsimp only
      rw [get_set]
      split <;> simp_all

theorem openClipMark_keeps (f : FaultKind) : Keeps s (openClipMark k f s) := by
  unfold openClipMark
  split
  · exact .refl s
  · rename_i c hc
    split
    · exact .refl s
    · refine Keeps.trans ?_ (noteOpening_keeps _ c.card)
      refine ⟨.of_eq rfl rfl rfl, fun _ => rfl, fun _ => rfl, fun _ => id, fun j => ?_, rfl⟩
      dsimp only
      rw [get_set]
      split
      · rename_i hj
        subst hj
        simp [hc]
      · rfl

theorem openMark_keeps : Keeps s (openMark r s) := by
  unfold openMark
  split
  · split
    · exact openCardMark_keeps s _ _
    · exact .refl s
  · split
    · split
      · exact openClipMark_keeps s _ _
      · exact .refl s
    · exact .refl s

theorem raise_keeps : Keeps s (raise r s) := by
  have logged (l : FaultLog) : Keeps s { s with log := l } := .of_eq rfl rfl rfl rfl rfl
  unfold raise
  split
  · exact logged _
  · exact (logged _).trans (openMark_keeps _ r)

theorem enterCleared_keeps : Keeps s (enterCleared h s) := by
  unfold enterCleared
  refine Keeps.trans (writeCard_keeps s h _ ?_ ?_ ?_)
    ⟨queueNotice_told _ _ ?_, fun _ => rfl, fun _ => rfl, fun _ => id, fun _ => rfl, rfl⟩
  · rfl
  · rfl
  · intro hf
    cases hf
  · exact Nat.le_trans (by decide) (Nat.le_add_right 22 _)

theorem evalClearance_keeps : Keeps s (evalClearance h s) := by
  unfold evalClearance
  split
  · exact enterCleared_keeps s h
  · exact .refl s

theorem evalClipClearance_keeps : Keeps s (evalClipClearance k s) := by
  unfold evalClipClearance
  split
  · exact evalClearance_keeps s _
  · exact .refl s

/-! ## Dropping out, draining and the end of an attempt -/

theorem dropOut_keeps : Keeps s (dropOut d s) := by
  unfold dropOut
  split
  · exact .refl s
  · exact (modClip_keeps s _ _).trans (writeDest_keeps _ d _)

theorem withdrawAll_keeps (ds : DestSet) : Keeps s (withdrawAll ds s) :=
  .foldl _ (fun t e => dropOut_keeps t e) _ s

theorem leaveAttempt_keeps : Keeps s (leaveAttempt d s) := by
  unfold leaveAttempt
  split
  · exact .refl s
  · split
    · exact dropOut_keeps s d
    · exact (dropOut_keeps s d).trans (setChannel_keeps _ _ _)

theorem drainedFor_keeps : Keeps s (drainedFor d p s) := by
  unfold drainedFor
  split
  · split
    · split
      · split
        · exact (idleChannel_keeps s p).trans (moveCard_keeps _ _ _ (by decide))
        · exact idleChannel_keeps s p
      · exact idleChannel_keeps s p
    · exact setChannel_keeps s p _
  · exact .refl s

theorem drainEnded_keeps : Keeps s (drainEnded d s) := .foldl _ (fun t q => drainedFor_keeps t d q) _ s

theorem joinQueues_keeps (ds : DestSet) : Keeps s (joinQueues k ds s) :=
  .foldl _ (fun t e => writeDest_keeps t e _) _ s

theorem countFailed_keeps : Keeps s (countFailed k s) := by
  unfold countFailed
  split
  · exact .refl s
  · split
    · exact modClip_keeps s k _
    · exact (modClip_keeps s k _).trans (raise_keeps _ _)

theorem settleClip_keeps : Keeps s (settleClip k s) := by
  unfold settleClip
  split
  · exact .refl s
  · split
    · exact countFailed_keeps s k
    · split
      · exact (modClip_keeps s k _).trans (raise_keeps _ _)
      · exact modClip_keeps s k _

theorem settleCopying_keeps : Keeps s (settleCopying h s) := by
  unfold settleCopying
  split
  · split
    · exact moveCard_keeps s h _ (by decide)
    · exact (moveCard_keeps s h _ (by decide)).trans (evalClearance_keeps _ h)
  · exact .refl s

theorem settleCard_keeps : Keeps s (settleCard h s) := by
  unfold settleCard
  split
  · exact moveCard_keeps s h _ (by decide)
  · exact settleCopying_keeps s h

theorem settleCardOf_keeps : Keeps s (settleCardOf k s) := by
  unfold settleCardOf
  split
  · exact settleCard_keeps s _
  · exact .refl s

theorem closeAttempt_keeps : Keeps s (closeAttempt p k s) :=
  ((idleChannel_keeps s p).trans (joinQueues_keeps _ k _)).trans (settleClip_keeps _ k)

theorem endAttempt_keeps : Keeps s (endAttempt p s) := by
  unfold endAttempt
  split
  · exact (closeAttempt_keeps s _ p).trans (settleCardOf_keeps _ _)
  · exact idleChannel_keeps s p

theorem endIfEmpty_keeps : Keeps s (endIfEmpty p s) := by
  unfold endIfEmpty
  split
  · exact endAttempt_keeps s p
  · exact .refl s

theorem endAttemptOf_keeps : Keeps s (endAttemptOf k s) := by
  unfold endAttemptOf
  split
  · exact endIfEmpty_keeps s _
  · exact .refl s

/-! ## The grant arbiter and the verify engine -/

theorem testFit_keeps (c : Clip) : Keeps s (testFit h k c s d) := by
  unfold testFit
  split
  · exact (writeDest_keeps s d _).trans (raise_keeps _ _)
  · exact .refl s

theorem shortfall_keeps (n : Nat) : Keeps s (shortfall h k n s) :=
  (raise_keeps s _).trans (moveCard_keeps _ h _ (by decide))

theorem consider_keeps : Keeps s (consider s h).1 := by
  unfold consider
  split
  · exact .refl s
  · split
    · exact .refl s
    · split
      · exact .refl s
      · rename_i k _ _ c _ _
        have e := Keeps.foldl (testFit h k c) (fun t a => testFit_keeps t h a k c) allDests s
        simp only
        generalize allDests.foldl (testFit h k c) s = t at e ⊢
        split
        · exact e.trans (shortfall_keeps t h k _)
        · exact e

theorem considerAll_keeps (l : List CardId) : Keeps s (considerAll l s).1 := by
  induction l generalizing s with
  | nil => exact .refl s
  | cons a as ih => exact (consider_keeps s a).trans (ih _)

theorem takeDest_keeps : Keeps s (takeDest k s d) := by
  refine ⟨.of_kept (fun _ => ⟨rfl, rfl⟩) (fun e => ?_) (fun _ hn _ => hn), fun _ => rfl, fun _ => rfl, fun _ => id,
    fun _ => rfl, rfl⟩
  simp only [takeDest, get_set]
  split <;> simp_all

theorem grant_keeps (c : Candidate) : Keeps s (grant c s) := by
  unfold grant
  split
  · exact .refl s
  · rename_i q _
    have taken := Keeps.foldl (takeDest c.clip) (fun t a => takeDest_keeps t a c.clip) c.targets.members s
    have pointer (t : Part) : Keeps t { t with grantPointer := c.card + 1 } := .of_eq rfl rfl rfl rfl rfl
    exact (((taken.trans (pointer _)).trans (modClip_keeps _ c.clip _)).trans (setChannel_keeps _ q _)).trans
      (endIfEmpty_keeps _ q)

theorem grantPasses_keeps (n : Nat) : Keeps s (grantPasses n s) := by
  induction n generalizing s with
  | zero => exact .refl s
  | succ n ih =>
    have passed := considerAll_keeps s (cardOrder s.grantPointer)
    unfold grantPasses
    generalize considerAll (cardOrder s.grantPointer) s = r at passed ⊢
    split
    · exact (passed.trans (grant_keeps _ _)).trans (ih _)
    · exact passed

theorem evalGrant_keeps : Keeps s (evalGrant s) := grantPasses_keeps s _

theorem startVerify_keeps : Keeps s (startVerify s d) := by
  unfold startVerify
  split
  · split
    · exact .refl s
    · split
      · exact .refl s
      · split
        · exact (modClip_keeps s _ _).trans (writeDest_keeps _ d _)
        · exact .refl s
  · exact .refl s

theorem startVerifies_keeps : Keeps s (startVerifies s) := .foldl _ (fun t e => startVerify_keeps t e) _ s

theorem afterEvent_keeps : Keeps s (afterEvent s) := (evalGrant_keeps s).trans (startVerifies_keeps _)

theorem stopVerify_keeps : Keeps s (stopVerify d s) := by
  unfold stopVerify
  split
  · exact .refl s
  · exact (modClip_keeps s _ _).trans (writeDest_keeps _ d _)

/-! ## The tables -/

/-- R1, R3, R4, R10, R7, R8: what keeps sources, manifests, the clips' cards and the ports keeps the links of the tables. -/
theorem Keeps.tablesOk {s t : Part} (e : Keeps s t) (hs : TablesOk s) : TablesOk t := by
  obtain ⟨hlist, hfree, hbind, hatt⟩ := hs
  refine ⟨fun h k => ?_, fun h hf => ?_, fun p h => ?_, fun p hp => ?_⟩
  · rw [e.listing, hlist]
    have ho := e.owner k
    cases hs : s.clips[k] <;> cases ht : t.clips[k] <;> simp_all
  · rw [e.listing, e.source]
    exact hfree h (e.free h hf)
  · rw [e.ports, e.source]
    exact hbind p h
  · rw [e.ports] at hp ⊢
    exact hatt p hp

end Sys2Proof.Machine
end

