-- ==== Sys2Proof/Proofs/Dispatch.lean ====
section
/-! PROOF. What a step can be: a parcel of the station link, an event of a port, the start or the end of a full reset, or a
millisecond. A relation between parts that holds of every effect and composes holds of every parcel of the station stream,
and of those that waited at the link. -/

namespace Sys2Proof.Machine

/-- The effect of the commands that are no parcel of the station link and no part of a full reset. -/
def takeEvent : Instr → Part → Part
  | .portForeignParcel port kind p => portParcelTaken port kind p
  | .sourceAttach p => sourceAttach p
  | .sourceDetach p => sourceDetach p
  | .destLinkUp d => destLinkUp d
  | .destLinkDown d => destLinkDown d
  | .stationLinkDown => stationDown
  | .stationLinkUp => stationRises
  | .sendFetch p => sendFetch p
  | .sourceBlock p b => sourceBlock p b
  | .fetchTimeout p tag => fetchTimeout p tag
  | .sendStore d => sendStore d
  | .storeDone d b => storeDone d b
  | .stallTimeout d => stallTimeout d
  | .sendVerifyFetch d => sendVerifyFetch d
  | .verifyBlock d b => verifyBlock d b
  | .verifyFetchTimeout d tag => verifyFetchTimeout d tag
  | .egressSend => egress
  | _ => id

/-- R173, R187: what a command makes of the part. -/
theorem exec_cases {c : Instr} {s t : State} (hx : exec c s = .next t) :
    t.part = ingress c (takeStation c) s.part
      ∨ t.part = unlessReset (takeEvent c) s.part
      ∨ (∃ cause, t.part = holdReset cause s.part)
      ∨ ∃ src dst present up station, c = .resetEnd src dst present up station
          ∧ t.part = resetEnds src dst present up station s.part := by
  cases c
  case powerOn => cases hx; exact .inr (.inr (.inl ⟨_, rfl⟩))
  case resetPin => cases hx; exact .inr (.inr (.inl ⟨_, rfl⟩))
  case resetEnd => cases hx; exact .inr (.inr (.inr ⟨_, _, _, _, _, rfl, rfl⟩))
  case portForeignParcel | sourceAttach | sourceDetach | destLinkUp | destLinkDown | stationLinkDown | stationLinkUp
      | sendFetch | sourceBlock | fetchTimeout | sendStore | storeDone | stallTimeout | sendVerifyFetch | verifyBlock
      | verifyFetchTimeout | egressSend =>
    cases hx
    exact .inr (.inl rfl)
  all_goals
    cases hx
    exact .inl rfl

/-! ## The answering of directives -/

/-- A relation that holds of what the directive unit does about any directive. -/
structure UnitClosed (R : Part → Part → Prop) : Prop where
  refl    : ∀ s, R s s
  trans   : ∀ {s t u}, R s t → R t u → R s u
  answer  : ∀ a s, R s (placeAnswer a s)
  count   : ∀ s, R s (countRefusal s)
  lock    : ∀ cause s, R s (lockUnit cause s)
  hold    : ∀ cause s, R s (holdReset cause s)
  waiting : ∀ w s, R s { s with waiting := w }

namespace UnitClosed

variable {R : Part → Part → Prop} (hR : UnitClosed R)
include hR

/-- R178, R179: a directive whose owner's effect is in the relation. -/
theorem directive (tag code : Nat) (both : Bool) {owner : Part → Part × Reply} (s : Part) (ho : R s (owner s).1) :
    R s (directive tag code both owner s) := by
  unfold Machine.directive
  split
  · exact hR.trans (hR.count s) (hR.answer _ _)
  · exact hR.trans ho (hR.answer _ _)

theorem malformed (cause tag code : Nat) (s : Part) : R s (malformed cause tag code s) :=
  hR.trans (hR.lock cause s) (hR.answer _ _)

end UnitClosed

/-- A relation that holds of every parcel of the station stream that is taken. -/
structure StationClosed (R : Part → Part → Prop) : Prop extends UnitClosed R where
  directives : ∀ c s, R s (takeDirective c s)
  frameOpen  : ∀ b s, R s (frameOpenTaken b s)
  line       : ∀ b monitorTakes s, R s (lineArrives b monitorTakes s)
  frameClose : ∀ b s, R s (frameCloseTaken b s)

namespace StationClosed

variable {R : Part → Part → Prop} (hR : StationClosed R)
include hR

theorem directiveParcel (p : Rx) (s : Part) : R s (directiveParcelTaken p s) := by
  unfold directiveParcelTaken
  split
  · exact hR.malformed _ _ _ s
  · exact hR.directives _ s

theorem stationParcel (kind : Nat) (p : Rx) (s : Part) : R s (stationParcelTaken kind p s) := by
  unfold stationParcelTaken
  split
  · exact hR.directiveParcel p s
  · exact hR.frameOpen p s
  · exact hR.line p false s
  · exact hR.frameClose p s
  · exact hR.malformed _ _ _ s

theorem station (c : Instr) (s : Part) : R s (takeStation c s) := by
  unfold takeStation
  split
  · exact hR.directiveParcel _ s
  · exact hR.stationParcel _ _ s
  · exact hR.frameOpen _ s
  · exact hR.line _ _ s
  · exact hR.frameClose _ s
  · exact hR.directives _ s

theorem ingress (c : Instr) (s : Part) : R s (ingress c (takeStation c) s) := by
  unfold Machine.ingress unlessReset
  split
  · exact hR.refl s
  · dsimp only
    split
    · exact hR.waiting _ s
    · exact hR.station c s

/-- R170, R173: the parcels that waited are taken in turn. -/
theorem offerWaiting (s : Part) : R s (offerWaiting s) := by
  have all (l : List Instr) (t : Part) : R t (l.foldl (fun t c => Machine.ingress c (takeStation c) t) t) := by
    induction l generalizing t with
    | nil => exact hR.refl t
    | cons c rest ih => exact hR.trans (hR.ingress c t) (ih _)
  exact hR.trans (hR.waiting _ s) (all _ _)

end StationClosed

/-! ## The quiet effects -/

/-- `t` differs from `s` in no card, clip, port, channel or destination, in no notice and in no logged fault. -/
structure Quiet (s t : Part) : Prop where
  cards    : t.cards = s.cards
  clips    : t.clips = s.clips
  ports    : t.ports = s.ports
  channels : t.channels = s.channels
  dests    : t.dests = s.dests
  notices  : t.notices = s.notices
  log      : t.log = s.log

theorem Quiet.refl (s : Part) : Quiet s s := ⟨rfl, rfl, rfl, rfl, rfl, rfl, rfl⟩

theorem Quiet.told {s t : Part} (q : Quiet s t) : Told s t := .of_eq q.cards q.dests q.notices

variable (s : Part)

/-- The directives that act on looks, settings and the watch list, and the queries. -/
theorem stagingWrite_quiet (slot : Nat) (adjusted : Bool) (f : Bank → Bank) :
    Quiet s (stagingWrite slot adjusted f s).1 := by
  unfold stagingWrite
  split
  · exact .refl s
  · split
    · exact .refl s
    · exact ⟨rfl, rfl, rfl, rfl, rfl, rfl, rfl⟩

theorem commitLook_quiet (tag slot : Nat) : Quiet s (commitLook tag slot s).1 := by
  unfold commitLook
  split
  · exact .refl s
  · unfold commitSlot
    split
    · exact .refl s
    · split <;> exact ⟨rfl, rfl, rfl, rfl, rfl, rfl, rfl⟩
    · exact ⟨rfl, rfl, rfl, rfl, rfl, rfl, rfl⟩

theorem mapCamera_quiet (camera code : Nat) : Quiet s (mapCamera camera code s).1 := by
  unfold mapCamera
  split <;> exact ⟨rfl, rfl, rfl, rfl, rfl, rfl, rfl⟩

theorem setProfile_quiet (camera : Nat) (item : ProfileItem) : Quiet s (setProfile camera item s).1 := by
  unfold setProfile
  split <;> exact ⟨rfl, rfl, rfl, rfl, rfl, rfl, rfl⟩

theorem watchPixel_quiet (items : List WatchItem) : Quiet s (watchPixel items s).1 := by
  unfold watchPixel
  split
  · exact .refl s
  · split <;> exact ⟨rfl, rfl, rfl, rfl, rfl, rfl, rfl⟩

theorem unwatchPixel_quiet (items : List UnwatchItem) : Quiet s (unwatchPixel items s).1 := by
  unfold unwatchPixel
  split <;> exact ⟨rfl, rfl, rfl, rfl, rfl, rfl, rfl⟩

theorem queryCard_quiet (card : Nat) : Quiet s (queryCard card s).1 := by
  unfold queryCard
  split <;> exact .refl s

theorem queryClip_quiet (clip : Nat) : Quiet s (queryClip clip s).1 := by
  unfold queryClip
  split <;> exact .refl s

theorem queryDest_quiet (port : Nat) : Quiet s (queryDest port s).1 := by
  unfold queryDest
  split <;> exact .refl s

/-- A relation that holds of what the owner of every directive does. -/
structure OwnersClosed (R : Part → Part → Prop) : Prop extends UnitClosed R where
  quiet      : ∀ {s t}, Quiet s t → R s t
  mount      : ∀ port label copies review mode s, R s (mount port label copies review mode s).1
  listClips  : ∀ card items s, R s (listClips card items s).1
  dismount   : ∀ card s, R s (dismount card s).1
  retire     : ∀ card s, R s (retire card s).1
  route      : ∀ card ports s, R s (route card ports s).1
  start      : ∀ card s, R s (start card s).1
  suspend    : ∀ card s, R s (suspend card s).1
  resume     : ∀ card s, R s (resume card s).1
  abort      : ∀ card s, R s (abort card s).1
  haltAll    : ∀ s, R s (haltAll s).1
  recopy     : ∀ card s, R s (recopy card s).1
  setRegion  : ∀ port base length s, R s (setRegion port base length s).1
  setStall   : ∀ port limit s, R s (setStall port limit s).1
  closeDest  : ∀ port s, R s (closeDest port s).1
  reviveDest : ∀ port s, R s (reviveDest port s).1
  setPacing  : ∀ port p e s, R s (setPacing port p e s).1
  waive      : ∀ card generation s, R s (waive card generation s).1

namespace OwnersClosed

variable {R : Part → Part → Prop} (hR : OwnersClosed R)
include hR

/-- A directive whose item count is checked first (R176 cause 5). -/
theorem counted (cause tag code : Nat) (bad : Prop) [Decidable bad] (f : Part → Part) (hf : R s (f s)) :
    R s ((if bad then Machine.malformed cause tag code else f) s) := by
  split
  · exact hR.malformed cause tag code s
  · exact hf

/-- R179: every directive is in the relation. -/
theorem directives (c : Instr) : R s (takeDirective c s) := by
  have own {owner : Part → Part × Reply} (tag code : Nat) (both : Bool) (ho : R s (owner s).1) :
      R s (Machine.directive tag code both owner s) := hR.directive tag code both s ho
  cases c
  case mount tag port label copies review mode =>
    exact own tag 0x10 false (hR.mount port label copies review mode s)
  case listClips tag card items =>
    exact hR.counted s 5 tag 0x11 _ _ (own tag 0x11 false (hR.listClips card items s))
  case dismount tag card => exact own tag 0x12 false (hR.dismount card s)
  case retire tag card => exact own tag 0x13 false (hR.retire card s)
  case queryCard tag card => exact own tag 0x14 true (hR.quiet (queryCard_quiet s card))
  case queryClip tag clip => exact own tag 0x15 true (hR.quiet (queryClip_quiet s clip))
  case route tag card ports => exact hR.counted s 5 tag 0x20 _ _ (own tag 0x20 false (hR.route card ports s))
  case start tag card => exact own tag 0x21 false (hR.start card s)
  case suspend tag card => exact own tag 0x22 false (hR.suspend card s)
  case resume tag card => exact own tag 0x23 false (hR.resume card s)
  case abort tag card => exact own tag 0x24 false (hR.abort card s)
  case recopy tag card => exact own tag 0x25 false (hR.recopy card s)
  case haltAll tag => exact own tag 0x26 true (hR.haltAll s)
  case setRegion tag port base length => exact own tag 0x30 false (hR.setRegion port base length s)
  case setStall tag port limit => exact own tag 0x31 false (hR.setStall port limit s)
  case closeDest tag port => exact own tag 0x32 false (hR.closeDest port s)
  case reviveDest tag port => exact own tag 0x33 false (hR.reviveDest port s)
  case queryDest tag port => exact own tag 0x34 true (hR.quiet (queryDest_quiet s port))
  case setPacing tag port p e => exact own tag 0x38 false (hR.setPacing port p e s)
  case setLook tag slot item => exact own tag 0x40 false (hR.quiet (stagingWrite_quiet s slot _ _))
  case loadCurve tag slot channel start entries =>
    refine hR.counted s 5 tag 0x41 _ _ (hR.counted s 6 tag 0x41 _ _ (own tag 0x41 false ?_))
    exact hR.quiet (stagingWrite_quiet s slot _ _)
  case loadLattice tag slot start entries =>
    refine hR.counted s 5 tag 0x42 _ _ (hR.counted s 6 tag 0x42 _ _ (own tag 0x42 false ?_))
    exact hR.quiet (stagingWrite_quiet s slot _ _)
  case commitLook tag slot => exact own tag 0x43 false (hR.quiet (commitLook_quiet s tag slot))
  case mapCamera tag camera code => exact own tag 0x44 false (hR.quiet (mapCamera_quiet s camera code))
  case setCompare tag on split => exact own tag 0x45 false (hR.quiet ⟨rfl, rfl, rfl, rfl, rfl, rfl, rfl⟩)
  case setProfile tag camera item => exact own tag 0x50 false (hR.quiet (setProfile_quiet s camera item))
  case watchPixel tag items =>
    exact hR.counted s 5 tag 0x51 _ _ (own tag 0x51 false (hR.quiet (watchPixel_quiet s items)))
  case unwatchPixel tag items =>
    exact hR.counted s 5 tag 0x52 _ _ (own tag 0x52 false (hR.quiet (unwatchPixel_quiet s items)))
  case waive tag card generation => exact own tag 0x60 false (hR.waive card generation s)
  case clearStatus tag => exact own tag 0x70 true (hR.quiet ⟨rfl, rfl, rfl, rfl, rfl, rfl, rfl⟩)
  case resetPart => exact hR.hold .directive s
  case queryPart tag => exact own tag 0x72 true (hR.refl s)
  all_goals exact hR.refl s

end OwnersClosed

/-! ## The picture parcels -/

/-- R145, R146: a fault whose kind marks a clip names that clip's card. -/
def Aimed (r : Report) (s : Part) : Prop :=
  r.kind.marksClip = true → ∀ k c, r.clip = some k → s.clips[k] = some c → r.card = some c.card

/-- A change of a clip record in its frame accounting, its continuity or its source digest alone. -/
def Accounts (f : Clip → Clip) : Prop :=
  ∀ c, (f c).card = c.card ∧ (f c).state = c.state ∧ (f c).copies = c.copies ∧ (f c).openMarks = c.openMarks
    ∧ (f c).waivedMarks = c.waivedMarks

/-- A relation that holds of what the frame tracker and the check unit do. -/
structure PictureClosed (R : Part → Part → Prop) : Prop where
  refl   : ∀ s, R s s
  trans  : ∀ {s t u}, R s t → R t u → R s u
  quiet  : ∀ {s t}, Quiet s t → R s t
  raise  : ∀ r s, Aimed r s → R s (raise r s)
  clip   : ∀ k f s, Accounts f → R s (modClip k f s)
  commit : ∀ k tag frame s, R s (queueNotice (.lookCommitted k tag frame) s)
  clear  : ∀ k s, R s (evalClipClearance k s)

namespace PictureClosed

variable {R : Part → Part → Prop} (hR : PictureClosed R) (f : OpenFrame)
include hR

/-- A quiet effect written out in place. -/
theorem quietly {s t : Part} (q : Quiet s t := by constructor <;> rfl) : R s t := hR.quiet q

theorem foldl {α : Type} (g : Part → α → Part) (hg : ∀ t a, R t (g t a)) (l : List α) : R s (l.foldl g s) := by
  induction l generalizing s with
  | nil => exact hR.refl s
  | cons a as ih => exact hR.trans (hg s a) (ih _)

theorem raiseFrame (kind : FaultKind) (detail : Nat) : R s (raiseFrame f kind detail s) := by
  refine hR.raise _ s fun _ k c hk hc => ?_
  simp only [frameReport] at hk ⊢
  rw [hk, Option.bind_some, clipCard, hc, Option.map_some]

theorem clipChange : R s (clipChange f s) := by
  unfold Machine.clipChange
  split
  · exact hR.refl s
  · exact hR.quietly

theorem runFault (kind : FaultKind) (count limit : Nat) (flag : Bool) : R s (runFault f kind count limit flag s) := by
  unfold Machine.runFault
  split
  · exact hR.raiseFrame s f kind count
  · exact hR.refl s

theorem runFaults : R s (runFaults f s) :=
  hR.trans (hR.runFault s f _ _ _ _) (hR.trans (hR.runFault _ f _ _ _ _) (hR.trans (hR.runFault _ f _ _ _ _)
    hR.quietly))

theorem hotPixels : R s (hotPixels f s) := by
  refine hR.trans hR.quietly (hR.foldl _ (raiseHot f) (fun t e => ?_) _)
  unfold raiseHot
  split
  · exact hR.raiseFrame t f _ _
  · exact hR.refl t

theorem continuity : R s (continuity f s) := by
  unfold Machine.continuity
  split
  · exact hR.refl s
  · split
    · exact hR.refl s
    · refine hR.trans (hR.foldl s _ (fun t _ => hR.raiseFrame t f _ _) _) (hR.clip _ _ _ fun c => ?_)
      unfold continuityUpdate
      split <;> exact ⟨rfl, rfl, rfl, rfl, rfl⟩

theorem endOfFrameChecks (abandoned : Bool) : R s (endOfFrameChecks f abandoned s) :=
  hR.trans (hR.clipChange s f) (hR.trans (hR.runFaults _ f) (hR.trans (hR.hotPixels _ f) (hR.trans (hR.continuity _ f)
    hR.quietly)))

theorem accountFrame : R s (accountFrame f s) := by
  unfold Machine.accountFrame
  split
  · exact hR.refl s
  · exact hR.clip _ _ s fun _ => ⟨rfl, rfl, rfl, rfl, rfl⟩

theorem applyCommits (frame : Nat) : R s (applyCommits frame s) := by
  refine hR.foldl s _ (fun t k => ?_) _
  unfold applyCommit
  split
  · exact hR.trans hR.quietly (hR.commit k _ frame _)
  · exact hR.refl t

theorem clearanceOfFrame : R s (clearanceOfFrame f s) := by
  unfold Machine.clearanceOfFrame
  split
  · exact hR.clear _ s
  · exact hR.refl s

/-- R97, R99: the end of a frame. -/
theorem endFrame (short abandoned : Bool) : R s (endFrame f short abandoned s) := by
  unfold Machine.endFrame
  have shortened : R s (if short then Machine.raiseFrame f .shortFrame (shortDetail f) s else s) := by
    split
    · exact hR.raiseFrame s f _ _
    · exact hR.refl s
  dsimp only
  generalize (if short then Machine.raiseFrame f .shortFrame (shortDetail f) s else s) = s1 at shortened ⊢
  have accounted := hR.trans shortened (hR.accountFrame s1 f)
  generalize Machine.accountFrame f s1 = s2 at accounted ⊢
  have committed := hR.trans accounted (hR.trans (hR.endOfFrameChecks s2 f abandoned) (hR.applyCommits _ f.number))
  generalize Machine.applyCommits f.number (Machine.endOfFrameChecks f abandoned s2) = s4 at committed ⊢
  exact hR.trans committed (hR.trans hR.quietly (hR.clearanceOfFrame { s4 with frame := none } f))

theorem abandonFrame : R s (abandonFrame s) := by
  unfold Machine.abandonFrame
  split
  · exact hR.endFrame s _ true true
  · exact hR.refl s

theorem openFrame (o : FrameOpening) : R s (openFrame o s) := by
  unfold Machine.openFrame
  dsimp only
  split
  · exact hR.quietly
  · have raised := hR.raise ⟨.orphanPicture, none, none, none, some (o.number, o.tc), o.clip⟩ s fun hk => nomatch hk
    exact hR.trans raised hR.quietly

theorem frameOpenTaken (b : Rx) : R s (frameOpenTaken b s) := by
  unfold Machine.frameOpenTaken
  split
  · exact hR.trans (hR.abandonFrame s) (hR.raise _ _ (by intro hk; cases hk))
  · exact hR.trans (hR.abandonFrame s) (hR.openFrame _ _)

/-- R93: LINE_ORDER marks no clip. -/
theorem lineOrder (t : Part) (reason value : Nat) : R s (Machine.raise (lineOrderReport t reason value) s) := by
  refine hR.raise _ s fun hk => ?_
  have hkind : (lineOrderReport t reason value).kind = .lineOrder := by unfold lineOrderReport; split <;> rfl
  rw [hkind] at hk
  cases hk

omit hR in
theorem carried_quiet (p : Rx) : Quiet s (carried p s).2 := by
  unfold carried
  split <;> exact ⟨rfl, rfl, rfl, rfl, rfl, rfl, rfl⟩

theorem lineArrives (b : Rx) (monitorTakes : Bool) : R s (lineArrives b monitorTakes s) := by
  unfold Machine.lineArrives
  split
  · exact hR.trans (hR.quiet (carried_quiet s b)) (hR.lineOrder _ _ _ _)
  · split
    · exact hR.lineOrder s s _ _
    · split
      · exact hR.lineOrder s s _ _
      · split
        · exact hR.lineOrder s s _ _
        · exact hR.quietly

theorem frameCloseTaken (b : Rx) : R s (frameCloseTaken b s) := by
  unfold Machine.frameCloseTaken
  split
  · exact hR.trans (hR.quiet (carried_quiet s b)) (hR.lineOrder _ _ _ _)
  · split <;> exact hR.endFrame s _ _ _

end PictureClosed

/-- R173: a relation that holds of the owners' effects and of the frame tracker's holds of every parcel of the station
stream. -/
theorem OwnersClosed.station {R : Part → Part → Prop} (hR : OwnersClosed R) (hP : PictureClosed R) : StationClosed R where
  toUnitClosed := hR.toUnitClosed
  directives c s := hR.directives s c
  frameOpen b s := hP.frameOpenTaken s b
  line b monitorTakes s := hP.lineArrives s b monitorTakes
  frameClose b s := hP.frameCloseTaken s b

end Sys2Proof.Machine
end

