-- ==== Sys2Proof/Proofs/Changes.lean ====
section
/-! PROOF. R2, R25, R184: every command but the end of a full reset tells of the changes it makes (`Told`). -/

namespace Sys2Proof.Machine

variable (s : Part) (h : CardId) (d : DestId) (k : ClipId) (p : PortId)

/-! ## The directive unit and the frame tracker -/

theorem placeAnswer_told (a : Answer) : Told s (placeAnswer a s) := by
  unfold placeAnswer
  split
  · exact .of_eq rfl rfl rfl
  · exact queueNotice_told s _ (Nat.le_add_right 14 17)

theorem lockUnit_told (cause : Nat) : Told s (lockUnit cause s) := by
  unfold lockUnit
  split
  · exact .of_eq rfl rfl rfl
  · exact Told.trans (t := { s with unit := { s.unit with status := { s.unit.status with locked := true, cause := some cause } } })
      (.of_eq rfl rfl rfl) (raise_keeps _ _).told

theorem told_unit : UnitClosed Told where
  refl := .refl
  trans := .trans
  answer a s := placeAnswer_told s a
  count _ := .of_eq rfl rfl rfl
  lock cause s := lockUnit_told s cause
  hold _ _ := .of_eq rfl rfl rfl
  waiting _ _ := .of_eq rfl rfl rfl

theorem told_picture : PictureClosed Told where
  refl := .refl
  trans := .trans
  quiet := Quiet.told
  raise r s _ := (raise_keeps s r).told
  clip k f s hf := (modClip_keeps s k f fun c => (hf c).1).told
  commit _ _ _ s := queueNotice_told s _ (Nat.le_add_right 14 _)
  clear k s := (evalClipClearance_keeps s k).told

/-! ## Cards and clips -/

theorem moveCard_told (st : CardState) : Told s (moveCard h st s) := writeCard_told s h _

theorem setPort_told (x : SourcePort) : Told s (setPort p x s) := .of_eq rfl rfl rfl

theorem unbindPort_told (o : Option PortId) : Told s (unbindPort o s) := by
  unfold unbindPort
  split
  · exact setPort_told s _ _
  · exact .refl s

theorem mount_told (port : Nat) (label : List Byte) (copies review mode : Nat) :
    Told s (mount port label copies review mode s).1 := by
  unfold mount
  split
  · exact .refl s
  · split
    · exact .refl s
    · split
      · split
        · exact .refl s
        · split
          · exact (setPort_told s _ _).trans (writeCard_told _ _ _)
          · exact .refl s
      · split
        · exact .refl s
        · exact (setPort_told s _ _).trans (writeCard_told _ _ _)

/-- R3, R4: assigning clip records changes the clip table alone. -/
theorem assignClips_frame (l : List (ClipId × ClipItem)) :
    assignClips h l s = { s with clips := (assignClips h l s).clips } := by
  induction l generalizing s with
  | nil => rfl
  | cons x rest ih => rw [assignClips, ih]

theorem appendClips_told (items : List ClipItem) : Told s (appendClips h items s) := by
  unfold appendClips
  refine Told.trans (t := assignClips h ((assignedHandles s items).zip items) s) ?_ (writeCard_told _ _ _)
  rw [assignClips_frame]
  exact .of_eq rfl rfl rfl

theorem listClips_told (card : Nat) (items : List ClipItem) : Told s (listClips card items s).1 := by
  unfold listClips
  split
  · exact .refl s
  · split
    · exact .refl s
    · split
      · exact .refl s
      · dsimp only
        split
        · exact (appendClips_told s _ items).trans (afterEvent_keeps _).told
        · exact appendClips_told s _ items

/-- R10 step 1: freeing clip records changes the clip table alone. -/
theorem freeClipRecords_frame (ks : List ClipId) :
    freeClipRecords ks s = { s with clips := (freeClipRecords ks s).clips } := by
  unfold freeClipRecords
  induction ks generalizing s with
  | nil => rfl
  | cons k rest ih => rw [List.foldl_cons, ih]

theorem Dest.forget_kept (ks : List ClipId) (x : Dest) :
    x.forget ks = { x with
      queue := x.queue.filter fun k => !ks.contains k
      context := (x.forget ks).context, fetches := (x.forget ks).fetches } := by
  unfold Dest.forget
  split
  · split <;> rfl
  · rfl

theorem release_told : Told s (release h s) := by
  unfold release
  refine Told.trans (Told.trans ?_ (unbindPort_told _ _)) ((writeCard_told _ _ _).trans (startVerifies_keeps _).told)
  rw [freeClipRecords_frame]
  refine .of_kept (fun _ => ⟨rfl, rfl⟩) (fun d => ?_) (fun _ hn _ => hn)
  dsimp only
  rw [mapEach_get, Dest.forget_kept]
  exact ⟨rfl, rfl⟩

theorem loseSource_told : Told s (loseSource h s) := writeCard_told s h _

theorem dismount_told (card : Nat) : Told s (dismount card s).1 := by
  unfold dismount
  split
  · exact .refl s
  · rename_i h _
    split
    · exact .refl s
    · exact .refl s
    · exact .refl s
    · dsimp only
      exact release_told s h
    · dsimp only
      exact (unbindPort_told s s.cards[h].source).trans (loseSource_told _ h)

theorem retire_told (card : Nat) : Told s (retire card s).1 := by
  unfold retire
  split
  · exact .refl s
  · rename_i h _
    split
    · exact .refl s
    · dsimp only
      exact release_told s h

/-! ## Copying -/

theorem route_told (card : Nat) (ports : List Nat) : Told s (route card ports s).1 := by
  unfold route
  split
  · exact .refl s
  · split
    · exact .refl s
    · split
      · exact .refl s
      · split
        · exact .refl s
        · exact writeCard_told s _ _

theorem start_told (card : Nat) : Told s (start card s).1 := by
  unfold start
  split
  · exact .refl s
  · rename_i h _
    split
    · exact .refl s
    · split
      · exact .refl s
      · split
        · exact .refl s
        · dsimp only
          exact (moveCard_told s h .copying).trans ((settleCopying_keeps _ h).trans (afterEvent_keeps _)).told

theorem abandonClip_keeps : Keeps s (abandonClip p k s) :=
  (((withdrawAll_keeps s _).trans (idleChannel_keeps _ p)).trans (joinQueues_keeps _ k _)).trans (modClip_keeps _ k _)

theorem promptAbandon_told : Told s (promptAbandon h p k s) := by
  refine Told.trans ?_ (afterEvent_keeps _).told
  refine (abandonClip_keeps s k p).told.trans ?_
  unfold settleAbandon
  split
  · exact writeCard_told _ h _
  · exact (setChannel_keeps _ p _).told.trans (writeCard_told _ h _)

theorem suspendInFlight_told : Told s (suspendInFlight h k s) := by
  unfold suspendInFlight
  split
  · exact writeCard_told s h _
  · split
    · exact writeCard_told s h _
    · split
      · exact promptAbandon_told s h k _
      · exact writeCard_told s h _

theorem suspend_told (card : Nat) : Told s (suspend card s).1 := by
  unfold suspend
  split
  · exact .refl s
  · split
    · exact .refl s
    · split
      · exact writeCard_told s _ _
      · exact suspendInFlight_told s _ _

theorem resume_told (card : Nat) : Told s (resume card s).1 := by
  unfold resume
  split
  · exact .refl s
  · split
    · exact .refl s
    · rename_i h _ _
      unfold resumeCard
      have settled := (writeCard_told s h (s.cards[h].toState .copying)).trans
        (settleCopying_keeps (moveCard h .copying s) h).told
      dsimp only
      split
      · exact settled.trans (afterEvent_keeps _).told
      · exact settled

theorem stopClip_keeps : Keeps s (stopClip p k s) :=
  (((withdrawAll_keeps s _).trans (idleChannel_keeps _ p)).trans (joinQueues_keeps _ k _)).trans (countFailed_keeps _ k)

theorem stopChannel_keeps : Keeps s (stopChannel p s) := by
  unfold stopChannel
  split
  · exact .refl s
  · exact idleChannel_keeps s p
  · split
    · exact stopClip_keeps s _ p
    · exact idleChannel_keeps s p

theorem abortCard_keeps : Keeps s (abortCard h s) := by
  unfold abortCard
  refine Keeps.trans ?_ (moveCard_keeps _ h _ (by decide))
  split
  · exact stopChannel_keeps s _
  · exact .refl s

theorem abort_told (card : Nat) : Told s (abort card s).1 := by
  unfold abort
  split
  · exact .refl s
  · split
    · exact .refl s
    · dsimp only
      split
      · exact ((abortCard_keeps s _).trans (afterEvent_keeps _)).told
      · exact (abortCard_keeps s _).told

theorem haltCard_keeps : Keeps s (haltCard s h) := by
  unfold haltCard
  split
  · exact abortCard_keeps s h
  · exact .refl s

theorem haltVerify_keeps : Keeps s (haltVerify s d) := by
  unfold haltVerify
  split
  · exact .refl s
  · exact (stopVerify_keeps s d).trans (writeDest_keeps _ d _)

theorem haltAll_told : Told s (haltAll s).1 := by
  have halted : Keeps s (allDests.foldl haltVerify (allCards.foldl haltCard s)) :=
    (Keeps.foldl _ (fun t h => haltCard_keeps t h) _ s).trans (.foldl _ (fun t d => haltVerify_keeps t d) _ _)
  have accepting (n : Nat) (t : Part) : Keeps t (acceptWith n t) := .of_eq rfl rfl rfl rfl rfl
  unfold haltAll
  dsimp only
  exact ((halted.trans (accepting _ _)).trans (afterEvent_keeps _)).told

theorem relistAll_keeps (required : Nat) (ks : List ClipId) : Keeps s (relistAll required ks s) :=
  .foldl _ (fun t k => modClip_keeps t k _ fun c => by unfold Clip.relisted; split <;> rfl) _ s

theorem recopyNothing_told : Told s (recopyNothing h s) := by
  unfold recopyNothing
  split
  · split
    · exact writeCard_told s h _
    · exact (writeCard_told s h _).trans (evalClearance_keeps _ h).told
  · exact .refl s

theorem recopy_told (card : Nat) : Told s (recopy card s).1 := by
  unfold recopy
  split
  · exact .refl s
  · rename_i h _
    split
    · exact .refl s
    · split
      · exact .refl s
      · split
        · exact .refl s
        · split
          · dsimp only
            exact ((relistAll_keeps s _ _).told.trans (moveCard_told _ h .copying)).trans (afterEvent_keeps _).told
          · exact recopyNothing_told s h

/-! ## Destinations -/

theorem changeDest_keeps (x : Dest) : Keeps s (changeDest d x s) := by
  unfold changeDest
  split
  · exact writeDest_keeps s d x
  · exact (writeDest_keeps s d x).trans (afterEvent_keeps _)

theorem setRegion_keeps (port base length : Nat) : Keeps s (setRegion port base length s).1 := by
  unfold setRegion
  split
  · exact .refl s
  · split
    · exact .refl s
    · split
      · exact .refl s
      · exact changeDest_keeps s _ _

theorem setStall_keeps (port limit : Nat) : Keeps s (setStall port limit s).1 := by
  unfold setStall
  split
  · exact .refl s
  · exact writeDest_keeps s _ _

theorem closeDest_keeps (port : Nat) : Keeps s (closeDest port s).1 := by
  unfold closeDest
  split
  · exact .refl s
  · split
    · exact changeDest_keeps s _ _
    · exact changeDest_keeps s _ _
    all_goals exact .refl s

theorem reviveDest_keeps (port : Nat) : Keeps s (reviveDest port s).1 := by
  unfold reviveDest
  split
  · exact .refl s
  · split
    · exact changeDest_keeps s _ _
    · exact .refl s

theorem setPacing_keeps (port q e : Nat) : Keeps s (setPacing port q e s).1 := by
  unfold setPacing
  split
  · exact .refl s
  · exact writeDest_keeps s _ _

/-! ## Waivers -/

theorem waiveClips_keeps (ks : List ClipId) : Keeps s (waiveClips ks s) :=
  .foldl _ (fun t k => modClip_keeps t k _) _ s

theorem waiveCard_told : Told s (waiveCard h s) :=
  ((waiveClips_keeps s _).told.trans (writeCard_told _ _ _)).trans (evalClearance_keeps _ h).told

theorem waive_told (card generation : Nat) : Told s (waive card generation s).1 := by
  unfold waive
  split
  · exact .refl s
  · split
    · exact .refl s
    · split
      · exact .refl s
      · dsimp only
        exact waiveCard_told s _

/-! ## The directives and the station stream -/

theorem told_owners : OwnersClosed Told where
  toUnitClosed := told_unit
  quiet := Quiet.told
  mount port label copies review mode s := mount_told s port label copies review mode
  listClips card items s := listClips_told s card items
  dismount card s := dismount_told s card
  retire card s := retire_told s card
  route card ports s := route_told s card ports
  start card s := start_told s card
  suspend card s := suspend_told s card
  resume card s := resume_told s card
  abort card s := abort_told s card
  haltAll s := haltAll_told s
  recopy card s := recopy_told s card
  setRegion port base length s := (setRegion_keeps s port base length).told
  setStall port limit s := (setStall_keeps s port limit).told
  closeDest port s := (closeDest_keeps s port).told
  reviveDest port s := (reviveDest_keeps s port).told
  setPacing port p e s := (setPacing_keeps s port p e).told
  waive card generation s := waive_told s card generation

theorem told_station : StationClosed Told := told_owners.station told_picture

/-! ## The events of the ports -/

/-- R7, R17: a port written and a card released or left without its source. -/
theorem detachChannel_keeps : Keeps s (detachChannel p s) := by
  unfold detachChannel
  split
  · exact .refl s
  · exact idleChannel_keeps s p
  · split
    · exact (withdrawAll_keeps s _).trans (closeAttempt_keeps _ _ p)
    · exact idleChannel_keeps s p

theorem detachCopying_told : Told s (detachCopying h p s) := by
  unfold detachCopying
  dsimp only
  generalize (⟨.sourceLost, some h, inFlightClip s h, none, none, p.val⟩ : Report) = r
  have held := (raise_keeps s r).told.trans
    (writeCard_told (raise r s) h { (raise r s).cards[h].toState .held with source := none })
  split
  · exact held
  · exact held.trans ((detachChannel_keeps _ p).trans (afterEvent_keeps _)).told

theorem detach_told : Told s (detach p s) := by
  unfold detach
  split
  · refine (setPort_told s p ⟨false, none⟩).trans ?_
    unfold detachCard
    split
    · exact release_told _ _
    · exact detachCopying_told _ _ p
    · exact detachCopying_told _ _ p
    · exact detachCopying_told _ _ p
    · exact loseSource_told _ _
  · exact setPort_told s p _

theorem sourceDetach_told : Told s (sourceDetach p s) := by
  unfold sourceDetach
  split
  · exact detach_told s p
  · exact .refl s

theorem sourceAttach_told : Told s (sourceAttach p s) := by
  unfold sourceAttach
  split
  · refine Told.trans ?_ (setPort_told _ p _)
    split
    · exact detach_told s p
    · exact .refl s
  · exact .refl s

theorem destLinkUp_keeps : Keeps s (destLinkUp d s) := by
  unfold destLinkUp
  split
  · exact (writeDest_keeps s d _).trans (afterEvent_keeps _)
  · exact .refl s

/-- R28, R35: the loss of a destination's service. -/
theorem loseDest_keeps (st : DestState) (ret : Option Service) (kind : FaultKind) :
    Keeps s (loseDest d st ret kind s) := by
  unfold loseDest
  dsimp only
  have stopped : Keeps s (stopVerify d (leaveAttempt d (writeDest d (s.dests[d].lost st ret) s))) :=
    ((writeDest_keeps s d _).trans (leaveAttempt_keeps _ d)).trans (stopVerify_keeps _ d)
  have raised := stopped.trans (raise_keeps _ ⟨kind, none, none, some d, none, s.dests[d].outstanding⟩)
  generalize raise ⟨kind, none, none, some d, none, s.dests[d].outstanding⟩ (stopVerify d (leaveAttempt d
    (writeDest d (s.dests[d].lost st ret) s))) = s2 at raised ⊢
  have heard : Keeps s (if s.dests[d].draining then drainEnded d s2 else s2) := by
    split
    · exact raised.trans (drainEnded_keeps s2 d)
    · exact raised
  refine Keeps.trans ?_ (afterEvent_keeps _)
  split
  · exact heard.trans (endAttemptOf_keeps _ _)
  · exact heard

theorem destLinkDown_keeps : Keeps s (destLinkDown d s) := by
  unfold destLinkDown
  split
  · exact loseDest_keeps s d _ _ _
  · exact .refl s

theorem stallTimeout_keeps : Keeps s (stallTimeout d s) := by
  unfold stallTimeout
  split
  · exact loseDest_keeps s d _ _ _
  · exact .refl s

theorem stationDown_told : Told s (stationDown s) :=
  (told_picture.abandonFrame s).trans (.of_eq rfl rfl rfl)

/-! ## Requests and answers -/

theorem out_keeps (o : List Sent) : Keeps s { s with out := o } := .of_eq rfl rfl rfl rfl rfl

theorem sendFetch_keeps : Keeps s (sendFetch p s) := by
  unfold sendFetch
  split
  · exact .refl s
  · split
    · exact (out_keeps s _).trans (setChannel_keeps _ p _)
    · exact .refl s

theorem finishDigest_keeps (value : Nat) : Keeps s (finishDigest k value s) := by
  unfold finishDigest
  split
  · exact .refl s
  · split
    · dsimp only
      split
      · exact (modClip_keeps s k _).trans (raise_keeps _ _)
      · exact modClip_keeps s k _
    · split
      · exact .refl s
      · exact raise_keeps s _

theorem blockArrived_keeps (x : ClipId × Clip) (block : Nat) (data : List Byte) :
    Keeps s (blockArrived p x block data s) := by
  unfold blockArrived
  dsimp only
  split
  · exact (setChannel_keeps s p _).trans (finishDigest_keeps _ _ _)
  · exact setChannel_keeps s p _

theorem blockFailed_keeps (block : Nat) : Keeps s (blockFailed p k block s) :=
  ((((raise_keeps s _).trans (withdrawAll_keeps _ _)).trans (idleChannel_keeps _ p)).trans
    ((countFailed_keeps _ k).trans (settleCardOf_keeps _ k))).trans (afterEvent_keeps _)

theorem tryFailed_keeps (f : Fetch) : Keeps s (tryFailed p k f s) := by
  unfold tryFailed
  split
  · exact setChannel_keeps s p _
  · exact blockFailed_keeps s k p _

theorem sourceBlock_keeps (b : Rx) : Keeps s (sourceBlock p b s) := by
  unfold sourceBlock
  split
  · exact .refl s
  · have dropped : Keeps s (dropFetch p b.tag s) := setChannel_keeps s p _
    split
    · exact dropped
    · split
      · exact dropped.trans (tryFailed_keeps _ _ p _)
      · exact dropped.trans (blockArrived_keeps _ p _ _ _)

theorem fetchTimeout_keeps (tag : Nat) : Keeps s (fetchTimeout p tag s) := by
  unfold fetchTimeout
  split
  · exact .refl s
  · have dropped : Keeps s (dropFetch p tag s) := setChannel_keeps s p _
    split
    · exact dropped
    · exact dropped.trans (tryFailed_keeps _ _ p _)

theorem sendStore_keeps : Keeps s (sendStore d s) := by
  unfold sendStore
  split
  · exact ((out_keeps s _).trans (setChannel_keeps _ _ _)).trans (writeDest_keeps _ d _)
  · exact .refl s

theorem drainingAnswer_keeps : Keeps s (drainingAnswer d s) := by
  unfold drainingAnswer
  split
  · exact ((writeDest_keeps s d _).trans (drainEnded_keeps _ d)).trans (afterEvent_keeps _)
  · exact .refl s

theorem completeDest_keeps (sectors : Nat) : Keeps s (completeDest d k p sectors s) := by
  unfold completeDest
  dsimp only
  exact (((modClip_keeps s k _).trans (writeDest_keeps _ d _)).trans (setChannel_keeps _ p _)).trans
    ((endIfEmpty_keeps _ p).trans (afterEvent_keeps _))

theorem storeSucceeded_keeps : Keeps s (storeSucceeded d k s) := by
  unfold storeSucceeded
  dsimp only
  split
  · split
    · exact (writeDest_keeps s d _).trans (completeDest_keeps _ d k _ _)
    · exact writeDest_keeps s d _
  · exact writeDest_keeps s d _

theorem storeFailed_keeps (block : Nat) : Keeps s (storeFailed d k block s) :=
  (((raise_keeps s _).trans (leaveAttempt_keeps _ d)).trans (endAttemptOf_keeps _ k)).trans (afterEvent_keeps _)

theorem storeDone_keeps (b : Rx) : Keeps s (storeDone d b s) := by
  unfold storeDone
  split
  · exact .refl s
  · split
    · exact .refl s
    · have taken := writeDest_keeps s d (s.dests[d].storeTaken b.tag)
      dsimp only
      split
      · exact taken.trans (drainingAnswer_keeps _ d)
      · split
        · split
          · exact taken.trans (storeSucceeded_keeps _ d _)
          · exact taken.trans (storeFailed_keeps _ d _ _)
        · exact taken

theorem sendVerifyFetch_keeps : Keeps s (sendVerifyFetch d s) := by
  unfold sendVerifyFetch
  split
  · exact .refl s
  · exact (out_keeps s _).trans (writeDest_keeps _ d _)

theorem endVerify_keeps (v : VerifyContext) (verdict : Copy) (fault : Option (FaultKind × Nat)) :
    Keeps s (endVerify d v verdict fault s) := by
  unfold endVerify
  dsimp only
  refine Keeps.trans ?_ (startVerifies_keeps _)
  refine Keeps.trans ?_ (evalClipClearance_keeps _ v.clip)
  have freed := (modClip_keeps s v.clip fun c => { c with copies := c.copies.set d verdict }).trans
    (writeDest_keeps _ d s.dests[d].verifyOver)
  split
  · exact freed.trans (raise_keeps _ _)
  · exact freed

theorem compareDigest_keeps (v : VerifyContext) (c : Clip) : Keeps s (compareDigest d v c s) := by
  unfold compareDigest
  split <;> exact endVerify_keeps s d _ _ _

theorem readFailed_keeps (v : VerifyContext) (t : Try) : Keeps s (readFailed d v t s) := by
  unfold readFailed
  split
  · exact writeDest_keeps s d _
  · exact endVerify_keeps s d _ _ _

theorem readArrived_keeps (v : VerifyContext) (block : Nat) (data : List Byte) :
    Keeps s (readArrived d v block data s) := by
  unfold readArrived
  split
  · exact .refl s
  · dsimp only
    split
    · exact (writeDest_keeps s d _).trans (compareDigest_keeps _ d _ _)
    · exact writeDest_keeps s d _

theorem verifyBlock_keeps (b : Rx) : Keeps s (verifyBlock d b s) := by
  unfold verifyBlock
  split
  · exact .refl s
  · have taken := writeDest_keeps s d (s.dests[d].withoutFetch b.tag).answered
    dsimp only
    split
    · split
      · exact taken.trans (readFailed_keeps _ d _ _)
      · exact taken.trans (readArrived_keeps _ d _ _ _)
    · exact taken

theorem verifyFetchTimeout_keeps (tag : Nat) : Keeps s (verifyFetchTimeout d tag s) := by
  unfold verifyFetchTimeout
  split
  · exact .refl s
  · have taken := writeDest_keeps s d (s.dests[d].withoutFetch tag).failedRequest
    dsimp only
    split
    · exact taken.trans (readFailed_keeps _ d _ _)
    · exact taken

theorem portParcelTaken_keeps (port : Port) (kind : Nat) (b : Rx) : Keeps s (portParcelTaken port kind b s) := by
  unfold portParcelTaken
  split
  · exact sourceBlock_keeps s _ b
  · exact verifyBlock_keeps s _ b
  · exact storeDone_keeps s _ b
  · exact .refl s

/-! ## Station egress -/

theorem releaseHeld_told : Told s (releaseHeld s) := by
  unfold releaseHeld
  split
  · rename_i a _
    have answered := queueNotice_told { s with unit := { s.unit with held := none } } (.answer a) (Nat.le_add_right 14 17)
    exact (Told.trans (.of_eq rfl rfl rfl) answered).trans (told_station.offerWaiting _)
  · exact .refl s

theorem noticeSent_told (n : Notice) : Told s (noticeSent n s) := by
  unfold noticeSent
  split
  · exact releaseHeld_told s
  · exact writeCard_told s _ _
  · exact .refl s

/-- R151, R143: what leaves when no notice waits touches the fault log, the statistics slot and the record of what left. -/
theorem egress_empty_told (hn : s.notices = []) : Told s (egress s) := by
  unfold egress
  split
  · exact .refl s
  · rw [hn]
    dsimp only
    have faults (t : Part) (ht : sendFault s = some t) : Told s t := by
      unfold sendFault at ht
      split at ht
      · cases ht; exact .of_eq rfl rfl rfl
      · split at ht <;> cases ht
        exact .of_eq rfl rfl rfl
    split
    · exact faults _ (by assumption)
    · unfold sendStats
      split
      · exact .of_eq rfl rfl rfl
      · exact .refl s

/-- R185: a notice leaves, and its owner tells of what it then does. -/
theorem egress_told : ∃ u : Part, u.cards = s.cards ∧ u.dests = s.dests ∧ Told u (egress s) := by
  cases hn : s.notices with
  | nil => exact ⟨s, rfl, rfl, egress_empty_told s hn⟩
  | cons n rest =>
    unfold egress
    split
    · exact ⟨s, rfl, rfl, .refl s⟩
    · rw [hn]
      exact ⟨leaves n.parcel { s with notices := rest }, rfl, rfl, noticeSent_told _ n⟩

theorem takeEvent_told (c : Instr) : ∃ u : Part, u.cards = s.cards ∧ u.dests = s.dests ∧ Told u (takeEvent c s) := by
  have whole {t : Part} (ht : Told s t) : ∃ u : Part, u.cards = s.cards ∧ u.dests = s.dests ∧ Told u t :=
    ⟨s, rfl, rfl, ht⟩
  cases c
  case egressSend => exact egress_told s
  case portForeignParcel port kind b => exact whole (portParcelTaken_keeps s port kind b).told
  case sourceAttach p => exact whole (sourceAttach_told s p)
  case sourceDetach p => exact whole (sourceDetach_told s p)
  case destLinkUp d => exact whole (destLinkUp_keeps s d).told
  case destLinkDown d => exact whole (destLinkDown_keeps s d).told
  case stationLinkDown => exact whole (stationDown_told s)
  case stationLinkUp => exact whole (.of_eq rfl rfl rfl)
  case sendFetch p => exact whole (sendFetch_keeps s p).told
  case sourceBlock p b => exact whole (sourceBlock_keeps s p b).told
  case fetchTimeout p tag => exact whole (fetchTimeout_keeps s p tag).told
  case sendStore d => exact whole (sendStore_keeps s d).told
  case storeDone d b => exact whole (storeDone_keeps s d b).told
  case stallTimeout d => exact whole (stallTimeout_keeps s d).told
  case sendVerifyFetch d => exact whole (sendVerifyFetch_keeps s d).told
  case verifyBlock d b => exact whole (verifyBlock_keeps s d b).told
  case verifyFetchTimeout d tag => exact whole (verifyFetchTimeout_keeps s d tag).told
  all_goals exact whole (.refl s)

/-! ## The step -/

/-- A millisecond changes no state, no source and no draining flag. -/
theorem tick_told (m : State) : Told m.part (tick m).part := by
  unfold tick
  split
  · exact .refl _
  · refine .of_kept (fun _ => ⟨rfl, rfl⟩) (fun d => ?_) (fun _ hn _ => hn)
    dsimp only [passMillisecond]
    rw [mapEach_get]
    exact ⟨rfl, rfl⟩

/-- Every step but the end of a full reset tells of its changes, from a part with the cards and the destinations of before: the
notice that leaves is taken first. -/
theorem step_told {m t : State} (hstep : step m = .next t)
    (hfront : ∀ c rest src dst present up station, m.pending = c :: rest → c ≠ .resetEnd src dst present up station) :
    ∃ u : Part, u.cards = m.part.cards ∧ u.dests = m.part.dests ∧ Told u t.part := by
  unfold step at hstep
  split at hstep
  · cases hstep
    exact ⟨_, rfl, rfl, tick_told m⟩
  · rename_i c rest hp
    rcases exec_cases hstep with ht | ht | ⟨cause, ht⟩ | ⟨src, dst, present, up, station, hc, -⟩
    · exact ⟨m.part, rfl, rfl, ht ▸ told_station.ingress c m.part⟩
    · rw [ht]
      unfold unlessReset
      split
      · exact ⟨m.part, rfl, rfl, .refl _⟩
      · exact takeEvent_told m.part c
    · exact ⟨m.part, rfl, rfl, ht ▸ .of_eq rfl rfl rfl⟩
    · exact absurd hc (hfront c rest src dst present up station hp)

end Sys2Proof.Machine

namespace Sys2Proof.Proofs
open Machine

/-- Settles O59: each effect of a command tells of its changes (`Told`), and so does every step. -/
theorem changesAreNoticed : Obligations.ChangesAreNoticed := by
  intro s t hstep hfront
  obtain ⟨u, hcards, hdests, hcard, hdest⟩ := step_told hstep hfront
  constructor
  · intro h hchange
    rcases hcard h with hm | ⟨hst, hso, -⟩
    · exact hm
    · rw [hcards] at hst hso
      exact absurd hchange (not_or.mpr ⟨not_not_intro hst, not_not_intro hso⟩)
  · intro d hchange
    rcases hdest d with hm | ⟨hst, hdr, -⟩
    · exact hm
    · rw [hdests] at hst hdr
      exact absurd hchange (not_or.mpr ⟨not_not_intro hst, not_not_intro hdr⟩)

end Sys2Proof.Proofs
end

