-- ==== Sys2Proof/Proofs/Links.lean ====
section
/-! PROOF. R164 and the links between the tables (`ClearanceOk`): what of the part they speak of (`SameLinks`), and that the
writes which leave it alone, a fault raised and the moves of a card keep them. -/

namespace Sys2Proof.Machine

/-! ## What the links speak of -/

/-- The fields of a card, a clip, a channel and a destination that `ClearanceOk` speaks of. -/
def Card.links (c : Card) := (c.state, c.source, c.clips, c.openMarks, c.required)
def Clip.links (c : Clip) := (c.card, c.state, c.copies, c.openMarks, c.waivedMarks)
def Channel.links (c : Channel) := (c.state, c.clip, c.writing)
def Dest.links (x : Dest) := (x.holder, x.context.map fun v => (v.clip, v.offset))

structure SameLinks (s t : Part) : Prop where
  cards    : ∀ h : CardId, t.cards[h].links = s.cards[h].links
  clips    : ∀ k : ClipId, t.clips[k].map Clip.links = s.clips[k].map Clip.links
  ports    : t.ports = s.ports
  channels : ∀ p : PortId, t.channels[p].links = s.channels[p].links
  dests    : ∀ d : DestId, t.dests[d].links = s.dests[d].links

theorem SameLinks.refl (s : Part) : SameLinks s s :=
  ⟨fun _ => rfl, fun _ => rfl, rfl, fun _ => rfl, fun _ => rfl⟩

theorem SameLinks.trans {s t u : Part} (a : SameLinks s t) (b : SameLinks t u) : SameLinks s u :=
  ⟨fun h => (b.cards h).trans (a.cards h), fun k => (b.clips k).trans (a.clips k), b.ports.trans a.ports,
    fun p => (b.channels p).trans (a.channels p), fun d => (b.dests d).trans (a.dests d)⟩

theorem SameLinks.of_eq {s t : Part} (hc : t.cards = s.cards) (hk : t.clips = s.clips) (hp : t.ports = s.ports)
    (hch : t.channels = s.channels) (hd : t.dests = s.dests) : SameLinks s t :=
  ⟨fun _ => by rw [hc], fun _ => by rw [hk], hp, fun _ => by rw [hch], fun _ => by rw [hd]⟩

theorem SameLinks.symm {s t : Part} (a : SameLinks s t) : SameLinks t s :=
  ⟨fun h => (a.cards h).symm, fun k => (a.clips k).symm, a.ports.symm, fun p => (a.channels p).symm,
    fun d => (a.dests d).symm⟩

theorem Quiet.links {s t : Part} (q : Quiet s t) : SameLinks s t := .of_eq q.cards q.clips q.ports q.channels q.dests

/-- The fields of a card between two parts with the same links. -/
theorem SameLinks.card {s t : Part} (a : SameLinks s t) (h : CardId) :
    t.cards[h].state = s.cards[h].state ∧ t.cards[h].source = s.cards[h].source
      ∧ t.cards[h].clips = s.cards[h].clips ∧ t.cards[h].openMarks = s.cards[h].openMarks
      ∧ t.cards[h].required = s.cards[h].required := by
  simpa only [Card.links, Prod.mk.injEq] using a.cards h

theorem SameLinks.channel {s t : Part} (a : SameLinks s t) (p : PortId) :
    t.channels[p].state = s.channels[p].state ∧ t.channels[p].clip = s.channels[p].clip
      ∧ t.channels[p].writing = s.channels[p].writing := by
  simpa only [Channel.links, Prod.mk.injEq] using a.channels p

theorem SameLinks.dest {s t : Part} (a : SameLinks s t) (d : DestId) :
    t.dests[d].holder = s.dests[d].holder
      ∧ t.dests[d].context.map (fun v => (v.clip, v.offset)) = s.dests[d].context.map fun v => (v.clip, v.offset) := by
  simpa only [Dest.links, Prod.mk.injEq] using a.dests d

/-- A clip in use has the same links in the other part. -/
theorem SameLinks.clip {s t : Part} (a : SameLinks s t) {k : ClipId} {c : Clip} (hc : t.clips[k] = some c) :
    ∃ b, s.clips[k] = some b ∧ b.card = c.card ∧ b.state = c.state ∧ b.copies = c.copies
      ∧ b.openMarks = c.openMarks ∧ b.waivedMarks = c.waivedMarks := by
  have e := a.clips k
  rw [hc, Option.map_some] at e
  obtain ⟨b, hb, he⟩ := Option.map_eq_some_iff.mp e.symm
  simp only [Clip.links, Prod.mk.injEq] at he
  exact ⟨b, hb, he⟩

/-- One handle by two names. -/
theorem Part.card_congr (s : Part) {h g : CardId} (e : h = g) : s.cards[h] = s.cards[g] := by
  subst e
  rfl

/-- R71: a context names a clip at an offset. -/
def Dest.verifies (x : Dest) (k : ClipId) (o : Nat) : Prop := ∃ v, x.context = some v ∧ v.clip = k ∧ v.offset = o

theorem Dest.verifies_iff (x : Dest) (k : ClipId) (o : Nat) :
    x.verifies k o ↔ x.context.map (fun v => (v.clip, v.offset)) = some (k, o) := by
  simp [Dest.verifies, Prod.ext_iff]

/-! ## The same links, the same invariant -/

theorem SameLinks.clearedOk {s t : Part} (a : SameLinks s t) (hs : ClearedOk s) : ClearedOk t := by
  intro h hst
  obtain ⟨est, -, ecl, eom, ereq⟩ := a.card h
  obtain ⟨hmarks, hclips⟩ := hs h (est ▸ hst)
  refine ⟨eom ▸ hmarks, fun k hk c hc => ?_⟩
  obtain ⟨b, hb, -, bst, bco, bom, bwm⟩ := a.clip hc
  have e := hclips k (ecl ▸ hk) b hb
  rw [ereq]
  simpa only [bst, bom, bwm, Clip.verified, bco] using e

theorem SameLinks.tablesOk {s t : Part} (a : SameLinks s t) (hs : TablesOk s) : TablesOk t := by
  obtain ⟨hlist, hfree, hbind, hatt⟩ := hs
  refine ⟨fun h k => ?_, fun h hf => ?_, fun p h => ?_, fun p hp => ?_⟩
  · rw [(a.card h).2.2.1, hlist]
    constructor
    · rintro ⟨c, hc, hcard⟩
      obtain ⟨b, hb, bcard, -⟩ := a.symm.clip hc
      exact ⟨b, hb, bcard.trans hcard⟩
    · rintro ⟨c, hc, hcard⟩
      obtain ⟨b, hb, bcard, -⟩ := a.clip hc
      exact ⟨b, hb, bcard.trans hcard⟩
  · obtain ⟨est, eso, ecl, -⟩ := a.card h
    rw [eso, ecl]
    exact hfree h (est ▸ hf)
  · rw [a.ports, (a.card h).2.1]
    exact hbind p h
  · rw [a.ports] at hp ⊢
    exact hatt p hp

theorem SameLinks.attemptsOk {s t : Part} (a : SameLinks s t) (hs : AttemptsOk s) : AttemptsOk t := by
  obtain ⟨hidle, hruns, hflies, hholds, hver⟩ := hs
  refine ⟨fun p hp => ?_, fun p hp => ?_, fun k c hc hst => ?_, fun d k hd => ?_, fun d k o => ?_⟩
  · rw [(a.channel p).1] at hp
    rw [(a.channel p).2.1]
    exact hidle p hp
  · rw [(a.channel p).1] at hp
    obtain ⟨k, c, hk, hc, hst, hso, hw⟩ := hruns p hp
    obtain ⟨b, hb, bcard, bst, -⟩ := a.symm.clip hc
    refine ⟨k, b, (a.channel p).2.1.trans hk, hb, bst.trans hst, ?_, fun d hd => ?_⟩
    · rw [t.card_congr bcard, (a.card c.card).2.1]
      exact hso
    · rw [(a.channel p).2.2] at hd
      rw [(a.dest d).1]
      exact hw d hd
  · obtain ⟨b, hb, bcard, bst, -⟩ := a.clip hc
    obtain ⟨hcard, p, hp, hk⟩ := hflies k b hb (bst.trans hst)
    rw [← t.card_congr bcard, (a.card b.card).1]
    exact ⟨hcard, p, (a.channel p).1.trans hp, (a.channel p).2.1.trans hk⟩
  · rw [(a.dest d).1] at hd
    obtain ⟨p, c, hp, hk, hw, hc, hco⟩ := hholds d k hd
    obtain ⟨b, hb, -, -, bco, -⟩ := a.symm.clip hc
    refine ⟨p, b, (a.channel p).1.trans hp, (a.channel p).2.1.trans hk, ?_, hb, ?_⟩
    · rw [(a.channel p).2.2]
      exact hw
    · rw [bco]
      exact hco
  · have hctx : t.dests[d].verifies k o ↔ s.dests[d].verifies k o := by
      rw [Dest.verifies_iff, Dest.verifies_iff, (a.dest d).2]
    refine Iff.trans ?_ ((hver d k o).trans hctx.symm)
    constructor
    · rintro ⟨c, hc, hv⟩
      obtain ⟨b, hb, -, -, bco, -⟩ := a.clip hc
      exact ⟨b, hb, by rw [bco]; exact hv⟩
    · rintro ⟨c, hc, hv⟩
      obtain ⟨b, hb, -, -, bco, -⟩ := a.symm.clip hc
      exact ⟨b, hb, by rw [bco]; exact hv⟩

theorem SameLinks.clearanceOk {s t : Part} (a : SameLinks s t) (hs : ClearanceOk s) : ClearanceOk t :=
  ⟨a.clearedOk hs.1, a.tablesOk hs.2.1, a.attemptsOk hs.2.2⟩

variable (s : Part) (h : CardId) (d : DestId) (k : ClipId) (p : PortId)

/-! ## Writes that leave the links alone -/

theorem writeCard_links (c : Card) (hc : c.links = s.cards[h].links) : SameLinks s (writeCard h c s) where
  cards g := by
    rw [writeCard_cards, get_set]
    split
    · rename_i hg
      exact hg ▸ hc
    · rfl
  clips _ := by rw [writeCard_clips]
  ports := writeCard_ports s h c
  channels _ := by rw [writeCard_channels]
  dests _ := by rw [writeCard_dests]

theorem writeDest_links (x : Dest) (hx : x.links = s.dests[d].links) : SameLinks s (writeDest d x s) where
  cards _ := by rw [writeDest_cards]
  clips _ := by rw [writeDest_clips]
  ports := writeDest_ports s d x
  channels _ := by rw [writeDest_channels]
  dests e := by
    rw [writeDest_dests, get_set]
    split
    · rename_i he
      exact he ▸ hx
    · rfl

theorem modClip_links (f : Clip → Clip) (hf : Accounts f) : SameLinks s (modClip k f s) where
  cards _ := by rw [modClip_cards]
  clips j := by
    rw [modClip_get]
    split
    · rename_i hj
      subst hj
      cases s.clips[k] with
      | none => rfl
      | some c =>
        obtain ⟨hcard, hst, hco, hom, hwm⟩ := hf c
        simp only [Option.map_some, Clip.links, hcard, hst, hco, hom, hwm]
    · rfl
  ports := modClip_ports s k f
  channels _ := by rw [modClip_channels]
  dests _ := by rw [modClip_dests]

theorem setChannel_links (c : Channel) (hc : c.links = s.channels[p].links) : SameLinks s (setChannel p c s) where
  cards _ := rfl
  clips _ := rfl
  ports := rfl
  channels q := by
    rw [setChannel_channels, get_set]
    split
    · rename_i hq
      exact hq ▸ hc
    · rfl
  dests _ := rfl

theorem queueNotice_links (n : Notice) : SameLinks s (queueNotice n s) := .of_eq rfl rfl rfl rfl rfl

theorem SameLinks.foldl {α : Type} (f : Part → α → Part) (hf : ∀ t a, SameLinks t (f t a)) (l : List α) (s : Part) :
    SameLinks s (l.foldl f s) := by
  induction l generalizing s with
  | nil => exact .refl s
  | cons a as ih => exact (hf s a).trans (ih (f s a))

/-! ## What the links give -/

section Facts

variable {s} {k j : ClipId} {c b : Clip} {p q : PortId} {d : DestId} {h g : CardId}

/-- R4: a clip in use stands on the list of its card. -/
theorem TablesOk.mem (hs : TablesOk s) (hc : s.clips[k] = some c) : k ∈ s.cards[c.card].clips :=
  (hs.1 c.card k).mpr ⟨c, hc, rfl⟩

/-- R4: a listed clip's record names the card. -/
theorem TablesOk.card_of_mem (hs : TablesOk s) (hk : k ∈ s.cards[h].clips) (hc : s.clips[k] = some c) : c.card = h := by
  obtain ⟨b, hb, hcard⟩ := (hs.1 h k).mp hk
  rw [hc] at hb
  cases hb
  exact hcard

/-- R7, R8: two cards have no source in common. -/
theorem TablesOk.source_inj (hs : TablesOk s) (hh : s.cards[h].source = some p) (hg : s.cards[g].source = some p) :
    h = g :=
  Option.some.inj (((hs.2.2.1 p h).mpr hh).symm.trans ((hs.2.2.1 p g).mpr hg))

/-- R47: what a RUNNING channel of a clip copies. -/
theorem AttemptsOk.running (hs : AttemptsOk s) (hp : s.channels[p].state = .running)
    (hk : s.channels[p].clip = some k) :
    ∃ c, s.clips[k] = some c ∧ c.state = .inFlight ∧ s.cards[c.card].source = some p
      ∧ ∀ d : DestId, s.channels[p].writing.mem d = true → s.dests[d].holder = some k := by
  obtain ⟨j, c, hj, hc⟩ := hs.2.1 p hp
  rw [hk] at hj
  cases hj
  exact ⟨c, hc⟩

/-- R46, R47: one channel copies a clip. -/
theorem AttemptsOk.channel_unique (hs : AttemptsOk s) (hp : s.channels[p].state = .running)
    (hk : s.channels[p].clip = some k) (hq : s.channels[q].state = .running) (hj : s.channels[q].clip = some k) :
    p = q := by
  obtain ⟨c, hc, -, hso, -⟩ := hs.running hp hk
  obtain ⟨b, hb, -, hso', -⟩ := hs.running hq hj
  rw [hc] at hb
  cases hb
  exact Option.some.inj (hso.symm.trans hso')

/-- R5: a clip IN_FLIGHT is copied from its card's source. -/
theorem AttemptsOk.flying (hs : AttemptsOk s) (hc : s.clips[k] = some c) (hst : c.state = .inFlight) :
    (s.cards[c.card].state = .copying ∨ s.cards[c.card].state = .suspending)
      ∧ ∃ p : PortId, s.channels[p].state = .running ∧ s.channels[p].clip = some k
        ∧ s.cards[c.card].source = some p := by
  obtain ⟨hcard, p, hp, hk⟩ := hs.2.2.1 k c hc hst
  obtain ⟨b, hb, -, hso, -⟩ := hs.running hp hk
  rw [hc] at hb
  cases hb
  exact ⟨hcard, p, hp, hk, hso⟩

/-- R46: a held destination is in the writing set of its holder's channel. -/
theorem AttemptsOk.held (hs : AttemptsOk s) (hd : s.dests[d].holder = some k) (hp : s.channels[p].state = .running)
    (hk : s.channels[p].clip = some k) : s.channels[p].writing.mem d = true := by
  obtain ⟨q, c, hq, hj, hw, -⟩ := hs.2.2.2.1 d k hd
  rwa [hs.channel_unique hp hk hq hj]

/-- R46: the copy record on a held destination is WRITING. -/
theorem AttemptsOk.heldCopy (hs : AttemptsOk s) (hd : s.dests[d].holder = some k) (hc : s.clips[k] = some c) :
    c.copies[d] = .writing := by
  obtain ⟨-, b, -, -, -, hb, hco⟩ := hs.2.2.2.1 d k hd
  rw [hc] at hb
  cases hb
  exact hco

/-- R5: no clip of the card is IN_FLIGHT. -/
def Grounded (s : Part) (h : CardId) : Prop :=
  ∀ (k : ClipId) (c : Clip), s.clips[k] = some c → c.card = h → c.state ≠ .inFlight

theorem TablesOk.grounded_iff (hs : TablesOk s) : Grounded s h ↔ inFlightClip s h = none := by
  rw [inFlightClip_none]
  constructor
  · intro hg k hk c hc
    exact hg k c hc (hs.card_of_mem hk hc)
  · intro hg k c hc hcard
    exact hg k (hcard ▸ hs.mem hc) c hc

/-- R5: outside COPYING and SUSPENDING no clip of a card is IN_FLIGHT. -/
theorem AttemptsOk.grounded (hs : AttemptsOk s) (h1 : s.cards[h].state ≠ .copying) (h2 : s.cards[h].state ≠ .suspending) :
    Grounded s h := by
  rintro k c hc rfl hst
  rcases (hs.flying hc hst).1 with e | e
  · exact h1 e
  · exact h2 e

/-- R5, R47: a card whose channel is not RUNNING has no clip IN_FLIGHT. -/
theorem AttemptsOk.grounded_of_source (hs : AttemptsOk s)
    (hp : ∀ p, s.cards[h].source = some p → s.channels[p].state ≠ .running) : Grounded s h := by
  rintro k c hc rfl hst
  obtain ⟨-, p, hrun, -, hso⟩ := hs.flying hc hst
  exact hp p hso hrun

end Facts

end Sys2Proof.Machine
end

