-- ==== Sys2Proof/Proofs/Withdrawal.lean ====
section
/-! PROOF. What withdrawing a set of destinations and joining the verify queues do, entry by entry (R30, R36, R57). -/

namespace Sys2Proof.Machine

variable (s : Part) (d e : DestId) (k j : ClipId) (p : PortId)

/-- R30, R36: a destination that has dropped out of its holder's attempt. -/
def Dest.dropped (x : Dest) : Dest := { x with holder := none, draining := !x.stores.isEmpty }

/-- R30: a clip whose copy on a destination is gone. -/
def Clip.withoutCopy (d : DestId) (c : Clip) : Clip := { c with copies := c.copies.set d .none }

variable {s d k} in
theorem dropOut_held (hd : s.dests[d].holder = some k) :
    dropOut d s = writeDest d s.dests[d].dropped (modClip k (Clip.withoutCopy d) s) := by
  unfold dropOut
  rw [hd]
  rfl

theorem dropOut_cards : (dropOut d s).cards = s.cards := by
  unfold dropOut
  split
  · rfl
  · rw [writeDest_cards, modClip_cards]

theorem dropOut_channels : (dropOut d s).channels = s.channels := by
  unfold dropOut
  split
  · rfl
  · rw [writeDest_channels, modClip_channels]

theorem dropOut_log : (dropOut d s).log = s.log := by
  unfold dropOut
  split
  · rfl
  · rw [writeDest_log, modClip_log]

/-- R30: what dropping out does to a destination. -/
theorem dropOut_dests (hd : s.dests[d].holder = some k) :
    (dropOut d s).dests[e] = if d = e then s.dests[d].dropped else s.dests[e] := by
  rw [dropOut_held hd, writeDest_dests, modClip_dests, get_set]

theorem dropOut_clips (hd : s.dests[d].holder = some k) :
    (dropOut d s).clips[j] = if k = j then s.clips[k].map (Clip.withoutCopy d) else s.clips[j] := by
  rw [dropOut_held hd, writeDest_clips, modClip_get]

/-- The copies of a clip after the destinations of a list have dropped out. -/
def Clip.withoutCopies (l : List DestId) (c : Clip) : Clip := l.foldl (fun c d => c.withoutCopy d) c

theorem Clip.withoutCopies_eq (l : List DestId) (c : Clip) :
    c.withoutCopies l = { c with copies := (c.withoutCopies l).copies } := by
  unfold Clip.withoutCopies
  induction l generalizing c with
  | nil => rfl
  | cons d rest ih => rw [List.foldl_cons, ih]; rfl

theorem Clip.withoutCopies_get (l : List DestId) (c : Clip) :
    (c.withoutCopies l).copies[e] = if e ∈ l then .none else c.copies[e] := by
  unfold Clip.withoutCopies
  induction l generalizing c with
  | nil => simp
  | cons d rest ih =>
    rw [List.foldl_cons, ih]
    by_cases he : e ∈ rest
    · rw [if_pos he, if_pos (List.mem_cons_of_mem d he)]
    · rw [if_neg he, Clip.withoutCopy, get_set]
      by_cases hd : d = e
      · rw [if_pos hd, if_pos (hd ▸ List.mem_cons_self)]
      · rw [if_neg hd, if_neg (by simp [he, Ne.symm hd])]

/-- R30 over a list: the destinations of the list that the clip holds drop out, and nothing else of the tables changes. -/
theorem dropOut_foldl (l : List DestId) (hl : l.Nodup) (hk : ∀ d ∈ l, s.dests[d].holder = some k) :
    (l.foldl (fun t d => dropOut d t) s).cards = s.cards
      ∧ (l.foldl (fun t d => dropOut d t) s).channels = s.channels
      ∧ (l.foldl (fun t d => dropOut d t) s).log = s.log
      ∧ (∀ e : DestId, (l.foldl (fun t d => dropOut d t) s).dests[e] =
          if e ∈ l then s.dests[e].dropped else s.dests[e])
      ∧ ∀ j : ClipId, (l.foldl (fun t d => dropOut d t) s).clips[j] =
          if k = j then s.clips[k].map (Clip.withoutCopies l) else s.clips[j] := by
  induction l generalizing s with
  | nil =>
    refine ⟨rfl, rfl, rfl, fun e => by simp, fun j => ?_⟩
    by_cases hj : k = j
    · subst hj
      cases hc : s.clips[k] <;> simp [Clip.withoutCopies, hc]
    · simp [hj]
  | cons d rest ih =>
    obtain ⟨hd, hrest⟩ := List.nodup_cons.mp hl
    have hheld : s.dests[d].holder = some k := hk d List.mem_cons_self
    have hk' : ∀ e ∈ rest, (dropOut d s).dests[e].holder = some k := fun e he => by
      rw [dropOut_dests s d e k hheld, if_neg (by rintro rfl; exact hd he)]
      exact hk e (List.mem_cons_of_mem d he)
    obtain ⟨hcards, hchannels, hlog, hdests, hclips⟩ := ih (dropOut d s) hrest hk'
    refine ⟨hcards.trans (dropOut_cards s d), hchannels.trans (dropOut_channels s d), hlog.trans (dropOut_log s d),
      fun e => ?_, fun j => ?_⟩
    · rw [List.foldl_cons, hdests, dropOut_dests s d e k hheld]
      by_cases he : d = e
      · subst he
        rw [if_neg hd, if_pos rfl, if_pos List.mem_cons_self]
      · simp only [if_neg he, List.mem_cons, Ne.symm he, false_or]
    · rw [List.foldl_cons, hclips]
      by_cases hj : k = j
      · subst hj
        rw [if_pos rfl, if_pos rfl, dropOut_clips s d k k hheld, if_pos rfl, Option.map_map]
        rfl
      · rw [if_neg hj, if_neg hj, dropOut_clips s d k j hheld, if_neg hj]

section Withdraw

variable {s k} {ds : DestSet} (hk : ∀ d : DestId, ds.mem d = true → s.dests[d].holder = some k)
include hk

theorem withdrawAll_cards : (withdrawAll ds s).cards = s.cards :=
  (dropOut_foldl s k _ ds.members_nodup fun d hd => hk d ((ds.mem_members d).mp hd)).1

theorem withdrawAll_channels : (withdrawAll ds s).channels = s.channels :=
  (dropOut_foldl s k _ ds.members_nodup fun d hd => hk d ((ds.mem_members d).mp hd)).2.1

theorem withdrawAll_log : (withdrawAll ds s).log = s.log :=
  (dropOut_foldl s k _ ds.members_nodup fun d hd => hk d ((ds.mem_members d).mp hd)).2.2.1

/-- R30, R36: the destinations withdrawn have no holder and drain where a STORE is outstanding. -/
theorem withdrawAll_dests : (withdrawAll ds s).dests[e] = if ds.mem e then s.dests[e].dropped else s.dests[e] := by
  have hdests := (dropOut_foldl s k _ ds.members_nodup fun d hd => hk d ((ds.mem_members d).mp hd)).2.2.2.1 e
  simp only [DestSet.mem_members] at hdests
  exact hdests

/-- R30: the holder's copies on the destinations withdrawn are gone. -/
theorem withdrawAll_clips : (withdrawAll ds s).clips[j] =
    if k = j then s.clips[k].map (Clip.withoutCopies ds.members) else s.clips[j] :=
  (dropOut_foldl s k _ ds.members_nodup fun d hd => hk d ((ds.mem_members d).mp hd)).2.2.2.2 j

end Withdraw

/-! ## Joining the verify queues -/

/-- R57 step 2: a destination with the clip at the tail of its verify queue. -/
def Dest.joined (k : ClipId) (x : Dest) : Dest := { x with queue := x.queue ++ [k] }

/-- R25: a longer queue is no change that is noticed. -/
theorem writeDest_joined : writeDest d (s.dests[d].joined k) s = { s with dests := s.dests.set d (s.dests[d].joined k) } := by
  rw [writeDest, if_pos ⟨rfl, rfl⟩]

/-- R57 step 2 over a list: the destinations of the list queue the clip, and nothing else changes, the notice queue
included. -/
theorem joined_foldl (l : List DestId) (hl : l.Nodup) :
    (l.foldl (fun t d => writeDest d (t.dests[d].joined k) t) s) =
        { s with dests := (l.foldl (fun t d => writeDest d (t.dests[d].joined k) t) s).dests }
      ∧ ∀ e : DestId, (l.foldl (fun t d => writeDest d (t.dests[d].joined k) t) s).dests[e] =
        if e ∈ l then s.dests[e].joined k else s.dests[e] := by
  induction l generalizing s with
  | nil => exact ⟨rfl, fun e => by simp⟩
  | cons d rest ih =>
    obtain ⟨hd, hrest⟩ := List.nodup_cons.mp hl
    rw [List.foldl_cons, writeDest_joined]
    obtain ⟨hframe, hdests⟩ := ih { s with dests := s.dests.set d (s.dests[d].joined k) } hrest
    refine ⟨by rw [hframe], fun e => ?_⟩
    rw [hdests]
    dsimp only
    rw [get_set]
    by_cases he : d = e
    · subst he
      rw [if_neg hd, if_pos rfl, if_pos List.mem_cons_self]
    · simp only [if_neg he, List.mem_cons, Ne.symm he, false_or]

theorem joinQueues_eq (ds : DestSet) : joinQueues k ds s = { s with dests := (joinQueues k ds s).dests } :=
  (joined_foldl s k ds.members ds.members_nodup).1

theorem joinQueues_dests (ds : DestSet) :
    (joinQueues k ds s).dests[e] = if ds.mem e then s.dests[e].joined k else s.dests[e] := by
  have he := (joined_foldl s k ds.members ds.members_nodup).2 e
  simp only [DestSet.mem_members] at he
  exact he

theorem joinQueues_cards (ds : DestSet) : (joinQueues k ds s).cards = s.cards := by rw [joinQueues_eq]
theorem joinQueues_clips (ds : DestSet) : (joinQueues k ds s).clips = s.clips := by rw [joinQueues_eq]
theorem joinQueues_channels (ds : DestSet) : (joinQueues k ds s).channels = s.channels := by rw [joinQueues_eq]
theorem joinQueues_log (ds : DestSet) : (joinQueues k ds s).log = s.log := by rw [joinQueues_eq]

end Sys2Proof.Machine
end

