-- ==== Sys2Proof/Proofs/Marks.lean ====
section
/-! PROOF. A fault raised and a card moved keep the links between the tables (R146, R147, R153, R155, R164). -/

namespace Sys2Proof.Machine

/-! ## A fault raised -/

/-- R153, R155: what opening a mark does to a card: its marks and generation, and COPIED becomes HELD. -/
def Card.Reopened (b c : Card) : Prop :=
  c.state = (if b.state = .copied then .held else b.state) ∧ c.source = b.source ∧ c.clips = b.clips
    ∧ c.required = b.required

/-- R146, R147, R153: what raising a fault does to the tables: a card that is not CLEARED may have a mark opened, and so may a
clip of such a card. -/
structure Marked (s t : Part) : Prop where
  card     : ∀ g : CardId, t.cards[g] = s.cards[g] ∨ s.cards[g].state ≠ .cleared ∧ s.cards[g].Reopened t.cards[g]
  clip     : ∀ k : ClipId, t.clips[k] = s.clips[k]
    ∨ ∃ c m w, s.clips[k] = some c ∧ t.clips[k] = some { c with openMarks := m, waivedMarks := w }
      ∧ s.cards[c.card].state ≠ .cleared
  ports    : t.ports = s.ports
  channels : t.channels = s.channels
  dests    : t.dests = s.dests

theorem Marked.of_eq {s t : Part} (hc : t.cards = s.cards) (hk : t.clips = s.clips) (hp : t.ports = s.ports)
    (hch : t.channels = s.channels) (hd : t.dests = s.dests) : Marked s t :=
  ⟨fun _ => .inl (by rw [hc]), fun _ => .inl (by rw [hk]), hp, hch, hd⟩

variable (s : Part) (h : CardId) (d : DestId) (k : ClipId) (p : PortId)

theorem noteOpening_cards : (noteOpening h s).cards = s.cards.set h
    { s.cards[h] with
      generation := (s.cards[h].generation + 1) % 65536
      state := if s.cards[h].state = .copied then .held else s.cards[h].state } :=
  writeCard_cards s h _

theorem openCardMark_marked (f : FaultKind) (hst : s.cards[h].state ≠ .cleared) : Marked s (openCardMark h f s) := by
  unfold openCardMark
  split
  · exact .of_eq rfl rfl rfl rfl rfl
  · refine ⟨fun g => ?_, fun j => .inl ?_, ?_, ?_, ?_⟩
    · rw [noteOpening_cards, get_set]
      dsimp only
      by_cases hg : h = g
      · subst hg
        rw [if_pos rfl, get_set, if_pos rfl]
        exact .inr ⟨hst, rfl, rfl, rfl, rfl⟩
      · rw [if_neg hg, get_set, if_neg hg]
        exact .inl rfl
    all_goals simp only [noteOpening, writeCard_clips, writeCard_ports, writeCard_channels, writeCard_dests]

theorem openClipMark_marked (f : FaultKind) (hst : ∀ c, s.clips[k] = some c → s.cards[c.card].state ≠ .cleared) :
    Marked s (openClipMark k f s) := by
  unfold openClipMark
  split
  · exact .of_eq rfl rfl rfl rfl rfl
  · rename_i c hc
    split
    · exact .of_eq rfl rfl rfl rfl rfl
    · refine ⟨fun g => ?_, fun j => ?_, ?_, ?_, ?_⟩
      · rw [noteOpening_cards, get_set]
        dsimp only
        by_cases hg : c.card = g
        · subst hg
          rw [if_pos rfl]
          exact .inr ⟨hst c hc, rfl, rfl, rfl, rfl⟩
        · rw [if_neg hg]
          exact .inl rfl
      · simp only [noteOpening, writeCard_clips, get_set]
        by_cases hj : k = j
        · subst hj
          rw [if_pos rfl]
          exact .inr ⟨c, _, _, hc, rfl, hst c hc⟩
        · rw [if_neg hj]
          exact .inl rfl
      all_goals simp only [noteOpening, writeCard_ports, writeCard_channels, writeCard_dests]

/-- R146: what a fault that is aimed does. -/
theorem raise_marked (r : Report) (hr : Aimed r s) : Marked s (raise r s) := by
  have logged {l : FaultLog} {t : Part} (ht : Marked { s with log := l } t) : Marked s t :=
    ⟨ht.card, ht.clip, ht.ports, ht.channels, ht.dests⟩
  unfold raise
  split
  · exact .of_eq rfl rfl rfl rfl rfl
  · rename_i hcl
    refine logged (l := logFault false r s.log) ?_
    have hopen (g : CardId) (hg : r.card = some g) : s.cards[g].state ≠ .cleared := by
      rw [afterClearance, hg] at hcl
      simpa using hcl
    unfold openMark
    split
    · split
      · exact openCardMark_marked _ _ _ (hopen _ (by assumption))
      · exact .of_eq rfl rfl rfl rfl rfl
    · split
      · rename_i hmarks
        split
        · rename_i j hj
          exact openClipMark_marked _ _ _ fun c hc => hopen _ (hr hmarks j c hj hc)
        · exact .of_eq rfl rfl rfl rfl rfl
      · exact .of_eq rfl rfl rfl rfl rfl

/-- R145: a report against a clip is aimed at its card. -/
theorem clipReport_aimed (kind : FaultKind) (e : Option DestId) (detail : Nat) : Aimed (clipReport s kind k e detail) s := by
  intro _ j c hj hc
  simp only [clipReport, Option.some.injEq] at hj ⊢
  subst hj
  rw [clipCard, hc, Option.map_some]

section Marked

variable {s} {t : Part} (hm : Marked s t)
include hm

/-- The clip records before and after a fault. -/
theorem Marked.clip_of {k : ClipId} {c : Clip} (hc : t.clips[k] = some c) :
    ∃ b, s.clips[k] = some b ∧ b.card = c.card ∧ b.state = c.state ∧ b.copies = c.copies
      ∧ (b = c ∨ s.cards[b.card].state ≠ .cleared) := by
  rcases hm.clip k with e | ⟨b, m, w, hb, ht, hst⟩
  · exact ⟨c, e ▸ hc, rfl, rfl, rfl, .inl rfl⟩
  · rw [hc, Option.some.injEq] at ht
    subst ht
    exact ⟨b, hb, rfl, rfl, rfl, .inr hst⟩

theorem Marked.clip_to {k : ClipId} {b : Clip} (hb : s.clips[k] = some b) :
    ∃ c, t.clips[k] = some c ∧ c.card = b.card ∧ c.state = b.state ∧ c.copies = b.copies := by
  rcases hm.clip k with e | ⟨c, m, w, hc, ht, -⟩
  · exact ⟨b, e.trans hb, rfl, rfl, rfl⟩
  · rw [hb, Option.some.injEq] at hc
    subst hc
    exact ⟨_, ht, rfl, rfl, rfl⟩

theorem Marked.source (g : CardId) : t.cards[g].source = s.cards[g].source := by
  rcases hm.card g with e | ⟨-, -, e, -⟩
  · rw [e]
  · exact e

/-- R164: a fault is counted against a CLEARED card and changes nothing on it. -/
theorem Marked.clearedOk (hlist : ∀ (h : CardId) (k : ClipId), k ∈ s.cards[h].clips ↔ ∃ c, s.clips[k] = some c ∧ c.card = h)
    (hs : ClearedOk s) : ClearedOk t := by
  intro h hst
  rcases hm.card h with e | ⟨hne, e, -⟩
  · rw [e] at hst ⊢
    refine ⟨(hs h hst).1, fun k hk c hc => ?_⟩
    obtain ⟨b, hb, -, -, -, rfl | hopen⟩ := hm.clip_of hc
    · exact (hs h hst).2 k hk b hb
    · obtain ⟨a, ha, rfl⟩ := (hlist h k).mp hk
      rw [hb] at ha
      cases ha
      exact absurd hst hopen
  · rw [e] at hst
    split at hst
    · cases hst
    · exact absurd hst hne

theorem Marked.attemptsOk (hs : AttemptsOk s) : AttemptsOk t := by
  obtain ⟨hidle, hruns, hflies, hholds, hver⟩ := hs
  unfold AttemptsOk
  rw [hm.channels, hm.dests]
  refine ⟨hidle, fun p hp => ?_, fun k c hc hst => ?_, fun d k hd => ?_, fun d k o => ?_⟩
  · obtain ⟨k, b, hk, hb, hst, hso, hw⟩ := hruns p hp
    obtain ⟨c, hc, ccard, cst, -⟩ := hm.clip_to hb
    exact ⟨k, c, hk, hc, cst.trans hst, by rw [t.card_congr ccard, hm.source]; exact hso, hw⟩
  · obtain ⟨b, hb, bcard, bst, -⟩ := hm.clip_of hc
    obtain ⟨hcard, p, hp, hk⟩ := hflies k b hb (bst.trans hst)
    refine ⟨?_, p, hp, hk⟩
    rw [← t.card_congr bcard]
    rcases hm.card b.card with e | ⟨-, e, -⟩
    · rw [e]
      exact hcard
    · rw [e]
      rcases hcard with e | e <;> simp only [e] <;> decide
  · obtain ⟨p, b, hp, hk, hw, hb, hco⟩ := hholds d k hd
    obtain ⟨c, hc, -, -, cco⟩ := hm.clip_to hb
    exact ⟨p, c, hp, hk, hw, hc, by rw [cco]; exact hco⟩
  · refine Iff.trans ?_ (hver d k o)
    constructor
    · rintro ⟨c, hc, hv⟩
      obtain ⟨b, hb, -, -, bco, -⟩ := hm.clip_of hc
      exact ⟨b, hb, by rw [bco]; exact hv⟩
    · rintro ⟨b, hb, hv⟩
      obtain ⟨c, hc, -, -, cco⟩ := hm.clip_to hb
      exact ⟨c, hc, by rw [cco]; exact hv⟩

theorem Marked.grounded {h : CardId} (hg : Grounded s h) : Grounded t h := by
  intro k c hc hcard
  obtain ⟨b, hb, bcard, bst, -⟩ := hm.clip_of hc
  exact bst ▸ hg k b hb (bcard.trans hcard)

end Marked

/-- A fault that is aimed keeps the links. -/
theorem raise_clearanceOk (r : Report) (hr : Aimed r s) (hs : ClearanceOk s) : ClearanceOk (raise r s) :=
  ⟨(raise_marked s r hr).clearedOk hs.2.1.1 hs.1, (raise_keeps s r).tablesOk hs.2.1, (raise_marked s r hr).attemptsOk hs.2.2⟩

/-! ## A card moved -/

/-- R164: a card's record, its clips as `s` has them, is as a CLEARED card's must be. -/
def Card.MayClear (s : Part) (c : Card) : Prop :=
  c.openMarks = MarkSet.empty ∧ ∀ k ∈ c.clips, ∀ b, s.clips[k] = some b →
    b.openMarks = MarkSet.empty
      ∧ ((b.state = .failed ∧ b.waivedMarks.has .clipFailed = true) ∨ (b.state ≠ .failed ∧ c.required ≤ b.verified))

/-- R164: a card written as a CLEARED one must be, if it is to be CLEARED. -/
theorem writeCard_clearedOk (c : Card) (hs : ClearedOk s) (hclear : c.state = .cleared → c.MayClear s) :
    ClearedOk (writeCard h c s) := by
  intro g hg
  rw [writeCard_cards, get_set] at hg ⊢
  rw [writeCard_clips]
  by_cases e : h = g
  · rw [if_pos e] at hg ⊢
    exact hclear hg
  · rw [if_neg e] at hg ⊢
    exact hs g hg

/-- R5: a card without a clip IN_FLIGHT may be written in any way. -/
theorem writeCard_attemptsOk (c : Card) (hs : AttemptsOk s)
    (hfly : Grounded s h ∨ c.source = s.cards[h].source ∧ (c.state = .copying ∨ c.state = .suspending)) :
    AttemptsOk (writeCard h c s) := by
  have kept {k : ClipId} {b : Clip} (hb : s.clips[k] = some b) (hst : b.state = .inFlight) :
      (writeCard h c s).cards[b.card].source = s.cards[b.card].source
        ∧ ((s.cards[b.card].state = .copying ∨ s.cards[b.card].state = .suspending) →
          (writeCard h c s).cards[b.card].state = .copying ∨ (writeCard h c s).cards[b.card].state = .suspending) := by
    rw [writeCard_cards, get_set]
    by_cases e : h = b.card
    · rw [if_pos e, ← s.card_congr e]
      obtain ⟨hso, hc⟩ := hfly.resolve_left fun hg => hg k b hb e.symm hst
      exact ⟨hso, fun _ => hc⟩
    · rw [if_neg e]
      exact ⟨rfl, id⟩
  obtain ⟨hidle, hruns, hflies, hholds, hver⟩ := hs
  unfold AttemptsOk
  rw [writeCard_channels, writeCard_dests, writeCard_clips]
  refine ⟨hidle, fun p hp => ?_, fun k b hb hst => ?_, hholds, hver⟩
  · obtain ⟨k, b, hk, hb, hst, hsrc, hw⟩ := hruns p hp
    exact ⟨k, b, hk, hb, hst, (kept hb hst).1.trans hsrc, hw⟩
  · obtain ⟨hcard, hp⟩ := hflies k b hb hst
    exact ⟨(kept hb hst).2 hcard, hp⟩

/-- A card written with its source and manifest kept, in a state its clips in flight and R164 allow, keeps the links. -/
theorem writeCard_clearanceOk (c : Card) (hs : ClearanceOk s) (hso : c.source = s.cards[h].source)
    (hcl : c.clips = s.cards[h].clips) (hfr : c.state = .free → s.cards[h].state = .free)
    (hfly : Grounded s h ∨ c.state = .copying ∨ c.state = .suspending) (hclear : c.state = .cleared → c.MayClear s) :
    ClearanceOk (writeCard h c s) :=
  ⟨writeCard_clearedOk s h c hs.1 hclear, (writeCard_keeps s h c hso hcl hfr).tablesOk hs.2.1,
    writeCard_attemptsOk s h c hs.2.2 (hfly.imp id fun e => ⟨hso, e⟩)⟩

/-- R2: a card moved to a state other than FREE and CLEARED keeps the links when its clips in flight allow it. -/
theorem moveCard_clearanceOk (st : CardState) (hs : ClearanceOk s) (hfree : st ≠ .free) (hclear : st ≠ .cleared)
    (hfly : Grounded s h ∨ st = .copying ∨ st = .suspending) : ClearanceOk (moveCard h st s) :=
  writeCard_clearanceOk s h _ hs rfl rfl (fun e => absurd e hfree) hfly fun e => absurd e hclear

/-- R160: what the clearance condition says of the card's marks and clips. -/
theorem clearanceHolds_mayClear (hc : clearanceHolds s h = true) : s.cards[h].MayClear s := by
  simp only [clearanceHolds, anyMarkOpen, cardClips, Bool.and_eq_true, Bool.not_eq_true', Bool.or_eq_false_iff,
    Bool.not_eq_false', MarkSet.isEmpty_iff_eq, List.all_eq_true, List.any_eq_false, List.mem_filterMap] at hc
  obtain ⟨⟨⟨hver, hwaived⟩, -⟩, hmarks, hclips⟩ := hc
  refine ⟨hmarks, fun k hk b hb => ?_⟩
  have hv := hver b ⟨k, hk, hb⟩
  have hw := hwaived b ⟨k, hk, hb⟩
  have hm := hclips b ⟨k, hk, hb⟩
  simp only [Clip.marked, Bool.not_eq_true', Bool.not_eq_false, MarkSet.isEmpty_iff_eq] at hm
  refine ⟨hm, ?_⟩
  by_cases hf : b.state = .failed
  · exact .inl ⟨hf, by simpa [hf] using hw⟩
  · exact .inr ⟨hf, by simpa [hf] using hv⟩

/-- R162: the clearance evaluation keeps the links. -/
theorem evalClearance_clearanceOk (hs : ClearanceOk s) : ClearanceOk (evalClearance h s) := by
  unfold evalClearance
  split
  · rename_i hcond
    obtain ⟨hst, hholds⟩ := hcond
    refine (queueNotice_links _ _).clearanceOk (writeCard_clearanceOk s h _ hs rfl rfl (fun e => by cases e) ?_ ?_)
    · exact .inl (hs.2.2.grounded (by rw [hst]; decide) (by rw [hst]; decide))
    · exact fun _ => clearanceHolds_mayClear s h hholds
  · exact hs

theorem evalClipClearance_clearanceOk (hs : ClearanceOk s) : ClearanceOk (evalClipClearance k s) := by
  unfold evalClipClearance
  split
  · exact evalClearance_clearanceOk s _ hs
  · exact hs

/-- R58: a COPYING card that has run out of clips goes to COPIED, CLEARED or HELD. -/
theorem settleCopying_clearanceOk (hs : ClearanceOk s) : ClearanceOk (settleCopying h s) := by
  unfold settleCopying
  split
  · rename_i hcond
    obtain ⟨-, -, hfly⟩ := hcond
    have hg : Grounded s h := hs.2.1.grounded_iff.mpr (Option.isNone_iff_eq_none.mp hfly)
    split
    · exact moveCard_clearanceOk s h _ hs (by decide) (by decide) (.inl hg)
    · exact evalClearance_clearanceOk _ h (moveCard_clearanceOk s h _ hs (by decide) (by decide) (.inl hg))
  · exact hs

/-- R57 step 5, R63: the card of an attempt that has ended. -/
theorem settleCard_clearanceOk (hs : ClearanceOk s) (hg : Grounded s h) : ClearanceOk (settleCard h s) := by
  unfold settleCard
  split
  · exact moveCard_clearanceOk s h _ hs (by decide) (by decide) (.inl hg)
  · exact settleCopying_clearanceOk s h hs

theorem settleCardOf_clearanceOk (hs : ClearanceOk s) (hg : ∀ c, s.clips[k] = some c → Grounded s c.card) :
    ClearanceOk (settleCardOf k s) := by
  unfold settleCardOf
  split
  · rename_i g hcard
    obtain ⟨c, hc, rfl⟩ := Option.map_eq_some_iff.mp hcard
    exact settleCard_clearanceOk s _ hs (hg c hc)
  · exact hs

end Sys2Proof.Machine
end

