-- ==== Sys2Proof/Proofs/Attempts.lean ====
section
/-! PROOF. The operations of the copy engine and the verify engine keep the links between the tables (R46, R47, R55, R57, R59,
R60, R64, R67, R71, R72, R76, R78). The end of an attempt, a destination that leaves one, and a copy record that changes with
a verify context are each described once, between the parts before and after (`AttemptOver`, `DestLeaves`,
`CopyTurns`). -/

namespace Sys2Proof.Machine

/-! ## The end of an attempt -/

/-- The attempt of the clip `k`, whose record was `c`, on the channel `p` is over in `t`: the channel has stopped, its writing
set is withdrawn, the clip is no longer IN_FLIGHT; of the cards only the clip's may have changed. -/
structure AttemptOver (s t : Part) (p : PortId) (k : ClipId) (c : Clip) : Prop where
  stopped : t.channels[p].state ≠ .running ∧ t.channels[p].clip = none
  others  : ∀ q : PortId, q ≠ p → t.channels[q] = s.channels[q]
  clips   : ∀ j : ClipId, j ≠ k → t.clips[j] = s.clips[j]
  clip    : ∃ y, t.clips[k] = some y ∧ y.card = c.card ∧ y.state ≠ .inFlight
    ∧ ∀ d : DestId, y.copies[d] = if s.channels[p].writing.mem d then .none else c.copies[d]
  holders : ∀ d : DestId, t.dests[d].holder = if s.channels[p].writing.mem d then none else s.dests[d].holder
  context : ∀ d : DestId, t.dests[d].context = s.dests[d].context
  cards   : ∀ g : CardId, g ≠ c.card → t.cards[g] = s.cards[g]
  card    : t.cards[c.card].state ≠ .cleared

namespace AttemptOver

variable {s t : Part} {p : PortId} {k : ClipId} {c : Clip} (o : AttemptOver s t p k c)
include o

theorem clearedOk (hlist : ∀ (h : CardId) (k : ClipId), k ∈ s.cards[h].clips ↔ ∃ c, s.clips[k] = some c ∧ c.card = h)
    (hc : s.clips[k] = some c) (hs : ClearedOk s) : ClearedOk t := by
  intro h hst
  have hne : h ≠ c.card := fun e => o.card (t.card_congr e ▸ hst)
  rw [o.cards h hne] at hst ⊢
  refine ⟨(hs h hst).1, fun j hj b hb => ?_⟩
  have hjk : j ≠ k := by
    rintro rfl
    obtain ⟨a, ha, rfl⟩ := (hlist h j).mp hj
    rw [hc] at ha
    cases ha
    exact hne rfl
  rw [o.clips j hjk] at hb
  exact (hs h hst).2 j hj b hb

/-- The other clips IN_FLIGHT are copied by the other channels, for other cards. -/
theorem other_running (hs : AttemptsOk s) (hp : s.channels[p].state = .running) (hk : s.channels[p].clip = some k)
    (hc : s.clips[k] = some c) {q : PortId} (hq : q ≠ p) {j : ClipId} {b : Clip} (hrun : s.channels[q].state = .running)
    (hj : s.channels[q].clip = some j) (hb : s.clips[j] = some b) :
    j ≠ k ∧ b.card ≠ c.card ∧ t.clips[j] = some b ∧ t.cards[b.card] = s.cards[b.card] := by
  have hjk : j ≠ k := by
    rintro rfl
    exact hq (hs.channel_unique hrun hj hp hk)
  have hcard : b.card ≠ c.card := by
    intro e
    obtain ⟨b', hb', -, hso, -⟩ := hs.running hrun hj
    obtain ⟨c', hc', -, hso', -⟩ := hs.running hp hk
    rw [hb] at hb'
    rw [hc] at hc'
    cases hb'
    cases hc'
    rw [s.card_congr e, hso'] at hso
    exact hq (Option.some.inj hso).symm
  exact ⟨hjk, hcard, (o.clips j hjk).trans hb, o.cards _ hcard⟩

theorem attemptsOk (hs : AttemptsOk s) (hp : s.channels[p].state = .running) (hk : s.channels[p].clip = some k)
    (hc : s.clips[k] = some c) : AttemptsOk t := by
  obtain ⟨y, hy, -, hyst, hyco⟩ := o.clip
  refine ⟨fun q hq => ?_, fun q hq => ?_, fun j b hb hst => ?_, fun d j hd => ?_, fun d j v => ?_⟩
  · by_cases e : q = p
    · subst e
      exact o.stopped.2
    · rw [o.others q e] at hq ⊢
      exact hs.1 q hq
  · have e : q ≠ p := by
      rintro rfl
      exact o.stopped.1 hq
    rw [o.others q e] at hq
    obtain ⟨j, b, hj, hb, hst, hso, hw⟩ := hs.2.1 q hq
    obtain ⟨hjk, -, htb, htc⟩ := o.other_running hs hp hk hc e hq hj hb
    rw [o.others q e]
    refine ⟨j, b, hj, htb, hst, by rw [htc]; exact hso, fun d hd => ?_⟩
    rw [o.holders, if_neg fun hwd => ?_]
    · exact hw d hd
    · obtain ⟨-, -, -, -, hw'⟩ := hs.running hp hk
      have both := (hw d hd).symm.trans (hw' d hwd)
      exact hjk (Option.some.inj both)
  · have hjk : j ≠ k := by
      rintro rfl
      rw [hy] at hb
      cases hb
      exact hyst hst
    rw [o.clips j hjk] at hb
    obtain ⟨hcard, q, hq, hj⟩ := hs.2.2.1 j b hb hst
    have e : q ≠ p := by
      rintro rfl
      rw [hk] at hj
      exact hjk (Option.some.inj hj).symm
    obtain ⟨-, -, -, htc⟩ := o.other_running hs hp hk hc e hq hj hb
    rw [htc]
    exact ⟨hcard, q, by rw [o.others q e]; exact hq, by rw [o.others q e]; exact hj⟩
  · rw [o.holders] at hd
    split at hd
    · cases hd
    · rename_i hwd
      obtain ⟨q, b, hq, hj, hw, hb, hco⟩ := hs.2.2.2.1 d j hd
      have e : q ≠ p := by
        rintro rfl
        exact hwd hw
      obtain ⟨-, -, htb, -⟩ := o.other_running hs hp hk hc e hq hj hb
      exact ⟨q, b, by rw [o.others q e]; exact ⟨hq, hj, hw, htb, hco⟩⟩
  · rw [o.context, ← hs.2.2.2.2]
    by_cases e : j = k
    · subst e
      simp only [hy, hc, Option.some.injEq, exists_eq_left', hyco]
      split
      · rename_i hwd
        obtain ⟨-, -, -, -, hw⟩ := hs.running hp hk
        rw [hs.heldCopy (hw d hwd) hc]
        simp
      · rfl
    · rw [o.clips j e]

/-- R5: the clip that was IN_FLIGHT was the card's only one. -/
theorem grounded (hs : AttemptsOk s) (hp : s.channels[p].state = .running) (hk : s.channels[p].clip = some k)
    (hc : s.clips[k] = some c) : Grounded t c.card := by
  obtain ⟨y, hy, -, hyst, -⟩ := o.clip
  intro j b hb hcard hst
  have hjk : j ≠ k := by
    rintro rfl
    rw [hy] at hb
    cases hb
    exact hyst hst
  rw [o.clips j hjk] at hb
  obtain ⟨-, q, hq, hj⟩ := hs.2.2.1 j b hb hst
  have e : q ≠ p := by
    rintro rfl
    rw [hk] at hj
    exact hjk (Option.some.inj hj).symm
  exact (o.other_running hs hp hk hc e hq hj hb).2.1 hcard

end AttemptOver

/-- A change of a clip that ends its attempt: its card, copies and marks as they were. -/
def Settles (f : Clip → Clip) : Prop :=
  ∀ c, (f c).card = c.card ∧ (f c).copies = c.copies ∧ (f c).state ≠ .inFlight

variable (s : Part) (h : CardId) (d : DestId) (k : ClipId) (p : PortId)

/-- `q` is `s` with the clip of a stopped attempt changed, and perhaps a fault raised against it. -/
def Settled (s : Part) (k : ClipId) (q : Part) : Prop :=
  ∃ f, Settles f ∧ (q = modClip k f s ∨ ∃ r, Aimed r (modClip k f s) ∧ q = raise r (modClip k f s))

variable {s k} in
theorem aimed_modClip {f : Clip → Clip} (hf : Settles f) (kind : FaultKind) (n : Nat) :
    Aimed (clipReport s kind k none n) (modClip k f s) := by
  intro _ j c hj hc
  simp only [clipReport, Option.some.injEq] at hj ⊢
  subst hj
  rw [clipCard, ← modClip_owner s k f (fun c => (hf c).1) k, hc, Option.map_some]

/-- R57 step 4: a failed attempt counted. -/
theorem countFailed_settled {c : Clip} (hc : s.clips[k] = some c) : Settled s k (countFailed k s) := by
  unfold countFailed
  rw [hc]
  dsimp only
  split
  · have hf : Settles fun c => { c with failed := c.failed + 1, state := .listed } := fun c => ⟨rfl, rfl, by simp⟩
    exact ⟨_, hf, .inl rfl⟩
  · have hf : Settles fun c => { c with failed := 3, state := .failed } := fun c => ⟨rfl, rfl, by simp⟩
    exact ⟨_, hf, .inr ⟨_, aimed_modClip hf _ _, rfl⟩⟩

/-- R57 steps 3 and 4: the clip's state after an attempt. -/
theorem settleClip_settled {c : Clip} (hc : s.clips[k] = some c) : Settled s k (settleClip k s) := by
  unfold settleClip
  rw [hc]
  dsimp only
  have hf : Settles fun c => { c with state := .written } := fun c => ⟨rfl, rfl, by simp⟩
  split
  · exact countFailed_settled s k hc
  · split
    · exact ⟨_, hf, .inr ⟨_, aimed_modClip hf _ _, rfl⟩⟩
    · exact ⟨_, hf, .inl rfl⟩

theorem withdrawAll_empty {ds : DestSet} (hd : ds.isEmpty = true) : withdrawAll ds s = s := by
  unfold withdrawAll
  rw [List.isEmpty_iff.mp hd]
  rfl

/-- The part at the moment an attempt's channel has stopped and its finished destinations have queued the clip. -/
def attemptDropped (p : PortId) (k : ClipId) (ds fin : DestSet) (s : Part) : Part :=
  joinQueues k fin (idleChannel p (withdrawAll ds s))

section Stop

variable {s k p} {u : Part} {c : Clip} (hs : AttemptsOk s) (hp : s.channels[p].state = .running)
  (hk : s.channels[p].clip = some k) (hc : s.clips[k] = some c)
include hs hp hk hc

/-- Stopping an attempt and changing its clip is the end of the attempt, also where the clip's card has been written before
(R17). -/
theorem attemptOver_of_stop (hclips : u.clips = s.clips) (hchannels : u.channels = s.channels) (hdests : u.dests = s.dests)
    (hcards : ∀ g : CardId, g ≠ c.card → u.cards[g] = s.cards[g]) (hcard : u.cards[c.card].state ≠ .cleared)
    (fin : DestSet) (f : Clip → Clip) (hf : Settles f) :
    AttemptOver s (modClip k f (attemptDropped p k s.channels[p].writing fin u)) p k c := by
  obtain ⟨-, -, -, -, hw⟩ := hs.running hp hk
  have hheld : ∀ d : DestId, s.channels[p].writing.mem d = true → u.dests[d].holder = some k := fun d hd => by
    rw [hdests]
    exact hw d hd
  obtain ⟨fcard, fcopies, fstate⟩ := hf (c.withoutCopies s.channels[p].writing.members)
  have clipAt (j : ClipId) : (modClip k f (attemptDropped p k s.channels[p].writing fin u)).clips[j] =
      if k = j then some (f (c.withoutCopies s.channels[p].writing.members)) else s.clips[j] := by
    rw [modClip_get]
    unfold attemptDropped
    rw [joinQueues_clips]
    unfold idleChannel
    rw [setChannel_clips, withdrawAll_clips j hheld, withdrawAll_clips k hheld, hclips]
    by_cases hj : k = j
    · subst hj
      simp only [if_pos, hc, Option.map_some]
    · simp only [if_neg hj]
  have channelAt (q : PortId) : (modClip k f (attemptDropped p k s.channels[p].writing fin u)).channels[q] =
      if p = q then Channel.idle s.channels[p].tagCounter else s.channels[q] := by
    rw [modClip_channels]
    unfold attemptDropped
    rw [joinQueues_channels]
    unfold idleChannel
    rw [setChannel_channels, get_set, withdrawAll_channels hheld, hchannels]
  have destAt (d : DestId) : (modClip k f (attemptDropped p k s.channels[p].writing fin u)).dests[d].holder =
        (if s.channels[p].writing.mem d then none else s.dests[d].holder)
      ∧ (modClip k f (attemptDropped p k s.channels[p].writing fin u)).dests[d].context = s.dests[d].context := by
    rw [modClip_dests]
    unfold attemptDropped
    rw [joinQueues_dests]
    unfold idleChannel
    rw [setChannel_dests, withdrawAll_dests d hheld, hdests]
    split <;> split <;> exact ⟨rfl, rfl⟩
  have cardAt : (modClip k f (attemptDropped p k s.channels[p].writing fin u)).cards = u.cards := by
    rw [modClip_cards]
    unfold attemptDropped
    rw [joinQueues_cards]
    unfold idleChannel
    rw [setChannel_cards, withdrawAll_cards hheld]
  refine ⟨?_, fun q hq => ?_, fun j hj => ?_, ?_, fun d => (destAt d).1, fun d => (destAt d).2, fun g hg => ?_, ?_⟩
  · rw [channelAt, if_pos rfl]
    exact ⟨by simp [Channel.idle], rfl⟩
  · rw [channelAt, if_neg (Ne.symm hq)]
  · rw [clipAt, if_neg (Ne.symm hj)]
  · refine ⟨_, (clipAt k).trans (if_pos rfl), ?_, fstate, fun d => ?_⟩
    · rw [fcard, Clip.withoutCopies_eq]
    · rw [fcopies, Clip.withoutCopies_get]
      simp only [DestSet.mem_members]
  · rw [cardAt]
    exact hcards g hg
  · rw [cardAt]
    exact hcard

end Stop

/-- What keeps the tables when an attempt is dropped and its clip settled. -/
theorem attemptDropped_keeps (ds fin : DestSet) : Keeps s (attemptDropped p k ds fin s) :=
  ((withdrawAll_keeps s ds).trans (idleChannel_keeps _ p)).trans (joinQueues_keeps _ k fin)

/-- R17, R57: an attempt that has stopped, its clip changed and perhaps a fault raised against it, keeps the links, also where
the clip's card has been written before, and leaves the card with no clip IN_FLIGHT. -/
theorem attemptStopped_of_written {s u : Part} {p : PortId} {k : ClipId} {c : Clip} {q : Part} (hcl : ClearedOk s)
    (hlist : ∀ (h : CardId) (k : ClipId), k ∈ s.cards[h].clips ↔ ∃ c, s.clips[k] = some c ∧ c.card = h)
    (hs : AttemptsOk s) (hp : s.channels[p].state = .running) (hk : s.channels[p].clip = some k)
    (hc : s.clips[k] = some c) (hclips : u.clips = s.clips) (hchannels : u.channels = s.channels)
    (hdests : u.dests = s.dests) (hcards : ∀ g : CardId, g ≠ c.card → u.cards[g] = s.cards[g])
    (hcard : u.cards[c.card].state ≠ .cleared) (hu : TablesOk u) (fin : DestSet)
    (hq : Settled (attemptDropped p k s.channels[p].writing fin u) k q) : ClearanceOk q ∧ Grounded q c.card := by
  obtain ⟨f, hf, hq⟩ := hq
  have hover := attemptOver_of_stop hs hp hk hc hclips hchannels hdests hcards hcard fin f hf
  have hok : ClearanceOk (modClip k f (attemptDropped p k s.channels[p].writing fin u)) :=
    ⟨hover.clearedOk hlist hc hcl,
      ((attemptDropped_keeps u k p _ fin).trans (modClip_keeps _ k f fun c => (hf c).1)).tablesOk hu,
      hover.attemptsOk hs hp hk hc⟩
  have hg := hover.grounded hs hp hk hc
  rcases hq with rfl | ⟨r, hr, rfl⟩
  · exact ⟨hok, hg⟩
  · exact ⟨raise_clearanceOk _ r hr hok, (raise_marked _ r hr).grounded hg⟩

theorem attemptStopped {s : Part} {p : PortId} {k : ClipId} {c : Clip} {q : Part} (hs : ClearanceOk s)
    (hp : s.channels[p].state = .running) (hk : s.channels[p].clip = some k) (hc : s.clips[k] = some c) (fin : DestSet)
    (hq : Settled (attemptDropped p k s.channels[p].writing fin s) k q) : ClearanceOk q ∧ Grounded q c.card := by
  have hcard : s.cards[c.card].state ≠ .cleared := by
    obtain ⟨b, hb, hst, -⟩ := hs.2.2.running hp hk
    rw [hc] at hb
    cases hb
    rcases (hs.2.2.flying hc hst).1 with e | e <;> rw [e] <;> decide
  exact attemptStopped_of_written hs.1 hs.2.1.1 hs.2.2 hp hk hc rfl rfl rfl (fun _ _ => rfl) hcard hs.2.1 fin hq

/-- The channel of a stopped attempt is IDLE. -/
theorem attemptDropped_channel (ds fin : DestSet) : (attemptDropped p k ds fin s).channels[p].state = .idle := by
  rw [attemptDropped, joinQueues_channels, idleChannel, setChannel_channels, get_set, if_pos rfl]
  rfl

/-- The clip of a stopped attempt is in use still. -/
theorem attemptDropped_clip {s : Part} {p : PortId} {k : ClipId} {c : Clip} (ds fin : DestSet)
    (hc : s.clips[k] = some c) : ∃ y, (attemptDropped p k ds fin s).clips[k] = some y := by
  have e := (attemptDropped_keeps s k p ds fin).owner k
  rw [hc, Option.map_some] at e
  obtain ⟨y, hy, -⟩ := Option.map_eq_some_iff.mp e
  exact ⟨y, hy⟩

/-! ## The channels -/

/-- A channel that is not RUNNING may be written with another that is not and has no clip. -/
theorem setChannel_clearanceOk (c : Channel) (hs : ClearanceOk s) (hold : s.channels[p].state ≠ .running)
    (hnew : c.state ≠ .running ∧ c.clip = none) : ClearanceOk (setChannel p c s) := by
  obtain ⟨hidle, hruns, hflies, hholds, hver⟩ := hs.2.2
  have same {q : PortId} (hq : s.channels[q].state = .running) : (setChannel p c s).channels[q] = s.channels[q] := by
    rw [setChannel_channels, get_set, if_neg]
    rintro rfl
    exact hold hq
  refine ⟨hs.1, hs.2.1, fun q hq => ?_, fun q hq => ?_, fun k b hb hst => ?_, fun d k hd => ?_, hver⟩
  · rw [setChannel_channels, get_set] at hq ⊢
    by_cases e : p = q
    · rw [if_pos e]
      exact hnew.2
    · rw [if_neg e] at hq ⊢
      exact hidle q hq
  · have hq' : s.channels[q].state = .running := by
      rw [setChannel_channels, get_set] at hq
      split at hq
      · exact absurd hq hnew.1
      · exact hq
    rw [same hq']
    exact hruns q hq'
  · obtain ⟨hcard, q, hq, hk⟩ := hflies k b hb hst
    exact ⟨hcard, q, by rw [same hq]; exact hq, by rw [same hq]; exact hk⟩
  · obtain ⟨q, b, hq, hrest⟩ := hholds d k hd
    exact ⟨q, b, by rw [same hq]; exact ⟨hq, hrest⟩⟩

theorem idleChannel_clearanceOk (hs : ClearanceOk s) (hold : s.channels[p].state ≠ .running) :
    ClearanceOk (idleChannel p s) :=
  setChannel_clearanceOk s p _ hs hold ⟨by simp [Channel.idle], rfl⟩

/-- R57: the end of an attempt whose writing set is empty. -/
theorem endIfEmpty_clearanceOk (hs : ClearanceOk s) : ClearanceOk (endIfEmpty p s) := by
  unfold endIfEmpty
  split
  · rename_i hcond
    obtain ⟨hp, hempty⟩ := hcond
    obtain ⟨k, c, hk, hc, -⟩ := hs.2.2.2.1 p hp
    unfold endAttempt
    rw [hk]
    dsimp only
    have hdrop : closeAttempt p k s = settleClip k (attemptDropped p k s.channels[p].writing s.channels[p].finished s) := by
      unfold closeAttempt attemptDropped
      rw [withdrawAll_empty s hempty]
    obtain ⟨y, hy⟩ := attemptDropped_clip (p := p) s.channels[p].writing s.channels[p].finished hc
    obtain ⟨hok, hg⟩ := attemptStopped hs hp hk hc _ (settleClip_settled _ k hy)
    rw [hdrop]
    refine settleCardOf_clearanceOk _ k hok fun b hb => ?_
    have hown := (closeAttempt_keeps s k p).owner k
    rw [hdrop, hb, hc, Option.map_some, Option.map_some, Option.some.injEq] at hown
    exact hown ▸ hg
  · exact hs

theorem endAttemptOf_clearanceOk (hs : ClearanceOk s) : ClearanceOk (endAttemptOf k s) := by
  unfold endAttemptOf
  split
  · exact endIfEmpty_clearanceOk s _ hs
  · exact hs

/-! ## A destination that leaves an attempt -/

/-- The destination `d` has left the attempt of the clip `k`, whose record was `c`, on the channel `p`: it has no holder, is in
no writing set, and the clip's copy record there is one that no verify has. -/
structure DestLeaves (s t : Part) (p : PortId) (k : ClipId) (c : Clip) (d : DestId) : Prop where
  channel : t.channels[p].state = .running ∧ t.channels[p].clip = some k
    ∧ t.channels[p].writing = s.channels[p].writing.erase d
  others  : ∀ q : PortId, q ≠ p → t.channels[q] = s.channels[q]
  clips   : ∀ j : ClipId, j ≠ k → t.clips[j] = s.clips[j]
  clip    : ∃ y, t.clips[k] = some y ∧ y.card = c.card ∧ y.state = .inFlight ∧ (∀ o, y.copies[d] ≠ .verifying o)
    ∧ ∀ e : DestId, e ≠ d → y.copies[e] = c.copies[e]
  holders : ∀ e : DestId, t.dests[e].holder = if d = e then none else s.dests[e].holder
  context : ∀ e : DestId, t.dests[e].context = s.dests[e].context
  cards   : t.cards = s.cards

namespace DestLeaves

variable {s t : Part} {p : PortId} {k : ClipId} {c : Clip} {d : DestId} (l : DestLeaves s t p k c d)
include l

theorem clearedOk (hs : ClearedOk s) (ht : TablesOk s) (ha : AttemptsOk s) (hc : s.clips[k] = some c)
    (hst : c.state = .inFlight) : ClearedOk t := by
  intro h hh
  rw [l.cards] at hh ⊢
  refine ⟨(hs h hh).1, fun j hj b hb => ?_⟩
  have hjk : j ≠ k := by
    rintro rfl
    have e := ht.card_of_mem hj hc
    rcases (ha.flying hc hst).1 with e' | e' <;> rw [s.card_congr e, hh] at e' <;> cases e'
  rw [l.clips j hjk] at hb
  exact (hs h hh).2 j hj b hb

theorem attemptsOk (hs : AttemptsOk s) (hp : s.channels[p].state = .running) (hk : s.channels[p].clip = some k)
    (hc : s.clips[k] = some c) (hd : s.dests[d].holder = some k) : AttemptsOk t := by
  obtain ⟨y, hy, ycard, yst, ynot, yco⟩ := l.clip
  obtain ⟨c', hc', cst, cso, cw⟩ := hs.running hp hk
  rw [hc] at hc'
  cases hc'
  have other {q : PortId} (hq : q ≠ p) {j : ClipId} (hrun : s.channels[q].state = .running)
      (hj : s.channels[q].clip = some j) : j ≠ k := by
    rintro rfl
    exact hq (hs.channel_unique hrun hj hp hk)
  refine ⟨fun q hq => ?_, fun q hq => ?_, fun j b hb hst => ?_, fun e j he => ?_, fun e j v => ?_⟩
  · have e : q ≠ p := by
      rintro rfl
      exact hq l.channel.1
    rw [l.others q e] at hq ⊢
    exact hs.1 q hq
  · by_cases e : q = p
    · subst e
      refine ⟨k, y, l.channel.2.1, hy, yst, ?_, fun e he => ?_⟩
      · rw [t.card_congr ycard, l.cards]
        exact cso
      · rw [l.channel.2.2, DestSet.mem_erase] at he
        rw [l.holders]
        split at he
        · cases he
        · rename_i hde
          rw [if_neg hde]
          exact cw e he
    · rw [l.others q e] at hq ⊢
      obtain ⟨j, b, hj, hb, hst, hso, hw⟩ := hs.2.1 q hq
      have hjk := other e hq hj
      refine ⟨j, b, hj, (l.clips j hjk).trans hb, hst, by rw [l.cards]; exact hso, fun e he => ?_⟩
      rw [l.holders, if_neg]
      · exact hw e he
      · rintro rfl
        exact hjk (Option.some.inj ((hw d he).symm.trans hd))
  · by_cases e : j = k
    · subst e
      rw [hy] at hb
      cases hb
      rw [t.card_congr ycard, l.cards]
      exact ⟨(hs.flying hc cst).1, p, l.channel.1, l.channel.2.1⟩
    · rw [l.clips j e] at hb
      obtain ⟨hcard, q, hq, hj⟩ := hs.2.2.1 j b hb hst
      have hqp : q ≠ p := by
        rintro rfl
        rw [hk] at hj
        exact e (Option.some.inj hj).symm
      rw [l.cards]
      exact ⟨hcard, q, by rw [l.others q hqp]; exact ⟨hq, hj⟩⟩
  · rw [l.holders] at he
    split at he
    · cases he
    · rename_i hde
      obtain ⟨q, b, hq, hj, hw, hb, hco⟩ := hs.2.2.2.1 e j he
      by_cases hqp : q = p
      · subst hqp
        rw [hk] at hj
        cases hj
        rw [hc] at hb
        cases hb
        refine ⟨q, y, l.channel.1, l.channel.2.1, ?_, hy, (yco e (Ne.symm hde)).trans hco⟩
        rw [l.channel.2.2, DestSet.mem_erase, if_neg hde]
        exact hw
      · have hjk := other hqp hq hj
        exact ⟨q, b, by rw [l.others q hqp]; exact ⟨hq, hj, hw, (l.clips j hjk).trans hb, hco⟩⟩
  · rw [l.context, ← hs.2.2.2.2]
    by_cases hjk : j = k
    · subst hjk
      simp only [hy, hc, Option.some.injEq, exists_eq_left']
      by_cases hde : e = d
      · subst hde
        rw [hs.heldCopy hd hc]
        exact iff_of_false (ynot v) nofun
      · rw [yco e hde]
    · rw [l.clips j hjk]

end DestLeaves

/-- R55, R56: a destination that leaves its holder's attempt. -/
theorem leaveAttempt_clearanceOk (hs : ClearanceOk s) : ClearanceOk (leaveAttempt d s) := by
  have hkeeps := leaveAttempt_keeps s d
  unfold leaveAttempt at hkeeps ⊢
  cases hd : s.dests[d].holder with
  | none => exact hs
  | some k =>
    simp only [hd] at hkeeps ⊢
    cases hrun : runningChannel s k with
    | none =>
      obtain ⟨q, b, hq, hj, -⟩ := hs.2.2.2.2.2.1 d k hd
      exact absurd hj ((runningChannel_none s k).mp hrun q hq)
    | some p =>
      simp only [hrun] at hkeeps ⊢
      obtain ⟨hp, hk⟩ := runningChannel_some s k hrun
      obtain ⟨c, hc, cst, -⟩ := hs.2.2.running hp hk
      have leaves : DestLeaves s (setChannel p (s.channels[p].without d) (dropOut d s)) p k c d := by
        refine ⟨?_, fun q hq => ?_, fun j hj => ?_, ⟨c.withoutCopy d, ?_, rfl, cst, fun o => ?_, fun e he => ?_⟩,
          fun e => ?_, fun e => ?_, ?_⟩
        · rw [setChannel_channels, get_set, if_pos rfl]
          exact ⟨hp, hk, rfl⟩
        · rw [setChannel_channels, get_set, if_neg (Ne.symm hq), dropOut_channels]
        · rw [setChannel_clips, dropOut_clips s d k j hd, if_neg (Ne.symm hj)]
        · rw [setChannel_clips, dropOut_clips s d k k hd, if_pos rfl, hc, Option.map_some]
        · rw [Clip.withoutCopy, get_set, if_pos rfl]
          simp
        · rw [Clip.withoutCopy, get_set, if_neg (Ne.symm he)]
        · rw [setChannel_dests, dropOut_dests s d e k hd]
          split <;> rfl
        · rw [setChannel_dests, dropOut_dests s d e k hd]
          split
          · rename_i he
            subst he
            rfl
          · rfl
        · rw [setChannel_cards, dropOut_cards]
      exact ⟨leaves.clearedOk hs.1 hs.2.1 hs.2.2 hc cst, hkeeps.tablesOk hs.2.1,
        leaves.attemptsOk hs.2.2 hp hk hc hd⟩

/-! ## Draining -/

/-- R65: a WAITING channel and a draining that ends. -/
theorem drainedFor_clearanceOk (hs : ClearanceOk s) : ClearanceOk (drainedFor d p s) := by
  unfold drainedFor
  split
  · rename_i hcond
    have hold : s.channels[p].state ≠ .running := by rw [hcond.1]; decide
    have hidle := idleChannel_clearanceOk s p hs hold
    split
    · split
      · rename_i h hb
        split
        · refine moveCard_clearanceOk _ h _ hidle (by decide) (by decide) (.inl ?_)
          have hg : Grounded s h := hs.2.2.grounded_of_source fun q hq => by
            rw [(hs.2.1.2.2.1 p h).mp hb, Option.some.injEq] at hq
            exact hq ▸ hold
          exact hg
        · exact hidle
      · exact hidle
    · exact (setChannel_links s p { s.channels[p] with drain := s.channels[p].drain.erase d } rfl).clearanceOk hs
  · exact hs

/-- Folding an operation that keeps the links keeps them. -/
theorem foldl_clearanceOk {α : Type} (f : Part → α → Part) (hf : ∀ t a, ClearanceOk t → ClearanceOk (f t a)) (l : List α)
    (s : Part) (hs : ClearanceOk s) : ClearanceOk (l.foldl f s) := by
  induction l generalizing s with
  | nil => exact hs
  | cons a as ih => exact ih (f s a) (hf s a hs)

theorem drainEnded_clearanceOk (hs : ClearanceOk s) : ClearanceOk (drainEnded d s) :=
  foldl_clearanceOk _ (fun t q ht => drainedFor_clearanceOk t d q ht) _ s hs

/-! ## Verifies -/

/-- R6: the verified count of a clip whose copy on a destination is replaced, one that was VERIFIED by one that is. -/
theorem Clip.verified_le_set (c : Clip) (x : Copy) (hx : c.copies[d].isVerified = true → x.isVerified = true) :
    c.verified ≤ ({ c with copies := c.copies.set d x } : Clip).verified := by
  have hd : d.val < c.copies.toList.length := by simp
  simp only [Clip.verified, Vector.toList_set, List.countP_set hd]
  have hget : c.copies.toList[d.val] = c.copies[d] := rfl
  rw [hget]
  have hpos : c.copies[d].isVerified = true → 0 < c.copies.toList.countP Copy.isVerified := fun h =>
    List.countP_pos_iff.mpr ⟨_, List.getElem_mem hd, h⟩
  split <;> split <;> simp_all

/-- The clip `k`, whose record was `c`, has the copy record `x` on the destination `d`, whose context names it exactly when `x`
is VERIFYING; nothing else that the links speak of has changed. -/
structure CopyTurns (s t : Part) (d : DestId) (k : ClipId) (c : Clip) (x : Copy) : Prop where
  cards    : t.cards = s.cards
  channels : t.channels = s.channels
  ports    : t.ports = s.ports
  clips    : ∀ j : ClipId, t.clips[j] = if k = j then some { c with copies := c.copies.set d x } else s.clips[j]
  holders  : ∀ e : DestId, t.dests[e].holder = s.dests[e].holder
  context  : ∀ e : DestId, e ≠ d → t.dests[e].context = s.dests[e].context
  verifies : ∀ (j : ClipId) (o : Nat), t.dests[d].verifies j o ↔ j = k ∧ x = .verifying o

theorem CopyTurns.clearanceOk {s t : Part} {d : DestId} {k : ClipId} {c : Clip} {x : Copy} (e : CopyTurns s t d k c x)
    (hc : s.clips[k] = some c) (hw : c.copies[d] ≠ .writing)
    (hver : c.copies[d].isVerified = true → x.isVerified = true)
    (hctx : ∀ (j : ClipId) (o : Nat), s.dests[d].verifies j o → j = k) (hs : ClearanceOk s) : ClearanceOk t := by
  have back {j : ClipId} {b : Clip} (hb : t.clips[j] = some b) :
      ∃ a, s.clips[j] = some a ∧ b.card = a.card ∧ b.state = a.state ∧ b.openMarks = a.openMarks
        ∧ b.waivedMarks = a.waivedMarks ∧ a.verified ≤ b.verified := by
    rw [e.clips] at hb
    split at hb
    · rename_i hj
      subst hj
      cases hb
      exact ⟨c, hc, rfl, rfl, rfl, rfl, c.verified_le_set d x hver⟩
    · exact ⟨b, hb, rfl, rfl, rfl, rfl, le_rfl⟩
  have forth {j : ClipId} {a : Clip} (ha : s.clips[j] = some a) :
      ∃ b, t.clips[j] = some b ∧ b.card = a.card ∧ b.state = a.state
        ∧ ∀ e : DestId, (a.copies[e] = .writing → b.copies[e] = .writing) := by
    rw [e.clips]
    split
    · rename_i hj
      subst hj
      rw [hc] at ha
      cases ha
      refine ⟨_, rfl, rfl, rfl, fun e he => ?_⟩
      dsimp only
      rw [get_set, if_neg]
      · exact he
      · rintro rfl
        exact hw he
    · exact ⟨a, ha, rfl, rfl, fun _ he => he⟩
  obtain ⟨hcl, ⟨hlist, hfree, hbind, hatt⟩, hidle, hruns, hflies, hholds, hvers⟩ := hs
  refine ⟨fun h hst => ?_, ⟨fun h j => ?_, by rw [e.cards]; exact hfree, by rw [e.cards, e.ports]; exact hbind,
    by rw [e.ports]; exact hatt⟩, by rw [e.channels]; exact hidle, fun p hp => ?_, fun j b hb hst => ?_,
    fun f j hf => ?_, fun f j o => ?_⟩
  · rw [e.cards] at hst ⊢
    refine ⟨(hcl h hst).1, fun j hj b hb => ?_⟩
    obtain ⟨a, ha, -, bst, bom, bwm, hle⟩ := back hb
    obtain ⟨aom, hrest⟩ := (hcl h hst).2 j hj a ha
    rw [bst, bom, bwm]
    exact ⟨aom, hrest.imp id fun ⟨h1, h2⟩ => ⟨h1, h2.trans hle⟩⟩
  · rw [e.cards, hlist]
    constructor
    · rintro ⟨a, ha, rfl⟩
      obtain ⟨b, hb, hcard, -⟩ := forth ha
      exact ⟨b, hb, hcard⟩
    · rintro ⟨b, hb, rfl⟩
      obtain ⟨a, ha, hcard, -⟩ := back hb
      exact ⟨a, ha, hcard.symm⟩
  · rw [e.channels] at hp ⊢
    obtain ⟨j, a, hj, ha, hst, hso, hwr⟩ := hruns p hp
    obtain ⟨b, hb, bcard, bst, -⟩ := forth ha
    refine ⟨j, b, hj, hb, bst.trans hst, ?_, fun f hf => (e.holders f).trans (hwr f hf)⟩
    rw [t.card_congr bcard, e.cards]
    exact hso
  · obtain ⟨a, ha, bcard, bst, -⟩ := back hb
    obtain ⟨hcard, p, hp, hj⟩ := hflies j a ha (bst ▸ hst)
    rw [t.card_congr bcard, e.cards, e.channels]
    exact ⟨hcard, p, hp, hj⟩
  · rw [e.holders] at hf
    obtain ⟨p, a, hp, hj, hwr, ha, hco⟩ := hholds f j hf
    obtain ⟨b, hb, -, -, hbw⟩ := forth ha
    rw [e.channels]
    exact ⟨p, b, hp, hj, hwr, hb, hbw f hco⟩
  · change _ ↔ t.dests[f].verifies j o
    by_cases hf : f = d
    · subst hf
      rw [e.verifies, e.clips]
      by_cases hj : k = j
      · subst hj
        simp
      · rw [if_neg hj, hvers f j o]
        exact ⟨fun hv => absurd (hctx j o hv).symm hj, fun hv => absurd hv.1.symm hj⟩
    · have hsame : t.dests[f].verifies j o ↔ s.dests[f].verifies j o := by
        unfold Dest.verifies
        rw [e.context f hf]
      rw [hsame, e.clips]
      refine Iff.trans ?_ (hvers f j o)
      split
      · rename_i hj
        subst hj
        simp only [hc, Option.some.injEq, exists_eq_left', get_set, if_neg (Ne.symm hf)]
      · rfl

/-- A copy record and a destination written together. -/
theorem copyTurns_of_write {s : Part} {d : DestId} {k : ClipId} {c : Clip} {x : Copy} {y : Dest} (hc : s.clips[k] = some c)
    (hy : y.holder = s.dests[d].holder) (hv : ∀ (j : ClipId) (o : Nat), y.verifies j o ↔ j = k ∧ x = .verifying o) :
    CopyTurns s (writeDest d y (modClip k (fun c => { c with copies := c.copies.set d x }) s)) d k c x where
  cards := by rw [writeDest_cards, modClip_cards]
  channels := by rw [writeDest_channels, modClip_channels]
  ports := by rw [writeDest_ports, modClip_ports]
  clips j := by rw [writeDest_clips, modClip_get, hc, Option.map_some]
  holders e := by
    rw [writeDest_dests, modClip_dests, get_set]
    split
    · rename_i he
      subst he
      exact hy
    · rfl
  context e he := by rw [writeDest_dests, modClip_dests, get_set, if_neg (Ne.symm he)]
  verifies j o := by
    rw [writeDest_dests, get_set, if_pos rfl]
    exact hv j o

/-- R71, R72: a verify that starts. -/
theorem startVerify_clearanceOk (hs : ClearanceOk s) : ClearanceOk (startVerify s d) := by
  unfold startVerify
  split
  · rename_i hcond
    split
    · exact hs
    · rename_i k rest hq
      split
      · exact hs
      · rename_i c hc
        split
        · rename_i o ho
          refine (copyTurns_of_write hc ?_ fun j o' => ?_).clearanceOk hc ?_ ?_ ?_ hs
          · rfl
          · simp only [Dest.verifies, VerifyContext.begin, Option.some.injEq, exists_eq_left', Copy.verifying.injEq]
            exact and_congr_left' eq_comm
          · rw [ho]
            simp
          · rw [ho]
            simp [Copy.isVerified]
          · rintro j o' ⟨v, hv, -⟩
            rw [hv] at hcond
            simp at hcond
        · exact hs
  · exact hs

theorem startVerifies_clearanceOk (hs : ClearanceOk s) : ClearanceOk (startVerifies s) :=
  foldl_clearanceOk _ (fun t e ht => startVerify_clearanceOk t e ht) _ s hs

variable {s d} in
/-- R71: a context and the copy record it names. -/
theorem AttemptsOk.verifying {v : VerifyContext} (hs : AttemptsOk s) (hv : s.dests[d].verifies v.clip v.offset) :
    ∃ c, s.clips[v.clip] = some c ∧ c.copies[d] = .verifying v.offset :=
  (hs.2.2.2.2 d v.clip v.offset).mpr hv

/-- R78, R79: a verify that stops. -/
theorem stopVerify_clearanceOk (hs : ClearanceOk s) : ClearanceOk (stopVerify d s) := by
  unfold stopVerify
  split
  · exact hs
  · rename_i v hv
    obtain ⟨c, hc, hco⟩ := hs.2.2.verifying (d := d) ⟨v, hv, rfl, rfl⟩
    refine (copyTurns_of_write hc ?_ fun j o => ?_).clearanceOk hc ?_ ?_ ?_ hs
    · rfl
    · simp [Dest.verifies]
    · rw [hco]
      simp
    · rw [hco]
      simp [Copy.isVerified]
    · rintro j o ⟨u, hu, rfl, -⟩
      rw [hv] at hu
      cases hu
      rfl

/-- R75 to R77: a verify that ends. -/
theorem endVerify_clearanceOk (v : VerifyContext) (verdict : Copy) (fault : Option (FaultKind × Nat))
    (hs : ClearanceOk s) (hv : s.dests[d].verifies v.clip v.offset) (hx : ∀ o, verdict ≠ .verifying o) :
    ClearanceOk (endVerify d v verdict fault s) := by
  unfold endVerify
  dsimp only
  obtain ⟨c, hc, hco⟩ := hs.2.2.verifying hv
  have hfree : ClearanceOk (writeDest d s.dests[d].verifyOver
      (modClip v.clip (fun c => { c with copies := c.copies.set d verdict }) s)) := by
    refine (copyTurns_of_write hc ?_ fun j o => ?_).clearanceOk hc ?_ ?_ ?_ hs
    · rfl
    · simp [Dest.verifies, Dest.verifyOver, Dest.dropReads, Dest.failedRequest, hx o]
    · rw [hco]
      simp
    · rw [hco]
      simp [Copy.isVerified]
    · rintro j o ⟨u, hu, rfl, -⟩
      obtain ⟨w, hw, hclip, -⟩ := hv
      rw [hu] at hw
      cases hw
      exact hclip
  refine startVerifies_clearanceOk _ (evalClipClearance_clearanceOk _ v.clip ?_)
  split
  · exact raise_clearanceOk _ _ (clipReport_aimed _ _ _ _ _) hfree
  · exact hfree

end Sys2Proof.Machine
end

