-- ==== Sys2Proof/Proofs/Grants.lean ====
section
/-! PROOF. The grant arbiter keeps the links between the tables (R44 to R47): a candidate of a pass still stands when it is
granted, and what follows an event keeps them too. -/

namespace Sys2Proof.Machine

variable (s : Part) (h : CardId) (d : DestId) (k : ClipId) (p : PortId)

/-! ## Faults by what they mark -/

/-- R144, R146: a fault of a kind that marks nothing is logged and does no more. -/
theorem raise_unmarked (r : Report) (hcard : r.kind.marksCard = false) (hclip : r.kind.marksClip = false) :
    raise r s = { s with log := logFault (afterClearance s r) r s.log } := by
  unfold raise
  split
  · rename_i e
    rw [e]
  · rename_i e
    rw [openMark, hcard, hclip, Bool.eq_false_iff.mpr e]
    rfl

theorem openCardMark_clips (f : FaultKind) : (openCardMark h f s).clips = s.clips := by
  unfold openCardMark
  split
  · rfl
  · exact writeCard_clips _ _ _

/-- R153 to R155: the card table after a mark has been opened on a card. -/
theorem openCardMark_cards (f : FaultKind) (hf : s.cards[h].openMarks.has f = false) :
    (openCardMark h f s).cards = s.cards.set h
      { s.cards[h] with
        openMarks := s.cards[h].openMarks.insert f, waivedMarks := s.cards[h].waivedMarks.erase f
        generation := (s.cards[h].generation + 1) % 65536
        state := if s.cards[h].state = .copied then .held else s.cards[h].state } := by
  unfold openCardMark
  rw [if_neg (by rw [hf]; decide), noteOpening_cards]
  dsimp only
  rw [get_set, if_pos rfl, Vector.set_set]

theorem openCardMark_open (f : FaultKind) (hf : s.cards[h].openMarks.has f = true) : openCardMark h f s = s := by
  unfold openCardMark
  rw [if_pos hf]

theorem openCardMark_others (f : FaultKind) (g : CardId) (hg : g ≠ h) : (openCardMark h f s).cards[g] = s.cards[g] := by
  cases hf : s.cards[h].openMarks.has f with
  | true => rw [openCardMark_open s h f hf]
  | false => rw [openCardMark_cards s h f hf, get_set, if_neg (Ne.symm hg)]

/-- R153: the mark is open once it has been opened. -/
theorem openCardMark_has (f : FaultKind) : (openCardMark h f s).cards[h].openMarks.has f = true := by
  cases hf : s.cards[h].openMarks.has f with
  | true => rw [openCardMark_open s h f hf, hf]
  | false =>
    rw [openCardMark_cards s h f hf, get_set, if_pos rfl]
    exact MarkSet.has_insert_self _ f

/-- R146, R153: a fault of a kind that marks cards opens its mark on the card it names, unless that is CLEARED, and touches
no clip and no other card. -/
theorem raise_onCard (r : Report) (hk : r.kind.marksCard = true) (hr : r.card = some h) :
    (raise r s).clips = s.clips ∧ (∀ g : CardId, g ≠ h → (raise r s).cards[g] = s.cards[g])
      ∧ (s.cards[h].state ≠ .cleared → (raise r s).cards[h].openMarks.has r.kind = true) := by
  unfold raise
  split
  · rename_i e
    refine ⟨rfl, fun _ _ => rfl, fun hst => absurd ?_ hst⟩
    rw [afterClearance, hr] at e
    simpa using e
  · rw [openMark, if_pos hk, hr]
    dsimp only
    exact ⟨openCardMark_clips _ h _, openCardMark_others _ h _, fun _ => openCardMark_has _ h _⟩

/-! ## A consideration -/

/-- R37: the destination that is found full, and the log, are all that a test of the fit changes. -/
theorem testFit_tables (c : Clip) :
    (testFit h k c s d).cards = s.cards ∧ (testFit h k c s d).clips = s.clips
      ∧ (testFit h k c s d).channels = s.channels := by
  unfold testFit
  split
  · rw [raise_unmarked _ _ rfl rfl]
    exact ⟨writeDest_cards s d _, writeDest_clips s d _, writeDest_channels s d _⟩
  · exact ⟨rfl, rfl, rfl⟩

theorem testFit_links (c : Clip) : SameLinks s (testFit h k c s d) := by
  unfold testFit
  split
  · rw [raise_unmarked _ _ rfl rfl]
    exact (writeDest_links s d { s.dests[d] with state := .full } rfl).trans (.of_eq rfl rfl rfl rfl rfl)
  · exact .refl s

theorem testFits_tables (c : Clip) (l : List DestId) :
    (l.foldl (testFit h k c) s).cards = s.cards ∧ (l.foldl (testFit h k c) s).clips = s.clips
      ∧ (l.foldl (testFit h k c) s).channels = s.channels := by
  induction l generalizing s with
  | nil => exact ⟨rfl, rfl, rfl⟩
  | cons d rest ih =>
    obtain ⟨h1, h2, h3⟩ := ih (testFit h k c s d)
    obtain ⟨e1, e2, e3⟩ := testFit_tables s h d k c
    exact ⟨h1.trans e1, h2.trans e2, h3.trans e3⟩

variable {s h k} in
/-- R44: what a card that is ready has. -/
theorem readyClip_some (hr : readyClip s h = some k) :
    s.cards[h].state = .copying ∧ inFlightClip s h = none ∧ firstListed s h = some k := by
  unfold readyClip at hr
  split at hr
  · rename_i hcond
    exact ⟨hcond.1, Option.isNone_iff_eq_none.mp hcond.2.1, hr⟩
  · cases hr

/-- R44: a card found short. -/
theorem shortfall_others (n : Nat) : (shortfall h k n s).clips = s.clips
    ∧ ∀ g : CardId, g ≠ h → (shortfall h k n s).cards[g] = s.cards[g] := by
  obtain ⟨hclips, hcards, -⟩ := raise_onCard s h ⟨.destShortfall, some h, some k, none, none, n⟩ rfl rfl
  unfold shortfall moveCard
  refine ⟨(writeCard_clips _ _ _).trans hclips, fun g hg => ?_⟩
  rw [writeCard_cards, get_set, if_neg (Ne.symm hg)]
  exact hcards g hg

/-- R44: a consideration touches no clip and no other card than the one considered. -/
theorem consider_others : (consider s h).1.clips = s.clips
    ∧ ∀ g : CardId, g ≠ h → (consider s h).1.cards[g] = s.cards[g] := by
  unfold consider
  split
  · exact ⟨rfl, fun _ _ => rfl⟩
  · split
    · exact ⟨rfl, fun _ _ => rfl⟩
    · split
      · exact ⟨rfl, fun _ _ => rfl⟩
      · rename_i k _ _ c _ _
        obtain ⟨hcards, hclips, -⟩ := testFits_tables s h k c allDests
        simp only
        generalize allDests.foldl (testFit h k c) s = t at hcards hclips ⊢
        split
        · obtain ⟨h1, h2⟩ := shortfall_others t h k (t.cards[h].required - (c.live + (targetSet h c t).size))
          exact ⟨h1.trans hclips, fun g hg => by rw [h2 g hg, hcards]⟩
        · refine ⟨hclips, fun g _ => ?_⟩
          show t.cards[g] = s.cards[g]
          rw [hcards]

theorem considerAll_others (l : List CardId) : (considerAll l s).1.clips = s.clips
    ∧ ∀ g : CardId, g ∉ l → (considerAll l s).1.cards[g] = s.cards[g] := by
  induction l generalizing s with
  | nil => exact ⟨rfl, fun _ _ => rfl⟩
  | cons h rest ih =>
    obtain ⟨h1, h2⟩ := consider_others s h
    obtain ⟨i1, i2⟩ := ih (consider s h).1
    refine ⟨i1.trans h1, fun g hg => ?_⟩
    rw [List.mem_cons, not_or] at hg
    exact (i2 g hg.2).trans (h2 g hg.1)

/-- R44: a consideration keeps the links. -/
theorem consider_clearanceOk (hs : ClearanceOk s) : ClearanceOk (consider s h).1 := by
  unfold consider
  split
  · exact hs
  · rename_i k hready
    split
    · exact hs
    · split
      · exact hs
      · rename_i c _ _
        have hl := SameLinks.foldl (testFit h k c) (fun t e => testFit_links t h e k c) allDests s
        simp only
        generalize allDests.foldl (testFit h k c) s = t at hl ⊢
        have ht := hl.clearanceOk hs
        split
        · unfold shortfall
          have hg : Grounded t h := by
            obtain ⟨-, hnone, -⟩ := readyClip_some hready
            intro j b hb hcard
            obtain ⟨a, ha, acard, ast, -⟩ := hl.clip hb
            exact ast ▸ hs.2.1.grounded_iff.mpr hnone j a ha (acard.trans hcard)
          have hr : Aimed ⟨.destShortfall, some h, some k, none, none,
              t.cards[h].required - (c.live + (targetSet h c t).size)⟩ t := fun hk => nomatch hk
          exact moveCard_clearanceOk _ h _ (raise_clearanceOk t _ hr ht) (by decide) (by decide)
            (.inl ((raise_marked t _ hr).grounded hg))
        · exact ht

theorem considerAll_clearanceOk (l : List CardId) (hs : ClearanceOk s) : ClearanceOk (considerAll l s).1 := by
  induction l generalizing s with
  | nil => exact hs
  | cons h rest ih => exact ih _ (consider_clearanceOk s h hs)

/-! ## The candidates of a pass -/

/-- R44: the candidate's card is COPYING, its clip is a LISTED one of that card and has no live copy on the target set. -/
def Candidate.Fair (s : Part) (c : Candidate) : Prop :=
  s.cards[c.card].state = .copying ∧ ∃ x, s.clips[c.clip] = some x ∧ x.card = c.card ∧ x.state = .listed
    ∧ ∀ d : DestId, c.targets.mem d = true → x.copies[d].live = false

variable {s h} in
/-- R44, R45 step 2: the candidate a consideration gives. -/
theorem consider_fair {c : Candidate} (hs : TablesOk s) (hc : (consider s h).2 = some c) :
    c.card = h ∧ c.Fair (consider s h).1 := by
  unfold consider at hc ⊢
  split at hc
  · cases hc
  · rename_i k hready
    obtain ⟨hst, -, hfirst⟩ := readyClip_some hready
    obtain ⟨hmem, b, hb, hlisted⟩ := firstListed_some s h k hfirst
    have hcard := hs.card_of_mem hmem hb
    split at hc
    · cases hc
    · rename_i x hx
      rw [hb, Option.some.injEq] at hx
      subst hx
      split at hc
      · rename_i hreq
        cases hc
        simp only [if_pos hreq]
        refine ⟨trivial, hst, b, hb, hcard, hlisted, fun d hd => ?_⟩
        rw [DestSet.mem_empty] at hd
        cases hd
      · rename_i hreq
        obtain ⟨tcards, tclips, -⟩ := testFits_tables s h k b allDests
        simp only [if_neg hreq]
        simp only at hc
        generalize allDests.foldl (testFit h k b) s = t at hc tcards tclips ⊢
        split at hc
        · cases hc
        · rename_i henough
          cases hc
          rw [if_neg henough]
          refine ⟨rfl, ?_, b, by rw [tclips]; exact hb, hcard, hlisted, fun d hd => ?_⟩
          · rw [tcards]
            exact hst
          · rw [targetSet, DestSet.mem_ofPred] at hd
            simp only [Bool.and_eq_true, Bool.not_eq_true'] at hd
            exact hd.2

/-- R45 step 2: the candidates of a pass stand after all considerations. -/
theorem considerAll_fair (l : List CardId) (hl : l.Nodup) (hs : ClearanceOk s) :
    ∀ c ∈ (considerAll l s).2, c.Fair (considerAll l s).1 := by
  induction l generalizing s with
  | nil => exact fun c hc => nomatch hc
  | cons h rest ih =>
    obtain ⟨hh, hrest⟩ := List.nodup_cons.mp hl
    intro c hc
    unfold considerAll at hc ⊢
    dsimp only at hc ⊢
    have later := ih (consider s h).1 hrest (consider_clearanceOk s h hs)
    split at hc
    · rename_i b hb
      rcases List.mem_cons.mp hc with rfl | hc
      · obtain ⟨hcard, hst, x, hx, hfair⟩ := consider_fair hs.2.1 hb
        obtain ⟨hclips, hcards⟩ := considerAll_others (consider s h).1 rest
        refine ⟨?_, x, by rw [hclips]; exact hx, hfair⟩
        rw [hcards c.card (hcard ▸ hh)]
        exact hst
      · exact later c hc
    · exact later c hc

/-- R45 steps 3 and 4: the candidate chosen, all its targets free. -/
theorem chooseGrant_some {l : List Candidate} {c : Candidate} (hc : chooseGrant s l = some c) :
    c ∈ l ∧ ∀ d : DestId, c.targets.mem d = true → s.dests[d].isFree = true := by
  have free (r : DestSet) (e : Candidate) (he : grantable s r e = true) (d : DestId) (hd : e.targets.mem d = true) :
      s.dests[d].isFree = true := by
    have hd' := (DestSet.allMembers_iff _ _).mp he d hd
    exact (Bool.and_eq_true_iff.mp hd').1
  unfold chooseGrant at hc
  split at hc
  · cases hc
  · split at hc
    · rename_i hsenior
      cases hc
      exact ⟨List.mem_cons_self, free _ _ hsenior⟩
    · exact ⟨List.mem_cons_of_mem _ (List.mem_of_find?_eq_some hc), free _ _ (List.find?_some hc)⟩

/-! ## A grant -/

/-- R46: the copies of a clip that is granted. -/
theorem Clip.granted_copies (targets : DestSet) (c : Clip) :
    (c.granted targets).copies[d] = if targets.mem d then .writing else c.copies[d] := by
  fin_cases d <;> rfl

/-- R46: the destinations taken have the clip as their holder, and nothing else changes. -/
theorem takeDest_foldl (l : List DestId) :
    l.foldl (takeDest k) s = { s with dests := (l.foldl (takeDest k) s).dests }
      ∧ ∀ e : DestId, (l.foldl (takeDest k) s).dests[e] =
        if e ∈ l then { s.dests[e] with holder := some k } else s.dests[e] := by
  induction l generalizing s with
  | nil => exact ⟨rfl, fun e => by simp⟩
  | cons d rest ih =>
    obtain ⟨hframe, hdests⟩ := ih (takeDest k s d)
    rw [List.foldl_cons]
    refine ⟨by rw [hframe]; rfl, fun e => ?_⟩
    rw [hdests, takeDest]
    dsimp only
    rw [get_set]
    by_cases he : d = e
    · subst he
      rw [if_pos rfl, if_pos List.mem_cons_self]
      split <;> rfl
    · simp only [if_neg he, List.mem_cons, Ne.symm he, false_or]

/-- The part at the moment a granted attempt begins, before it is tested for an empty target set. -/
def granted (c : Candidate) (p : PortId) (s : Part) : Part :=
  setChannel p (Channel.begin c.clip c.targets s.channels[p].tagCounter)
    (modClip c.clip (Clip.granted c.targets)
      { c.targets.members.foldl (takeDest c.clip) s with grantPointer := c.card + 1 })

theorem granted_keeps (c : Candidate) : Keeps s (granted c p s) := by
  have taken := Keeps.foldl (takeDest c.clip) (fun t a => takeDest_keeps t a c.clip) c.targets.members s
  have pointer (t : Part) : Keeps t { t with grantPointer := c.card + 1 } := .of_eq rfl rfl rfl rfl rfl
  exact ((taken.trans (pointer _)).trans (modClip_keeps _ c.clip _)).trans (setChannel_keeps _ p _)

section Granted

variable (c : Candidate)

theorem granted_cards : (granted c p s).cards = s.cards := by
  rw [granted, setChannel_cards, modClip_cards, (takeDest_foldl s c.clip c.targets.members).1]

theorem granted_channels (q : PortId) : (granted c p s).channels[q] =
    if p = q then Channel.begin c.clip c.targets s.channels[p].tagCounter else s.channels[q] := by
  rw [granted, setChannel_channels, modClip_channels, (takeDest_foldl s c.clip c.targets.members).1, get_set]

theorem granted_clips (j : ClipId) : (granted c p s).clips[j] =
    if c.clip = j then s.clips[c.clip].map (Clip.granted c.targets) else s.clips[j] := by
  rw [granted, setChannel_clips, modClip_get, (takeDest_foldl s c.clip c.targets.members).1]

theorem granted_dests (e : DestId) : (granted c p s).dests[e] =
    if c.targets.mem e then { s.dests[e] with holder := some c.clip } else s.dests[e] := by
  rw [granted, setChannel_dests, modClip_dests, (takeDest_foldl s c.clip c.targets.members).2]
  simp only [DestSet.mem_members]

end Granted

section Grant

variable {s p} {c : Candidate} {x : Clip}

/-- R46: the clip that is granted. -/
theorem granted_clip (hx : s.clips[c.clip] = some x) :
    (granted c p s).clips[c.clip] = some (x.granted c.targets) := by
  rw [granted_clips, if_pos rfl, hx, Option.map_some]

theorem granted_clips_other {j : ClipId} (hj : j ≠ c.clip) : (granted c p s).clips[j] = s.clips[j] := by
  rw [granted_clips, if_neg (Ne.symm hj)]

/-- R47: the channel of the grant. -/
theorem granted_channel :
    (granted c p s).channels[p] = Channel.begin c.clip c.targets s.channels[p].tagCounter := by
  rw [granted_channels, if_pos rfl]

theorem granted_channels_other {q : PortId} (hq : q ≠ p) : (granted c p s).channels[q] = s.channels[q] := by
  rw [granted_channels, if_neg (Ne.symm hq)]

/-- R164: the granted clip is of a card in COPYING. -/
theorem granted_clearedOk (hcl : ClearedOk s) (ht : TablesOk s) (hst : s.cards[c.card].state = .copying)
    (hx : s.clips[c.clip] = some x) (xcard : x.card = c.card) : ClearedOk (granted c p s) := by
  intro h hh
  rw [granted_cards] at hh ⊢
  refine ⟨(hcl h hh).1, fun j hj b hb => ?_⟩
  have hjk : j ≠ c.clip := by
    rintro rfl
    have e := (ht.card_of_mem hj hx).symm.trans xcard
    rw [s.card_congr e, hst] at hh
    cases hh
  rw [granted_clips_other hjk] at hb
  exact (hcl h hh).2 j hj b hb

/-- R46, R47: the attempts after a grant of a LISTED clip, on free destinations and a free channel. -/
theorem granted_attemptsOk (hs : AttemptsOk s) (hst : s.cards[c.card].state = .copying)
    (hx : s.clips[c.clip] = some x) (xcard : x.card = c.card) (xst : x.state = .listed)
    (xlive : ∀ d : DestId, c.targets.mem d = true → x.copies[d].live = false)
    (hnone : ∀ d : DestId, c.targets.mem d = true → s.dests[d].holder = none)
    (hp : s.cards[c.card].source = some p) (hidle : s.channels[p].state = .idle) : AttemptsOk (granted c p s) := by
  obtain ⟨hnoclip, hruns, hflies, hholds, hver⟩ := hs
  have notp {q : PortId} (hq : s.channels[q].state = .running) : q ≠ p := by
    rintro rfl
    rw [hidle] at hq
    cases hq
  have notk {j : ClipId} {b : Clip} (hb : s.clips[j] = some b) (hfly : b.state = .inFlight) : j ≠ c.clip := by
    rintro rfl
    rw [hx] at hb
    cases hb
    rw [xst] at hfly
    cases hfly
  refine ⟨fun q hq => ?_, fun q hq => ?_, fun j b hb hfly => ?_, fun d j hd => ?_, fun d j o => ?_⟩
  · by_cases e : q = p
    · subst e
      rw [granted_channel] at hq
      exact absurd rfl hq
    · rw [granted_channels_other e] at hq ⊢
      exact hnoclip q hq
  · by_cases e : q = p
    · subst e
      rw [granted_channel, granted_cards]
      refine ⟨c.clip, _, rfl, granted_clip hx, rfl, ?_, fun d hd => ?_⟩
      · exact (congrArg Card.source (s.card_congr xcard)).trans hp
      · have hd' : c.targets.mem d = true := hd
        rw [granted_dests, if_pos hd']
    · rw [granted_channels_other e] at hq ⊢
      obtain ⟨j, b, hj, hb, hfly, hso, hw⟩ := hruns q hq
      rw [granted_cards]
      refine ⟨j, b, hj, (granted_clips_other (notk hb hfly)).trans hb, hfly, hso, fun d hd => ?_⟩
      rw [granted_dests, if_neg]
      · exact hw d hd
      · intro ht
        exact nomatch (hnone d ht).symm.trans (hw d hd)
  · rw [granted_cards]
    by_cases e : j = c.clip
    · subst e
      rw [granted_clip hx, Option.some.injEq] at hb
      subst hb
      refine ⟨.inl ((congrArg Card.state (s.card_congr xcard)).trans hst), p, ?_⟩
      rw [granted_channel]
      exact ⟨rfl, rfl⟩
    · rw [granted_clips_other e] at hb
      obtain ⟨hcard, q, hq, hj⟩ := hflies j b hb hfly
      refine ⟨hcard, q, ?_⟩
      rw [granted_channels_other (notp hq)]
      exact ⟨hq, hj⟩
  · rw [granted_dests] at hd
    split at hd
    · rename_i ht
      cases hd
      refine ⟨p, x.granted c.targets, ?_⟩
      rw [granted_channel, Clip.granted_copies, if_pos ht]
      exact ⟨rfl, rfl, ht, granted_clip hx, rfl⟩
    · obtain ⟨q, b, hq, hj, hw, hb, hco⟩ := hholds d j hd
      obtain ⟨j', b', hj', hb', hfly, -⟩ := hruns q hq
      rw [hj, Option.some.injEq] at hj'
      subst hj'
      rw [hb] at hb'
      cases hb'
      refine ⟨q, b, ?_⟩
      rw [granted_channels_other (notp hq)]
      exact ⟨hq, hj, hw, (granted_clips_other (notk hb hfly)).trans hb, hco⟩
  · have hctx : (granted c p s).dests[d].verifies j o ↔ s.dests[d].verifies j o := by
      rw [granted_dests]
      split <;> rfl
    refine Iff.trans ?_ ((hver d j o).trans hctx.symm)
    by_cases e : j = c.clip
    · subst e
      simp only [granted_clip hx, hx, Option.some.injEq, exists_eq_left', Clip.granted_copies]
      split
      · rename_i ht
        refine iff_of_false nofun fun hv => ?_
        have hlive := xlive d ht
        rw [hv] at hlive
        cases hlive
      · rfl
    · rw [granted_clips_other e]

end Grant

/-- R46, R47: a grant of a candidate that stands, on free destinations and a free channel, keeps the links. -/
theorem granted_clearanceOk (c : Candidate) (hs : ClearanceOk s) (hfair : c.Fair s)
    (hfree : ∀ d : DestId, c.targets.mem d = true → s.dests[d].isFree = true)
    (hp : s.cards[c.card].source = some p) (hidle : s.channels[p].state = .idle) : ClearanceOk (granted c p s) := by
  obtain ⟨hst, x, hx, xcard, xst, xlive⟩ := hfair
  have hnone : ∀ d : DestId, c.targets.mem d = true → s.dests[d].holder = none := fun d hd => by
    have hd' := hfree d hd
    simp only [Dest.isFree, Bool.and_eq_true, Option.isNone_iff_eq_none] at hd'
    exact hd'.1
  exact ⟨granted_clearedOk hs.1 hs.2.1 hst hx xcard, (granted_keeps s p c).tablesOk hs.2.1,
    granted_attemptsOk hs.2.2 hst hx xcard xst xlive hnone hp hidle⟩

variable {s h p} in
theorem freeChannel_some (hf : freeChannel s h = some p) : s.cards[h].source = some p ∧ s.channels[p].state = .idle := by
  unfold freeChannel at hf
  split at hf
  · rename_i q hq
    split at hf
    · rename_i hidle
      cases hf
      exact ⟨hq, hidle⟩
    · cases hf
  · cases hf

theorem grant_clearanceOk (c : Candidate) (hs : ClearanceOk s) (hfair : c.Fair s)
    (hfree : ∀ d : DestId, c.targets.mem d = true → s.dests[d].isFree = true) : ClearanceOk (grant c s) := by
  unfold grant
  split
  · exact hs
  · rename_i p hp
    obtain ⟨hso, hidle⟩ := freeChannel_some hp
    exact endIfEmpty_clearanceOk _ p (granted_clearanceOk s p c hs hfair hfree hso hidle)

/-- R45 step 1: every card is considered once. -/
theorem cardOrder_nodup (pointer : CardId) : (cardOrder pointer).Nodup :=
  List.Nodup.map (fun i j e => add_left_cancel e) (by decide)

/-- R45: the grant evaluation keeps the links. -/
theorem grantPasses_clearanceOk (n : Nat) (hs : ClearanceOk s) : ClearanceOk (grantPasses n s) := by
  induction n generalizing s with
  | zero => exact hs
  | succ n ih =>
    have passed := considerAll_clearanceOk s (cardOrder s.grantPointer) hs
    have fair := considerAll_fair s (cardOrder s.grantPointer) (cardOrder_nodup _) hs
    unfold grantPasses
    generalize considerAll (cardOrder s.grantPointer) s = r at passed fair ⊢
    split
    · rename_i c hc
      obtain ⟨hmem, hfree⟩ := chooseGrant_some r.1 hc
      exact ih _ (grant_clearanceOk r.1 c passed (fair c hmem) hfree)
    · exact passed

/-- R45, R72: what follows an event keeps the links. -/
theorem afterEvent_clearanceOk (hs : ClearanceOk s) : ClearanceOk (afterEvent s) :=
  startVerifies_clearanceOk _ (grantPasses_clearanceOk s _ hs)

end Sys2Proof.Machine
end

