-- ==== Sys2Proof/Proofs/Manifests.lean ====
section
/-! PROOF. The operations that create, extend and release cards keep the links between the tables (R1, R3, R4, R7 to R12, R14,
R15, R17). The free clip handles, the records LIST-CLIPS assigns and what a release frees are each described once. -/

namespace Sys2Proof.Machine

variable (s : Part) (h : CardId) (d : DestId) (k : ClipId) (p : PortId)

/-! ## Free handles and assigned records (R3, R4) -/

theorem mem_freeFrom {α : Type} (i : Nat) (l : List (Option α)) (n : Nat) :
    n ∈ freeFrom i l ↔ ∃ j, n = i + j ∧ l[j]? = some none := by
  induction l generalizing i with
  | nil => simp [freeFrom]
  | cons a rest ih =>
    have shift : (∃ j, n = i + 1 + j ∧ rest[j]? = some none) ↔ ∃ j, n = i + (j + 1) ∧ (a :: rest)[j + 1]? = some none := by
      refine exists_congr fun j => ?_
      rw [List.getElem?_cons_succ, Nat.add_assoc, Nat.add_comm 1 j]
    have split : (∃ j, n = i + j ∧ (a :: rest)[j]? = some none) ↔
        (n = i ∧ a = none) ∨ ∃ j, n = i + (j + 1) ∧ (a :: rest)[j + 1]? = some none := by
      constructor
      · rintro ⟨_ | j, hn, hj⟩
        · exact .inl ⟨hn, by simpa using hj⟩
        · exact .inr ⟨j, hn, hj⟩
      · rintro (⟨hn, ha⟩ | ⟨j, hn, hj⟩)
        · exact ⟨0, hn, by simp [ha]⟩
        · exact ⟨j + 1, hn, hj⟩
    rw [split, ← shift]
    cases a with
    | none => simp [freeFrom, ih]
    | some x => simp [freeFrom, ih]

theorem freeFrom_sorted {α : Type} (i : Nat) (l : List (Option α)) : (freeFrom i l).Pairwise (· < ·) := by
  induction l generalizing i with
  | nil => exact .nil
  | cons a rest ih =>
    cases a with
    | none =>
      refine .cons (fun n hn => ?_) (ih (i + 1))
      obtain ⟨j, hj, -⟩ := (mem_freeFrom _ _ _).mp hn
      omega
    | some x => exact ih (i + 1)

/-- R3: the free handles are those of the free records. -/
theorem mem_freeClips : k ∈ freeClips s ↔ s.clips[k] = none := by
  have bound {n : Nat} (hn : n ∈ freeFrom 0 s.clips.toList) : n < 512 := by
    obtain ⟨j, rfl, hj⟩ := (mem_freeFrom _ _ _).mp hn
    have := (List.getElem?_eq_some_iff.mp hj).1
    simpa using this
  unfold freeClips
  rw [List.mem_map]
  constructor
  · rintro ⟨n, hn, rfl⟩
    obtain ⟨j, hj, hnone⟩ := (mem_freeFrom _ _ _).mp hn
    obtain ⟨hlt, hget⟩ := List.getElem?_eq_some_iff.mp hnone
    have e : (Fin.ofNat 512 n).val = j := by
      rw [Fin.val_ofNat, Nat.mod_eq_of_lt (bound hn), hj, Nat.zero_add]
    rw [Vector.getElem_toList] at hget
    rw [Fin.getElem_fin]
    simpa only [e] using hget
  · intro hnone
    refine ⟨k.val, (mem_freeFrom _ _ _).mpr ⟨k.val, (Nat.zero_add _).symm, ?_⟩, Fin.ofNat_val_eq_self k⟩
    rw [List.getElem?_eq_some_iff]
    exact ⟨by simp, by simpa using hnone⟩

/-- R3: the free handles in increasing order. -/
theorem freeClips_sorted : (freeClips s).Pairwise (· < ·) := by
  have hsorted := freeFrom_sorted 0 s.clips.toList
  have bound : ∀ n ∈ freeFrom 0 s.clips.toList, n < 512 := fun n hn => by
    obtain ⟨j, rfl, hj⟩ := (mem_freeFrom _ _ _).mp hn
    have := (List.getElem?_eq_some_iff.mp hj).1
    simpa using this
  unfold freeClips
  rw [List.pairwise_map]
  refine hsorted.imp_of_mem fun {a b} ha hb hab => ?_
  rw [Fin.lt_def, Fin.val_ofNat, Fin.val_ofNat, Nat.mod_eq_of_lt (bound a ha), Nat.mod_eq_of_lt (bound b hb)]
  exact hab

theorem freeClips_nodup : (freeClips s).Nodup := (freeClips_sorted s).imp fun hlt => ne_of_lt hlt

theorem mem_assignedHandles {items : List ClipItem} (hk : k ∈ assignedHandles s items) : s.clips[k] = none :=
  (mem_freeClips s k).mp (List.mem_of_mem_take hk)

/-- R3, R4: the records after the items have been assigned theirs. -/
theorem assignClips_clips (l : List (ClipId × ClipItem)) (hl : (l.map Prod.fst).Nodup) :
    (∀ x ∈ l, (assignClips h l s).clips[x.1] = some (clipOfItem h x.2))
      ∧ ∀ j : ClipId, j ∉ l.map Prod.fst → (assignClips h l s).clips[j] = s.clips[j] := by
  induction l generalizing s with
  | nil => exact ⟨nofun, fun _ _ => rfl⟩
  | cons a rest ih =>
    rw [List.map_cons, List.nodup_cons] at hl
    obtain ⟨hthere, helse⟩ := ih { s with clips := s.clips.set a.1 (some (clipOfItem h a.2)) } hl.2
    unfold assignClips
    refine ⟨fun x hx => ?_, fun j hj => ?_⟩
    · rcases List.mem_cons.mp hx with rfl | hx
      · rw [helse x.1 hl.1]
        dsimp only
        rw [get_set, if_pos rfl]
      · exact hthere x hx
    · rw [List.map_cons, List.mem_cons, not_or] at hj
      rw [helse j hj.2]
      dsimp only
      rw [get_set, if_neg (Ne.symm hj.1)]

section Append

variable {s h} {items : List ClipItem} (hlen : items.length ≤ (freeClips s).length)
include hlen

theorem assignedHandles_length : (assignedHandles s items).length = items.length := by
  rw [assignedHandles, List.length_take, Nat.min_eq_left hlen]

theorem assignedHandles_zip : ((assignedHandles s items).zip items).map Prod.fst = assignedHandles s items :=
  List.map_fst_zip (assignedHandles_length hlen).le

omit hlen in
theorem assignedHandles_nodup : (assignedHandles s items).Nodup := (freeClips_nodup s).sublist (List.take_sublist _ _)

/-- R3, R4, R11: the clip records after LIST-CLIPS: the item's on its handle, the others as they were. -/
theorem appendClips_clips :
    (∀ (i : Nat) (j : ClipId) (x : ClipItem), (assignedHandles s items)[i]? = some j → items[i]? = some x →
        (appendClips h items s).clips[j] = some (clipOfItem h x))
      ∧ ∀ j : ClipId, j ∉ assignedHandles s items → (appendClips h items s).clips[j] = s.clips[j] := by
  have hzip := assignedHandles_zip hlen
  obtain ⟨hthere, helse⟩ := assignClips_clips s h ((assignedHandles s items).zip items)
    (by rw [hzip]; exact assignedHandles_nodup)
  unfold appendClips
  rw [writeCard_clips]
  refine ⟨fun i j x hj hx => ?_, fun j hj => helse j (by rw [hzip]; exact hj)⟩
  refine hthere (j, x) (List.mem_of_getElem? (i := i) ?_)
  rw [List.getElem?_zip_eq_some]
  exact ⟨hj, hx⟩

omit hlen in
/-- R11: LIST-CLIPS changes the card's list and the clip records, and queues no notice. -/
theorem appendClips_eq : appendClips h items s =
    { s with
      cards := s.cards.set h { s.cards[h] with clips := s.cards[h].clips ++ assignedHandles s items }
      clips := (appendClips h items s).clips } := by
  unfold appendClips
  rw [writeCard_clips, assignClips_frame, writeCard, if_pos ⟨rfl, rfl⟩]

/-- R4: a handle that was assigned has the record of an item. -/
theorem appendClips_assigned (hk : k ∈ assignedHandles s items) :
    ∃ x, (appendClips h items s).clips[k] = some (clipOfItem h x) := by
  obtain ⟨i, hi⟩ := List.getElem?_of_mem hk
  have hlt : i < items.length := by
    rw [← assignedHandles_length hlen]
    exact (List.getElem?_eq_some_iff.mp hi).1
  exact ⟨items[i], (appendClips_clips hlen).1 i k _ hi (List.getElem?_eq_getElem hlt)⟩

omit hlen in
theorem appendClips_cards (g : CardId) : (appendClips h items s).cards[g] =
    if h = g then { s.cards[h] with clips := s.cards[h].clips ++ assignedHandles s items } else s.cards[g] := by
  rw [appendClips_eq, get_set]

omit hlen in
theorem appendClips_fields (g : CardId) : (appendClips h items s).cards[g].state = s.cards[g].state
    ∧ (appendClips h items s).cards[g].source = s.cards[g].source := by
  rw [appendClips_cards]
  split
  · rename_i e
    subst e
    exact ⟨rfl, rfl⟩
  · exact ⟨rfl, rfl⟩

omit hlen in
theorem appendClips_frame : (appendClips h items s).ports = s.ports ∧ (appendClips h items s).channels = s.channels
    ∧ (appendClips h items s).dests = s.dests := by
  rw [appendClips_eq]
  exact ⟨rfl, rfl, rfl⟩

/-- R3: a clip in use keeps its record. -/
theorem appendClips_kept {j : ClipId} {b : Clip} (hb : s.clips[j] = some b) :
    (appendClips h items s).clips[j] = some b := by
  rw [(appendClips_clips hlen).2 j fun hj => nomatch ((mem_assignedHandles s j hj).symm.trans hb)]
  exact hb

/-- R4: a record in use after LIST-CLIPS is a new one of the card, LISTED and without copies, or was in use before. -/
theorem appendClips_was {j : ClipId} {b : Clip} (hb : (appendClips h items s).clips[j] = some b) :
    (j ∈ assignedHandles s items ∧ b.card = h ∧ b.state = .listed ∧ ∀ e : DestId, b.copies[e] = .none)
      ∨ s.clips[j] = some b := by
  by_cases hj : j ∈ assignedHandles s items
  · obtain ⟨x, hx⟩ := appendClips_assigned (h := h) j hlen hj
    rw [hb, Option.some.injEq] at hx
    subst hx
    exact .inl ⟨hj, rfl, rfl, fun e => by fin_cases e <;> rfl⟩
  · exact .inr ((appendClips_clips hlen).2 j hj ▸ hb)

/-- R164: a CLEARED card takes no clips. -/
theorem appendClips_clearedOk (hcl : ClearedOk s) (ht : TablesOk s) (hst : s.cards[h].state ≠ .cleared) :
    ClearedOk (appendClips h items s) := by
  intro g hg
  rw [(appendClips_fields g).1] at hg
  have hgh : h ≠ g := by
    rintro rfl
    exact hst hg
  rw [appendClips_cards, if_neg hgh]
  refine ⟨(hcl g hg).1, fun j hj b hb => ?_⟩
  rcases appendClips_was hlen hb with ⟨-, hcard, -⟩ | hb'
  · obtain ⟨a, ha, hacard⟩ := (ht.1 g j).mp hj
    rw [appendClips_kept hlen ha, Option.some.injEq] at hb
    subst hb
    exact absurd (hcard.symm.trans hacard) hgh
  · exact (hcl g hg).2 j hj b hb'

/-- R4: the new clips are on the card's list. -/
theorem appendClips_tablesOk (ht : TablesOk s) (hst : s.cards[h].state ≠ .free) : TablesOk (appendClips h items s) := by
  obtain ⟨hlist, hfree, hbind, hatt⟩ := ht
  refine ⟨fun g j => ?_, fun g hg => ?_, fun q g => ?_, by rw [appendClips_frame.1]; exact hatt⟩
  · rw [appendClips_cards]
    by_cases e : h = g
    · subst e
      rw [if_pos rfl, List.mem_append]
      constructor
      · rintro (hj | hj)
        · obtain ⟨a, ha, hcard⟩ := (hlist h j).mp hj
          exact ⟨a, appendClips_kept hlen ha, hcard⟩
        · obtain ⟨x, hx⟩ := appendClips_assigned (h := h) j hlen hj
          exact ⟨_, hx, rfl⟩
      · rintro ⟨b, hb, hcard⟩
        rcases appendClips_was hlen hb with ⟨hj, -⟩ | hb'
        · exact .inr hj
        · exact .inl ((hlist h j).mpr ⟨b, hb', hcard⟩)
    · rw [if_neg e, hlist]
      constructor
      · rintro ⟨a, ha, hcard⟩
        exact ⟨a, appendClips_kept hlen ha, hcard⟩
      · rintro ⟨b, hb, hcard⟩
        rcases appendClips_was hlen hb with ⟨-, hbh, -⟩ | hb'
        · exact absurd (hbh.symm.trans hcard) e
        · exact ⟨b, hb', hcard⟩
  · rw [(appendClips_fields g).1] at hg
    have hgh : h ≠ g := by
      rintro rfl
      exact hst hg
    rw [appendClips_cards, if_neg hgh]
    exact hfree g hg
  · rw [appendClips_frame.1, (appendClips_fields g).2]
    exact hbind q g

/-- R5: the new clips are in no attempt and in no verify. -/
theorem appendClips_attemptsOk (hs : AttemptsOk s) : AttemptsOk (appendClips h items s) := by
  obtain ⟨hidle, hruns, hflies, hholds, hver⟩ := hs
  obtain ⟨-, hchannels, hdests⟩ := appendClips_frame (h := h) (items := items) (s := s)
  unfold AttemptsOk
  rw [hchannels, hdests]
  refine ⟨hidle, fun q hq => ?_, fun j b hb hfly => ?_, fun e j he => ?_, fun e j o => ?_⟩
  · obtain ⟨j, b, hj, hb, hfly, hso, hw⟩ := hruns q hq
    exact ⟨j, b, hj, appendClips_kept hlen hb, hfly, (appendClips_fields b.card).2.trans hso, hw⟩
  · rcases appendClips_was hlen hb with ⟨-, -, hlisted, -⟩ | hb'
    · rw [hlisted] at hfly
      cases hfly
    · rw [(appendClips_fields b.card).1]
      exact hflies j b hb' hfly
  · obtain ⟨q, b, hq, hj, hw, hb, hco⟩ := hholds e j he
    exact ⟨q, b, hq, hj, hw, appendClips_kept hlen hb, hco⟩
  · rw [← hver]
    constructor
    · rintro ⟨b, hb, hco⟩
      rcases appendClips_was hlen hb with ⟨-, -, -, hnone⟩ | hb'
      · rw [hnone e] at hco
        cases hco
      · exact ⟨b, hb', hco⟩
    · rintro ⟨b, hb, hco⟩
      exact ⟨b, appendClips_kept hlen hb, hco⟩

/-- R3, R4, R11: listing clips on a card that takes them keeps the links. -/
theorem appendClips_clearanceOk (hs : ClearanceOk s) (hst : s.cards[h].state.lists = true) :
    ClearanceOk (appendClips h items s) := by
  have hnot {st : CardState} (hrefused : st.lists = false) : s.cards[h].state ≠ st := fun e => by
    rw [e, hrefused] at hst
    cases hst
  exact ⟨appendClips_clearedOk hlen hs.1 hs.2.1 (hnot rfl), appendClips_tablesOk hlen hs.2.1 (hnot rfl),
    appendClips_attemptsOk hlen hs.2.2⟩

end Append

/-! ## Binding a card to a port (R7 to R9) -/

/-- R1, R9: a card without a source and with no clip IN_FLIGHT is bound to an attached, unbound port. -/
theorem bindCard_clearanceOk (c : Card) (x : SourcePort) (hs : ClearanceOk s) (hx : x.attached = true ∧ x.binding = some h)
    (hunbound : s.ports[p].binding = none) (hnone : s.cards[h].source = none) (hg : Grounded s h)
    (hso : c.source = some p) (hcl : c.clips = s.cards[h].clips) (hst : c.state ≠ .free ∧ c.state ≠ .cleared) :
    ClearanceOk (writeCard h c (setPort p x s)) := by
  refine ⟨writeCard_clearedOk (setPort p x s) h c hs.1 fun e => absurd e hst.2, ?_,
    writeCard_attemptsOk (setPort p x s) h c hs.2.2 (.inl hg)⟩
  obtain ⟨hlist, hfree, hbind, hatt⟩ := hs.2.1
  refine ⟨fun g k => ?_, fun g => ?_, fun q g => ?_, fun q hq => ?_⟩
  · rw [writeCard_cards, writeCard_clips, get_set]
    split
    · rename_i e
      subst e
      rw [hcl]
      exact hlist h k
    · exact hlist g k
  · rw [writeCard_cards, get_set]
    split
    · exact fun e => absurd e hst.1
    · exact hfree g
  · rw [writeCard_cards, writeCard_ports, setPort_ports, setPort_cards, get_set, get_set]
    by_cases hq : p = q <;> by_cases e : h = g
    · subst hq e
      simp [hx.2, hso]
    · subst hq
      rw [if_pos rfl, if_neg e, hx.2, ← hbind, hunbound]
      simp [e]
    · subst e
      rw [if_neg hq, if_pos rfl, hbind, hnone, hso]
      simp [hq]
    · rw [if_neg hq, if_neg e]
      exact hbind q g
  · rw [writeCard_ports, setPort_ports, get_set] at hq ⊢
    split
    · exact hx.1
    · rename_i e
      rw [if_neg e] at hq
      exact hatt q hq

/-- R14, R17: the tables once a card has lost its source and its port its binding. -/
theorem tablesOk_unbound {s u : Part} {h : CardId} {p : PortId} {x : SourcePort} (hs : TablesOk s) (hx : x.binding = none)
    (hsrc : s.cards[h].source = some p) (hports : u.ports = s.ports.set p x)
    (hsource : ∀ g : CardId, u.cards[g].source = if h = g then none else s.cards[g].source)
    (hlisting : ∀ g : CardId, u.cards[g].clips = s.cards[g].clips)
    (hfree : ∀ g : CardId, u.cards[g].state = .free → s.cards[g].state = .free)
    (howner : ∀ k : ClipId, u.clips[k].map Clip.card = s.clips[k].map Clip.card) : TablesOk u := by
  refine ⟨fun g k => ?_, fun g hg => ?_, fun q g => ?_, fun q hq => ?_⟩
  · rw [hlisting, hs.1]
    have e := howner k
    cases hk : s.clips[k] <;> cases hk' : u.clips[k] <;> simp_all
  · obtain ⟨hclips, hsource'⟩ := hs.2.1 g (hfree g hg)
    refine ⟨(hlisting g).trans hclips, ?_⟩
    rw [hsource]
    split
    · rfl
    · exact hsource'
  · rw [hports, hsource, get_set]
    by_cases hq : p = q <;> by_cases e : h = g
    · simp [hq, e, hx]
    · subst hq
      rw [if_pos rfl, if_neg e, hx]
      exact iff_of_false nofun fun hg => e (hs.source_inj hsrc hg)
    · subst e
      rw [if_neg hq, if_pos rfl]
      refine iff_of_false (fun hb => hq ?_) nofun
      exact Option.some.inj (hsrc.symm.trans ((hs.2.2.1 q h).mp hb))
    · rw [if_neg hq, if_neg e]
      exact hs.2.2.1 q g
  · rw [hports, get_set] at hq ⊢
    split
    · rename_i e
      rw [if_pos e, hx] at hq
      cases hq
    · rename_i e
      rw [if_neg e] at hq
      exact hs.2.2.2 q hq

/-- R14, R17: a card with no clip IN_FLIGHT loses its source, its port unbound first. -/
theorem loseSource_clearanceOk (x : SourcePort) (hs : ClearanceOk s) (hx : x.binding = none)
    (hsrc : s.cards[h].source = some p) (hg : Grounded s h) : ClearanceOk (loseSource h (setPort p x s)) := by
  have hclear : ({ s.cards[h] with source := none } : Card).state = .cleared →
      ({ s.cards[h] with source := none } : Card).MayClear (setPort p x s) := hs.1 h
  unfold loseSource
  refine ⟨writeCard_clearedOk (setPort p x s) h _ hs.1 hclear, ?_, writeCard_attemptsOk (setPort p x s) h _ hs.2.2 (.inl hg)⟩
  refine tablesOk_unbound hs.2.1 hx hsrc ?_ (fun g => ?_) (fun g => ?_) (fun g => ?_) fun k => ?_
  · rw [writeCard_ports, setPort_ports]
  · rw [writeCard_cards, get_set]
    split <;> rfl
  · rw [writeCard_cards, get_set]
    split
    · rename_i e
      subst e
      rfl
    · rfl
  · rw [writeCard_cards, get_set]
    split
    · rename_i e
      subst e
      exact id
    · exact id
  · rw [writeCard_clips]
    rfl

/-! ## The release of a card (R10) -/

/-- R10 step 1: the clip records after those of a list have been freed. -/
theorem freeClipRecords_clips (ks : List ClipId) (j : ClipId) :
    (freeClipRecords ks s).clips[j] = if j ∈ ks then none else s.clips[j] := by
  unfold freeClipRecords
  induction ks generalizing s with
  | nil => simp
  | cons k rest ih =>
    rw [List.foldl_cons, ih]
    by_cases hj : j ∈ rest
    · rw [if_pos hj, if_pos (List.mem_cons_of_mem k hj)]
    · rw [if_neg hj]
      dsimp only
      rw [get_set]
      by_cases e : k = j
      · rw [if_pos e, if_pos (e ▸ List.mem_cons_self)]
      · rw [if_neg e, if_neg (by simp [hj, Ne.symm e])]

/-- R10 step 2: a destination forgets the freed clips and no other. -/
theorem Dest.forget_holder (ks : List ClipId) (x : Dest) : (x.forget ks).holder = x.holder := by rw [Dest.forget_kept]

theorem Dest.forget_verifies (ks : List ClipId) (x : Dest) (j : ClipId) (o : Nat) :
    (x.forget ks).verifies j o ↔ x.verifies j o ∧ j ∉ ks := by
  unfold Dest.forget Dest.verifies
  split
  · rename_i v hv
    split
    · rename_i hmem
      refine iff_of_false (fun ⟨w, hw, _⟩ => nomatch hw) ?_
      rintro ⟨⟨w, hw, rfl, -⟩, hj⟩
      rw [hv] at hw
      cases hw
      exact hj (List.contains_iff_mem.mp hmem)
    · rename_i hmem
      refine ⟨fun hex => ⟨hex, ?_⟩, fun hex => hex.1⟩
      obtain ⟨w, hw, rfl, -⟩ := hex
      simp only [hv, Option.some.injEq] at hw
      subst hw
      exact fun hj => hmem (List.contains_iff_mem.mpr hj)
  · rename_i hv
    simp [hv]

/-- The part at the moment a card's record is free, before the verifies that can start do. -/
def released (h : CardId) (s : Part) : Part :=
  writeCard h (Card.blank s.cards[h].generation)
    (unbindPort s.cards[h].source
      (freeClipRecords s.cards[h].clips
        { s with
          dests := mapEach (fun _ x => x.forget s.cards[h].clips) s.dests
          frame := s.frame.map (OpenFrame.forget s.cards[h].clips)
          checkedClip := s.checkedClip.forget s.cards[h].clips }))

theorem release_eq : release h s = startVerifies (released h s) := rfl

theorem unbindPort_eq (o : Option PortId) : unbindPort o s = { s with ports := (unbindPort o s).ports } := by
  unfold unbindPort
  split <;> rfl

theorem unbindPort_ports (o : Option PortId) (q : PortId) : (unbindPort o s).ports[q] =
    if o = some q then ⟨s.ports[q].attached, none⟩ else s.ports[q] := by
  cases o with
  | none => simp [unbindPort]
  | some p =>
    rw [unbindPort, setPort_ports, get_set]
    by_cases e : p = q
    · subst e
      rw [if_pos rfl, if_pos rfl]
    · rw [if_neg e, if_neg fun hpq => e (Option.some.inj hpq)]

theorem released_cards : (released h s).cards = s.cards.set h (Card.blank s.cards[h].generation) := by
  rw [released, writeCard_cards, unbindPort_eq, freeClipRecords_frame]

theorem released_clips (j : ClipId) : (released h s).clips[j] = if j ∈ s.cards[h].clips then none else s.clips[j] := by
  rw [released, writeCard_clips, unbindPort_eq]
  exact freeClipRecords_clips _ _ j

theorem released_ports (q : PortId) : (released h s).ports[q] =
    if s.cards[h].source = some q then ⟨s.ports[q].attached, none⟩ else s.ports[q] := by
  rw [released, writeCard_ports, unbindPort_ports, freeClipRecords_frame]

theorem released_channels : (released h s).channels = s.channels := by
  rw [released, writeCard_channels, unbindPort_eq, freeClipRecords_frame]

theorem released_dests (e : DestId) : (released h s).dests[e] = s.dests[e].forget s.cards[h].clips := by
  rw [released, writeCard_dests, unbindPort_eq, freeClipRecords_frame]
  exact mapEach_get _ _ e

/-- R7, R8: the bindings of the ports, but that the card `h` may have lost its port's already (R17). -/
def BindsBut (h : CardId) (s : Part) : Prop :=
  (∀ (q : PortId) (g : CardId), g ≠ h → (s.ports[q].binding = some g ↔ s.cards[g].source = some q))
    ∧ (∀ q : PortId, s.ports[q].binding = some h → s.cards[h].source = some q)
    ∧ (∀ (q : PortId) (g : CardId), s.cards[h].source = some q → g ≠ h → s.cards[g].source ≠ some q)
    ∧ ∀ q : PortId, s.ports[q].binding.isSome = true → s.ports[q].attached = true

variable {s h} in
theorem TablesOk.bindsBut (hs : TablesOk s) : BindsBut h s :=
  ⟨fun q g _ => hs.2.2.1 q g, fun q hq => (hs.2.2.1 q h).mp hq, fun _ _ hh hne hg => hne (hs.source_inj hg hh),
    hs.2.2.2⟩

theorem released_card (g : CardId) :
    (released h s).cards[g] = if h = g then Card.blank s.cards[h].generation else s.cards[g] := by
  rw [released_cards, get_set]

section Released

variable {s h}

/-- A clip in use after a release was in use before. -/
theorem released_was {j : ClipId} {b : Clip} (hb : (released h s).clips[j] = some b) :
    s.clips[j] = some b ∧ j ∉ s.cards[h].clips := by
  rw [released_clips] at hb
  split at hb
  · cases hb
  · rename_i hj
    exact ⟨hb, hj⟩

theorem released_clearedOk (hcl : ClearedOk s) : ClearedOk (released h s) := by
  intro g hst
  rw [released_card] at hst ⊢
  split at hst
  · cases hst
  · rename_i e
    rw [if_neg e]
    exact ⟨(hcl g hst).1, fun j hj b hb => (hcl g hst).2 j hj b (released_was hb).1⟩

variable (hlist : ∀ (h : CardId) (k : ClipId), k ∈ s.cards[h].clips ↔ ∃ c, s.clips[k] = some c ∧ c.card = h)
include hlist

/-- R10 step 1: a clip of another card keeps its record. -/
theorem released_kept {j : ClipId} {b : Clip} (hb : s.clips[j] = some b) (hcard : b.card ≠ h) :
    (released h s).clips[j] = some b := by
  rw [released_clips, if_neg, hb]
  intro hj
  obtain ⟨a, ha, rfl⟩ := (hlist h j).mp hj
  rw [hb] at ha
  cases ha
  exact hcard rfl

theorem released_was_other {j : ClipId} {b : Clip} (hb : (released h s).clips[j] = some b) :
    s.clips[j] = some b ∧ b.card ≠ h :=
  ⟨(released_was hb).1, fun e => (released_was hb).2 ((hlist h j).mpr ⟨b, (released_was hb).1, e⟩)⟩

/-- R10: the tables after a release. -/
theorem released_tablesOk (hfree : ∀ h : CardId, s.cards[h].state = .free → s.cards[h].clips = [] ∧ s.cards[h].source = none)
    (hbinds : BindsBut h s) : TablesOk (released h s) := by
  obtain ⟨hother, hown, hsole, hatt⟩ := hbinds
  refine ⟨fun g j => ?_, fun g hst => ?_, fun q g => ?_, fun q hq => ?_⟩
  · rw [released_card]
    by_cases e : h = g
    · subst e
      rw [if_pos rfl]
      exact iff_of_false (fun hj => nomatch hj) fun ⟨b, hb, hcard⟩ => (released_was_other hlist hb).2 hcard
    · rw [if_neg e, hlist]
      constructor
      · rintro ⟨b, hb, rfl⟩
        exact ⟨b, released_kept hlist hb (Ne.symm e), rfl⟩
      · rintro ⟨b, hb, hcard⟩
        exact ⟨b, (released_was hb).1, hcard⟩
  · rw [released_card] at hst ⊢
    split
    · exact ⟨rfl, rfl⟩
    · rename_i e
      rw [if_neg e] at hst
      exact hfree g hst
  · rw [released_ports, released_card]
    by_cases hq : s.cards[h].source = some q <;> by_cases e : h = g
    · rw [if_pos hq, if_pos e]
      exact iff_of_false nofun nofun
    · rw [if_pos hq, if_neg e]
      exact iff_of_false nofun (hsole q g hq (Ne.symm e))
    · subst e
      rw [if_neg hq, if_pos rfl]
      exact iff_of_false (fun hb => hq (hown q hb)) nofun
    · rw [if_neg hq, if_neg e]
      exact hother q g (Ne.symm e)
  · rw [released_ports] at hq ⊢
    split
    · rename_i e
      rw [if_pos e] at hq
      cases hq
    · rename_i e
      rw [if_neg e] at hq
      exact hatt q hq

/-- R10: the attempts go on after the release of a card that has none. -/
theorem released_attemptsOk (hs : AttemptsOk s) (hg : Grounded s h) : AttemptsOk (released h s) := by
  have flying {j : ClipId} {b : Clip} (hb : s.clips[j] = some b) (hst : b.state = .inFlight) :
      (released h s).clips[j] = some b ∧ (released h s).cards[b.card] = s.cards[b.card] := by
    have hne : b.card ≠ h := fun e => hg j b hb e hst
    exact ⟨released_kept hlist hb hne, by rw [released_card, if_neg (Ne.symm hne)]⟩
  obtain ⟨hidle, hruns, hflies, hholds, hver⟩ := hs
  refine ⟨by rw [released_channels]; exact hidle, fun q hq => ?_, fun j b hb hst => ?_, fun e j he => ?_, fun e j o => ?_⟩
  · rw [released_channels] at hq ⊢
    obtain ⟨j, b, hj, hb, hst, hso, hw⟩ := hruns q hq
    obtain ⟨hb', hcard⟩ := flying hb hst
    refine ⟨j, b, hj, hb', hst, by rw [hcard]; exact hso, fun e he => ?_⟩
    rw [released_dests, Dest.forget_holder]
    exact hw e he
  · obtain ⟨-, hcard⟩ := flying (released_was hb).1 hst
    rw [hcard, released_channels]
    exact hflies j b (released_was hb).1 hst
  · rw [released_dests, Dest.forget_holder] at he
    rw [released_channels]
    obtain ⟨q, b, hq, hj, hw, hb, hco⟩ := hholds e j he
    obtain ⟨k', b', hk', hb', hst, -⟩ := hruns q hq
    rw [hj, Option.some.injEq] at hk'
    subst hk'
    rw [hb] at hb'
    cases hb'
    exact ⟨q, b, hq, hj, hw, (flying hb hst).1, hco⟩
  · have hforget : (∃ v, (released h s).dests[e].context = some v ∧ v.clip = j ∧ v.offset = o)
        ↔ (∃ v, s.dests[e].context = some v ∧ v.clip = j ∧ v.offset = o) ∧ j ∉ s.cards[h].clips := by
      rw [released_dests]
      exact Dest.forget_verifies _ _ j o
    rw [hforget, ← hver, released_clips]
    by_cases hj : j ∈ s.cards[h].clips
    · rw [if_pos hj]
      exact iff_of_false (fun ⟨_, hb, _⟩ => nomatch hb) fun hv => hv.2 hj
    · rw [if_neg hj]
      exact (and_iff_left hj).symm

/-- R10: releasing a card with no clip IN_FLIGHT keeps the links. -/
theorem released_clearanceOk (hcl : ClearedOk s)
    (hfree : ∀ h : CardId, s.cards[h].state = .free → s.cards[h].clips = [] ∧ s.cards[h].source = none)
    (hbinds : BindsBut h s) (hs : AttemptsOk s) (hg : Grounded s h) : ClearanceOk (released h s) :=
  ⟨released_clearedOk hcl, released_tablesOk hlist hfree hbinds, released_attemptsOk hlist hs hg⟩

end Released

theorem release_clearanceOk (hs : ClearanceOk s) (hg : Grounded s h) : ClearanceOk (release h s) :=
  startVerifies_clearanceOk _
    (released_clearanceOk hs.2.1.1 hs.1 hs.2.1.2.1 hs.2.1.bindsBut hs.2.2 hg)

end Sys2Proof.Machine
end

