-- ==== Sys2Proof/Proofs/DirectivesClear.lean ====
section
/-! PROOF. R164: the directives and the picture parcels keep a CLEARED card and the links between the tables. -/

namespace Sys2Proof.Machine

variable (s : Part) (h : CardId) (d : DestId) (k : ClipId) (p : PortId)

/-- What keeps `ClearanceOk`; it composes (see `UnitClosed`, `PictureClosed` and `OwnersClosed`). -/
def KeepsClear (s t : Part) : Prop := ClearanceOk s → ClearanceOk t

theorem SameLinks.keepsClear {s t : Part} (a : SameLinks s t) : KeepsClear s t := a.clearanceOk

theorem KeepsClear.refl (s : Part) : KeepsClear s s := id

theorem KeepsClear.trans {s t u : Part} (a : KeepsClear s t) (b : KeepsClear t u) : KeepsClear s u := fun hs => b (a hs)

/-! ## The directive unit and the frame tracker -/

theorem placeAnswer_links (a : Answer) : SameLinks s (placeAnswer a s) := by
  unfold placeAnswer
  split <;> exact .of_eq rfl rfl rfl rfl rfl

theorem lockUnit_keepsClear (cause : Nat) : KeepsClear s (lockUnit cause s) := by
  unfold lockUnit
  split
  · exact (SameLinks.of_eq rfl rfl rfl rfl rfl).keepsClear
  · have locked : SameLinks s { s with unit := { s.unit with status := { s.unit.status with locked := true, cause := some cause } } } :=
      .of_eq rfl rfl rfl rfl rfl
    exact fun hs => raise_clearanceOk _ _ (fun hk => nomatch hk) (locked.clearanceOk hs)

theorem keepsClear_unit : UnitClosed KeepsClear where
  refl := .refl
  trans := .trans
  answer a s := (placeAnswer_links s a).keepsClear
  count _ := (SameLinks.of_eq rfl rfl rfl rfl rfl).keepsClear
  lock cause s := lockUnit_keepsClear s cause
  hold _ _ := (SameLinks.of_eq rfl rfl rfl rfl rfl).keepsClear
  waiting _ _ := (SameLinks.of_eq rfl rfl rfl rfl rfl).keepsClear

theorem keepsClear_picture : PictureClosed KeepsClear where
  refl := .refl
  trans := .trans
  quiet q := q.links.keepsClear
  raise r s hr := raise_clearanceOk s r hr
  clip k f s hf := (modClip_links s k f hf).keepsClear
  commit _ _ _ s := (queueNotice_links s _).keepsClear
  clear k s := evalClipClearance_clearanceOk s k

/-! ## Clips changed out of an attempt (R69, R157) -/

/-- A change of a clip record that starts and stops no attempt. -/
def Reclassifies (f : Clip → Clip) : Prop :=
  ∀ c, (f c).card = c.card ∧ (f c).copies = c.copies ∧ ((f c).state = .inFlight ↔ c.state = .inFlight)

/-- A clip of a card that is not CLEARED may be reclassified. -/
theorem modClip_clearanceOk (f : Clip → Clip) (hf : Reclassifies f) (hs : ClearanceOk s)
    (hcard : ∀ c, s.clips[k] = some c → s.cards[c.card].state ≠ .cleared) : ClearanceOk (modClip k f s) := by
  have was {j : ClipId} {b : Clip} (hb : (modClip k f s).clips[j] = some b) :
      ∃ c, s.clips[j] = some c ∧ b.card = c.card ∧ b.copies = c.copies ∧ (b.state = .inFlight ↔ c.state = .inFlight)
        ∧ (s.cards[c.card].state = .cleared → b = c) := by
    rw [modClip_get] at hb
    split at hb
    · rename_i e
      subst e
      obtain ⟨c, hc, rfl⟩ := Option.map_eq_some_iff.mp hb
      exact ⟨c, hc, (hf c).1, (hf c).2.1, (hf c).2.2, fun e => absurd e (hcard c hc)⟩
    · exact ⟨b, hb, rfl, rfl, .rfl, fun _ => rfl⟩
  have become {j : ClipId} {c : Clip} (hc : s.clips[j] = some c) :
      ∃ b, (modClip k f s).clips[j] = some b ∧ b.copies = c.copies ∧ (b.state = .inFlight ↔ c.state = .inFlight)
        ∧ b.card = c.card := by
    rw [modClip_get]
    split
    · rename_i e
      subst e
      exact ⟨f c, by rw [hc]; rfl, (hf c).2.1, (hf c).2.2, (hf c).1⟩
    · exact ⟨c, hc, rfl, .rfl, rfl⟩
  obtain ⟨hidle, hruns, hflies, hholds, hver⟩ := hs.2.2
  refine ⟨fun g hg => ?_, (modClip_keeps s k f fun c => (hf c).1).tablesOk hs.2.1, ?_⟩
  · rw [modClip_cards] at hg ⊢
    refine ⟨(hs.1 g hg).1, fun j hj b hb => ?_⟩
    obtain ⟨c, hc, -, -, -, hsame⟩ := was hb
    obtain rfl := hs.2.1.card_of_mem hj hc
    rw [hsame hg]
    exact (hs.1 c.card hg).2 j hj c hc
  · unfold AttemptsOk
    rw [modClip_channels, modClip_dests, modClip_cards]
    refine ⟨hidle, fun q hq => ?_, fun j b hb hst => ?_, fun e j he => ?_, fun e j o => ?_⟩
    · obtain ⟨j, c, hj, hc, hst, hso, hw⟩ := hruns q hq
      obtain ⟨b, hb, -, bst, bcard⟩ := become hc
      exact ⟨j, b, hj, hb, bst.mpr hst, by rw [s.card_congr bcard]; exact hso, hw⟩
    · obtain ⟨c, hc, bcard, -, bst, -⟩ := was hb
      rw [s.card_congr bcard]
      exact hflies j c hc (bst.mp hst)
    · obtain ⟨q, c, hq, hj, hw, hc, hco⟩ := hholds e j he
      obtain ⟨b, hb, bco, -⟩ := become hc
      exact ⟨q, b, hq, hj, hw, hb, by rw [bco]; exact hco⟩
    · refine Iff.trans ?_ (hver e j o)
      constructor
      · rintro ⟨b, hb, hco⟩
        obtain ⟨c, hc, -, bco, -⟩ := was hb
        exact ⟨c, hc, by rw [← bco]; exact hco⟩
      · rintro ⟨c, hc, hco⟩
        obtain ⟨b, hb, bco, -⟩ := become hc
        exact ⟨b, hb, by rw [bco]; exact hco⟩

/-- The clips of a manifest reclassified. -/
theorem modClips_clearanceOk (f : Clip → Clip) (hf : Reclassifies f) (ks : List ClipId) (hs : ClearanceOk s)
    (hcards : ∀ j ∈ ks, ∀ c, s.clips[j] = some c → s.cards[c.card].state ≠ .cleared) :
    ClearanceOk (ks.foldl (fun t j => modClip j f t) s)
      ∧ (ks.foldl (fun t j => modClip j f t) s).cards = s.cards := by
  induction ks generalizing s with
  | nil => exact ⟨hs, rfl⟩
  | cons j rest ih =>
    have hfirst := modClip_clearanceOk s j f hf hs (hcards j List.mem_cons_self)
    obtain ⟨hok, hsame⟩ := ih (modClip j f s) hfirst fun i hi b hb => by
      have e := modClip_owner s j f (fun c => (hf c).1) i
      rw [hb, Option.map_some] at e
      obtain ⟨c, hc, hcard⟩ := Option.map_eq_some_iff.mp e.symm
      rw [modClip_cards, ← s.card_congr hcard]
      exact hcards i (List.mem_cons_of_mem j hi) c hc
    exact ⟨hok, hsame.trans (modClip_cards s j f)⟩

theorem relisted_reclassifies (required : Nat) : Reclassifies (Clip.relisted required) := by
  intro c
  unfold Clip.relisted
  split
  · rename_i hneeds
    refine ⟨rfl, rfl, iff_of_false (by simp) fun e => ?_⟩
    simp [Clip.needsCopies, e] at hneeds
  · exact ⟨rfl, rfl, .rfl⟩

theorem waiveMarks_reclassifies : Reclassifies Clip.waiveMarks := fun _ => ⟨rfl, rfl, .rfl⟩

variable {s h} in
/-- R164: the clips of a card that is not CLEARED belong to no card that is. -/
theorem TablesOk.not_cleared (hs : TablesOk s) (hst : s.cards[h].state ≠ .cleared) :
    ∀ j ∈ s.cards[h].clips, ∀ c, s.clips[j] = some c → s.cards[c.card].state ≠ .cleared := by
  intro j hj c hc
  obtain rfl := hs.card_of_mem hj hc
  exact hst

/-! ## MOUNT, LIST-CLIPS, DISMOUNT, RETIRE -/

/-- R8: a free record that becomes a card. -/
theorem createCard_clearanceOk (label : List Byte) (copies review mode : Nat) (hs : ClearanceOk s)
    (hp : s.ports[p].attached = true) (hunbound : s.ports[p].binding = none) (hfree : s.cards[h].state = .free) :
    ClearanceOk (createCard h p label copies review mode s) := by
  obtain ⟨hclips, hsource⟩ := hs.2.1.2.1 h hfree
  have hg : Grounded s h := hs.2.2.grounded (by rw [hfree]; decide) (by rw [hfree]; decide)
  exact bindCard_clearanceOk s h p (newCard s.cards[h].generation p label copies review mode) _ hs ⟨hp, rfl⟩ hunbound
    hsource hg rfl hclips.symm ⟨by simp [newCard], by simp [newCard]⟩

/-- R9: a card re-attached. -/
theorem reattach_clearanceOk (hs : ClearanceOk s) (hp : s.ports[p].attached = true) (hunbound : s.ports[p].binding = none)
    (hsource : s.cards[h].source = none) (hst : s.cards[h].state.reattaches = true) : ClearanceOk (reattach h p s) := by
  have hnot {st : CardState} (hrefused : st.reattaches = false) : s.cards[h].state ≠ st := fun e => by
    rw [e, hrefused] at hst
    cases hst
  exact bindCard_clearanceOk s h p { s.cards[h] with source := some p } _ hs ⟨hp, rfl⟩ hunbound hsource
    (hs.2.2.grounded (hnot rfl) (hnot rfl)) rfl rfl ⟨hnot rfl, hnot rfl⟩

variable {s h} in
theorem freeCard_some (hf : freeCard s = some h) : s.cards[h].state = .free := by
  simpa using List.find?_some hf

theorem mount_keepsClear (port : Nat) (label : List Byte) (copies review mode : Nat) :
    KeepsClear s (mount port label copies review mode s).1 := by
  unfold mount
  split
  · exact .refl s
  · rename_i p _
    split
    · exact .refl s
    · rename_i hport
      simp only [not_or, Bool.not_eq_false, Bool.not_eq_true, Option.isSome_eq_false_iff, Option.isNone_iff_eq_none] at hport
      obtain ⟨hatt, hunbound⟩ := hport
      split
      · rename_i h _
        split
        · exact .refl s
        · rename_i hsource
          rw [Option.not_isSome_iff_eq_none] at hsource
          split
          · rename_i hst
            exact fun hs => reattach_clearanceOk s h p hs hatt hunbound hsource hst
          · exact .refl s
      · split
        · exact .refl s
        · rename_i h hfree
          exact fun hs => createCard_clearanceOk s h p label copies review mode hs hatt hunbound (freeCard_some hfree)

theorem listClips_keepsClear (card : Nat) (items : List ClipItem) : KeepsClear s (listClips card items s).1 := by
  unfold listClips
  split
  · exact .refl s
  · rename_i h _
    split
    · exact .refl s
    · rename_i hst
      split
      · exact .refl s
      · rename_i hlen
        have listed : KeepsClear s (appendClips h items s) := fun hs =>
          appendClips_clearanceOk (not_lt.mp hlen) hs (by simpa using hst)
        dsimp only
        split
        · exact fun hs => afterEvent_clearanceOk _ (listed hs)
        · exact listed

/-- R14: the source of a card in no copying state is taken. -/
theorem unbindCard_keepsClear (h1 : s.cards[h].state ≠ .copying) (h2 : s.cards[h].state ≠ .suspending) :
    KeepsClear s (loseSource h (unbindPort s.cards[h].source s)) := by
  intro hs
  cases hsource : s.cards[h].source with
  | none =>
    refine (writeCard_links s h { s.cards[h] with source := none } ?_).clearanceOk hs
    rw [← hsource]
  | some p => exact loseSource_clearanceOk s h p _ hs rfl hsource (hs.2.2.grounded h1 h2)

theorem dismount_keepsClear (card : Nat) : KeepsClear s (dismount card s).1 := by
  unfold dismount
  split
  · exact .refl s
  · rename_i h _
    split
    · exact .refl s
    · exact .refl s
    · exact .refl s
    · rename_i hst
      dsimp only
      exact fun hs => release_clearanceOk s h hs (hs.2.2.grounded (by rw [hst]; decide) (by rw [hst]; decide))
    · rename_i h1 h2 _ _
      dsimp only
      exact unbindCard_keepsClear s h h1 h2

theorem retire_keepsClear (card : Nat) : KeepsClear s (retire card s).1 := by
  unfold retire
  split
  · exact .refl s
  · rename_i h _
    split
    · exact .refl s
    · rename_i hbusy
      simp only [Bool.or_eq_true, not_or] at hbusy
      have hnot {st : CardState} (hc : st.isCopying = true) : s.cards[h].state ≠ st := fun e => hbusy.1.1 (e ▸ hc)
      dsimp only
      exact fun hs => release_clearanceOk s h hs (hs.2.2.grounded (hnot rfl) (hnot rfl))

/-! ## ROUTE, START, SUSPEND, RESUME -/

theorem route_keepsClear (card : Nat) (ports : List Nat) : KeepsClear s (route card ports s).1 := by
  unfold route
  split
  · exact .refl s
  · rename_i h _
    split
    · exact .refl s
    · split
      · exact .refl s
      · split
        · exact .refl s
        · dsimp only
          refine (writeCard_links s h _ ?_).keepsClear
          rfl

/-- R62, R66: a card that goes on to COPYING. -/
theorem beginCopying_keepsClear : KeepsClear s (settleCopying h (moveCard h .copying s)) := fun hs =>
  settleCopying_clearanceOk _ h (moveCard_clearanceOk s h .copying hs (by decide) (by decide) (.inr (.inl rfl)))

theorem start_keepsClear (card : Nat) : KeepsClear s (start card s).1 := by
  unfold start
  split
  · exact .refl s
  · rename_i h _
    split
    · exact .refl s
    · split
      · exact .refl s
      · split
        · exact .refl s
        · dsimp only
          exact fun hs => afterEvent_clearanceOk _ (beginCopying_keepsClear s h hs)

theorem resume_keepsClear (card : Nat) : KeepsClear s (resume card s).1 := by
  unfold resume
  split
  · exact .refl s
  · rename_i h _
    split
    · exact .refl s
    · unfold resumeCard
      dsimp only
      split
      · exact fun hs => afterEvent_clearanceOk _ (beginCopying_keepsClear s h hs)
      · exact beginCopying_keepsClear s h

theorem abandoned_settles : Settles Clip.abandoned := fun c => ⟨rfl, rfl, by simp [Clip.abandoned]⟩

theorem abandonClip_eq :
    abandonClip p k s = modClip k Clip.abandoned
      (attemptDropped p k s.channels[p].writing s.channels[p].finished s) := rfl

variable {s h k p} in
/-- R64: the abandon of a card's clip in flight. -/
theorem promptAbandon_clearanceOk (hs : ClearanceOk s) (hk : k ∈ s.cards[h].clips) (hrun : runningChannel s k = some p) :
    ClearanceOk (promptAbandon h p k s) := by
  obtain ⟨hp, hclip⟩ := runningChannel_some s k hrun
  obtain ⟨c, hc, -⟩ := hs.2.2.running hp hclip
  obtain rfl := hs.2.1.card_of_mem hk hc
  obtain ⟨hok, hg⟩ := attemptStopped hs hp hclip hc s.channels[p].finished ⟨_, abandoned_settles, .inl rfl⟩
  rw [← abandonClip_eq] at hok hg
  have hidle : (abandonClip p k s).channels[p].state = .idle := by
    rw [abandonClip_eq, modClip_channels]
    exact attemptDropped_channel s k p _ _
  unfold promptAbandon settleAbandon
  refine afterEvent_clearanceOk _ ?_
  generalize abandonClip p k s = t at hok hg hidle
  generalize drainingOf s.channels[p].target t = drain
  split
  · exact moveCard_clearanceOk t c.card .suspended hok (by decide) (by decide) (.inl hg)
  · refine moveCard_clearanceOk _ c.card .suspending ?_ (by decide) (by decide) (.inr (.inr rfl))
    exact setChannel_clearanceOk t p _ hok (by rw [hidle]; decide) ⟨by simp, rfl⟩

variable {s h k} in
theorem suspendInFlight_clearanceOk (hs : ClearanceOk s) (hk : k ∈ s.cards[h].clips) :
    ClearanceOk (suspendInFlight h k s) := by
  have waits : ClearanceOk (moveCard h .suspending s) :=
    moveCard_clearanceOk s h .suspending hs (by decide) (by decide) (.inr (.inr rfl))
  unfold suspendInFlight
  split
  · exact waits
  · split
    · exact writeCard_clearanceOk s h _ hs rfl rfl (fun e => nomatch e) (.inr (.inr rfl)) fun e => nomatch e
    · split
      · rename_i p hrun
        exact promptAbandon_clearanceOk hs hk hrun
      · exact waits

theorem suspend_keepsClear (card : Nat) : KeepsClear s (suspend card s).1 := by
  unfold suspend
  split
  · exact .refl s
  · rename_i h _
    split
    · exact .refl s
    · split
      · rename_i hnone
        exact fun hs => moveCard_clearanceOk s h .suspended hs (by decide) (by decide)
          (.inl (hs.2.1.grounded_iff.mpr hnone))
      · rename_i k hk
        exact fun hs => suspendInFlight_clearanceOk hs (inFlightClip_some s h k hk).1

/-! ## ABORT, HALT-ALL, RECOPY -/

variable {s h p} in
/-- R67: the channel of a card stopped; the card has no clip in flight then. -/
theorem stopChannel_clearanceOk (hs : ClearanceOk s) (hso : s.cards[h].source = some p) :
    ClearanceOk (stopChannel p s) ∧ Grounded (stopChannel p s) h := by
  have grounded (hp : s.channels[p].state ≠ .running) : Grounded s h :=
    hs.2.2.grounded_of_source fun q hq => by
      rw [hso, Option.some.injEq] at hq
      exact hq ▸ hp
  unfold stopChannel
  split
  · rename_i hp
    exact ⟨hs, grounded (by rw [hp]; decide)⟩
  · rename_i hp
    have hold : s.channels[p].state ≠ .running := by rw [hp]; decide
    exact ⟨idleChannel_clearanceOk s p hs hold, grounded hold⟩
  · rename_i hp
    obtain ⟨k, c, hk, hc, -, hso', -⟩ := hs.2.2.2.1 p hp
    obtain rfl := hs.2.1.source_inj hso' hso
    rw [hk]
    obtain ⟨y, hy⟩ := attemptDropped_clip s.channels[p].writing s.channels[p].finished hc (p := p)
    exact attemptStopped hs hp hk hc s.channels[p].finished (countFailed_settled _ k hy)

theorem abortCard_keepsClear : KeepsClear s (abortCard h s) := by
  intro hs
  unfold abortCard
  split
  · rename_i p hso
    obtain ⟨hok, hg⟩ := stopChannel_clearanceOk hs hso
    exact moveCard_clearanceOk _ h .halted hok (by decide) (by decide) (.inl hg)
  · rename_i hso
    exact moveCard_clearanceOk s h .halted hs (by decide) (by decide)
      (.inl (hs.2.2.grounded_of_source fun p hp => by rw [hso] at hp; cases hp))

theorem abort_keepsClear (card : Nat) : KeepsClear s (abort card s).1 := by
  unfold abort
  split
  · exact .refl s
  · rename_i h _
    split
    · exact .refl s
    · dsimp only
      split
      · exact fun hs => afterEvent_clearanceOk _ (abortCard_keepsClear s h hs)
      · exact abortCard_keepsClear s h

theorem haltCard_keepsClear : KeepsClear s (haltCard s h) := by
  unfold haltCard
  split
  · exact abortCard_keepsClear s h
  · exact .refl s

theorem Dest.halted_links (x : Dest) : x.dropReads.failedRequest.links = x.links := rfl

theorem haltVerify_keepsClear : KeepsClear s (haltVerify s d) := by
  unfold haltVerify
  split
  · exact .refl s
  · exact fun hs => (writeDest_links _ d _ (Dest.halted_links _)).clearanceOk (stopVerify_clearanceOk s d hs)

theorem haltAll_keepsClear : KeepsClear s (haltAll s).1 := by
  intro hs
  have halted := foldl_clearanceOk haltVerify (fun t e => haltVerify_keepsClear t e) allDests _
    (foldl_clearanceOk haltCard (fun t g => haltCard_keepsClear t g) allCards s hs)
  have accepting (n : Nat) (t : Part) : SameLinks t (acceptWith n t) := .of_eq rfl rfl rfl rfl rfl
  unfold haltAll
  dsimp only
  exact afterEvent_clearanceOk _ ((accepting _ _).clearanceOk halted)

variable {s h} in
theorem relistAll_clearanceOk (required : Nat) (hs : ClearanceOk s) (hst : s.cards[h].state ≠ .cleared) :
    ClearanceOk (relistAll required s.cards[h].clips s) :=
  (modClips_clearanceOk s _ (relisted_reclassifies required) _ hs (hs.2.1.not_cleared hst)).1

theorem recopyNothing_keepsClear : KeepsClear s (recopyNothing h s) := by
  unfold recopyNothing
  split
  · rename_i hst
    intro hs
    have hg : Grounded s h := hs.2.2.grounded (by rw [hst]; decide) (by rw [hst]; decide)
    split
    · exact moveCard_clearanceOk s h .held hs (by decide) (by decide) (.inl hg)
    · exact evalClearance_clearanceOk _ h (moveCard_clearanceOk s h .copied hs (by decide) (by decide) (.inl hg))
  · exact .refl s

theorem recopy_keepsClear (card : Nat) : KeepsClear s (recopy card s).1 := by
  unfold recopy
  split
  · exact .refl s
  · rename_i h _
    split
    · exact .refl s
    · rename_i hst
      have hcleared : s.cards[h].state ≠ .cleared := fun e => hst (by rw [e]; rfl)
      split
      · exact .refl s
      · split
        · exact .refl s
        · split
          · dsimp only
            exact fun hs => afterEvent_clearanceOk _ (moveCard_clearanceOk _ h .copying
              (relistAll_clearanceOk _ hs hcleared) (by decide) (by decide) (.inr (.inl rfl)))
          · exact recopyNothing_keepsClear s h

/-! ## Destinations and waivers -/

theorem changeDest_keepsClear (x : Dest) (hx : x.links = s.dests[d].links) : KeepsClear s (changeDest d x s) := by
  have written := (writeDest_links s d x hx).keepsClear
  unfold changeDest
  split
  · exact written
  · exact fun hs => afterEvent_clearanceOk _ (written hs)

theorem setRegion_keepsClear (port base length : Nat) : KeepsClear s (setRegion port base length s).1 := by
  unfold setRegion
  split
  · exact .refl s
  · split
    · exact .refl s
    · split
      · exact .refl s
      · exact changeDest_keepsClear s _ _ rfl

theorem setStall_keepsClear (port limit : Nat) : KeepsClear s (setStall port limit s).1 := by
  unfold setStall
  split
  · exact .refl s
  · dsimp only
    refine (writeDest_links s _ _ ?_).keepsClear
    rfl

theorem closeDest_keepsClear (port : Nat) : KeepsClear s (closeDest port s).1 := by
  unfold closeDest
  split
  · exact .refl s
  · split
    · exact changeDest_keepsClear s _ _ rfl
    · exact changeDest_keepsClear s _ _ rfl
    all_goals exact .refl s

theorem reviveDest_keepsClear (port : Nat) : KeepsClear s (reviveDest port s).1 := by
  unfold reviveDest
  split
  · exact .refl s
  · split
    · exact changeDest_keepsClear s _ _ rfl
    · exact .refl s

theorem setPacing_keepsClear (port q e : Nat) : KeepsClear s (setPacing port q e s).1 := by
  unfold setPacing
  split
  · exact .refl s
  · dsimp only
    refine (writeDest_links s _ _ ?_).keepsClear
    rfl

/-- R157: the marks of a card that is not CLEARED are waived. -/
theorem waiveCard_keepsClear (hfree : s.cards[h].state ≠ .free) (hcleared : s.cards[h].state ≠ .cleared)
    (hsus : s.cards[h].state ≠ .suspending) : KeepsClear s (waiveCard h s) := by
  intro hs
  obtain ⟨hok, hsame⟩ := modClips_clearanceOk s _ waiveMarks_reclassifies _ hs (hs.2.1.not_cleared hcleared)
  have hstate : s.cards[h].waiveMarks.state = if s.cards[h].state = .held then .copied else s.cards[h].state := rfl
  have hnot {st : CardState} (hne : s.cards[h].state ≠ st) (hcop : st ≠ .copied) : s.cards[h].waiveMarks.state ≠ st := by
    rw [hstate]
    split
    · exact Ne.symm hcop
    · exact hne
  refine evalClearance_clearanceOk _ h (writeCard_clearanceOk (waiveClips s.cards[h].clips s) h _ hok ?_ ?_
    (fun e => absurd e (hnot hfree (by decide))) ?_ fun e => absurd e (hnot hcleared (by decide)))
  · rw [waiveClips, hsame]
    rfl
  · rw [waiveClips, hsame]
    rfl
  · by_cases hcopying : s.cards[h].state = .copying
    · exact .inr (.inl (by rw [hstate, hcopying]; rfl))
    · refine .inl (hok.2.2.grounded ?_ ?_) <;> rw [hsame] <;> assumption

theorem waive_keepsClear (card generation : Nat) : KeepsClear s (waive card generation s).1 := by
  unfold waive
  split
  · exact .refl s
  · rename_i h hu
    split
    · exact .refl s
    · rename_i hst
      have hnot {st : CardState} (hrefused : st.refusesWaive = true) : s.cards[h].state ≠ st := fun e => hst (e ▸ hrefused)
      split
      · exact .refl s
      · dsimp only
        exact waiveCard_keepsClear s h (usedCard_some s h hu).2 (hnot rfl) (hnot rfl)

/-! ## The directives and the station stream -/

theorem keepsClear_owners : OwnersClosed KeepsClear where
  toUnitClosed := keepsClear_unit
  quiet q := q.links.keepsClear
  mount port label copies review mode s := mount_keepsClear s port label copies review mode
  listClips card items s := listClips_keepsClear s card items
  dismount card s := dismount_keepsClear s card
  retire card s := retire_keepsClear s card
  route card ports s := route_keepsClear s card ports
  start card s := start_keepsClear s card
  suspend card s := suspend_keepsClear s card
  resume card s := resume_keepsClear s card
  abort card s := abort_keepsClear s card
  haltAll s := haltAll_keepsClear s
  recopy card s := recopy_keepsClear s card
  setRegion port base length s := setRegion_keepsClear s port base length
  setStall port limit s := setStall_keepsClear s port limit
  closeDest port s := closeDest_keepsClear s port
  reviveDest port s := reviveDest_keepsClear s port
  setPacing port p e s := setPacing_keepsClear s port p e
  waive card generation s := waive_keepsClear s card generation

theorem keepsClear_station : StationClosed KeepsClear := keepsClear_owners.station keepsClear_picture

end Sys2Proof.Machine
end

