-- ==== Sys2Proof/Proofs/EventsClear.lean ====
section
/-! PROOF. R164: the events of the ports, station egress, the full reset and a millisecond keep a CLEARED card and the links
between the tables. -/

namespace Sys2Proof.Machine

variable (s : Part) (h : CardId) (d : DestId) (k : ClipId) (p : PortId)

/-! ## A source port attached or detached -/

/-- R7: a port that is unbound stays so. -/
theorem setPort_clearanceOk (x : SourcePort) (hs : ClearanceOk s) (hunbound : s.ports[p].binding = none)
    (hx : x.binding = none) : ClearanceOk (setPort p x s) := by
  obtain ⟨hlist, hfree, hbind, hatt⟩ := hs.2.1
  refine ⟨hs.1, ⟨hlist, hfree, fun q g => ?_, fun q hq => ?_⟩, hs.2.2⟩
  · rw [setPort_ports, get_set, setPort_cards, ← hbind]
    split
    · rename_i e
      subst e
      rw [hx, hunbound]
    · rfl
  · rw [setPort_ports, get_set] at hq ⊢
    split
    · rename_i e
      rw [if_pos e, hx] at hq
      cases hq
    · rename_i e
      rw [if_neg e] at hq
      exact hatt q hq

variable {s h p} in
/-- R17: the bindings once the port of a card has gone. -/
theorem TablesOk.bindsBut_of_detached (hs : TablesOk s) (hso : s.cards[h].source = some p) :
    BindsBut h (setPort p ⟨false, none⟩ s) := by
  refine ⟨fun q g hg => ?_, fun q hq => ?_, fun q g hq hg => hs.bindsBut.2.2.1 q g hq hg, fun q hq => ?_⟩
  · rw [setPort_ports, get_set, setPort_cards]
    split
    · rename_i e
      subst e
      exact iff_of_false nofun fun hsame => hg (hs.source_inj hsame hso)
    · exact hs.2.2.1 q g
  · rw [setPort_ports, get_set] at hq
    split at hq
    · cases hq
    · exact (hs.2.2.1 q h).mp hq
  · rw [setPort_ports, get_set] at hq ⊢
    split
    · rename_i e
      rw [if_pos e] at hq
      cases hq
    · rename_i e
      rw [if_neg e] at hq
      exact hs.2.2.2 q hq

theorem sourceLost_aimed (o : Option ClipId) (n : Nat) : Aimed ⟨.sourceLost, some h, o, none, none, n⟩ s := fun hk =>
  nomatch hk

/-- The part once a copying card has lost its source (R17), before its channel stops. -/
def sourceTaken (h : CardId) (p : PortId) (s : Part) : Part :=
  let s1 := raise ⟨.sourceLost, some h, inFlightClip s h, none, none, p.val⟩ s
  writeCard h { s1.cards[h].toState .held with source := none } s1

theorem detachCopying_eq : detachCopying h p s =
    if s.channels[p].state = .idle then sourceTaken h p s else afterEvent (detachChannel p (sourceTaken h p s)) := rfl

/-- R30, R57: closing an attempt whose writing set has been withdrawn. -/
theorem closeAttempt_withdrawn (ds : DestSet) (hheld : ∀ d : DestId, ds.mem d = true → s.dests[d].holder = some k) :
    closeAttempt p k (withdrawAll ds s) = settleClip k (attemptDropped p k ds s.channels[p].finished s) := by
  unfold closeAttempt attemptDropped
  rw [withdrawAll_channels hheld]

section Detach

variable {s s1 : Part} {h : CardId} {p : PortId}

/-- R17: the tables once the card has lost its source, its port having gone and effects that keep the tables having come
between. -/
theorem sourceTaken_tablesOk (hs : TablesOk s) (hso : s.cards[h].source = some p)
    (hkeeps : Keeps (setPort p ⟨false, none⟩ s) s1) :
    TablesOk (writeCard h { s1.cards[h].toState .held with source := none } s1) := by
  have hcard (g : CardId) : s1.cards[g].source = s.cards[g].source ∧ s1.cards[g].clips = s.cards[g].clips
      ∧ (s1.cards[g].state = .free → s.cards[g].state = .free) := ⟨hkeeps.source g, hkeeps.listing g, hkeeps.free g⟩
  refine tablesOk_unbound hs (x := ⟨false, none⟩) rfl hso ?_ (fun g => ?_) (fun g => ?_) (fun g => ?_) fun j => ?_
  · rw [writeCard_ports, hkeeps.ports]
    rfl
  · rw [writeCard_cards, get_set]
    split
    · rfl
    · exact (hcard g).1
  · rw [writeCard_cards, get_set]
    split
    · rename_i e
      subst e
      exact (hcard h).2.1
    · exact (hcard g).2.1
  · rw [writeCard_cards, get_set]
    split
    · exact fun e => nomatch e
    · exact (hcard g).2.2
  · rw [writeCard_clips]
    exact hkeeps.owner j

/-- R4: effects that keep the manifests and the clips' cards keep each clip on the list of its card. -/
theorem Keeps.manifests {t : Part} (hkeeps : Keeps s t)
    (hs : ∀ (g : CardId) (j : ClipId), j ∈ s.cards[g].clips ↔ ∃ c, s.clips[j] = some c ∧ c.card = g)
    (g : CardId) (j : ClipId) : j ∈ t.cards[g].clips ↔ ∃ c, t.clips[j] = some c ∧ c.card = g := by
  rw [hkeeps.listing, hs]
  have e := hkeeps.owner j
  cases hj : s.clips[j] <;> cases hj' : t.clips[j] <;> simp_all

/-- R17, R60: the channel stops of a card that has just gone to HELD without its source. -/
theorem detachChannel_clearanceOk (hcl : ClearedOk s1) (ha : AttemptsOk s1)
    (hlist : ∀ (g : CardId) (j : ClipId), j ∈ s1.cards[g].clips ↔ ∃ c, s1.clips[j] = some c ∧ c.card = g)
    (ht : TablesOk (writeCard h { s1.cards[h].toState .held with source := none } s1))
    (hso : s1.cards[h].source = some p) (hsole : ∀ g : CardId, s1.cards[g].source = some p → g = h) :
    ClearanceOk (detachChannel p (writeCard h { s1.cards[h].toState .held with source := none } s1)) := by
  have hgrounded (hp : s1.channels[p].state ≠ .running) : Grounded s1 h :=
    ha.grounded_of_source fun q hq => by
      rw [hso, Option.some.injEq] at hq
      exact hq ▸ hp
  have stopped (hp : s1.channels[p].state ≠ .running) :
      ClearanceOk (writeCard h { s1.cards[h].toState .held with source := none } s1) :=
    ⟨writeCard_clearedOk s1 h _ hcl fun e => (nomatch e), ht, writeCard_attemptsOk s1 h _ ha (.inl (hgrounded hp))⟩
  unfold detachChannel
  rw [writeCard_channels]
  split
  · rename_i hp
    exact stopped (by rw [hp]; decide)
  · rename_i hp
    have hnot : s1.channels[p].state ≠ .running := by rw [hp]; decide
    exact idleChannel_clearanceOk _ p (stopped hnot) (by rw [writeCard_channels]; exact hnot)
  · rename_i hp
    obtain ⟨j, c, hj, hc, -, hcso, hw⟩ := ha.2.1 p hp
    have hcard : c.card = h := hsole c.card hcso
    rw [hj]
    dsimp only
    rw [closeAttempt_withdrawn _ _ _ _ (by rw [writeCard_dests]; exact hw), writeCard_channels]
    obtain ⟨y, hy⟩ := attemptDropped_clip (s := writeCard h { s1.cards[h].toState .held with source := none } s1)
      (p := p) s1.channels[p].writing s1.channels[p].finished (by rw [writeCard_clips]; exact hc)
    refine (attemptStopped_of_written hcl hlist ha hp hj hc (writeCard_clips _ _ _) (writeCard_channels _ _ _)
      (writeCard_dests _ _ _) (fun g hg => ?_) ?_ ht _ (settleClip_settled _ j hy)).1
    · rw [writeCard_cards, get_set, if_neg]
      rintro rfl
      exact hg hcard.symm
    · rw [Part.card_congr _ hcard, writeCard_cards, get_set, if_pos rfl]
      exact fun e => nomatch e

variable (hs : ClearanceOk s) (hso : s.cards[h].source = some p)
include hs hso

/-- R17: a copying card loses its source. -/
theorem detachCopying_clearanceOk : ClearanceOk (detachCopying h p (setPort p ⟨false, none⟩ s)) := by
  rw [detachCopying_eq]
  unfold sourceTaken
  dsimp only
  generalize hr : (⟨.sourceLost, some h, inFlightClip (setPort p ⟨false, none⟩ s) h, none, none, p.val⟩ : Report) = r
  have hmarked := raise_marked (setPort p ⟨false, none⟩ s) r (hr ▸ sourceLost_aimed _ h _ _)
  have hkeeps := raise_keeps (setPort p ⟨false, none⟩ s) r
  have hcl := hmarked.clearedOk hs.2.1.1 hs.1
  have ha := hmarked.attemptsOk hs.2.2
  have hchannels := hmarked.channels
  have hsource (g : CardId) : (raise r (setPort p ⟨false, none⟩ s)).cards[g].source = s.cards[g].source :=
    hkeeps.source g
  generalize raise r (setPort p ⟨false, none⟩ s) = s1 at hkeeps hcl ha hchannels hsource ⊢
  have hstops := detachChannel_clearanceOk hcl ha (hkeeps.manifests hs.2.1.1) (sourceTaken_tablesOk hs.2.1 hso hkeeps)
    ((hsource h).trans hso) fun g hg => hs.2.1.source_inj ((hsource g).symm.trans hg) hso
  rw [setPort_channels] at hchannels ⊢
  split
  · rename_i hidle
    rw [detachChannel, writeCard_channels, hchannels, hidle] at hstops
    exact hstops
  · exact afterEvent_clearanceOk _ hstops

/-- R17: what a detach does to the card bound to the port. -/
theorem detachCard_clearanceOk : ClearanceOk (detachCard h p (setPort p ⟨false, none⟩ s)) := by
  unfold detachCard
  rw [setPort_cards]
  split
  · rename_i hst
    exact startVerifies_clearanceOk _ (released_clearanceOk hs.2.1.1 hs.1 hs.2.1.2.1
      (hs.2.1.bindsBut_of_detached hso) hs.2.2 (hs.2.2.grounded (by rw [hst]; decide) (by rw [hst]; decide)))
  · exact detachCopying_clearanceOk hs hso
  · exact detachCopying_clearanceOk hs hso
  · exact detachCopying_clearanceOk hs hso
  · rename_i h1 h2 _
    exact loseSource_clearanceOk s h p _ hs rfl hso (hs.2.2.grounded h1 h2)

end Detach

theorem detach_keepsClear : KeepsClear s (detach p s) := by
  intro hs
  unfold detach
  split
  · rename_i h hb
    exact detachCard_clearanceOk hs ((hs.2.1.2.2.1 p h).mp hb)
  · rename_i hb
    exact setPort_clearanceOk s p _ hs hb rfl

theorem sourceTaken_ports : (sourceTaken h p s).ports = s.ports := by
  unfold sourceTaken
  dsimp only
  rw [writeCard_ports, (raise_keeps _ _).ports]

/-- R7, R17: a port after a detach. -/
theorem detach_ports : (detach p s).ports[p].binding = none := by
  have gone : (setPort p ⟨false, none⟩ s).ports[p].binding = none := by
    rw [setPort_ports, get_set, if_pos rfl]
  unfold detach
  split
  · rename_i h _
    generalize setPort p ⟨false, none⟩ s = t at gone
    have stopped : (detachCopying h p t).ports = t.ports := by
      rw [detachCopying_eq]
      split
      · exact sourceTaken_ports t h p
      · rw [(afterEvent_keeps _).ports, (detachChannel_keeps _ p).ports, sourceTaken_ports]
    unfold detachCard
    split
    · rw [release_eq, (startVerifies_keeps _).ports, released_ports]
      split
      · rfl
      · exact gone
    · rw [stopped, gone]
    · rw [stopped, gone]
    · rw [stopped, gone]
    · exact (congrArg (fun v : Vector SourcePort 4 => v[p].binding) (writeCard_ports t h _)).trans gone
  · exact gone

theorem sourceAttach_keepsClear : KeepsClear s (sourceAttach p s) := by
  intro hs
  unfold sourceAttach
  split
  · split
    · exact setPort_clearanceOk _ p _ (detach_keepsClear s p hs) (detach_ports s p) rfl
    · rename_i hatt
      refine setPort_clearanceOk s p _ hs ?_ rfl
      by_contra hb
      exact hatt (hs.2.1.2.2.2 p (Option.isSome_iff_ne_none.mpr hb))
  · exact hs

theorem sourceDetach_keepsClear : KeepsClear s (sourceDetach p s) := by
  unfold sourceDetach
  split
  · exact detach_keepsClear s p
  · exact .refl s

/-! ## The destinations' links -/

theorem destLinkUp_keepsClear : KeepsClear s (destLinkUp d s) := by
  unfold destLinkUp
  split
  · exact fun hs => afterEvent_clearanceOk _ ((writeDest_links s d { s.dests[d] with state := .unset } rfl).clearanceOk hs)
  · exact .refl s

/-- R28, R35: the loss of a destination's service. -/
theorem loseDest_keepsClear (st : DestState) (ret : Option Service) (kind : FaultKind) :
    KeepsClear s (loseDest d st ret kind s) := by
  intro hs
  unfold loseDest
  dsimp only
  have stopped := stopVerify_clearanceOk _ d (leaveAttempt_clearanceOk _ d
    ((writeDest_links s d (s.dests[d].lost st ret) rfl).clearanceOk hs))
  generalize stopVerify d (leaveAttempt d (writeDest d (s.dests[d].lost st ret) s)) = s1 at stopped ⊢
  have raised := raise_clearanceOk s1 ⟨kind, none, none, some d, none, s.dests[d].outstanding⟩
    (fun _ _ _ hk => nomatch hk) stopped
  generalize raise ⟨kind, none, none, some d, none, s.dests[d].outstanding⟩ s1 = s2 at raised ⊢
  have heard : ClearanceOk (if s.dests[d].draining then drainEnded d s2 else s2) := by
    split
    · exact drainEnded_clearanceOk s2 d raised
    · exact raised
  refine afterEvent_clearanceOk _ ?_
  split
  · exact endAttemptOf_clearanceOk _ _ heard
  · exact heard

theorem destLinkDown_keepsClear : KeepsClear s (destLinkDown d s) := by
  unfold destLinkDown
  split
  · exact loseDest_keepsClear s d _ _ _
  · exact .refl s

theorem stallTimeout_keepsClear : KeepsClear s (stallTimeout d s) := by
  unfold stallTimeout
  split
  · exact loseDest_keepsClear s d _ _ _
  · exact .refl s

/-! ## The source link -/

theorem out_links (o : List Sent) : SameLinks s { s with out := o } := .of_eq rfl rfl rfl rfl rfl

theorem Channel.fetched_links (t : Try) (c : Channel) : (c.fetched t).links = c.links := rfl

theorem sendFetch_links : SameLinks s (sendFetch p s) := by
  unfold sendFetch
  split
  · exact .refl s
  · split
    · exact (out_links s _).trans (setChannel_links _ p _ (Channel.fetched_links _ _))
    · exact .refl s

variable {s p} in
theorem channelClip_some {x : ClipId × Clip} (hx : channelClip s p = some x) :
    s.channels[p].clip = some x.1 ∧ s.clips[x.1] = some x.2 := by
  unfold channelClip at hx
  split at hx
  · rename_i j hj
    obtain ⟨c, hc, rfl⟩ := Option.map_eq_some_iff.mp hx
    exact ⟨hj, hc⟩
  · cases hx

theorem dropFetch_links (tag : Nat) : SameLinks s (dropFetch p tag s) :=
  setChannel_links s p { s.channels[p] with fetches := s.channels[p].fetches.filter fun f => f.tag != tag } rfl

theorem Channel.digestNext_links (length : Nat) (c : Channel) : (c.digestNext length).links = c.links := by
  unfold Channel.digestNext
  split <;> rfl

theorem Channel.digestArrived_links (length n : Nat) (c : Channel) : (Channel.digestArrived length n c).links = c.links := by
  induction n generalizing c with
  | zero => rfl
  | succ n ih => exact (ih _).trans (c.digestNext_links length)

theorem finishDigest_keepsClear (value : Nat) : KeepsClear s (finishDigest k value s) := by
  have set : SameLinks s (modClip k (fun c => { c with sourceDigest := some value }) s) :=
    modClip_links s k _ fun _ => ⟨rfl, rfl, rfl, rfl, rfl⟩
  unfold finishDigest
  split
  · exact .refl s
  · split
    · dsimp only
      split
      · exact fun hs => raise_clearanceOk _ _ (clipReport_aimed _ k _ _ _) (set.clearanceOk hs)
      · exact set.keepsClear
    · split
      · exact .refl s
      · exact fun hs => raise_clearanceOk _ _ (clipReport_aimed s k _ _ _) hs

theorem blockArrived_keepsClear (x : ClipId × Clip) (block : Nat) (data : List Byte) :
    KeepsClear s (blockArrived p x block data s) := by
  unfold blockArrived
  dsimp only
  have placed (n : Nat) := setChannel_links s p _ (Channel.digestArrived_links x.2.length n { s.channels[p] with
    held := s.channels[p].held.map fun b => if b.block = block then { b with data := some data } else b })
  split
  · exact fun hs => finishDigest_keepsClear _ x.1 _ ((placed _).clearanceOk hs)
  · exact (placed _).keepsClear

variable {s k p} in
/-- R59: a block's third failed try, on a channel with a clip. -/
theorem blockFailed_clearanceOk (hs : ClearanceOk s) (hk : s.channels[p].clip = some k) (block : Nat) :
    ClearanceOk (blockFailed p k block s) := by
  have hp : s.channels[p].state = .running := by
    by_contra hp
    rw [hs.2.2.1 p hp] at hk
    cases hk
  obtain ⟨c, hc, -⟩ := hs.2.2.running hp hk
  have hmarked := raise_marked s _ (clipReport_aimed s k .sourceRead none block)
  have hok := raise_clearanceOk s _ (clipReport_aimed s k .sourceRead none block) hs
  unfold blockFailed
  dsimp only
  have hchannels := hmarked.channels
  obtain ⟨b, hb, -⟩ := hmarked.clip_to hc
  generalize raise (clipReport s .sourceRead k none block) s = s1 at hok hchannels hb
  rw [← hchannels] at hp hk
  have hdrop : idleChannel p (withdrawAll s1.channels[p].writing s1) =
      attemptDropped p k s1.channels[p].writing DestSet.empty s1 := rfl
  rw [hdrop]
  obtain ⟨y, hy⟩ := attemptDropped_clip s1.channels[p].writing DestSet.empty hb (p := p)
  obtain ⟨hend, hg⟩ := attemptStopped hok hp hk hb DestSet.empty (countFailed_settled _ k hy)
  refine afterEvent_clearanceOk _ (settleCardOf_clearanceOk _ k hend fun a ha => ?_)
  have hown := ((attemptDropped_keeps s1 k p s1.channels[p].writing DestSet.empty).trans (countFailed_keeps _ k)).owner k
  rw [ha, hb, Option.map_some, Option.map_some, Option.some.injEq] at hown
  exact hown ▸ hg

variable {s k p} in
theorem tryFailed_clearanceOk (hs : ClearanceOk s) (hk : s.channels[p].clip = some k) (f : Fetch) :
    ClearanceOk (tryFailed p k f s) := by
  unfold tryFailed
  split
  · exact (setChannel_links s p
      { s.channels[p] with retries := s.channels[p].retries ++ [⟨f.block, f.tryNo + 1⟩] } rfl).clearanceOk hs
  · exact blockFailed_clearanceOk hs hk f.block

theorem sourceBlock_keepsClear (b : Rx) : KeepsClear s (sourceBlock p b s) := by
  intro hs
  have dropped := (dropFetch_links s p b.tag).clearanceOk hs
  unfold sourceBlock
  split
  · exact hs
  · split
    · exact dropped
    · rename_i x hx
      split
      · exact tryFailed_clearanceOk dropped
          (((dropFetch_links s p b.tag).channel p).2.1.trans (channelClip_some hx).1) _
      · exact blockArrived_keepsClear _ p _ _ _ dropped

theorem fetchTimeout_keepsClear (tag : Nat) : KeepsClear s (fetchTimeout p tag s) := by
  intro hs
  have dropped := (dropFetch_links s p tag).clearanceOk hs
  unfold fetchTimeout
  split
  · exact hs
  · split
    · exact dropped
    · rename_i x hx
      exact tryFailed_clearanceOk dropped
        (((dropFetch_links s p tag).channel p).2.1.trans (channelClip_some hx).1) _

/-! ## STOREs -/

theorem Channel.stored_links (block : Nat) (c : Channel) : (c.stored d block).links = c.links := rfl

theorem Dest.storeSent_links (r : ReadyStore) (x : Dest) : (x.storeSent r).links = x.links := rfl

theorem sendStore_links : SameLinks s (sendStore d s) := by
  unfold sendStore
  split
  · refine ((out_links s _).trans (setChannel_links _ _ _ (Channel.stored_links d _ _))).trans (writeDest_links _ d _ ?_)
    rw [Dest.storeSent_links, setChannel_dests]
  · exact .refl s

theorem drainingAnswer_keepsClear : KeepsClear s (drainingAnswer d s) := by
  unfold drainingAnswer
  split
  · exact fun hs => afterEvent_clearanceOk _ (drainEnded_clearanceOk _ d
      ((writeDest_links s d { s.dests[d] with draining := false } rfl).clearanceOk hs))
  · exact .refl s

variable {s d k p} in
/-- R29, R55: a destination that has finished. -/
theorem completeDest_clearanceOk (hs : ClearanceOk s) (hd : s.dests[d].holder = some k)
    (hp : s.channels[p].state = .running) (hk : s.channels[p].clip = some k) (sectors : Nat) :
    ClearanceOk (completeDest d k p sectors s) := by
  obtain ⟨c, hc, cst, -⟩ := hs.2.2.running hp hk
  unfold completeDest
  dsimp only
  rw [modClip_dests, writeDest_channels, modClip_channels]
  generalize hx : ({ s.dests[d] with cursor := s.dests[d].cursor + sectors, holder := none } : Dest) = x
  have hholder : x.holder = none := by rw [← hx]
  have hcontext : x.context = s.dests[d].context := by rw [← hx]
  have hkeeps := ((modClip_keeps s k fun c => { c with copies := c.copies.set d (.written s.dests[d].cursor) }).trans
    (writeDest_keeps _ d x)).trans (setChannel_keeps _ p
      { s.channels[p].without d with finished := (s.channels[p].without d).finished.insert d })
  have leaves : DestLeaves s (setChannel p
      { s.channels[p].without d with finished := (s.channels[p].without d).finished.insert d }
      (writeDest d x (modClip k (fun c => { c with copies := c.copies.set d (.written s.dests[d].cursor) }) s))) p k c d := by
    refine ⟨?_, fun q hq => ?_, fun j hj => ?_,
      ⟨{ c with copies := c.copies.set d (.written s.dests[d].cursor) }, ?_, rfl, cst, fun o => ?_, fun e he => ?_⟩,
      fun e => ?_, fun e => ?_, ?_⟩
    · rw [setChannel_channels, get_set, if_pos rfl]
      exact ⟨hp, hk, rfl⟩
    · rw [setChannel_channels, get_set, if_neg (Ne.symm hq), writeDest_channels, modClip_channels]
    · rw [setChannel_clips, writeDest_clips, modClip_get, if_neg (Ne.symm hj)]
    · rw [setChannel_clips, writeDest_clips, modClip_get, if_pos rfl, hc, Option.map_some]
    · rw [get_set, if_pos rfl]
      exact fun e => nomatch e
    · rw [get_set, if_neg (Ne.symm he)]
    · rw [setChannel_dests, writeDest_dests, get_set, modClip_dests]
      split
      · exact hholder
      · rfl
    · rw [setChannel_dests, writeDest_dests, get_set, modClip_dests]
      split
      · rename_i e
        subst e
        exact hcontext
      · rfl
    · rw [setChannel_cards, writeDest_cards, modClip_cards]
  exact afterEvent_clearanceOk _ (endIfEmpty_clearanceOk _ p ⟨leaves.clearedOk hs.1 hs.2.1 hs.2.2 hc cst,
    hkeeps.tablesOk hs.2.1, leaves.attemptsOk hs.2.2 hp hk hc hd⟩)

variable {s d k} in
theorem storeSucceeded_clearanceOk (hs : ClearanceOk s) (hd : s.dests[d].holder = some k) :
    ClearanceOk (storeSucceeded d k s) := by
  have earned := writeDest_links s d s.dests[d].earned rfl
  have hok := earned.clearanceOk hs
  unfold storeSucceeded
  dsimp only
  split
  · rename_i p c hrun _
    obtain ⟨hp, hk⟩ := runningChannel_some s k hrun
    split
    · exact completeDest_clearanceOk hok ((earned.dest d).1.trans hd) ((earned.channel p).1.trans hp)
        ((earned.channel p).2.1.trans hk) _
    · exact hok
  · exact hok

theorem storeFailed_keepsClear (block : Nat) : KeepsClear s (storeFailed d k block s) := fun hs =>
  afterEvent_clearanceOk _ (endAttemptOf_clearanceOk _ k (leaveAttempt_clearanceOk _ d
    (raise_clearanceOk s _ (clipReport_aimed s k .storeError (some d) block) hs)))

theorem storeDone_keepsClear (b : Rx) : KeepsClear s (storeDone d b s) := by
  intro hs
  unfold storeDone
  split
  · exact hs
  · split
    · exact hs
    · have taken := writeDest_links s d (s.dests[d].storeTaken b.tag) rfl
      have hok := taken.clearanceOk hs
      dsimp only
      split
      · exact drainingAnswer_keepsClear _ d hok
      · split
        · rename_i k hk
          split
          · exact storeSucceeded_clearanceOk hok ((taken.dest d).1.trans hk)
          · exact storeFailed_keepsClear _ d k _ hok
        · exact hok

/-! ## Read-back FETCHes -/

theorem Dest.readSent_links {v : VerifyContext} (t : Try) (x : Dest) (hx : x.context = some v) :
    (x.readSent v t).links = x.links := by
  simp [Dest.links, Dest.readSent, VerifyContext.fetched, hx]

variable {s d} in
theorem readyRead_context {v : VerifyContext} {t : Try} (hr : readyRead s d = some (v, t)) :
    s.dests[d].context = some v := by
  unfold readyRead at hr
  split at hr
  · cases hr
  · rename_i u hu
    split at hr
    · cases hr
    · split at hr
      · obtain ⟨t', -, heq⟩ := Option.map_eq_some_iff.mp hr
        cases heq
        exact hu
      · cases hr

theorem sendVerifyFetch_links : SameLinks s (sendVerifyFetch d s) := by
  unfold sendVerifyFetch
  split
  · exact .refl s
  · rename_i x hx
    exact (out_links s _).trans (writeDest_links _ d _ (Dest.readSent_links _ _ (readyRead_context hx)))

/-- R75: the links do not speak of what a context holds besides its clip and the offset. -/
theorem writeContext_links {v u : VerifyContext} (hv : s.dests[d].context = some v) (hclip : u.clip = v.clip)
    (hoff : u.offset = v.offset) : SameLinks s (writeDest d { s.dests[d] with context := some u } s) :=
  writeDest_links s d _ (by simp only [Dest.links, hv, Option.map_some, hclip, hoff])

theorem readFailed_clearanceOk {v : VerifyContext} (hs : ClearanceOk s) (hv : s.dests[d].context = some v) (t : Try) :
    ClearanceOk (readFailed d v t s) := by
  unfold readFailed
  split
  · exact (writeContext_links s d (u := { v with retries := v.retries ++ [⟨t.block, t.tryNo + 1⟩] }) hv rfl rfl).clearanceOk hs
  · exact endVerify_clearanceOk s d v _ _ hs ⟨v, hv, rfl, rfl⟩ fun _ e => nomatch e

theorem VerifyContext.digestNext_kept (length : Nat) (v : VerifyContext) :
    (v.digestNext length).clip = v.clip ∧ (v.digestNext length).offset = v.offset := by
  unfold VerifyContext.digestNext
  split <;> exact ⟨rfl, rfl⟩

theorem VerifyContext.digestArrived_kept (length : Nat) (v : VerifyContext) :
    (v.digestArrived length).clip = v.clip ∧ (v.digestArrived length).offset = v.offset := by
  obtain ⟨hclip, hoff⟩ := v.digestNext_kept length
  obtain ⟨hclip', hoff'⟩ := (v.digestNext length).digestNext_kept length
  exact ⟨hclip'.trans hclip, hoff'.trans hoff⟩

theorem compareDigest_clearanceOk {v : VerifyContext} (hs : ClearanceOk s) (hv : s.dests[d].context = some v) (c : Clip) :
    ClearanceOk (compareDigest d v c s) := by
  unfold compareDigest
  split
  · exact endVerify_clearanceOk s d v _ _ hs ⟨v, hv, rfl, rfl⟩ fun _ e => nomatch e
  · exact endVerify_clearanceOk s d v _ _ hs ⟨v, hv, rfl, rfl⟩ fun _ e => nomatch e

theorem readArrived_clearanceOk {v : VerifyContext} (hs : ClearanceOk s) (hv : s.dests[d].context = some v) (block : Nat)
    (data : List Byte) : ClearanceOk (readArrived d v block data s) := by
  unfold readArrived
  split
  · exact hs
  · rename_i c _
    have hkept := (v.place block data).digestArrived_kept c.length
    dsimp only
    generalize (v.place block data).digestArrived c.length = u at hkept
    have hok := (writeContext_links s d hv hkept.1 hkept.2).clearanceOk hs
    split
    · refine compareDigest_clearanceOk _ d hok ?_ c
      rw [writeDest_dests, get_set, if_pos rfl]
    · exact hok

theorem verifyBlock_keepsClear (b : Rx) : KeepsClear s (verifyBlock d b s) := by
  intro hs
  unfold verifyBlock
  split
  · exact hs
  · have hok := (writeDest_links s d (s.dests[d].withoutFetch b.tag).answered rfl).clearanceOk hs
    dsimp only
    split
    · rename_i t v _ hv
      have hv' : (writeDest d (s.dests[d].withoutFetch b.tag).answered s).dests[d].context = some v := by
        rw [writeDest_dests, get_set, if_pos rfl]
        exact hv
      split
      · exact readFailed_clearanceOk _ d hok hv' t
      · exact readArrived_clearanceOk _ d hok hv' _ _
    · exact hok

theorem verifyFetchTimeout_keepsClear (tag : Nat) : KeepsClear s (verifyFetchTimeout d tag s) := by
  intro hs
  unfold verifyFetchTimeout
  split
  · exact hs
  · have hok := (writeDest_links s d (s.dests[d].withoutFetch tag).failedRequest rfl).clearanceOk hs
    dsimp only
    split
    · rename_i t v _ hv
      refine readFailed_clearanceOk _ d hok ?_ t
      rw [writeDest_dests, get_set, if_pos rfl]
      exact hv
    · exact hok

theorem portParcelTaken_keepsClear (port : Port) (kind : Nat) (b : Rx) : KeepsClear s (portParcelTaken port kind b s) := by
  unfold portParcelTaken
  split
  · exact sourceBlock_keepsClear s _ b
  · exact verifyBlock_keepsClear s _ b
  · exact storeDone_keepsClear s _ b
  · exact .refl s

/-! ## Station egress, the station link and the timers -/

theorem releaseHeld_keepsClear : KeepsClear s (releaseHeld s) := by
  unfold releaseHeld
  split
  · rename_i a _
    have answered : SameLinks s (queueNotice (.answer a) { s with unit := { s.unit with held := none } }) :=
      .of_eq rfl rfl rfl rfl rfl
    exact answered.keepsClear.trans (keepsClear_station.offerWaiting _)
  · exact .refl s

theorem noticeSent_keepsClear (n : Notice) : KeepsClear s (noticeSent n s) := by
  unfold noticeSent
  split
  · exact releaseHeld_keepsClear s
  · rename_i h _ _
    exact (writeCard_links s h { s.cards[h] with clearedUnsent := false } rfl).keepsClear
  · exact .refl s

/-- R151, R143: a fault or a statistics record that leaves. -/
theorem sendFault_links {t : Part} (ht : sendFault s = some t) : SameLinks s t := by
  unfold sendFault at ht
  split at ht
  · cases ht
    exact .of_eq rfl rfl rfl rfl rfl
  · split at ht <;> cases ht
    exact .of_eq rfl rfl rfl rfl rfl

theorem sendStats_links : SameLinks s ((sendStats s).getD s) := by
  unfold sendStats
  split <;> exact .of_eq rfl rfl rfl rfl rfl

theorem egress_keepsClear : KeepsClear s (egress s) := by
  unfold egress
  split
  · exact .refl s
  · split
    · rename_i n rest _
      have left : SameLinks s (leaves n.parcel { s with notices := rest }) := .of_eq rfl rfl rfl rfl rfl
      exact left.keepsClear.trans (noticeSent_keepsClear _ n)
    · split
      · rename_i ht
        exact (sendFault_links s ht).keepsClear
      · exact (sendStats_links s).keepsClear

theorem stationDown_keepsClear : KeepsClear s (stationDown s) := by
  have down (t : Part) : SameLinks t { t with stationUp := false } := .of_eq rfl rfl rfl rfl rfl
  exact (keepsClear_picture.abandonFrame s).trans (down _).keepsClear

theorem takeEvent_keepsClear (c : Instr) : KeepsClear s (takeEvent c s) := by
  cases c
  case egressSend => exact egress_keepsClear s
  case portForeignParcel port kind b => exact portParcelTaken_keepsClear s port kind b
  case sourceAttach p => exact sourceAttach_keepsClear s p
  case sourceDetach p => exact sourceDetach_keepsClear s p
  case destLinkUp d => exact destLinkUp_keepsClear s d
  case destLinkDown d => exact destLinkDown_keepsClear s d
  case stationLinkDown => exact stationDown_keepsClear s
  case stationLinkUp => exact (SameLinks.of_eq rfl rfl rfl rfl rfl).keepsClear
  case sendFetch p => exact (sendFetch_links s p).keepsClear
  case sourceBlock p b => exact sourceBlock_keepsClear s p b
  case fetchTimeout p tag => exact fetchTimeout_keepsClear s p tag
  case sendStore d => exact (sendStore_links s d).keepsClear
  case storeDone d b => exact storeDone_keepsClear s d b
  case stallTimeout d => exact stallTimeout_keepsClear s d
  case sendVerifyFetch d => exact (sendVerifyFetch_links s d).keepsClear
  case verifyBlock d b => exact verifyBlock_keepsClear s d b
  case verifyFetchTimeout d tag => exact verifyFetchTimeout_keepsClear s d tag
  all_goals exact .refl s

/-- R33, R49, R73: a millisecond counts timers alone. -/
theorem passMillisecond_links : SameLinks s (passMillisecond s) where
  cards _ := rfl
  clips _ := rfl
  ports := rfl
  channels q := by
    dsimp only [passMillisecond]
    rw [mapEach_get]
    rfl
  dests e := by
    dsimp only [passMillisecond]
    rw [mapEach_get]
    rfl

/-! ## The full reset -/

/-- R187: the tables of a part without cards, clips or bindings and with nothing in progress. -/
theorem clearanceOk_of_blank (hcards : ∀ g : CardId, s.cards[g] = Card.blank 0) (hclips : ∀ j : ClipId, s.clips[j] = none)
    (hports : ∀ q : PortId, s.ports[q].binding = none) (hchannels : ∀ q : PortId, s.channels[q] = Channel.idle 0)
    (hdests : ∀ e : DestId, s.dests[e].holder = none ∧ s.dests[e].context = none) : ClearanceOk s := by
  refine ⟨fun g hg => ?_, ⟨fun g j => ?_, fun g _ => ?_, fun q g => ?_, fun q hq => ?_⟩,
    fun q _ => ?_, fun q hq => ?_, fun j c hc => ?_, fun e j he => ?_, fun e j o => ?_⟩
  · rw [hcards] at hg
    cases hg
  · rw [hcards, hclips]
    simp [Card.blank]
  · rw [hcards]
    exact ⟨rfl, rfl⟩
  · rw [hports, hcards]
    simp [Card.blank]
  · rw [hports] at hq
    cases hq
  · rw [hchannels]
    rfl
  · rw [hchannels] at hq
    cases hq
  · rw [hclips] at hc
    cases hc
  · rw [(hdests e).1] at he
    cases he
  · rw [hclips, (hdests e).2]
    simp only [reduceCtorEq, false_and, exists_false]

theorem resetEnds_keepsClear (src : BitVec 2) (dst : BitVec 3) (present : BitVec 4) (up : BitVec 6) (station : Bool) :
    KeepsClear s (resetEnds src dst present up station s) := by
  unfold resetEnds
  split
  · refine fun _ => clearanceOk_of_blank _ (fun g => ?_) (fun j => ?_) (fun q => ?_) (fun q => ?_) fun e => ?_
    · simp [Part.afterReset]
    · simp [Part.afterReset]
    · simp [Part.afterReset, portsAfterReset]
    · simp [Part.afterReset]
    · simp [Part.afterReset, destsAfterReset, Dest.blank]
  · exact .refl s

/-! ## The step -/

theorem step_keepsClear {m t : State} (hstep : step m = .next t) : KeepsClear m.part t.part := by
  unfold step at hstep
  split at hstep
  · cases hstep
    unfold tick
    split
    · exact .refl _
    · exact (passMillisecond_links m.part).keepsClear
  · rename_i c rest _
    rcases exec_cases hstep with ht | ht | ⟨cause, ht⟩ | ⟨src, dst, present, up, station, -, ht⟩ <;> rw [ht]
    · exact keepsClear_station.ingress c m.part
    · unfold unlessReset
      split
      · exact .refl _
      · exact takeEvent_keepsClear m.part c
    · exact keepsClear_unit.hold cause m.part
    · exact resetEnds_keepsClear m.part src dst present up station

end Sys2Proof.Machine

namespace Sys2Proof.Proofs
open Machine

/-- Settles O57: each effect of a command keeps the links that R164 leans on (`KeepsClear`), and so does every step. -/
theorem clearedKept : Obligations.ClearedKept := fun _ _ hs hstep => step_keepsClear hstep hs

end Sys2Proof.Proofs
end

