-- ==== Sys2Proof/Proofs/Answering.lean ====
section
/-! PROOF. How a directive that is taken is answered (R173, R178 to R180): once for every directive, from what its owner does. -/

namespace Sys2Proof.Machine

variable {s : State} {c : Instr} {tag code : Nat} {both : Bool} {owner : Part → Part × Reply} {p : Part}

/-- R179: the outcome of a directive the unit takes is its owner's effect, with its answer placed. -/
theorem answers_of {result : Result} {data : AnswerData}
    (hexec : exec c s = .next (s.onPart (ingress c (directive tag code both owner)))) (hs : s.listens)
    (hlock : s.part.unit.status.locked = false ∨ both = true) (howner : owner s.part = (p, ⟨result, data⟩)) :
    Answers c s ⟨tag, code, result, data⟩ p := by
  unfold Answers
  rw [hexec, State.onPart, ingress_listens _ _ _ hs.1 hs.2, directive_taken _ _ _ _ _ hlock, howner]
  rfl

/-- R179: a directive its owner refuses. -/
theorem refuses_of {r : Reason} (hexec : exec c s = .next (s.onPart (ingress c (directive tag code both owner))))
    (hs : s.listens) (hlock : s.part.unit.status.locked = false ∨ both = true)
    (howner : owner s.part = (s.part, .refuse r)) : Refuses c s tag code r :=
  answers_of hexec hs hlock howner

/-- A directive whose item count is in range. -/
theorem execCounted {bad : Prop} [Decidable bad] {f g : Part → Part} (hbad : ¬ bad)
    (hexec : exec c s = .next (s.onPart (ingress c (if bad then f else g)))) :
    exec c s = .next (s.onPart (ingress c g)) := by
  rw [hexec, if_neg hbad]

end Sys2Proof.Machine
end

