-- ==== Sys2Proof/Proofs/Queries.lean ====
section
/-! PROOF. The queries (R18, R19, R43, R183). -/

namespace Sys2Proof.Machine

variable (s : Part)

theorem asClip_val (k : ClipId) : asClip k.val = some k := by simp [asClip]

theorem asDest_val (d : DestId) (hd : d.val < s.reset.dests) : asDest s d.val = some d := by simp [asDest, hd]

theorem asPort_val (p : PortId) (hp : p.val < s.reset.sources) : asPort s p.val = some p := by simp [asPort, hp]

variable {s} {h : CardId} {target : Nat}

/-- A handle of a card in use. -/
theorem usedCard_of_inUse (ht : h.val = target) (hst : s.cards[h].state ≠ .free) : usedCard s target = some h := by
  rw [usedCard_eq s h ht, if_neg hst]

/-- R11: a handle above 7, or of a free card. -/
theorem usedCard_of_free (hf : 8 ≤ target ∨ ∃ h : CardId, h.val = target ∧ s.cards[h].state = .free) :
    usedCard s target = none := by
  rcases hf with hf | ⟨h, ht, hst⟩
  · simp [usedCard, asCard, not_lt.mpr hf]
  · rw [usedCard_eq s h ht, if_pos hst]

theorem queryCard_used (hu : usedCard s target = some h) :
    queryCard target s = (s, .taken false (.cardRecord h s.cards[h] (cardCounts s h))) := by
  rw [queryCard, hu]

theorem queryClip_used {k : ClipId} {c : Clip} (ht : k.val = target) (hc : s.clips[k] = some c) :
    queryClip target s = (s, .taken false (.clipRecord k c s.cards[c.card].generation)) := by
  subst ht
  simp [queryClip, queryClip.openedRecord, asClip_val, hc]

theorem queryDest_fitted {d : DestId} (ht : d.val = target) (hd : target < s.reset.dests) :
    queryDest target s = (s, .taken false (.destRecord (destReport s.dests[d] s.grantPointer))) := by
  subst ht
  rw [queryDest, asDest_val s d hd]

end Sys2Proof.Machine

namespace Sys2Proof.Proofs
open Machine

/-- Settles O17: each query's owner changes nothing and answers the record (`queryCard_used`, `queryClip_used`,
`queryDest_fitted`). -/
theorem queries : Obligations.Queries := by
  intro s tag hs
  refine ⟨fun card h ht hst => ?_, fun clip k c ht hc => ?_, fun port d ht hd => ?_, ?_⟩
  · exact answers_of rfl hs (.inr rfl) (queryCard_used (usedCard_of_inUse ht hst))
  · exact answers_of rfl hs (.inr rfl) (queryClip_used ht hc)
  · exact answers_of rfl hs (.inr rfl) (queryDest_fitted ht hd)
  · have hheld : s.part.unit.held.isSome = false := by rw [hs.2]; rfl
    refine answers_of rfl hs (.inr rfl) ?_
    rw [queryPart, partReport, hheld]
    rfl

end Sys2Proof.Proofs
end

