-- ==== Sys2Proof/Proofs/FullReset.lean ====
section
/-! PROOF. The values a full reset leaves (R187). -/

namespace Sys2Proof.Machine

/-- R187: the end of a full reset, the part being held in one. -/
theorem resetEnds_held {s : Part} {cause : ResetCause} (hc : s.reset.holding = some cause) (src : BitVec 2) (dst : BitVec 3)
    (present : BitVec 4) (up : BitVec 6) (station : Bool) :
    resetEnds src dst present up station s =
      { Part.afterReset cause src dst present up station with out := s.out, freeCount := s.freeCount } := by
  rw [resetEnds, hc]

theorem identityCurve_get (i : Fin 257) : Bank.identityCurve[i] = if i.val = 256 then 65535 else 256 * i.val :=
  tabulate_get _ i

theorem identityLattice_get (b g r : Fin 17) : Bank.identity.lattice[b][g][r] =
    ⟨Bank.identityLevel r, Bank.identityLevel g, Bank.identityLevel b⟩ := by
  simp [Bank.identity]

end Sys2Proof.Machine

namespace Sys2Proof.Proofs
open Machine

/-- Settles O11: the tables of `Part.afterReset` read entry by entry. -/
theorem resetEnds : Obligations.ResetEnds := by
  intro s cause src dst present up station hc
  refine ⟨s.onPart (Machine.resetEnds src dst present up station), rfl, rfl, ?_⟩
  rw [State.onPart]
  dsimp only
  rw [resetEnds_held hc]
  refine ⟨rfl, rfl, fun h => ?_, fun k => ?_, fun p => ?_, fun d => ?_, fun p => ?_, fun k => ?_, fun c => ?_, rfl, rfl, rfl,
    rfl, rfl, rfl, rfl, rfl, rfl, rfl, rfl⟩
  · simp [Part.afterReset, Card.blank]
  · simp [Part.afterReset]
  · simp [Part.afterReset, portsAfterReset, fittedSources]
  · simp [Part.afterReset, destsAfterReset, Dest.blank, fittedDests]
  · simp [Part.afterReset, Channel.Idles, Channel.idle]
  · have hslot : (Part.afterReset cause src dst present up station).looks[k] = LookSlot.initial := by
      simp [Part.afterReset]
    dsimp only
    rw [hslot]
    exact ⟨rfl, rfl, rfl, rfl, rfl, rfl, fun i => ⟨identityCurve_get i, identityCurve_get i, identityCurve_get i⟩,
      identityLattice_get⟩
  · simp [Part.afterReset, Profile.default]

end Sys2Proof.Proofs
end

