-- ==== Sys2Proof/Proofs/CardDirectives.lean ====
section
/-! PROOF. MOUNT, LIST-CLIPS, DISMOUNT and RETIRE (R8 to R15): what each writes when it is taken. -/

namespace Sys2Proof.Machine

variable (s : Part) (h : CardId) (d : DestId) (k : ClipId) (p : PortId)

/-! ## Written cards -/

theorem writeCard_self : writeCard h s.cards[h] s = s := by
  rw [writeCard, if_pos ⟨rfl, rfl⟩]
  simp

variable {s h} in
/-- R2: a card in use whose state or source changes. -/
theorem writeCard_changed {c : Card} (hchange : s.cards[h].state ≠ c.state ∨ s.cards[h].source ≠ c.source)
    (hst : c.state = .free → s.cards[h].label = c.label) :
    writeCard h c s = queueNotice (.cardState h c.label c.state c.source) { s with cards := s.cards.set h c } := by
  have hlabel : (if c.state = .free then s.cards[h].label else c.label) = c.label := by
    split
    · rename_i e
      exact hst e
    · rfl
  rw [writeCard, if_neg (not_and_or.mpr hchange), hlabel]

/-! ## The searches over the cards (R1, R8) -/

theorem allCards_sorted : allCards.Pairwise (· < ·) := by decide

variable {h} in
/-- The first card in handle order that passes a test. -/
theorem find_allCards {f : CardId → Bool} (hf : f h = true) (hfirst : ∀ g : CardId, g < h → f g = false) :
    allCards.find? f = some h := by
  cases hfind : allCards.find? f with
  | none => exact absurd hf (List.find?_eq_none.mp hfind h (mem_allCards h))
  | some g =>
    obtain ⟨hg, before, after, hsplit, hbefore⟩ := List.find?_eq_some_iff_append.mp hfind
    have hsorted := allCards_sorted
    have hmem := mem_allCards h
    rw [hsplit] at hsorted hmem
    rcases List.mem_append.mp hmem with hm | hm
    · simpa [hf] using hbefore h hm
    · rcases List.mem_cons.mp hm with rfl | hm
      · rfl
      · have hlt := (List.pairwise_cons.mp (List.pairwise_append.mp hsorted).2.1).1 h hm
        rw [hfirst g hlt] at hg
        cases hg

theorem cardLabelled_none {label : List Byte}
    (hl : ∀ g : CardId, s.cards[g].state ≠ .free → s.cards[g].label ≠ label) : cardLabelled s label = none := by
  refine List.find?_eq_none.mpr fun g _ hg => ?_
  simp only [Bool.and_eq_true, bne_iff_ne, beq_iff_eq] at hg
  exact hl g hg.1 hg.2

variable {s h} in
theorem cardLabelled_first {label : List Byte} (hst : s.cards[h].state ≠ .free) (hl : s.cards[h].label = label)
    (hfirst : ∀ g : CardId, g < h → s.cards[g].state ≠ .free → s.cards[g].label ≠ label) :
    cardLabelled s label = some h := by
  refine find_allCards (by simpa using ⟨hst, hl⟩) fun g hg => ?_
  simpa using hfirst g hg

theorem freeCard_none (hf : ∀ g : CardId, s.cards[g].state ≠ .free) : freeCard s = none := by
  refine List.find?_eq_none.mpr fun g _ hg => hf g ?_
  simpa using hg

variable {s h} in
theorem freeCard_first (hst : s.cards[h].state = .free) (hfirst : ∀ g : CardId, g < h → s.cards[g].state ≠ .free) :
    freeCard s = some h :=
  find_allCards (by simpa using hst) fun g hg => by simpa using hfirst g hg

/-! ## MOUNT (R8) -/

theorem asPort_none {port : Nat} (hp : 4 ≤ port ∨ s.reset.sources ≤ port) : asPort s port = none := by
  unfold asPort
  split
  · split
    · omega
    · rfl
  · rfl

variable {label : List Byte} {copies review mode : Nat}

theorem mount_noPort {port : Nat} (hp : 4 ≤ port ∨ s.reset.sources ≤ port) :
    mount port label copies review mode s = (s, .refuse .noPort) := by
  rw [mount, asPort_none s hp]

section Fitted

variable {s p} (hp : p.val < s.reset.sources)
include hp

theorem mount_portTaken (hx : s.ports[p].attached = false ∨ s.ports[p].binding.isSome = true) :
    mount p.val label copies review mode s = (s, .refuse .sourceConflict) := by
  rw [mount, asPort_val s p hp]
  exact if_pos hx

variable (hx : s.ports[p] = ⟨true, none⟩)
include hx

theorem mount_unbound : mount p.val label copies review mode s =
    match cardLabelled s label with
    | some h =>
      if s.cards[h].source.isSome then (s, .refuse .sourceConflict)
      else if s.cards[h].state.reattaches then (reattach h p s, .taken false (.mounted h s.cards[h].state))
      else (s, .refuse .wrongState)
    | none =>
      match freeCard s with
      | none => (s, .refuse .tableFull)
      | some h =>
        (createCard h p label copies review mode s, .taken (mountAdjusted copies mode) (.mounted h .mounted)) := by
  have hfree : ¬(s.ports[p].attached = false ∨ s.ports[p].binding.isSome = true) := by simp [hx]
  rw [mount, asPort_val s p hp]
  exact if_neg hfree

theorem mount_tableFull (hfree : ∀ g : CardId, s.cards[g].state ≠ .free) (hl : ∀ g : CardId, s.cards[g].label ≠ label) :
    mount p.val label copies review mode s = (s, .refuse .tableFull) := by
  rw [mount_unbound hp hx, cardLabelled_none s fun g _ => hl g, freeCard_none s hfree]

theorem mount_labelTaken (hl : cardLabelled s label = some h) (hso : s.cards[h].source.isSome = true) :
    mount p.val label copies review mode s = (s, .refuse .sourceConflict) := by
  rw [mount_unbound hp hx, hl]
  exact if_pos hso

theorem mount_labelRefused (hl : cardLabelled s label = some h) (hso : s.cards[h].source = none)
    (hst : s.cards[h].state.reattaches = false) :
    mount p.val label copies review mode s = (s, .refuse .wrongState) := by
  rw [mount_unbound hp hx, hl]
  dsimp only
  rw [hso, hst]
  rfl

theorem mount_reattaches (hl : cardLabelled s label = some h) (hso : s.cards[h].source = none)
    (hst : s.cards[h].state.reattaches = true) :
    mount p.val label copies review mode s = (reattach h p s, .taken false (.mounted h s.cards[h].state)) := by
  rw [mount_unbound hp hx, hl]
  dsimp only
  rw [hso, hst]
  rfl

theorem mount_creates (hl : ∀ g : CardId, s.cards[g].state ≠ .free → s.cards[g].label ≠ label)
    (hf : freeCard s = some h) : mount p.val label copies review mode s =
      (createCard h p label copies review mode s, .taken (mountAdjusted copies mode) (.mounted h .mounted)) := by
  rw [mount_unbound hp hx, cardLabelled_none s hl, hf]

end Fitted

variable {s h p} in
/-- R9: the card as it is re-attached. -/
theorem reattach_eq (hx : s.ports[p] = ⟨true, none⟩) (hl : s.cards[h].label = label) (hso : s.cards[h].source = none) :
    reattach h p s = queueNotice (.cardState h label s.cards[h].state (some p))
      { s with cards := s.cards.set h { s.cards[h] with source := some p }, ports := s.ports.set p ⟨true, some h⟩ } := by
  have hport : { s.ports[p] with binding := some h } = (⟨true, some h⟩ : SourcePort) := by rw [hx]
  subst hl
  unfold reattach
  rw [hport]
  refine (writeCard_changed (.inr ?_) ?_).trans ?_
  · rw [setPort_cards, hso]
    exact fun e => nomatch e
  · exact fun _ => rfl
  · rfl

variable {s h p} in
/-- R1, R8: the card as it is created. -/
theorem createCard_eq (hx : s.ports[p] = ⟨true, none⟩) (hst : s.cards[h].state = .free) :
    createCard h p label copies review mode s = queueNotice (.cardState h label .mounted (some p))
      { s with
        cards := s.cards.set h (newCard s.cards[h].generation p label copies review mode)
        ports := s.ports.set p ⟨true, some h⟩ } := by
  have hport : { s.ports[p] with binding := some h } = (⟨true, some h⟩ : SourcePort) := by rw [hx]
  unfold createCard
  rw [hport]
  refine (writeCard_changed (.inl ?_) ?_).trans ?_
  · rw [setPort_cards, hst]
    exact fun e => nomatch e
  · exact fun e => nomatch e
  · rfl

theorem mountAdjusted_iff : mountAdjusted copies mode = decide (copies = 0 ∨ 4 < copies ∨ 1 < mode) := by
  rw [Bool.eq_iff_iff]
  simp only [mountAdjusted, adjustCopies, clampNat, Bool.or_eq_true, bne_iff_ne, decide_eq_true_eq]
  split
  · omega
  · split <;> omega

theorem adjustCopies_eq : adjustCopies copies = if copies = 0 then 1 else if 4 < copies then 4 else copies := by
  rw [adjustCopies, clampNat]
  simp only [Nat.lt_one_iff]

end Sys2Proof.Machine

namespace Sys2Proof.Proofs
open Machine

/-- Settles O13: the checks in their order (`mount_noPort` to `mount_creates`), and what creating and re-attaching write
(`createCard_eq`, `reattach_eq`). -/
theorem mount : Obligations.Mount := by
  intro s tag port label copies review mode hs
  have refuses {r : Reason} (ho : Machine.mount port label copies review mode s.part = (s.part, .refuse r)) :
      Refuses (.mount tag port label copies review mode) s tag 0x10 r := refuses_of rfl hs.1 (.inl hs.2) ho
  refine ⟨fun hp => refuses (mount_noPort s.part hp), ?_⟩
  rintro p rfl hp
  refine ⟨fun hx => refuses (mount_portTaken hp hx), fun h hx => ⟨fun hf hl => refuses (mount_tableFull hp hx hf hl),
    fun hst hl hfirst => ?_, fun hl hst hfirst => ?_⟩⟩
  · have hlabel := cardLabelled_first hst hl hfirst
    refine ⟨fun hso => refuses (mount_labelTaken h hp hx hlabel hso), fun hso hnot => ?_, fun hso hre => ?_⟩
    · refine refuses (mount_labelRefused h hp hx hlabel hso ?_)
      generalize s.part.cards[h].state = st at hnot
      cases st <;> simp_all [CardState.reattaches]
    · have hreattaches : s.part.cards[h].state.reattaches = true := by
        rcases hre with e | e | e <;> rw [e] <;> rfl
      rw [← reattach_eq hx hl hso]
      exact answers_of rfl hs.1 (.inl hs.2) (mount_reattaches h hp hx hlabel hso hreattaches)
  · have hcreated := mount_creates (copies := copies) (review := review) (mode := mode) h hp hx hl
      (freeCard_first hst hfirst)
    rw [createCard_eq hx hst, mountAdjusted_iff, newCard, adjustCopies_eq] at hcreated
    refine answers_of rfl hs.1 (.inl hs.2) (hcreated.trans ?_)
    simp only [Reply.taken, decide_eq_true_eq, Card.blank, suspendModeOf]

end Sys2Proof.Proofs

namespace Sys2Proof.Machine

variable (s : Part) (h : CardId) (d : DestId) (k : ClipId) (p : PortId)

/-! ## LIST-CLIPS (R11 to R13) -/

variable {s h} {card : Nat} {items : List ClipItem}

theorem CardState.lists_iff (st : CardState) : st.lists = true ↔ st = .mounted ∨ st = .suspended ∨ st = .copying := by
  cases st <;> simp [CardState.lists]

/-- R11: LIST-CLIPS taken. -/
theorem listClips_taken (hu : usedCard s card = some h) (hst : s.cards[h].state.lists = true)
    (hlen : items.length ≤ (freeClips s).length) : listClips card items s =
      (if s.cards[h].state = .copying then afterEvent (appendClips h items s) else appendClips h items s,
        .taken (items.any clipItemAdjusted) (.handles (assignedHandles s items))) := by
  have hst' : ¬ s.cards[h].state.lists = false := by rw [hst]; decide
  rw [listClips, hu]
  dsimp only
  rw [if_neg hst', if_neg (not_lt.mpr hlen)]

theorem assignedHandles_sorted : (assignedHandles s items).Pairwise (· < ·) :=
  (freeClips_sorted s).sublist (List.take_sublist _ _)

/-- R3: a free handle below an assigned one is assigned. -/
theorem assignedHandles_lowest {j k : ClipId} (hj : s.clips[j] = none) (hk : k ∈ assignedHandles s items) (hlt : j < k) :
    j ∈ assignedHandles s items := by
  have hsorted := freeClips_sorted s
  have hmem := (mem_freeClips s j).mpr hj
  rw [← List.take_append_drop items.length (freeClips s)] at hsorted hmem
  rcases List.mem_append.mp hmem with hm | hm
  · exact hm
  · exact absurd hlt ((List.pairwise_append.mp hsorted).2.2 k hk j hm).asymm

/-- R13: a well-formed item is adjusted to a byte at least and to sectors below 2^40. -/
theorem clipOfItem_inRange {x : ClipItem} (hx : x.wf = true) : 1 ≤ (clipOfItem h x).length
    ∧ (clipOfItem h x).start + 8 * (((clipOfItem h x).length + 4095) / 4096) ≤ 2 ^ 40 := by
  have hlen : x.length < 2 ^ 40 ∧ x.start < 2 ^ 40 := by
    simp only [ClipItem.wf, fits, Bool.and_eq_true, decide_eq_true_eq] at hx
    omega
  have hl : 1 ≤ adjustLength x.length ∧ adjustLength x.length ≤ 2 ^ 40 := by
    unfold adjustLength
    split <;> omega
  have hsectors : sectorsOf (adjustLength x.length) = 8 * ((adjustLength x.length + 4095) / 4096) := rfl
  refine ⟨hl.1, ?_⟩
  simp only [clipOfItem, adjustStart, hsectors]
  generalize adjustLength x.length = n at hl
  split <;> omega

end Sys2Proof.Machine

namespace Sys2Proof.Proofs
open Machine

/-- Settles O14: the items take the lowest free handles (`assignedHandles`), and what LIST-CLIPS writes is `appendClips`. -/
theorem listClips : Obligations.ListClips := by
  refine ⟨?_, fun _ _ hx => clipOfItem_inRange hx⟩
  intro s tag card items h hs ht hst hmin hmax hlen
  have hlists := (CardState.lists_iff _).mpr hst
  have hused : usedCard s.part card = some h := usedCard_of_inUse ht (by rcases hst with e | e | e <;> rw [e] <;> decide)
  have hcount : ¬(items.length = 0 ∨ 512 < items.length) := by omega
  refine ⟨assignedHandles s.part items, appendClips h items s.part,
    answers_of (execCounted hcount rfl) hs.1 (.inl hs.2) (listClips_taken hused hlists hlen),
    assignedHandles_length hlen, assignedHandles_sorted, fun k hk => mem_assignedHandles _ k hk,
    fun j hj ⟨k, hk, hlt⟩ => assignedHandles_lowest hj hk hlt, ?_, ?_, (appendClips_clips hlen).1, (appendClips_clips hlen).2⟩
  · rw [appendClips_eq]
  · rw [appendClips_eq]

end Sys2Proof.Proofs

namespace Sys2Proof.Machine

variable (s : Part) (h : CardId) (d : DestId) (k : ClipId) (p : PortId)

/-! ## The release of a card (R10) -/

/-- A clip in a destination's verify queue or in its context. -/
def Dest.names (x : Dest) (k : ClipId) : Prop := k ∈ x.queue ∨ ∃ v, x.context = some v ∧ v.clip = k

/-- From `s` to `t` verifies may have started: no card has changed, no clip record has come into use, and no destination names
another clip. -/
structure VerifiesStart (s t : Part) : Prop where
  cards : t.cards = s.cards
  unused : ∀ k : ClipId, s.clips[k] = none → t.clips[k] = none
  named : ∀ (d : DestId) (k : ClipId), t.dests[d].names k → s.dests[d].names k

theorem VerifiesStart.refl (s : Part) : VerifiesStart s s := ⟨rfl, fun _ => id, fun _ _ => id⟩

theorem VerifiesStart.trans {s t u : Part} (a : VerifiesStart s t) (b : VerifiesStart t u) : VerifiesStart s u :=
  ⟨b.cards.trans a.cards, fun k hk => b.unused k (a.unused k hk), fun d k hk => a.named d k (b.named d k hk)⟩

/-- R72: a verify that starts takes its clip from the head of the queue. -/
theorem startVerify_starts : VerifiesStart s (startVerify s d) := by
  unfold startVerify
  split
  · split
    · exact .refl s
    · rename_i k rest hqueue
      split
      · exact .refl s
      · split
        · refine ⟨by rw [writeDest_cards, modClip_cards], fun j hj => ?_, fun e j hj => ?_⟩
          · rw [writeDest_clips, modClip_get]
            split
            · rename_i hkj
              subst hkj
              rw [hj]
              rfl
            · exact hj
          · rw [writeDest_dests, get_set, modClip_dests] at hj
            split at hj
            · rename_i hde
              subst hde
              refine .inl ?_
              rw [hqueue]
              rcases hj with hj | ⟨v, hv, rfl⟩
              · exact List.mem_cons_of_mem k hj
              · cases hv
                exact List.mem_cons_self
            · exact hj
        · exact .refl s
  · exact .refl s

theorem startVerifies_starts : VerifiesStart s (startVerifies s) := by
  unfold startVerifies
  generalize allDests = l
  induction l generalizing s with
  | nil => exact .refl s
  | cons d rest ih => exact (startVerify_starts s d).trans (ih _)

theorem Dest.forget_names (ks : List ClipId) (x : Dest) (hk : (x.forget ks).names k) : k ∉ ks := by
  rcases hk with hk | ⟨v, hv, rfl⟩
  · rw [Dest.forget_kept] at hk
    simpa using (List.mem_filter.mp hk).2
  · exact ((Dest.forget_verifies ks x v.clip v.offset).mp ⟨v, hv, rfl, rfl⟩).2

theorem released_checkedClip : (released h s).checkedClip = s.checkedClip.forget s.cards[h].clips := by
  rw [released, writeCard_checkedClip, unbindPort_eq, freeClipRecords_frame]

theorem released_frame : (released h s).frame = s.frame.map (OpenFrame.forget s.cards[h].clips) := by
  rw [released, writeCard_frame, unbindPort_eq, freeClipRecords_frame]

theorem CheckedClip.forget_ne (ks : List ClipId) (x : CheckedClip) (hk : k ∈ ks) : x.forget ks ≠ .clip k := by
  unfold CheckedClip.forget
  split
  · split
    · exact fun e => nomatch e
    · rename_i hnot
      rintro ⟨⟩
      exact hnot (by simpa using hk)
  · rename_i hnot
    exact fun e => hnot k e

theorem OpenFrame.forget_ne (ks : List ClipId) (f : OpenFrame) (hk : k ∈ ks) : (f.forget ks).clip ≠ some k := by
  unfold OpenFrame.forget
  split
  · split
    · exact fun e => nomatch e
    · rename_i hf hnot
      rw [hf]
      rintro ⟨⟩
      exact hnot (by simpa using hk)
  · rename_i hf
    rw [hf]
    exact fun e => nomatch e

/-- R10 steps 1 to 3: a clip of the released card is nowhere. -/
theorem release_forgets (hk : k ∈ s.cards[h].clips) :
    (release h s).clips[k] = none ∧ (release h s).checkedClip ≠ .clip k
      ∧ (∀ d : DestId, k ∉ (release h s).dests[d].queue
          ∧ ∀ v, (release h s).dests[d].context = some v → v.clip ≠ k)
      ∧ ∀ f, (release h s).frame = some f → f.clip ≠ some k := by
  have hstarts := startVerifies_starts (released h s)
  obtain ⟨-, -, hframe, -, -, -, -, -, hchecked, -⟩ := (startVerifies_engine (released h s)).fields
  have hnames (d : DestId) : ¬(release h s).dests[d].names k := fun hn => by
    have hforget := hstarts.named d k hn
    rw [released_dests] at hforget
    exact Dest.forget_names k _ _ hforget hk
  rw [release_eq] at hnames ⊢
  refine ⟨hstarts.unused k ?_, ?_, fun d => ⟨fun hq => hnames d (.inl hq), fun v hv e => hnames d (.inr ⟨v, hv, e⟩)⟩,
    fun f hf => ?_⟩
  · rw [released_clips, if_pos hk]
  · rw [hchecked, released_checkedClip]
    exact CheckedClip.forget_ne k _ _ hk
  · rw [hframe, released_frame] at hf
    obtain ⟨g, -, rfl⟩ := Option.map_eq_some_iff.mp hf
    exact OpenFrame.forget_ne k _ g hk

/-- R10 steps 4 and 5: the port and the record of a released card. -/
theorem release_card : (release h s).cards = s.cards.set h (Card.blank s.cards[h].generation)
    ∧ ∀ p : PortId, (release h s).ports[p] =
        if s.cards[h].source = some p then ⟨s.ports[p].attached, none⟩ else s.ports[p] := by
  rw [release_eq, (startVerifies_starts _).cards, released_cards, (startVerifies_engine _).fields.2.1]
  exact ⟨rfl, released_ports s h⟩

/-! ## DISMOUNT and RETIRE (R14, R15) -/

variable {s h p} {card : Nat}

theorem dismount_mounted (hu : usedCard s card = some h) (hst : s.cards[h].state = .mounted) :
    dismount card s = (release h s, .done) := by
  rw [dismount, hu]
  dsimp only
  rw [hst]

theorem dismount_settled (hu : usedCard s card = some h) (hst : s.cards[h].state = .copied ∨ s.cards[h].state = .held
      ∨ s.cards[h].state = .halted ∨ s.cards[h].state = .cleared) :
    dismount card s = (loseSource h (unbindPort s.cards[h].source s), .done) := by
  rw [dismount, hu]
  dsimp only
  rcases hst with e | e | e | e <;> rw [e]

/-- R14: the card and the port of a source that is taken. -/
theorem loseSource_unbound (hso : s.cards[h].source = some p) :
    loseSource h (unbindPort s.cards[h].source s) =
      queueNotice (.cardState h s.cards[h].label s.cards[h].state none)
        { s with
          cards := s.cards.set h { s.cards[h] with source := none }
          ports := s.ports.set p ⟨s.ports[p].attached, none⟩ } := by
  rw [hso]
  unfold loseSource
  refine (writeCard_changed (.inr ?_) ?_).trans ?_
  · rw [unbindPort, setPort_cards, hso]
    exact fun e => nomatch e
  · exact fun _ => rfl
  · rfl

theorem loseSource_none (hso : s.cards[h].source = none) : loseSource h (unbindPort s.cards[h].source s) = s := by
  have hsame : { s.cards[h] with source := none } = s.cards[h] := by rw [← hso]
  rw [hso, unbindPort, loseSource, hsame, writeCard_self]

theorem frameRefersTo_iff : frameRefersTo s h = true
    ↔ ∃ (f : OpenFrame) (k : ClipId), s.frame = some f ∧ f.clip = some k ∧ k ∈ s.cards[h].clips := by
  unfold frameRefersTo
  split
  · rename_i f hf
    split
    · rename_i k hk
      simp [hf, hk]
    · rename_i hk
      simp [hf, hk]
  · rename_i hf
    simp [hf]

theorem CardState.isCopying_iff (st : CardState) :
    st.isCopying = true ↔ st = .copying ∨ st = .suspending ∨ st = .suspended := by
  cases st <;> simp [CardState.isCopying]

/-- R15: RETIRE taken. -/
theorem retire_taken (hu : usedCard s card = some h) (hst : s.cards[h].state.isCopying = false)
    (hframe : frameRefersTo s h = false) (hsent : s.cards[h].clearedUnsent = false) :
    retire card s = (release h s, .done) := by
  rw [retire, hu]
  dsimp only
  rw [hst, hframe, hsent]
  rfl

end Sys2Proof.Machine

namespace Sys2Proof.Proofs
open Machine

/-- Settles O16: `release_forgets` and `release_card` say what a release does, `dismount_mounted`, `dismount_settled` and
`retire_taken` when it is done. -/
theorem dismountAndRetire : Obligations.DismountAndRetire := by
  refine ⟨release_forgets, release_card, ?_⟩
  intro s tag card h hs ht
  have used (hst : s.part.cards[h].state ≠ .free) : usedCard s.part card = some h := usedCard_of_inUse ht hst
  refine ⟨fun hst => ?_, fun hst => ?_, fun hst hsent hframe => ?_⟩
  · exact answers_of rfl hs.1 (.inl hs.2) (dismount_mounted (used (by rw [hst]; decide)) hst)
  · have hu := used (by rcases hst with e | e | e | e <;> rw [e] <;> decide)
    refine ⟨fun p hso => ?_, fun hso => ?_⟩
    · rw [← loseSource_unbound hso]
      exact answers_of rfl hs.1 (.inl hs.2) (dismount_settled hu hst)
    · refine answers_of rfl hs.1 (.inl hs.2) ((dismount_settled hu hst).trans ?_)
      rw [loseSource_none hso]
      rfl
  · have hu := used (by rcases hst with e | e | e | e | e <;> rw [e] <;> decide)
    refine answers_of rfl hs.1 (.inl hs.2) (retire_taken hu ?_ ?_ hsent)
    · rcases hst with e | e | e | e | e <;> rw [e] <;> rfl
    · rw [← Bool.not_eq_true, frameRefersTo_iff]
      rintro ⟨f, k, hf, hk, hmem⟩
      exact hframe f k hf hk hmem

end Sys2Proof.Proofs
end

