-- ==== Sys2Proof/Proofs/Refusals.lean ====
section
/-! PROOF. The refusals of the directives on cards and clips (R11, R14, R15, R18, R19, R61 to R63, R66, R67, R69, R156): each is
a check of the directive's owner, which then changes nothing. -/

namespace Sys2Proof.Machine

variable {s : Part} {h : CardId} {card clip generation : Nat} {items : List ClipItem} {ports : List Nat}

/-! ## NOT_FOUND -/

/-- R19: a handle above 511, or of a free clip record. -/
theorem queryClip_notFound (hf : 512 ≤ clip ∨ ∃ k : ClipId, k.val = clip ∧ s.clips[k] = none) :
    queryClip clip s = (s, .refuse .notFound) := by
  have hnone : queryClip.openedRecord s clip = none := by
    rcases hf with hf | ⟨k, rfl, hk⟩
    · simp [queryClip.openedRecord, asClip, not_lt.mpr hf]
    · rw [queryClip.openedRecord, asClip_val]
      dsimp only
      rw [hk, Option.map_none]
  rw [queryClip, hnone]

section NotFound

variable (hu : usedCard s card = none)
include hu

theorem queryCard_notFound : queryCard card s = (s, .refuse .notFound) := by rw [queryCard, hu]
theorem listClips_notFound : listClips card items s = (s, .refuse .notFound) := by rw [listClips, hu]
theorem dismount_notFound : dismount card s = (s, .refuse .notFound) := by rw [dismount, hu]
theorem retire_notFound : retire card s = (s, .refuse .notFound) := by rw [retire, hu]
theorem route_notFound : route card ports s = (s, .refuse .notFound) := by rw [route, hu]
theorem start_notFound : start card s = (s, .refuse .notFound) := by rw [start, hu]
theorem suspend_notFound : suspend card s = (s, .refuse .notFound) := by rw [suspend, hu]
theorem resume_notFound : resume card s = (s, .refuse .notFound) := by rw [resume, hu]
theorem abort_notFound : abort card s = (s, .refuse .notFound) := by rw [abort, hu]
theorem recopy_notFound : recopy card s = (s, .refuse .notFound) := by rw [recopy, hu]
theorem waive_notFound : waive card generation s = (s, .refuse .notFound) := by rw [waive, hu]

end NotFound

/-! ## The checks on a card in use -/

/-- R61 check 3: a port above D5 or not fitted is named. -/
theorem routePorts_none (hx : ∃ x ∈ ports, 6 ≤ x ∨ s.reset.dests ≤ x) : routePorts s ports = none := by
  induction ports with
  | nil => simp at hx
  | cons y ys ih =>
    unfold routePorts
    cases hy : asDest s y with
    | none => rfl
    | some d =>
      dsimp only
      rw [ih, Option.map_none]
      obtain ⟨x, hx, hout⟩ := hx
      rcases List.mem_cons.mp hx with rfl | hx
      · rw [asDest] at hy
        split at hy
        · split at hy
          · omega
          · cases hy
        · cases hy
      · exact ⟨x, hx, hout⟩

section Used

variable (hu : usedCard s card = some h)
include hu

theorem listClips_wrongState (hst : s.cards[h].state.lists = false) :
    listClips card items s = (s, .refuse .wrongState) := by
  rw [listClips, hu]
  exact if_pos hst

theorem listClips_tableFull (hst : s.cards[h].state.lists = true) (hlen : (freeClips s).length < items.length) :
    listClips card items s = (s, .refuse .tableFull) := by
  have hst' : ¬ s.cards[h].state.lists = false := by rw [hst]; decide
  rw [listClips, hu]
  exact (if_neg hst').trans (if_pos hlen)

theorem dismount_busy (hst : s.cards[h].state.isCopying = true) : dismount card s = (s, .refuse .busy) := by
  rw [dismount, hu]
  dsimp only
  rcases (CardState.isCopying_iff _).mp hst with e | e | e <;> rw [e]

theorem retire_busy (hbusy : s.cards[h].state.isCopying = true ∨ s.cards[h].clearedUnsent = true
    ∨ frameRefersTo s h = true) : retire card s = (s, .refuse .busy) := by
  rw [retire, hu]
  refine if_pos ?_
  simp only [Bool.or_eq_true]
  tauto

theorem route_refused {r : Reason} (hr : routeRefusal s.cards[h].state = some r) :
    route card ports s = (s, .refuse r) := by
  rw [route, hu]
  dsimp only
  rw [hr]

theorem route_noPort (hr : routeRefusal s.cards[h].state = none) (hp : routePorts s ports = none) :
    route card ports s = (s, .refuse .noPort) := by
  rw [route, hu]
  dsimp only
  rw [hr, hp]

theorem start_wrongState (hst : s.cards[h].state ≠ .mounted) : start card s = (s, .refuse .wrongState) := by
  rw [start, hu]
  exact if_pos hst

theorem start_shortRoute (hst : s.cards[h].state = .mounted) (hr : s.cards[h].route = DestSet.empty) :
    start card s = (s, .refuse .shortRoute) := by
  have hroute : s.cards[h].route.isEmpty = true := by rw [hr]; rfl
  rw [start, hu]
  exact (if_neg (not_not_intro hst)).trans (if_pos hroute)

theorem start_noClips (hst : s.cards[h].state = .mounted) (hr : s.cards[h].route ≠ DestSet.empty)
    (hk : s.cards[h].clips = []) : start card s = (s, .refuse .wrongState) := by
  have hroute : ¬ s.cards[h].route.isEmpty = true := fun e => hr ((DestSet.isEmpty_iff_eq _).mp e)
  have hclips : s.cards[h].clips.isEmpty = true := by rw [hk]; rfl
  rw [start, hu]
  exact (if_neg (not_not_intro hst)).trans ((if_neg hroute).trans (if_pos hclips))

theorem suspend_wrongState (hst : s.cards[h].state ≠ .copying) : suspend card s = (s, .refuse .wrongState) := by
  rw [suspend, hu]
  exact if_pos hst

theorem resume_wrongState (hst : s.cards[h].state ≠ .suspended) : resume card s = (s, .refuse .wrongState) := by
  rw [resume, hu]
  exact if_pos hst

theorem abort_wrongState (hst : s.cards[h].state.isCopying = false) : abort card s = (s, .refuse .wrongState) := by
  rw [abort, hu]
  exact if_pos hst

theorem recopy_wrongState (hst : s.cards[h].state.recopies = false) : recopy card s = (s, .refuse .wrongState) := by
  rw [recopy, hu]
  exact if_pos hst

section Recopies

variable (hst : s.cards[h].state.recopies = true)
include hst

theorem recopy_noSource (hso : s.cards[h].source = none) : recopy card s = (s, .refuse .noSource) := by
  have hst' : ¬ s.cards[h].state.recopies = false := by rw [hst]; decide
  have hnone : s.cards[h].source.isNone = true := by rw [hso]; rfl
  rw [recopy, hu]
  exact (if_neg hst').trans (if_pos hnone)

theorem recopy_marked (hso : s.cards[h].source ≠ none) (hm : s.cards[h].openMarks ≠ MarkSet.empty) :
    recopy card s = (s, .refuse .wrongState) := by
  have hst' : ¬ s.cards[h].state.recopies = false := by rw [hst]; decide
  have hsome : ¬ s.cards[h].source.isNone = true := by simpa using hso
  have hmarks : s.cards[h].openMarks.isEmpty = false := by
    rw [← Bool.not_eq_true, MarkSet.isEmpty_iff_eq]
    exact hm
  rw [recopy, hu]
  exact (if_neg hst').trans ((if_neg hsome).trans (if_pos hmarks))

end Recopies

theorem waive_wrongState (hst : s.cards[h].state.refusesWaive = true) :
    waive card generation s = (s, .refuse .wrongState) := by
  rw [waive, hu]
  exact if_pos hst

end Used

end Sys2Proof.Machine

namespace Sys2Proof.Proofs
open Machine

/-- Settles O15: each clause is one check of the directive's owner. -/
theorem cardRefusals : Obligations.CardRefusals := by
  intro s tag card generation clip items ports hmin hmax hports
  have hitems : ¬(items.length = 0 ∨ 512 < items.length) := by omega
  have hroute : ¬ 6 < ports.length := not_lt.mpr hports
  refine ⟨fun hs hf => ?_, fun hs hf => refuses_of rfl hs (.inr rfl) (queryClip_notFound hf), ?_⟩
  · have hu := usedCard_of_free hf
    refine ⟨refuses_of rfl hs (.inr rfl) (queryCard_notFound hu), fun ha => ?_⟩
    exact ⟨refuses_of (execCounted hitems rfl) hs (.inl ha.2) (listClips_notFound hu),
      refuses_of rfl hs (.inl ha.2) (dismount_notFound hu), refuses_of rfl hs (.inl ha.2) (retire_notFound hu),
      refuses_of (execCounted hroute rfl) hs (.inl ha.2) (route_notFound hu),
      refuses_of rfl hs (.inl ha.2) (start_notFound hu), refuses_of rfl hs (.inl ha.2) (suspend_notFound hu),
      refuses_of rfl hs (.inl ha.2) (resume_notFound hu), refuses_of rfl hs (.inl ha.2) (abort_notFound hu),
      refuses_of rfl hs (.inl ha.2) (recopy_notFound hu), refuses_of rfl hs (.inl ha.2) (waive_notFound hu)⟩
  · intro h st copying ha ht hst hfree hcopying
    subst hst
    obtain ⟨hs, hl⟩ := ha
    have hu : usedCard s.part card = some h := usedCard_of_inUse ht hfree
    have hcop : copying ↔ s.part.cards[h].state.isCopying = true :=
      hcopying.trans (CardState.isCopying_iff _).symm
    have hlists := CardState.lists_iff s.part.cards[h].state
    refine ⟨fun hnot => ?_, fun hin hlen => ?_, fun hc => ?_, fun hbusy => ?_, fun hin => ?_, fun hin => ?_, fun hin hx => ?_,
      fun hnot => ?_, fun hin hr => ?_, fun hin hr hk => ?_, fun hnot => ?_, fun hnot => ?_, fun hnot => ?_, fun hnot => ?_,
      fun hin => ?_, fun hin => ?_⟩
    · refine refuses_of (execCounted hitems rfl) hs (.inl hl) (listClips_wrongState hu ?_)
      obtain ⟨hmounted, hcopying', hsuspended⟩ := hnot
      rw [← Bool.not_eq_true, hlists]
      exact fun hin => hin.elim hmounted fun hin => hin.elim hsuspended hcopying'
    · refine refuses_of (execCounted hitems rfl) hs (.inl hl) (listClips_tableFull hu ?_ hlen)
      rw [hlists]
      exact hin.imp_right Or.symm
    · exact refuses_of rfl hs (.inl hl) (dismount_busy hu (hcop.mp hc))
    · rw [hcop, ← frameRefersTo_iff] at hbusy
      exact refuses_of rfl hs (.inl hl) (retire_busy hu hbusy)
    · refine refuses_of (execCounted hroute rfl) hs (.inl hl) (route_refused hu ?_)
      rcases hin with e | e <;> rw [e] <;> rfl
    · refine refuses_of (execCounted hroute rfl) hs (.inl hl) (route_refused hu ?_)
      rcases hin with e | e <;> rw [e] <;> rfl
    · refine refuses_of (execCounted hroute rfl) hs (.inl hl) (route_noPort hu ?_ (routePorts_none hx))
      rcases hin with e | e | e | e <;> rw [e] <;> rfl
    · exact refuses_of rfl hs (.inl hl) (start_wrongState hu hnot)
    · exact refuses_of rfl hs (.inl hl) (start_shortRoute hu hin hr)
    · exact refuses_of rfl hs (.inl hl) (start_noClips hu hin hr hk)
    · exact refuses_of rfl hs (.inl hl) (suspend_wrongState hu hnot)
    · exact refuses_of rfl hs (.inl hl) (resume_wrongState hu hnot)
    · exact refuses_of rfl hs (.inl hl) (abort_wrongState hu (Bool.eq_false_iff.mpr fun e => hnot (hcop.mpr e)))
    · refine refuses_of rfl hs (.inl hl) (recopy_wrongState hu ?_)
      generalize s.part.cards[h].state = st at hnot
      cases st <;> simp_all [CardState.recopies]
    · have hst : s.part.cards[h].state.recopies = true := by rcases hin with e | e | e <;> rw [e] <;> rfl
      exact ⟨fun hso => refuses_of rfl hs (.inl hl) (recopy_noSource hu hst hso),
        fun hso hm => refuses_of rfl hs (.inl hl) (recopy_marked hu hst hso hm)⟩
    · refine refuses_of rfl hs (.inl hl) (waive_wrongState hu ?_)
      rcases hin with e | e | e | e <;> rw [e] <;> rfl

end Sys2Proof.Proofs
end

