-- ==== Sys2Proof/Proofs/Suspending.lean ====
section
/-! PROOF. SUSPEND, the abandon of an attempt, the end of draining and RESUME (R63 to R66). -/

namespace Sys2Proof.Machine

variable {s : Part} {h : CardId} {d : DestId} {k : ClipId} {p : PortId} {card : Nat}

/-! ## Cards moved (R2, R63) -/

/-- R2, R63: a card moved to another state. -/
theorem moveCard_changed {st : CardState} (hfree : st ≠ .free) (hst : s.cards[h].state ≠ st) :
    moveCard h st s = queueNotice (.cardState h s.cards[h].label st s.cards[h].source)
      { s with cards := s.cards.set h (s.cards[h].toState st) } :=
  writeCard_changed (c := s.cards[h].toState st) (.inl hst) fun e => absurd e hfree

theorem moveCard_cards (st : CardState) : (moveCard h st s).cards = s.cards.set h (s.cards[h].toState st) :=
  writeCard_cards s h _

theorem moveCard_clips (st : CardState) : (moveCard h st s).clips = s.clips := writeCard_clips s h _

/-- The card that has been moved. -/
theorem moveCard_self (st : CardState) : (moveCard h st s).cards[h] = s.cards[h].toState st := by
  rw [moveCard_cards, get_set, if_pos rfl]

/-- A search of the manifest does not see the card's state. -/
theorem findClip_moveCard (st : CardState) (f : Clip → Bool) : findClip (moveCard h st s) h f = findClip s h f := by
  unfold findClip
  rw [moveCard_self, moveCard_clips]
  rfl

theorem anyMarkOpen_moveCard (st : CardState) : anyMarkOpen (moveCard h st s) h = anyMarkOpen s h := by
  unfold anyMarkOpen cardClips
  rw [moveCard_self, moveCard_clips]
  rfl

/-! ## SUSPEND (R63) -/

section Suspend

variable (hu : usedCard s card = some h) (hst : s.cards[h].state = .copying)
include hu hst

theorem suspend_grounded (hk : inFlightClip s h = none) : suspend card s = (moveCard h .suspended s, .done) := by
  rw [suspend, hu]
  dsimp only
  rw [if_neg (not_not_intro hst), hk]

theorem suspend_flying (hk : inFlightClip s h = some k) : suspend card s = (suspendInFlight h k s, .done) := by
  rw [suspend, hu]
  dsimp only
  rw [if_neg (not_not_intro hst), hk]

end Suspend

theorem suspendInFlight_finish (hm : s.cards[h].mode = .finish) : suspendInFlight h k s = moveCard h .suspending s := by
  rw [suspendInFlight, hm]

section Prompt

variable {c : Clip} (hm : s.cards[h].mode = .prompt) (hc : s.clips[k] = some c)
include hm hc

theorem suspendInFlight_restarted (hr : c.restarted = true) : suspendInFlight h k s =
    writeCard h { s.cards[h] with state := .suspending, suspendWaiting := true } s := by
  have honce : restartedOnce s k = true := by rw [restartedOnce, hc]; exact hr
  rw [suspendInFlight, hm]
  exact if_pos honce

theorem suspendInFlight_abandons (hr : c.restarted = false) (hrun : runningChannel s k = some p) :
    suspendInFlight h k s = promptAbandon h p k s := by
  have honce : ¬ restartedOnce s k = true := by rw [restartedOnce, hc]; simp [hr]
  rw [suspendInFlight, hm]
  dsimp only
  rw [if_neg honce, hrun]

end Prompt

/-! ## The abandon (R64) -/

variable (s k p) in
/-- R64 step 1: the channel of an abandoned attempt. -/
theorem abandonClip_channel : ∃ tag, (abandonClip p k s).channels[p] = Channel.idle tag := by
  rw [abandonClip_eq, modClip_channels, attemptDropped, joinQueues_channels, idleChannel, setChannel_channels, get_set,
    if_pos rfl]
  exact ⟨_, rfl⟩

section Abandon

variable (hw : ∀ d : DestId, s.channels[p].writing.mem d = true → s.dests[d].holder = some k)
include hw

/-- R64 steps 2 and 3: the destinations of an abandoned attempt. -/
theorem attemptDropped_dests (fin : DestSet) (d : DestId) :
    (attemptDropped p k s.channels[p].writing fin s).dests[d] =
      { s.dests[d] with
        holder := if s.channels[p].writing.mem d then none else s.dests[d].holder
        draining := if s.channels[p].writing.mem d then !s.dests[d].stores.isEmpty else s.dests[d].draining
        queue := if fin.mem d then s.dests[d].queue ++ [k] else s.dests[d].queue } := by
  rw [attemptDropped, joinQueues_dests, idleChannel, setChannel_dests, withdrawAll_dests d hw]
  split <;> split <;> rfl

/-- R64 step 2: the clip of an attempt whose writing set has been withdrawn. -/
theorem attemptDropped_clips (fin : DestSet) (j : ClipId) :
    (attemptDropped p k s.channels[p].writing fin s).clips[j] =
      if k = j then s.clips[k].map (Clip.withoutCopies s.channels[p].writing.members) else s.clips[j] := by
  rw [attemptDropped, joinQueues_clips, idleChannel, setChannel_clips, withdrawAll_clips j hw]

/-- R64: what an abandon leaves. -/
theorem abandonClip_leaves {c : Clip} (hc : s.clips[k] = some c) :
    (abandonClip p k s).channels[p].state = .idle ∧ (abandonClip p k s).channels[p].fetches = []
      ∧ (abandonClip p k s).channels[p].held = []
      ∧ (∃ x, (abandonClip p k s).clips[k] = some x ∧ x.state = .listed ∧ x.restarted = true ∧ x.failed = c.failed
          ∧ x.sourceDigest = c.sourceDigest
          ∧ ∀ d : DestId, x.copies[d] = if s.channels[p].writing.mem d then .none else c.copies[d])
      ∧ ∀ d : DestId, (abandonClip p k s).dests[d].cursor = s.dests[d].cursor
          ∧ (s.channels[p].writing.mem d = true → (abandonClip p k s).dests[d].holder = none
              ∧ (abandonClip p k s).dests[d].draining = !s.dests[d].stores.isEmpty)
          ∧ (s.channels[p].finished.mem d = true → (abandonClip p k s).dests[d].queue = s.dests[d].queue ++ [k])
          ∧ (s.channels[p].finished.mem d = false → (abandonClip p k s).dests[d].queue = s.dests[d].queue) := by
  obtain ⟨tag, hchannel⟩ := abandonClip_channel s k p
  rw [hchannel]
  refine ⟨rfl, rfl, rfl, ⟨(c.withoutCopies s.channels[p].writing.members).abandoned, ?_, rfl, rfl, ?_, ?_, fun d => ?_⟩,
    fun d => ?_⟩
  · rw [abandonClip_eq, modClip_get, if_pos rfl, attemptDropped_clips hw, if_pos rfl, hc]
    rfl
  · rw [Clip.withoutCopies_eq]
    rfl
  · rw [Clip.withoutCopies_eq]
    rfl
  · have hcopies := Clip.withoutCopies_get d s.channels[p].writing.members c
    rw [show (c.withoutCopies s.channels[p].writing.members).abandoned.copies
      = (c.withoutCopies s.channels[p].writing.members).copies from rfl, hcopies]
    simp only [DestSet.mem_members]
  · rw [abandonClip_eq, modClip_dests, attemptDropped_dests hw]
    exact ⟨rfl, fun hd => ⟨if_pos hd, if_pos hd⟩, fun hd => if_pos hd, fun hd => if_neg (by rw [hd]; decide)⟩

end Abandon

theorem drainingOf_mem (target : DestSet) (d : DestId) :
    (drainingOf target s).mem d = true ↔ target.mem d = true ∧ s.dests[d].draining = true := by
  rw [drainingOf, DestSet.mem_ofPred, Bool.and_eq_true]

/-- R64 step 5: the two ends of an abandon. -/
theorem promptAbandon_cases {drain : DestSet}
    (hdrain : ∀ d : DestId, drain.mem d = true
      ↔ s.channels[p].target.mem d = true ∧ (abandonClip p k s).dests[d].draining = true) :
    ((∀ d : DestId, drain.mem d = false) → promptAbandon h p k s = afterEvent (moveCard h .suspended (abandonClip p k s)))
      ∧ ((∃ d : DestId, drain.mem d = true) → promptAbandon h p k s = afterEvent (moveCard h .suspending
        { abandonClip p k s with
          channels := (abandonClip p k s).channels.set p
            { (abandonClip p k s).channels[p] with state := .waiting, drain := drain } })) := by
  have hset : drainingOf s.channels[p].target (abandonClip p k s) = drain :=
    DestSet.ext_mem fun d => by rw [Bool.eq_iff_iff, drainingOf_mem, hdrain]
  unfold promptAbandon settleAbandon
  rw [hset]
  refine ⟨fun hnone => ?_, fun ⟨d, hd⟩ => ?_⟩
  · rw [if_pos ((DestSet.isEmpty_iff _).mpr hnone)]
  · obtain ⟨tag, hchannel⟩ := abandonClip_channel s k p
    have hsome : ¬ drain.isEmpty = true := fun e => by
      rw [(DestSet.isEmpty_iff _).mp e d] at hd
      cases hd
    rw [if_neg hsome, hchannel]
    rfl

/-! ## The end of draining (R65) -/

/-- R65: a channel as the end of a destination's draining leaves it. -/
def Channel.drained (d : DestId) (c : Channel) : Channel :=
  if c.state = .waiting ∧ c.drain.mem d = true then
    if (c.drain.erase d).isEmpty then Channel.idle c.tagCounter else { c with drain := c.drain.erase d }
  else c

/-- R65: the destination is the last one the channel waits for. -/
def Channel.AwaitsOnly (d : DestId) (c : Channel) : Prop :=
  c.state = .waiting ∧ c.drain.mem d = true ∧ (c.drain.erase d).isEmpty = true

/-- R65: the card is still in SUSPENDING and its port's channel waits for the destination alone. -/
def Part.Releases (s : Part) (d : DestId) (h : CardId) (p : PortId) : Prop :=
  s.ports[p].binding = some h ∧ s.channels[p].AwaitsOnly d ∧ s.cards[h].state = .suspending

variable (s d p) in
theorem drainedFor_frame : (drainedFor d p s).dests = s.dests ∧ (drainedFor d p s).clips = s.clips
    ∧ (drainedFor d p s).ports = s.ports ∧ (drainedFor d p s).channels = s.channels.set p (s.channels[p].drained d) := by
  unfold drainedFor Channel.drained
  split
  · split
    · split
      · split
        · exact ⟨writeCard_dests _ _ _, writeCard_clips _ _ _, writeCard_ports _ _ _, writeCard_channels _ _ _⟩
        · exact ⟨rfl, rfl, rfl, rfl⟩
      · exact ⟨rfl, rfl, rfl, rfl⟩
    · exact ⟨rfl, rfl, rfl, rfl⟩
  · simp

variable (s d p) in
/-- R65: the cards after a channel has heard of the end of a draining. -/
theorem drainedFor_cards :
    (∃ h : CardId, s.Releases d h p ∧ (drainedFor d p s).cards = s.cards.set h (s.cards[h].toState .suspended))
      ∨ (∀ h : CardId, ¬ s.Releases d h p) ∧ (drainedFor d p s).cards = s.cards := by
  unfold drainedFor
  split
  · rename_i hcond
    split
    · rename_i hempty
      split
      · rename_i h hb
        split
        · rename_i hst
          exact .inl ⟨h, ⟨hb, ⟨hcond.1, hcond.2, hempty⟩, hst⟩, moveCard_cards .suspended⟩
        · rename_i hst
          refine .inr ⟨fun g hr => hst ?_, rfl⟩
          rw [Part.card_congr s (Option.some.inj (hb.symm.trans hr.1))]
          exact hr.2.2
      · rename_i hb
        refine .inr ⟨fun g hr => ?_, rfl⟩
        rw [hr.1] at hb
        cases hb
    · rename_i hempty
      exact .inr ⟨fun g hr => hempty hr.2.1.2.2, rfl⟩
  · rename_i hcond
    exact .inr ⟨fun g hr => hcond ⟨hr.2.1.1, hr.2.1.2.1⟩, rfl⟩

variable (s d p) in
/-- R65: one card after a channel has heard of the end of a draining. -/
theorem drainedFor_card (g : CardId) :
    (s.Releases d g p → (drainedFor d p s).cards[g] = s.cards[g].toState .suspended)
      ∧ (¬ s.Releases d g p → (drainedFor d p s).cards[g] = s.cards[g]) := by
  rcases drainedFor_cards s d p with ⟨h, hr, hcards⟩ | ⟨hnone, hcards⟩
  · rw [hcards, get_set]
    by_cases e : h = g
    · subst e
      exact ⟨fun _ => if_pos rfl, fun hn => absurd hr hn⟩
    · exact ⟨fun hg => absurd (Option.some.inj (hr.1.symm.trans hg.1)) e, fun _ => if_neg e⟩
  · rw [hcards]
    exact ⟨fun hg => absurd hg (hnone g), fun _ => rfl⟩

/-- R65: the channels, one after the other, hear of the end of a draining. -/
theorem drainedFor_foldl (d : DestId) (l : List PortId) (hl : l.Nodup) (s : Part) :
    (l.foldl (fun t p => drainedFor d p t) s).dests = s.dests
      ∧ (l.foldl (fun t p => drainedFor d p t) s).clips = s.clips
      ∧ (∀ q : PortId, (l.foldl (fun t p => drainedFor d p t) s).channels[q] =
          if q ∈ l then s.channels[q].drained d else s.channels[q])
      ∧ ∀ g : CardId,
        ((∃ p ∈ l, s.Releases d g p) → (l.foldl (fun t p => drainedFor d p t) s).cards[g] = s.cards[g].toState .suspended)
          ∧ ((¬∃ p ∈ l, s.Releases d g p) → (l.foldl (fun t p => drainedFor d p t) s).cards[g] = s.cards[g]) := by
  induction l generalizing s with
  | nil => exact ⟨rfl, rfl, fun q => by simp, fun g => ⟨fun ⟨_, hp, _⟩ => absurd hp List.not_mem_nil, fun _ => rfl⟩⟩
  | cons p rest ih =>
    obtain ⟨hnot, hrest⟩ := List.nodup_cons.mp hl
    obtain ⟨hdests, hclips, hports, hchannels⟩ := drainedFor_frame s d p
    obtain ⟨ihdests, ihclips, ihchannels, ihcards⟩ := ih hrest (drainedFor d p s)
    have other {q : PortId} (hq : q ∈ rest) : (drainedFor d p s).channels[q] = s.channels[q] := by
      rw [hchannels, get_set, if_neg]
      rintro rfl
      exact hnot hq
    refine ⟨ihdests.trans hdests, ihclips.trans hclips, fun q => ?_, fun g => ?_⟩
    · rw [List.foldl_cons, ihchannels]
      by_cases hq : q ∈ rest
      · rw [if_pos hq, if_pos (List.mem_cons_of_mem p hq), other hq]
      · rw [if_neg hq, hchannels, get_set]
        by_cases e : p = q
        · subst e
          rw [if_pos rfl, if_pos List.mem_cons_self]
        · rw [if_neg e, if_neg (by simp [hq, Ne.symm e])]
    · have later {q : PortId} (hq : q ∈ rest) (hg : (drainedFor d p s).cards[g] = s.cards[g]) :
          (drainedFor d p s).Releases d g q ↔ s.Releases d g q := by
        unfold Part.Releases
        rw [hports, other hq, hg]
      obtain ⟨hhit, hmiss⟩ := drainedFor_card s d p g
      rw [List.foldl_cons]
      by_cases hp : s.Releases d g p
      · refine ⟨fun _ => ?_, fun hn => absurd ⟨p, List.mem_cons_self, hp⟩ hn⟩
        have hdone := hhit hp
        have hnone : ¬∃ q ∈ rest, (drainedFor d p s).Releases d g q := by
          rintro ⟨q, -, hr⟩
          have hst := hr.2.2
          rw [hdone] at hst
          cases hst
        rw [(ihcards g).2 hnone, hdone]
      · have hsame := hmiss hp
        have hiff : (∃ q ∈ rest, (drainedFor d p s).Releases d g q) ↔ ∃ q ∈ p :: rest, s.Releases d g q := by
          constructor
          · rintro ⟨q, hq, hr⟩
            exact ⟨q, List.mem_cons_of_mem p hq, (later hq hsame).mp hr⟩
          · rintro ⟨q, hq, hr⟩
            rcases List.mem_cons.mp hq with rfl | hq
            · exact absurd hr hp
            · exact ⟨q, hq, (later hq hsame).mpr hr⟩
        rw [← hiff, ← hsame]
        exact ihcards g

theorem allPorts_nodup : allPorts.Nodup := by decide

theorem Channel.drained_of_other {c : Channel} (hc : c.state ≠ .waiting ∨ c.drain.mem d = false) : c.drained d = c := by
  refine if_neg fun hcond => ?_
  rcases hc with hc | hc
  · exact hc hcond.1
  · rw [hc] at hcond
    cases hcond.2

section Waiting

variable {c : Channel} (hst : c.state = .waiting) (hd : c.drain.mem d = true)
include hst hd

theorem Channel.drained_of_more (he : ∃ e : DestId, e ≠ d ∧ c.drain.mem e = true) :
    c.drained d = { c with drain := c.drain.erase d } := by
  obtain ⟨e, hne, he⟩ := he
  have hmore : ¬(c.drain.erase d).isEmpty = true := fun hempty => by
    have hmem := (DestSet.isEmpty_iff _).mp hempty e
    rw [DestSet.mem_erase, if_neg (Ne.symm hne), he] at hmem
    cases hmem
  rw [Channel.drained, if_pos ⟨hst, hd⟩, if_neg hmore]

theorem Channel.awaitsOnly_of_last (hlast : ∀ e : DestId, c.drain.mem e = true → e = d) : c.AwaitsOnly d := by
  refine ⟨hst, hd, (DestSet.isEmpty_iff _).mpr fun e => ?_⟩
  rw [DestSet.mem_erase]
  split
  · rfl
  · rename_i hne
    by_contra he
    exact hne (hlast e (by simpa using he)).symm

omit hst hd in
theorem Channel.AwaitsOnly.drained (ho : c.AwaitsOnly d) : c.drained d = Channel.idle c.tagCounter := by
  rw [Channel.drained, if_pos ⟨ho.1, ho.2.1⟩, if_pos ho.2.2]

omit hst hd in
theorem Channel.AwaitsOnly.last (ho : c.AwaitsOnly d) (e : DestId) (he : c.drain.mem e = true) : e = d := by
  have hmem := (DestSet.isEmpty_iff _).mp ho.2.2 e
  rw [DestSet.mem_erase] at hmem
  split at hmem
  · rename_i hde
    exact hde.symm
  · rw [he] at hmem
    cases hmem

end Waiting

theorem Channel.idle_idles (tag : Nat) : (Channel.idle tag).Idles tag :=
  ⟨rfl, rfl, rfl, rfl, rfl, rfl, rfl, rfl, rfl, rfl⟩

variable (s d) in
/-- R65: what the end of a destination's draining leaves. -/
theorem drainEnded_leaves :
    (drainEnded d s).dests = s.dests ∧ (drainEnded d s).clips = s.clips
      ∧ (∀ p : PortId, (s.channels[p].state ≠ .waiting ∨ s.channels[p].drain.mem d = false) →
          (drainEnded d s).channels[p] = s.channels[p])
      ∧ (∀ p : PortId, s.channels[p].state = .waiting → s.channels[p].drain.mem d = true →
          ((∃ e : DestId, e ≠ d ∧ s.channels[p].drain.mem e = true) →
              (drainEnded d s).channels[p] = { s.channels[p] with drain := s.channels[p].drain.erase d })
            ∧ ((∀ e : DestId, s.channels[p].drain.mem e = true → e = d) →
              (drainEnded d s).channels[p].Idles s.channels[p].tagCounter
                ∧ ∀ h : CardId, s.ports[p].binding = some h → s.cards[h].state = .suspending →
                  (drainEnded d s).cards[h].state = .suspended))
      ∧ ∀ h : CardId, (s.cards[h].state ≠ .suspending
          ∨ ∀ p : PortId, s.ports[p].binding = some h → s.channels[p].state = .waiting →
            s.channels[p].drain.mem d = true → ∃ e : DestId, e ≠ d ∧ s.channels[p].drain.mem e = true) →
        (drainEnded d s).cards[h] = s.cards[h] := by
  obtain ⟨hdests, hclips, hfold, hcards⟩ := drainedFor_foldl d allPorts allPorts_nodup s
  have hchannels (p : PortId) : (drainEnded d s).channels[p] = s.channels[p].drained d :=
    (hfold p).trans (if_pos (mem_allPorts p))
  refine ⟨hdests, hclips, fun p hp => ?_, fun p hst hd => ⟨fun he => ?_, fun hlast => ⟨?_, fun h hb hsus => ?_⟩⟩,
    fun h hh => (hcards h).2 ?_⟩
  · rw [hchannels, Channel.drained_of_other hp]
  · rw [hchannels, Channel.drained_of_more hst hd he]
  · rw [hchannels, (Channel.awaitsOnly_of_last hst hd hlast).drained]
    exact Channel.idle_idles _
  · have hr : ∃ q ∈ allPorts, s.Releases d h q := ⟨p, mem_allPorts p, hb, Channel.awaitsOnly_of_last hst hd hlast, hsus⟩
    exact congrArg Card.state ((hcards h).1 hr)
  · rintro ⟨p, -, hb, ho, hsus⟩
    rcases hh with hh | hh
    · exact hh hsus
    · obtain ⟨e, hne, he⟩ := hh p hb ho.1 ho.2.1
      exact hne (ho.last e he)

/-! ## RESUME (R66) -/

theorem evalClearance_state (hst : s.cards[h].state ≠ .copying) : (evalClearance h s).cards[h].state ≠ .copying := by
  unfold evalClearance
  split
  · rw [enterCleared]
    change (writeCard h _ s).cards[h].state ≠ .copying
    rw [writeCard_cards, get_set, if_pos rfl]
    exact fun e => nomatch e
  · exact hst

variable (hu : usedCard s card = some h) (hst : s.cards[h].state = .suspended)
include hu hst

theorem resume_taken : resume card s = (resumeCard h s, .done) := by
  rw [resume, hu]
  exact if_neg (not_not_intro hst)

omit hu hst in
/-- R66: a card that has a clip LISTED goes on copying. -/
theorem resumeCard_listed (hl : (firstListed s h).isSome = true) :
    resumeCard h s = afterEvent (moveCard h .copying s) := by
  have hstays : settleCopying h (moveCard h .copying s) = moveCard h .copying s := by
    refine if_neg fun hcond => ?_
    rw [firstListed, findClip_moveCard] at hcond
    rw [firstListed] at hl
    rw [Option.isNone_iff_eq_none.mp hcond.2.1] at hl
    cases hl
  have hcopying : (moveCard h .copying s).cards[h].state = .copying := by
    rw [moveCard_self]
    rfl
  unfold resumeCard
  dsimp only
  rw [hstays, if_pos hcopying]

omit hu hst in
/-- R58, R66: a card with no clip LISTED is settled at once. -/
theorem resumeCard_settled (hl : firstListed s h = none) (hk : inFlightClip s h = none) :
    resumeCard h s =
      if anyMarkOpen s h then moveCard h .held (moveCard h .copying s)
      else evalClearance h (moveCard h .copied (moveCard h .copying s)) := by
  have hsettles : settleCopying h (moveCard h .copying s) =
      if anyMarkOpen s h then moveCard h .held (moveCard h .copying s)
      else evalClearance h (moveCard h .copied (moveCard h .copying s)) := by
    have hcond : (moveCard h .copying s).cards[h].state = .copying ∧ (firstListed (moveCard h .copying s) h).isNone
        ∧ (inFlightClip (moveCard h .copying s) h).isNone := by
      rw [moveCard_self, firstListed, findClip_moveCard, inFlightClip, findClip_moveCard]
      rw [firstListed] at hl
      rw [inFlightClip] at hk
      rw [hl, hk]
      exact ⟨rfl, rfl, rfl⟩
    rw [settleCopying, if_pos hcond, anyMarkOpen_moveCard]
  have hnot : (settleCopying h (moveCard h .copying s)).cards[h].state ≠ .copying := by
    rw [hsettles]
    cases anyMarkOpen s h with
    | true =>
      rw [if_pos rfl, moveCard_self]
      exact fun e => nomatch e
    | false =>
      refine evalClearance_state ?_
      rw [moveCard_self]
      exact fun e => nomatch e
  unfold resumeCard
  dsimp only
  rw [if_neg hnot, hsettles]

end Sys2Proof.Machine

namespace Sys2Proof.Proofs
open Machine

/-- Settles O20: `suspend_grounded` and `suspend_flying`, `abandonClip_leaves`, `promptAbandon_cases`, `drainEnded_leaves`,
`moveCard_changed`, `resumeCard_listed` and `resumeCard_settled`, one for each part of the statement. -/
theorem suspendAndResume : Obligations.SuspendAndResume := by
  refine ⟨?_, fun s p k c hc hw => abandonClip_leaves hw hc, ?_, ?_, fun s h st => moveCard_changed, ?_⟩
  · intro s tag card h hs ht hst
    have hu : usedCard s.part card = some h := usedCard_of_inUse ht (by rw [hst]; decide)
    have taken {q : Part} (ho : suspend card s.part = (q, .done)) :
        Answers (.suspend tag card) s ⟨tag, 0x22, .done, .nothing⟩ q := answers_of rfl hs.1 (.inl hs.2) ho
    refine ⟨fun hk => taken (suspend_grounded hu hst hk), fun k c hk hc => ?_⟩
    have hflies := suspend_flying hu hst hk
    refine ⟨fun hm => ?_, fun hm hr => ?_, fun p hm hr hrun => ?_⟩
    · rw [suspendInFlight_finish hm] at hflies
      exact taken hflies
    · rw [suspendInFlight_restarted hm hc hr] at hflies
      exact taken hflies
    · rw [suspendInFlight_abandons hm hc hr hrun] at hflies
      exact taken hflies
  · intro s q h p k drain hq hdrain
    rw [hq] at hdrain ⊢
    exact promptAbandon_cases hdrain
  · intro s q d hq
    rw [hq]
    exact drainEnded_leaves s d
  · intro s tag card h hs ht hst
    have hu : usedCard s.part card = some h := usedCard_of_inUse ht (by rw [hst]; decide)
    have taken {q : Part} (ho : resumeCard h s.part = q) :
        Answers (.resume tag card) s ⟨tag, 0x23, .done, .nothing⟩ q :=
      ho ▸ answers_of rfl hs.1 (.inl hs.2) (resume_taken hu hst)
    refine ⟨fun hl => taken (resumeCard_listed hl), fun hl hk hm => ?_, fun hl hk hm => ?_⟩
    · exact taken ((resumeCard_settled hl hk).trans (if_pos hm))
    · exact taken ((resumeCard_settled hl hk).trans (if_neg (by rw [hm]; decide)))

end Sys2Proof.Proofs
end

