-- ==== Sys2Proof/Proofs/Spared.lean ====
section
/-! PROOF. What the copy engine, the grant arbiter and the verify engine spare: a HELD card stays so with its open marks, an IDLE
channel on whose port no card copies stays IDLE, and what the fault log holds stays at its head. -/

namespace Sys2Proof.Machine

structure Spares (h : CardId) (p : PortId) (s t : Part) : Prop where
  source : ∀ g : CardId, t.cards[g].source = s.cards[g].source
  log    : s.log.entries <+: t.log.entries
  held   : s.cards[h].state = .held →
    t.cards[h].state = .held ∧ ∀ f : FaultKind, s.cards[h].openMarks.has f = true → t.cards[h].openMarks.has f = true
  idle   : s.channels[p].state = .idle → (∀ g : CardId, s.cards[g].source ≠ some p) → t.channels[p].state = .idle

variable {h : CardId} {p : PortId}

theorem Spares.of_eq {s t : Part} (hc : t.cards = s.cards) (hch : t.channels = s.channels) (hl : t.log = s.log) :
    Spares h p s t where
  source g := by rw [hc]
  log := hl ▸ List.prefix_refl _
  held hst := by rw [hc]; exact ⟨hst, fun _ => id⟩
  idle hp _ := by rw [hch]; exact hp

theorem Spares.refl (s : Part) : Spares h p s s := .of_eq rfl rfl rfl

theorem Spares.trans {s t u : Part} (a : Spares h p s t) (b : Spares h p t u) : Spares h p s u where
  source g := (b.source g).trans (a.source g)
  log := a.log.trans b.log
  held hst := by
    obtain ⟨hst', hmarks⟩ := a.held hst
    obtain ⟨hst'', hmarks'⟩ := b.held hst'
    exact ⟨hst'', fun f hf => hmarks' f (hmarks f hf)⟩
  idle hp hso := b.idle (a.idle hp hso) fun g => a.source g ▸ hso g

theorem Spares.foldl {α : Type} (f : Part → α → Part) (hf : ∀ t a, Spares h p t (f t a)) (l : List α) (s : Part) :
    Spares h p s (l.foldl f s) := by
  induction l generalizing s with
  | nil => exact .refl s
  | cons a as ih => exact (hf s a).trans (ih _)

variable (s : Part) (g : CardId) (d : DestId) (k : ClipId) (q : PortId)

/-! ## The writes -/

/-- A card written with its source kept, and what a HELD card has. -/
theorem writeCard_spares (c : Card) (hso : c.source = s.cards[g].source)
    (hheld : s.cards[g].state = .held →
      c.state = .held ∧ ∀ f : FaultKind, s.cards[g].openMarks.has f = true → c.openMarks.has f = true) :
    Spares h p s (writeCard g c s) where
  source i := by
    rw [writeCard_cards, get_set]
    split
    · rename_i e
      subst e
      exact hso
    · rfl
  log := by rw [writeCard_log]
  held hst := by
    rw [writeCard_cards, get_set]
    split
    · rename_i e
      subst e
      exact hheld hst
    · exact ⟨hst, fun _ => id⟩
  idle hp _ := by rw [writeCard_channels]; exact hp

/-- A card that is not HELD, moved. -/
theorem moveCard_spares (st : CardState) (hst : s.cards[g].state ≠ .held) : Spares h p s (moveCard g st s) :=
  writeCard_spares s g _ rfl fun e => absurd e hst

theorem writeDest_spares (x : Dest) : Spares h p s (writeDest d x s) :=
  .of_eq (writeDest_cards s d x) (writeDest_channels s d x) (writeDest_log s d x)

theorem modClip_spares (f : Clip → Clip) : Spares h p s (modClip k f s) :=
  .of_eq (modClip_cards s k f) (modClip_channels s k f) (modClip_log s k f)

/-- R47: a channel that is written IDLE. -/
theorem idleChannel_spares : Spares h p s (idleChannel q s) where
  source _ := rfl
  log := List.prefix_refl _
  held hst := ⟨hst, fun _ => id⟩
  idle hp _ := by
    rw [idleChannel, setChannel_channels, get_set]
    split
    · rfl
    · exact hp

/-! ## Faults -/

/-- R148 to R150: a fault that is logged stands behind the others. -/
theorem logFault_prefix (after : Bool) (r : Report) (l : FaultLog) : l.entries <+: (logFault after r l).entries := by
  unfold logFault
  split
  · exact List.prefix_refl _
  · split
    · exact List.prefix_append _ _
    · exact List.prefix_refl _

theorem MarkSet.has_insert (m : MarkSet) (f f' : FaultKind) (hf : m.has f = true) : (m.insert f').has f = true := by
  unfold MarkSet.has MarkSet.insert at *
  rw [get_set]
  split
  · rfl
  · exact hf

theorem noteOpening_spares : Spares h p s (noteOpening g s) := by
  refine writeCard_spares s g _ rfl fun hst => ⟨?_, fun _ => id⟩
  dsimp only
  rw [if_neg (by rw [hst]; decide), hst]

theorem openCardMark_spares (f : FaultKind) : Spares h p s (openCardMark g f s) := by
  unfold openCardMark
  split
  · exact .refl s
  · refine Spares.trans ?_ (noteOpening_spares _ g)
    refine ⟨fun i => ?_, List.prefix_refl _, fun hst => ?_, fun hp _ => hp⟩
    · dsimp only
      rw [get_set]
      split
      · rename_i e
        subst e
        rfl
      · rfl
    · dsimp only
      rw [get_set]
      split
      · rename_i e
        subst e
        exact ⟨hst, fun f' hf => MarkSet.has_insert _ f' f hf⟩
      · exact ⟨hst, fun _ => id⟩

theorem openClipMark_spares (f : FaultKind) : Spares h p s (openClipMark k f s) := by
  unfold openClipMark
  split
  · exact .refl s
  · split
    · exact .refl s
    · refine Spares.trans ?_ (noteOpening_spares _ _)
      exact .of_eq rfl rfl rfl

theorem openMark_spares (r : Report) : Spares h p s (openMark r s) := by
  unfold openMark
  split
  · split
    · exact openCardMark_spares s _ _
    · exact .refl s
  · split
    · split
      · exact openClipMark_spares s _ _
      · exact .refl s
    · exact .refl s

theorem raise_spares (r : Report) : Spares h p s (raise r s) := by
  have logged (after : Bool) : Spares h p s { s with log := logFault after r s.log } :=
    ⟨fun _ => rfl, logFault_prefix after r s.log, fun hst => ⟨hst, fun _ => id⟩, fun hp _ => hp⟩
  unfold raise
  split
  · exact logged true
  · exact (logged false).trans (openMark_spares _ r)

/-! ## The end of an attempt -/

theorem evalClearance_spares : Spares h p s (evalClearance g s) := by
  unfold evalClearance
  split
  · rename_i hcond
    have entered : Spares h p s (writeCard g { s.cards[g].toState .cleared with clearedUnsent := true } s) :=
      writeCard_spares s g _ rfl fun e => by rw [hcond.1] at e; cases e
    exact entered.trans (.of_eq rfl rfl rfl)
  · exact .refl s

theorem settleCopying_spares : Spares h p s (settleCopying g s) := by
  unfold settleCopying
  split
  · rename_i hcond
    have hne : s.cards[g].state ≠ .held := by rw [hcond.1]; decide
    split
    · exact moveCard_spares s g _ hne
    · exact (moveCard_spares s g _ hne).trans (evalClearance_spares _ g)
  · exact .refl s

theorem settleCard_spares : Spares h p s (settleCard g s) := by
  unfold settleCard
  split
  · rename_i hst
    exact moveCard_spares s g _ (by rw [hst]; decide)
  · exact settleCopying_spares s g

theorem settleCardOf_spares : Spares h p s (settleCardOf k s) := by
  unfold settleCardOf
  split
  · exact settleCard_spares s _
  · exact .refl s

theorem countFailed_spares : Spares h p s (countFailed k s) := by
  unfold countFailed
  split
  · exact .refl s
  · split
    · exact modClip_spares s k _
    · exact (modClip_spares s k _).trans (raise_spares _ _)

theorem settleClip_spares : Spares h p s (settleClip k s) := by
  unfold settleClip
  split
  · exact .refl s
  · split
    · exact countFailed_spares s k
    · split
      · exact (modClip_spares s k _).trans (raise_spares _ _)
      · exact modClip_spares s k _

theorem joinQueues_spares (ds : DestSet) : Spares h p s (joinQueues k ds s) :=
  .foldl _ (fun t e => writeDest_spares t e _) _ s

theorem dropOut_spares : Spares h p s (dropOut d s) :=
  .of_eq (dropOut_cards s d) (dropOut_channels s d) (dropOut_log s d)

theorem withdrawAll_spares (ds : DestSet) : Spares h p s (withdrawAll ds s) :=
  .foldl _ (fun t e => dropOut_spares t e) _ s

theorem closeAttempt_spares : Spares h p s (closeAttempt q k s) :=
  ((idleChannel_spares s q).trans (joinQueues_spares _ k _)).trans (settleClip_spares _ k)

theorem endIfEmpty_spares : Spares h p s (endIfEmpty q s) := by
  unfold endIfEmpty endAttempt
  split
  · split
    · exact (closeAttempt_spares s _ q).trans (settleCardOf_spares _ _)
    · exact idleChannel_spares s q
  · exact .refl s

theorem detachChannel_spares : Spares h p s (detachChannel q s) := by
  unfold detachChannel
  split
  · exact .refl s
  · exact idleChannel_spares s q
  · split
    · exact (withdrawAll_spares s _).trans (closeAttempt_spares _ _ q)
    · exact idleChannel_spares s q

/-! ## The grant arbiter and the verify engine -/

theorem testFit_spares (c : Clip) : Spares h p s (testFit g k c s d) := by
  unfold testFit
  split
  · exact (writeDest_spares s d _).trans (raise_spares _ _)
  · exact .refl s

theorem shortfall_spares (n : Nat) : Spares h p s (shortfall g k n s) :=
  (raise_spares s _).trans (writeCard_spares _ g _ rfl fun _ => ⟨rfl, fun _ => id⟩)

theorem consider_spares : Spares h p s (consider s g).1 := by
  unfold consider
  split
  · exact .refl s
  · rename_i k _
    split
    · exact .refl s
    · rename_i c _
      have tested : Spares h p s (allDests.foldl (testFit g k c) s) := .foldl _ (fun t e => testFit_spares t g e k c) _ s
      split
      · exact .refl s
      · dsimp only
        generalize allDests.foldl (testFit g k c) s = t at tested ⊢
        split
        · exact tested.trans (shortfall_spares t g k _)
        · exact tested

theorem considerAll_spares (l : List CardId) : Spares h p s (considerAll l s).1 := by
  induction l generalizing s with
  | nil => exact .refl s
  | cons g rest ih => exact (consider_spares s g).trans (ih _)

/-- R46: a grant takes the channel of its card's source port. -/
theorem granted_spares (c : Candidate) (hq : s.cards[c.card].source = some q) : Spares h p s (granted c q s) where
  source g := by rw [granted_cards]
  log := by
    rw [granted, setChannel_log, modClip_log, (takeDest_foldl s c.clip c.targets.members).1]
  held hst := by
    rw [granted_cards]
    exact ⟨hst, fun _ => id⟩
  idle hp hso := by
    rw [granted_channels, if_neg]
    · exact hp
    · rintro rfl
      exact hso c.card hq

theorem grant_spares (c : Candidate) : Spares h p s (grant c s) := by
  unfold grant
  split
  · exact .refl s
  · rename_i q hq
    exact (granted_spares s q c (freeChannel_some hq).1).trans (endIfEmpty_spares _ q)

theorem grantPasses_spares (n : Nat) : Spares h p s (grantPasses n s) := by
  induction n generalizing s with
  | zero => exact .refl s
  | succ n ih =>
    unfold grantPasses
    split
    · exact ((considerAll_spares s _).trans (grant_spares _ _)).trans (ih _)
    · exact considerAll_spares s _

theorem startVerify_spares : Spares h p s (startVerify s d) := by
  unfold startVerify
  split
  · split
    · exact .refl s
    · split
      · exact .refl s
      · split
        · exact (modClip_spares s _ _).trans (writeDest_spares _ d _)
        · exact .refl s
  · exact .refl s

theorem afterEvent_spares : Spares h p s (afterEvent s) :=
  (grantPasses_spares s _).trans (.foldl _ (fun t e => startVerify_spares t e) _ _)

end Sys2Proof.Machine
end

