-- ==== Sys2Proof/Proofs/Detaching.lean ====
section
/-! PROOF. Attach and detach on a source port, and the end of the attempt of a card that loses its source (R7, R17, R60). -/

namespace Sys2Proof.Machine

variable {s t : Part} {h : CardId} {p : PortId} {k : ClipId}

/-! ## A fault on a clip (R146, R153) -/

theorem raise_dests (s : Part) (r : Report) : (raise r s).dests = s.dests := by rw [raise_frame]
theorem raise_channels (s : Part) (r : Report) : (raise r s).channels = s.channels := by rw [raise_frame]

/-- R153 to R155: the tables after a mark has been opened on a clip. -/
theorem openClipMark_writes {f : FaultKind} {y : Clip} (hy : s.clips[k] = some y) (hf : y.openMarks.has f = false) :
    (openClipMark k f s).clips =
        s.clips.set k (some { y with openMarks := y.openMarks.insert f, waivedMarks := y.waivedMarks.erase f })
      ∧ (openClipMark k f s).cards = s.cards.set y.card
        { s.cards[y.card] with
          generation := (s.cards[y.card].generation + 1) % 65536
          state := if s.cards[y.card].state = .copied then .held else s.cards[y.card].state } := by
  rw [openClipMark, hy]
  dsimp only
  rw [if_neg (by rw [hf]; decide)]
  exact ⟨writeCard_clips _ _ _, noteOpening_cards _ _⟩

theorem openClipMark_open {f : FaultKind} {y : Clip} (hy : s.clips[k] = some y) (hf : y.openMarks.has f = true) :
    openClipMark k f s = s := by
  rw [openClipMark, hy]
  exact if_pos hf

/-- R146, R153: a fault of a kind that marks clips opens its mark on the clip it names, unless its card is CLEARED, and touches
no other clip and no other card. -/
theorem raise_onClip {r : Report} {y : Clip} (hcard : r.kind.marksCard = false) (hclip : r.kind.marksClip = true)
    (hk : r.clip = some k) (hr : r.card = some y.card) (hy : s.clips[k] = some y) :
    (∃ m w, (raise r s).clips[k] = some { y with openMarks := m, waivedMarks := w }
        ∧ (s.cards[y.card].state ≠ .cleared → m.has r.kind = true))
      ∧ (∀ j : ClipId, j ≠ k → (raise r s).clips[j] = s.clips[j])
      ∧ ∀ g : CardId, g ≠ y.card → (raise r s).cards[g] = s.cards[g] := by
  cases hafter : afterClearance s r with
  | true =>
    have hraise : raise r s = { s with log := logFault true r s.log } := by rw [raise, if_pos hafter]
    rw [hraise]
    refine ⟨⟨y.openMarks, y.waivedMarks, hy, fun hst => absurd ?_ hst⟩, fun _ _ => rfl, fun _ _ => rfl⟩
    rw [afterClearance, hr] at hafter
    simpa using hafter
  | false =>
    have hraise : raise r s = openClipMark k r.kind { s with log := logFault false r s.log } := by
      rw [raise, if_neg (by rw [hafter]; decide), openMark, hcard, hclip, hk]
      rfl
    rw [hraise]
    cases hm : y.openMarks.has r.kind with
    | true =>
      rw [openClipMark_open (s := { s with log := logFault false r s.log }) hy hm]
      exact ⟨⟨y.openMarks, y.waivedMarks, hy, fun _ => hm⟩, fun _ _ => rfl, fun _ _ => rfl⟩
    | false =>
      obtain ⟨hclips, hcards⟩ := openClipMark_writes (s := { s with log := logFault false r s.log }) hy hm
      rw [hclips, hcards]
      refine ⟨⟨y.openMarks.insert r.kind, y.waivedMarks.erase r.kind, ?_, fun _ => MarkSet.has_insert_self _ _⟩,
        fun j hj => ?_, fun g hg => ?_⟩
      · rw [get_set, if_pos rfl]
      · rw [get_set, if_neg (Ne.symm hj)]
      · rw [get_set, if_neg (Ne.symm hg)]

/-! ## The clip of an attempt that has ended (R57 steps 3 and 4) -/

/-- From `s` to `t` the clip `k`, whose record was `b`, has a new state, and perhaps a mark more; no other clip and no card
but its own has changed. -/
structure ClipSettled (s t : Part) (k : ClipId) (b : Clip) : Prop where
  clip : ∃ y, t.clips[k] = some y ∧ y.restarted = b.restarted ∧ y.sourceDigest = b.sourceDigest ∧ y.copies = b.copies
  clips : ∀ j : ClipId, j ≠ k → t.clips[j] = s.clips[j]
  cards : ∀ g : CardId, g ≠ b.card → t.cards[g] = s.cards[g]
  dests : t.dests = s.dests
  channels : t.channels = s.channels

/-- A clip changed. -/
theorem modClip_settled {f : Clip → Clip} {b : Clip} (hb : s.clips[k] = some b)
    (hf : (f b).restarted = b.restarted ∧ (f b).sourceDigest = b.sourceDigest ∧ (f b).copies = b.copies) :
    (modClip k f s).clips[k] = some (f b) ∧ ClipSettled s (modClip k f s) k b := by
  have hclip : (modClip k f s).clips[k] = some (f b) := by
    rw [modClip_get, if_pos rfl, hb, Option.map_some]
  refine ⟨hclip, ⟨f b, hclip, hf⟩, fun j hj => ?_, fun g _ => ?_, modClip_dests s k f, modClip_channels s k f⟩
  · rw [modClip_get, if_neg (Ne.symm hj)]
  · rw [modClip_cards]

/-- A clip changed, and a fault raised against it. -/
theorem raise_modClip_settled {f : Clip → Clip} {b : Clip} {kind : FaultKind} (n : Nat) (hb : s.clips[k] = some b)
    (hf : (f b).restarted = b.restarted ∧ (f b).sourceDigest = b.sourceDigest ∧ (f b).copies = b.copies)
    (hcard : (f b).card = b.card) (hkind : kind.marksCard = false ∧ kind.marksClip = true) :
    (∃ m w, (raise (clipReport s kind k none n) (modClip k f s)).clips[k]
          = some { f b with openMarks := m, waivedMarks := w }
        ∧ (s.cards[b.card].state ≠ .cleared → m.has kind = true))
      ∧ (raise (clipReport s kind k none n) (modClip k f s)).log =
        logFault (decide (s.cards[b.card].state = .cleared)) ⟨kind, some b.card, some k, none, none, n⟩ s.log
      ∧ ClipSettled s (raise (clipReport s kind k none n) (modClip k f s)) k b := by
  obtain ⟨hclip, hmod⟩ := modClip_settled hb hf
  have hreport : clipReport s kind k none n = ⟨kind, some b.card, some k, none, none, n⟩ := by
    rw [clipReport, clipCard, hb, Option.map_some]
  rw [hreport]
  obtain ⟨⟨m, w, hy, hm⟩, hclips, hcards⟩ := raise_onClip (s := modClip k f s) (y := f b)
    (r := ⟨kind, some b.card, some k, none, none, n⟩) hkind.1 hkind.2 rfl (by rw [hcard]) hclip
  rw [Part.card_congr _ hcard, modClip_cards] at hm
  refine ⟨⟨m, w, hy, hm⟩, ?_, ⟨_, hy, hf⟩, fun j hj => (hclips j hj).trans (hmod.clips j hj), fun g hg => ?_,
    (raise_dests _ _).trans hmod.dests, (raise_channels _ _).trans hmod.channels⟩
  · rw [raise_log, modClip_log, afterClearance, modClip_cards]
    rfl
  · exact (hcards g (by rw [hcard]; exact hg)).trans (hmod.cards g hg)

/-- R57 step 4: a failed attempt counted. -/
theorem countFailed_counts {b : Clip} (hb : s.clips[k] = some b) :
    FailureCounted s s.log k b (countFailed k s) ∧ ClipSettled s (countFailed k s) k b := by
  unfold countFailed
  rw [hb]
  dsimp only
  split
  · rename_i hlt
    obtain ⟨hclip, hmod⟩ := modClip_settled (f := fun c => { c with failed := c.failed + 1, state := .listed }) hb
      ⟨rfl, rfl, rfl⟩
    exact ⟨⟨_, hclip, fun _ => ⟨rfl, rfl, rfl, modClip_log _ _ _⟩, fun hle => absurd hlt (not_lt.mpr hle)⟩, hmod⟩
  · rename_i hle
    obtain ⟨⟨m, w, hy, hm⟩, hlog, hmod⟩ := raise_modClip_settled
      (f := fun c => { c with failed := 3, state := .failed }) (kind := .clipFailed) 3 hb ⟨rfl, rfl, rfl⟩ rfl ⟨rfl, rfl⟩
    exact ⟨⟨_, hy, fun hlt => absurd hlt hle, fun _ => ⟨rfl, rfl, hlog, hm⟩⟩, hmod⟩

/-- R57 steps 3 and 4: the clip of an attempt that has ended. -/
theorem settleClip_settles {b : Clip} (hb : s.clips[k] = some b) :
    AttemptSettled s s.log k b b.live (settleClip k s) ∧ ClipSettled s (settleClip k s) k b := by
  unfold settleClip
  rw [hb]
  dsimp only
  split
  · rename_i hzero
    obtain ⟨hcount, hmod⟩ := countFailed_counts hb
    exact ⟨⟨fun _ => hcount, fun hlive => by omega⟩, hmod⟩
  · rename_i hlive
    split
    · rename_i hshort
      obtain ⟨⟨m, w, hy, hm⟩, hlog, hmod⟩ := raise_modClip_settled (f := fun c => { c with state := .written })
        (kind := .copyShort) b.live hb ⟨rfl, rfl, rfl⟩ rfl ⟨rfl, rfl⟩
      exact ⟨⟨fun hzero => absurd hzero hlive, fun _ =>
        ⟨_, hy, rfl, rfl, fun hreq => absurd hshort (not_lt.mpr hreq), fun _ => ⟨hm, hlog⟩⟩⟩, hmod⟩
    · rename_i henough
      obtain ⟨hclip, hmod⟩ := modClip_settled (f := fun c => { c with state := .written }) hb ⟨rfl, rfl, rfl⟩
      exact ⟨⟨fun hzero => absurd hzero hlive, fun _ =>
        ⟨_, hclip, rfl, rfl, fun _ => ⟨rfl, modClip_log _ _ _⟩, fun hshort => absurd hshort henough⟩⟩, hmod⟩

/-- What `AttemptSettled` says depends on the part before only in the clip's card: whether it is CLEARED, and its required
copies. -/
theorem AttemptSettled.of_card {l : FaultLog} {c : Clip} {x : Vector Copy 6} {live : Nat} {q : Part}
    (ha : AttemptSettled t l k { c with copies := x } live q) (ht : t.cards[c.card].state ≠ .cleared)
    (hs : s.cards[c.card].state ≠ .cleared) (hreq : t.cards[c.card].required = s.cards[c.card].required) :
    AttemptSettled s l k c live q := by
  unfold AttemptSettled FailureCounted at ha ⊢
  dsimp only at ha
  simp only [hreq, ne_eq, eq_false ht, decide_false] at ha
  simp only [ne_eq, eq_false hs, decide_false]
  exact ha

theorem Clip.live_congr {b c : Clip} (hx : b.copies = c.copies) : b.live = c.live := by rw [Clip.live, Clip.live, hx]

/-! ## A copying card that loses its source (R17) -/

theorem withdrawAll_channels_kept (s : Part) (ds : DestSet) : (withdrawAll ds s).channels = s.channels := by
  unfold withdrawAll
  generalize ds.members = l
  induction l generalizing s with
  | nil => rfl
  | cons d rest ih => exact (ih _).trans (dropOut_channels s d)

theorem settleClip_channels (s : Part) (k : ClipId) : (settleClip k s).channels = s.channels := by
  cases hb : s.clips[k] with
  | none => rw [settleClip, hb]
  | some b => exact (settleClip_settles hb).2.channels

/-- The part once the card has lost its source, before its channel stops: what R17 writes. -/
theorem sourceTaken_writes (hst : s.cards[h].state ≠ .cleared) :
    (sourceTaken h p s).clips = s.clips ∧ (sourceTaken h p s).channels = s.channels
      ∧ (sourceTaken h p s).dests = s.dests
      ∧ (sourceTaken h p s).log = logFault false ⟨.sourceLost, some h, inFlightClip s h, none, none, p.val⟩ s.log
      ∧ (∀ g : CardId, g ≠ h → (sourceTaken h p s).cards[g] = s.cards[g])
      ∧ (sourceTaken h p s).cards[h].state = .held ∧ (sourceTaken h p s).cards[h].source = none
      ∧ (sourceTaken h p s).cards[h].openMarks.has .sourceLost = true
      ∧ (sourceTaken h p s).cards[h].required = s.cards[h].required := by
  unfold sourceTaken
  generalize hr : (⟨.sourceLost, some h, inFlightClip s h, none, none, p.val⟩ : Report) = r
  have hkind : r.kind = .sourceLost := by rw [← hr]
  have hcard : r.card = some h := by rw [← hr]
  obtain ⟨hclips, hcards, hmark⟩ := raise_onCard s h r (by rw [hkind]; rfl) hcard
  have hafter : afterClearance s r = false := by
    rw [afterClearance, hcard]
    simpa using hst
  have hmarked := raise_marked s r (hr ▸ sourceLost_aimed s h _ _)
  have hrequired : (raise r s).cards[h].required = s.cards[h].required := by
    rcases hmarked.card h with e | ⟨-, -, -, -, e⟩
    · rw [e]
    · exact e
  dsimp only
  rw [writeCard_clips, writeCard_channels, writeCard_dests, writeCard_log, writeCard_cards, raise_log, hafter, get_set,
    if_pos rfl]
  refine ⟨hclips, hmarked.channels, hmarked.dests, rfl, fun g hg => ?_, rfl, rfl, hkind ▸ hmark hst, hrequired⟩
  rw [get_set, if_neg (Ne.symm hg)]
  exact hcards g hg

/-- R60: a channel that is not RUNNING, and the part around it. -/
theorem detachChannel_notRunning (hp : s.channels[p].state ≠ .running) :
    (detachChannel p s).dests = s.dests ∧ (detachChannel p s).clips = s.clips ∧ (detachChannel p s).cards = s.cards
      ∧ (detachChannel p s).log = s.log := by
  unfold detachChannel
  split
  · exact ⟨rfl, rfl, rfl, rfl⟩
  · exact ⟨rfl, rfl, rfl, rfl⟩
  · rename_i hrun
    exact absurd hrun hp

/-- R60: the channels after a detach. -/
theorem detachChannel_channels (s : Part) (p : PortId) :
    (∀ o : PortId, o ≠ p → (detachChannel p s).channels[o] = s.channels[o])
      ∧ (s.channels[p].state = .idle → (detachChannel p s).channels[p] = s.channels[p])
      ∧ (s.channels[p].state ≠ .idle → (detachChannel p s).channels[p].Idles s.channels[p].tagCounter) := by
  have idled {t : Part} (ht : t.channels = s.channels.set p (Channel.idle s.channels[p].tagCounter))
      (hidle : s.channels[p].state ≠ .idle) : (∀ o : PortId, o ≠ p → t.channels[o] = s.channels[o])
        ∧ (s.channels[p].state = .idle → t.channels[p] = s.channels[p])
        ∧ (s.channels[p].state ≠ .idle → t.channels[p].Idles s.channels[p].tagCounter) := by
    rw [ht]
    refine ⟨fun o ho => ?_, fun e => absurd e hidle, fun _ => ?_⟩
    · rw [get_set, if_neg (Ne.symm ho)]
    · rw [get_set, if_pos rfl]
      exact Channel.idle_idles _
  unfold detachChannel
  split
  · rename_i hidle
    exact ⟨fun _ _ => rfl, fun _ => rfl, fun hn => absurd hidle hn⟩
  · rename_i hp
    exact idled rfl (by rw [hp]; decide)
  · rename_i hp
    have hidle : s.channels[p].state ≠ .idle := by rw [hp]; decide
    split
    · refine idled ?_ hidle
      rw [closeAttempt, settleClip_channels, joinQueues_channels, idleChannel, setChannel_channels,
        withdrawAll_channels_kept]
    · exact idled rfl hidle

section Running

variable {c : Clip} (hp : s.channels[p].state = .running) (hk : s.channels[p].clip = some k)
  (hw : ∀ d : DestId, s.channels[p].writing.mem d = true → s.dests[d].holder = some k)
include hp hk hw

/-- R60: the attempt of a RUNNING channel, closed. -/
theorem detachChannel_running : detachChannel p s =
    settleClip k (attemptDropped p k s.channels[p].writing s.channels[p].finished s) := by
  unfold detachChannel
  rw [hp]
  dsimp only
  rw [hk]
  exact closeAttempt_withdrawn s k p _ hw

/-- R60: what the end of the attempt leaves. -/
theorem detachChannel_attempt (hc : s.clips[k] = some c) :
    (∀ d : DestId, (detachChannel p s).dests[d] =
        { s.dests[d] with
          holder := if s.channels[p].writing.mem d then none else s.dests[d].holder
          draining := if s.channels[p].writing.mem d then !s.dests[d].stores.isEmpty else s.dests[d].draining
          queue := if s.channels[p].finished.mem d then s.dests[d].queue ++ [k] else s.dests[d].queue })
      ∧ (∀ j : ClipId, j ≠ k → (detachChannel p s).clips[j] = s.clips[j])
      ∧ (∀ g : CardId, g ≠ c.card → (detachChannel p s).cards[g] = s.cards[g])
      ∧ ∃ y, (detachChannel p s).clips[k] = some y ∧ y.restarted = c.restarted ∧ y.sourceDigest = c.sourceDigest
        ∧ (∀ d : DestId, y.copies[d] = if s.channels[p].writing.mem d then .none else c.copies[d])
        ∧ ∃ x : Vector Copy 6, AttemptSettled (attemptDropped p k s.channels[p].writing s.channels[p].finished s) s.log k
            { c with copies := x } y.live (detachChannel p s) := by
  rw [detachChannel_running hp hk hw]
  have hdests := attemptDropped_dests hw s.channels[p].finished
  have hclips := attemptDropped_clips hw s.channels[p].finished
  have hcards : (attemptDropped p k s.channels[p].writing s.channels[p].finished s).cards = s.cards := by
    rw [attemptDropped, joinQueues_cards, idleChannel, setChannel_cards, withdrawAll_cards hw]
  have hlog : (attemptDropped p k s.channels[p].writing s.channels[p].finished s).log = s.log := by
    rw [attemptDropped, joinQueues_log, idleChannel, setChannel_log, withdrawAll_log hw]
  have hcopies (d : DestId) : (c.withoutCopies s.channels[p].writing.members).copies[d] =
      if s.channels[p].writing.mem d then .none else c.copies[d] := by
    rw [Clip.withoutCopies_get]
    simp only [DestSet.mem_members]
  have hb := hclips k
  rw [if_pos rfl, hc, Option.map_some, Clip.withoutCopies_eq] at hb
  generalize (c.withoutCopies s.channels[p].writing.members).copies = x at hb hcopies
  generalize attemptDropped p k s.channels[p].writing s.channels[p].finished s = t at hdests hclips hcards hlog hb ⊢
  obtain ⟨hsettled, hmod⟩ := settleClip_settles hb
  obtain ⟨y, hy, hrestarted, hdigest, hycopies⟩ := hmod.clip
  refine ⟨fun d => ?_, fun j hj => ?_, fun g hg => ?_, y, hy, hrestarted, hdigest, fun d => ?_, x, ?_⟩
  · rw [hmod.dests, hdests]
  · rw [hmod.clips j hj, hclips, if_neg (Ne.symm hj)]
  · rw [hmod.cards g hg, hcards]
  · rw [hycopies]
    exact hcopies d
  · rw [Clip.live_congr hycopies, ← hlog]
    exact hsettled

end Running

/-! ## The events (R7, R17) -/

section Fitted

variable (hp : p.val < s.reset.sources)
include hp

theorem sourceDetach_fitted : sourceDetach p s = detach p s := if_pos hp

theorem sourceAttach_detached (ha : s.ports[p].attached = false) : sourceAttach p s = setPort p ⟨true, none⟩ s := by
  rw [sourceAttach, if_pos hp, if_neg (by rw [ha]; decide)]

theorem sourceAttach_attached (ha : s.ports[p].attached = true) :
    sourceAttach p s = setPort p ⟨true, none⟩ (sourceDetach p s) := by
  rw [sourceAttach, if_pos hp, if_pos ha, sourceDetach_fitted hp]

end Fitted

theorem detach_unbound (hb : s.ports[p].binding = none) : detach p s = setPort p ⟨false, none⟩ s := by
  rw [detach, hb]

/-- The part at the end of a copying card's detach, before the grant evaluation (R17, R60). -/
def detached (h : CardId) (p : PortId) (s : Part) : Part := detachChannel p (sourceTaken h p (setPort p ⟨false, none⟩ s))

section Bound

variable (hb : s.ports[p].binding = some h)
include hb

theorem detach_mounted (hst : s.cards[h].state = .mounted) : detach p s = release h (setPort p ⟨false, none⟩ s) := by
  rw [detach, hb]
  dsimp only
  rw [detachCard, setPort_cards, hst]

theorem detach_settled (hst : s.cards[h].state = .copied ∨ s.cards[h].state = .held ∨ s.cards[h].state = .halted
      ∨ s.cards[h].state = .cleared) (hso : s.cards[h].source = some p) :
    detach p s = queueNotice (.cardState h s.cards[h].label s.cards[h].state none)
      { s with
        cards := s.cards.set h { s.cards[h] with source := none }
        ports := s.ports.set p ⟨false, none⟩ } := by
  have hloses : detach p s = loseSource h (setPort p ⟨false, none⟩ s) := by
    rw [detach, hb]
    dsimp only
    rw [detachCard, setPort_cards]
    rcases hst with e | e | e | e <;> rw [e]
  rw [hloses]
  unfold loseSource
  refine (writeCard_changed (.inr ?_) ?_).trans ?_
  · rw [setPort_cards, hso]
    exact fun e => nomatch e
  · exact fun _ => rfl
  · rfl

theorem detach_copying (hst : s.cards[h].state = .copying ∨ s.cards[h].state = .suspending
      ∨ s.cards[h].state = .suspended) :
    detach p s =
      if s.channels[p].state = .idle then detached h p s else afterEvent (detached h p s) := by
  have hcopies : detach p s = detachCopying h p (setPort p ⟨false, none⟩ s) := by
    rw [detach, hb]
    dsimp only
    rw [detachCard, setPort_cards]
    rcases hst with e | e | e <;> rw [e]
  have hcleared : (setPort p ⟨false, none⟩ s).cards[h].state ≠ .cleared := by
    rw [setPort_cards]
    rcases hst with e | e | e <;> rw [e] <;> decide
  obtain ⟨-, hchannels, -⟩ := sourceTaken_writes (p := p) hcleared
  rw [hcopies, detachCopying_eq, setPort_channels]
  split
  · rename_i hidle
    rw [detached, detachChannel, hchannels, setPort_channels, hidle]
  · rfl

end Bound

/-- R148: the entry a fault adds to a log that is not full stands behind those before it, and stays there. -/
theorem logged_stays {l m : FaultLog} {r : Report} (hm : l.marker = none) (hlen : l.entries.length < 63)
    (hpre : (logFault false r l).entries <+: m.entries) :
    m.entries[l.entries.length]? = some ⟨l.nextSeq, r.kind, r.card, r.clip, r.dest, r.frame, r.detail, false⟩ := by
  have hentries : (logFault false r l).entries =
      l.entries ++ [⟨l.nextSeq, r.kind, r.card, r.clip, r.dest, r.frame, r.detail, false⟩] := by
    rw [logFault, hm]
    exact congrArg FaultLog.entries (if_pos hlen)
  obtain ⟨rest, hrest⟩ := hpre
  rw [← hrest, hentries]
  simp

section Copying

variable (hst : s.cards[h].state = .copying ∨ s.cards[h].state = .suspending ∨ s.cards[h].state = .suspended)
include hst

theorem not_cleared_of_copying : s.cards[h].state ≠ .cleared := by
  rcases hst with e | e | e <;> rw [e] <;> decide

/-- R17: the card, the ports and the log once the channel has stopped. -/
theorem detached_card (p : PortId) :
    (detached h p s).ports = s.ports.set p ⟨false, none⟩ ∧ (detached h p s).cards[h].state = .held
      ∧ (detached h p s).cards[h].source = none ∧ (detached h p s).cards[h].openMarks.has .sourceLost = true
      ∧ (∀ g : CardId, g ≠ h → (detached h p s).cards[g].source = s.cards[g].source)
      ∧ (logFault false ⟨.sourceLost, some h, inFlightClip s h, none, none, p.val⟩ s.log).entries
          <+: (detached h p s).log.entries := by
  obtain ⟨-, -, -, hlog, hcards, hheld, hsource, hmark, -⟩ :=
    sourceTaken_writes (p := p) (s := setPort p ⟨false, none⟩ s) (not_cleared_of_copying hst)
  have hports := sourceTaken_ports (setPort p ⟨false, none⟩ s) h p
  unfold detached
  generalize sourceTaken h p (setPort p ⟨false, none⟩ s) = u at hlog hcards hheld hsource hmark hports ⊢
  have hspares : Spares h p u (detachChannel p u) := detachChannel_spares u p
  obtain ⟨hheld', hmarks⟩ := hspares.held hheld
  refine ⟨(detachChannel_keeps u p).ports.trans hports, hheld', (hspares.source h).trans hsource, hmarks _ hmark,
    fun g hg => ?_, ?_⟩
  · rw [hspares.source g, hcards g hg]
    rfl
  · have hpre := hspares.log
    rw [hlog] at hpre
    exact hpre

/-- R60: the channels once the channel has stopped. -/
theorem detached_channels (p : PortId) :
    (∀ o : PortId, o ≠ p → (detached h p s).channels[o] = s.channels[o])
      ∧ (s.channels[p].state = .idle → (detached h p s).channels[p].state = .idle)
      ∧ (s.channels[p].state ≠ .idle → (detached h p s).channels[p].Idles s.channels[p].tagCounter) := by
  obtain ⟨-, hchannels, -⟩ :=
    sourceTaken_writes (p := p) (s := setPort p ⟨false, none⟩ s) (not_cleared_of_copying hst)
  obtain ⟨hothers, hidle, hstops⟩ := detachChannel_channels (sourceTaken h p (setPort p ⟨false, none⟩ s)) p
  rw [hchannels, setPort_channels] at hothers hidle hstops
  exact ⟨hothers, fun e => (congrArg Channel.state (hidle e)).trans e, hstops⟩

/-- R17: a card whose channel is not RUNNING. -/
theorem detached_notRunning (hp : s.channels[p].state ≠ .running) :
    (detached h p s).dests = s.dests ∧ (detached h p s).clips = s.clips
      ∧ (detached h p s).log = logFault false ⟨.sourceLost, some h, inFlightClip s h, none, none, p.val⟩ s.log
      ∧ ∀ g : CardId, g ≠ h → (detached h p s).cards[g] = s.cards[g] := by
  obtain ⟨hclips, hchannels, hdests, hlog, hcards, -⟩ :=
    sourceTaken_writes (p := p) (s := setPort p ⟨false, none⟩ s) (not_cleared_of_copying hst)
  rw [setPort_clips] at hclips
  rw [setPort_channels] at hchannels
  rw [setPort_dests] at hdests
  rw [setPort_cards] at hcards
  unfold detached
  generalize sourceTaken h p (setPort p ⟨false, none⟩ s) = u at hclips hchannels hdests hlog hcards ⊢
  rw [← hchannels] at hp
  obtain ⟨hdests', hclips', hcards', hlog'⟩ := detachChannel_notRunning hp
  rw [hcards']
  exact ⟨hdests'.trans hdests, hclips'.trans hclips, hlog'.trans hlog, hcards⟩

/-- R60: the attempt of a RUNNING channel of the card. -/
theorem detached_attempt {c : Clip} (hp : s.channels[p].state = .running) (hk : s.channels[p].clip = some k)
    (hc : s.clips[k] = some c) (hcard : c.card = h)
    (hw : ∀ d : DestId, s.channels[p].writing.mem d = true → s.dests[d].holder = some k) :
    (∀ d : DestId, (detached h p s).dests[d] =
        { s.dests[d] with
          holder := if s.channels[p].writing.mem d then none else s.dests[d].holder
          draining := if s.channels[p].writing.mem d then !s.dests[d].stores.isEmpty else s.dests[d].draining
          queue := if s.channels[p].finished.mem d then s.dests[d].queue ++ [k] else s.dests[d].queue })
      ∧ (∀ j : ClipId, j ≠ k → (detached h p s).clips[j] = s.clips[j])
      ∧ (∀ g : CardId, g ≠ h → (detached h p s).cards[g] = s.cards[g])
      ∧ ∃ y, (detached h p s).clips[k] = some y ∧ y.restarted = c.restarted ∧ y.sourceDigest = c.sourceDigest
        ∧ (∀ d : DestId, y.copies[d] = if s.channels[p].writing.mem d then .none else c.copies[d])
        ∧ AttemptSettled s (logFault false ⟨.sourceLost, some h, inFlightClip s h, none, none, p.val⟩ s.log) k c y.live
            (detached h p s) := by
  subst hcard
  obtain ⟨hclips, hchannels, hdests, hlog, hcards, hheld, -, -, hreq⟩ :=
    sourceTaken_writes (p := p) (s := setPort p ⟨false, none⟩ s) (not_cleared_of_copying hst)
  rw [setPort_clips] at hclips
  rw [setPort_channels] at hchannels
  rw [setPort_dests] at hdests
  rw [setPort_cards] at hcards hreq
  unfold detached
  generalize sourceTaken c.card p (setPort p ⟨false, none⟩ s) = u at hclips hchannels hdests hlog hcards hheld hreq ⊢
  rw [← hchannels] at hp hk hw
  rw [← hdests] at hw
  rw [← hclips] at hc
  obtain ⟨ddests, dclips, dcards, y, hy, hrestarted, hdigest, hcopies, x, hsettled⟩ := detachChannel_attempt hp hk hw hc
  have hdropped : (attemptDropped p k u.channels[p].writing u.channels[p].finished u).cards = u.cards := by
    rw [attemptDropped, joinQueues_cards, idleChannel, setChannel_cards, withdrawAll_cards hw]
  rw [← hchannels, ← hdests, ← hclips]
  refine ⟨ddests, dclips, fun g hg => (dcards g hg).trans (hcards g hg), y, hy, hrestarted, hdigest, hcopies, ?_⟩
  have hlog' : u.log = logFault false ⟨.sourceLost, some c.card, inFlightClip s c.card, none, none, p.val⟩ s.log := hlog
  rw [← hlog']
  refine hsettled.of_card ?_ (not_cleared_of_copying hst) ?_
  · rw [hdropped, hheld]
    decide
  · rw [hdropped, hreq]

/-- R17: the card, its port and its channel after a detach. -/
theorem detach_stops (hb : s.ports[p].binding = some h) (hsole : ∀ g : CardId, g ≠ h → s.cards[g].source ≠ some p) :
    (detach p s).ports[p] = ⟨false, none⟩ ∧ (detach p s).cards[h].state = .held ∧ (detach p s).cards[h].source = none
      ∧ (detach p s).cards[h].openMarks.has .sourceLost = true ∧ (detach p s).channels[p].state = .idle
      ∧ (logFault false ⟨.sourceLost, some h, inFlightClip s h, none, none, p.val⟩ s.log).entries
          <+: (detach p s).log.entries := by
  obtain ⟨hports, hheld, hsource, hmark, hothers, hlog⟩ := detached_card hst p
  obtain ⟨-, hidle, hstops⟩ := detached_channels hst p
  have hport : (detached h p s).ports[p] = ⟨false, none⟩ := by
    rw [hports, get_set, if_pos rfl]
  rw [detach_copying hb hst]
  by_cases hi : s.channels[p].state = .idle
  · rw [if_pos hi]
    exact ⟨hport, hheld, hsource, hmark, hidle hi, hlog⟩
  · rw [if_neg hi]
    have hspares : Spares h p (detached h p s) (afterEvent (detached h p s)) := afterEvent_spares _
    obtain ⟨hheld', hmarks⟩ := hspares.held hheld
    refine ⟨?_, hheld', (hspares.source h).trans hsource, hmarks _ hmark, hspares.idle (hstops hi).1 fun g => ?_,
      hlog.trans hspares.log⟩
    · exact (congrArg (fun v : Vector SourcePort 4 => v[p]) (afterEvent_keeps (detached h p s)).ports).trans hport
    · by_cases hg : g = h
      · subst hg
        rw [hsource]
        exact fun e => nomatch e
      · rw [hothers g hg]
        exact hsole g hg

end Copying

/-- R187: an event that is taken. -/
theorem exec_event {s : State} {c : Instr} {f : Part → Part} (hexec : exec c s = .next (s.onPart (unlessReset f)))
    (hr : s.runs) : exec c s = .next { s with part := f s.part } := by
  rw [hexec, State.onPart, unlessReset_runs _ _ hr]

end Sys2Proof.Machine

namespace Sys2Proof.Proofs
open Machine

/-- Settles O33: the cases of an attach and a detach (`sourceAttach_detached` to `detach_settled`), and for a copying card what
is left once its channel has stopped (`detached_card` to `detached_attempt`) and after the grant evaluation
(`detach_stops`). -/
theorem sourceEvents : Obligations.SourceEvents := by
  intro s p hr
  have attached : exec (.sourceAttach p) s = .next { s with part := sourceAttach p s.part } := exec_event rfl hr
  have detaches : exec (.sourceDetach p) s = .next { s with part := sourceDetach p s.part } := exec_event rfl hr
  refine ⟨fun hp => ?_, fun hp => ?_⟩
  · rw [attached, detaches, sourceAttach, sourceDetach, if_neg (not_lt.mpr hp), if_neg (not_lt.mpr hp)]
    exact ⟨rfl, rfl⟩
  · refine ⟨fun ha => ?_, fun ha => ⟨_, detaches, ?_⟩, fun hb => ?_, fun h hb => ?_⟩
    · rw [attached, sourceAttach_detached hp ha]
      rfl
    · rw [attached, sourceAttach_attached hp ha]
      rfl
    · rw [detaches, sourceDetach_fitted hp, detach_unbound hb]
      rfl
    rw [detaches, sourceDetach_fitted hp]
    refine ⟨fun hst => ?_, fun hst hso => ?_, fun hst hsole => ?_, fun hst => ?_⟩
    · rw [detach_mounted hb hst]
      rfl
    · rw [detach_settled hb hst hso]
    · obtain ⟨hport, hheld, hsource, hmark, hidle, hlog⟩ := detach_stops hst hb hsole
      exact ⟨_, rfl, hport, hheld, hsource, hmark, hidle, fun hm hlen => logged_stays hm hlen hlog⟩
    · obtain ⟨hports, hheld, hsource, -⟩ := detached_card hst p
      obtain ⟨hothers, -, hstops⟩ := detached_channels hst p
      refine ⟨detached h p s.part, _, rfl, ?_, hports, hheld, hsource, hothers, hstops, detached_notRunning hst,
        fun k c hp hk hc hcard hw => detached_attempt hst hp hk hc hcard hw⟩
      rw [detach_copying hb hst]

end Sys2Proof.Proofs
end

