-- ==== Sys2Proof/Proofs/Considering.lean ====
section
/-! PROOF. What considering a card does (R37, R44): which cards are ready, the destinations found full, the target set, and the
candidate that comes of it. -/

namespace Sys2Proof.Machine

variable (s : Part) (h : CardId) (d : DestId) (k : ClipId) (c : Clip)

/-! ## The ready card (R44) -/

theorem freeChannel_isSome : (freeChannel s h).isSome = true ↔
    ∃ p : PortId, s.cards[h].source = some p ∧ s.channels[p].state = .idle := by
  unfold freeChannel
  cases s.cards[h].source with
  | none => simp
  | some p => simp

/-- R44: the first LISTED clip in manifest order. -/
theorem firstListed_iff : firstListed s h = some k ↔
    ∃ before rest x, s.cards[h].clips = before ++ k :: rest ∧ s.clips[k] = some x ∧ x.state = .listed
      ∧ ∀ j ∈ before, ∀ y, s.clips[j] = some y → y.state ≠ .listed := by
  constructor
  · intro hk
    obtain ⟨-, x, hx, hst⟩ := firstListed_some s h k hk
    obtain ⟨-, before, rest, hclips, hbefore⟩ := List.find?_eq_some_iff_append.mp hk
    refine ⟨before, rest, x, hclips, hx, hst, fun j hj y hy hlisted => ?_⟩
    have hj := hbefore j hj
    simp [hy, hlisted] at hj
  · rintro ⟨before, rest, x, hclips, hx, hst, hbefore⟩
    refine List.find?_eq_some_iff_append.mpr ⟨by simp [hx, hst], before, rest, hclips, fun j hj => ?_⟩
    cases hy : s.clips[j] with
    | none => rfl
    | some y => simpa using hbefore j hj y hy

/-- R44: the card that is ready and its next clip. -/
theorem readyClip_iff : readyClip s h = some k ↔
    s.cards[h].state = .copying ∧ inFlightClip s h = none ∧ (freeChannel s h).isSome = true
      ∧ firstListed s h = some k := by
  simp [readyClip, and_assoc]

variable {s h k} in
/-- R44: the next clip of a ready card is LISTED. -/
theorem readyClip_listed (hr : readyClip s h = some k) : ∃ x, s.clips[k] = some x ∧ x.state = .listed :=
  (firstListed_some s h k (readyClip_some hr).2.2).2

/-- R44: being ready is told by the card, the clip records and the channels. -/
theorem readyClip_congr {s t : Part} {h : CardId} (hcard : t.cards[h] = s.cards[h]) (hclips : t.clips = s.clips)
    (hchannels : t.channels = s.channels) : readyClip t h = readyClip s h := by
  unfold readyClip inFlightClip firstListed findClip freeChannel
  rw [hcard, hclips, hchannels]

/-! ## The test of the fit (R37) -/

/-- R37: the destination is in the card's route, ACTIVE and without a live copy of the clip. -/
def asksFor (s : Part) (h : CardId) (c : Clip) (d : DestId) : Bool :=
  s.cards[h].route.mem d && s.dests[d].state == .active && !c.copies[d].live

theorem asksFor_iff : asksFor s h c d = true ↔
    s.cards[h].route.mem d = true ∧ s.dests[d].state = .active ∧ c.copies[d].live = false := by
  simp [asksFor, and_assoc]

/-- R37: the destination is asked for and the clip does not fit on it. -/
def foundFull (s : Part) (h : CardId) (c : Clip) (d : DestId) : Bool :=
  asksFor s h c d && !s.dests[d].fits (sectorsOf c.length)

theorem foundFull_iff : foundFull s h c d = true ↔
    asksFor s h c d = true ∧ s.dests[d].fits (sectorsOf c.length) = false := by
  simp [foundFull]

/-- R37: the DEST_FULL of a destination. -/
def fullReport (s : Part) (k : ClipId) (c : Clip) (d : DestId) : Report :=
  ⟨.destFull, some c.card, some k, some d, none, s.dests[d].length - s.dests[d].cursor⟩

/-- R37: a destination found full goes to FULL and DEST_FULL is logged, which marks nothing. -/
theorem testFit_full (hd : foundFull s h c d = true) : testFit h k c s d =
    { s with
      dests := s.dests.set d { s.dests[d] with state := .full }
      notices := (testFit h k c s d).notices
      log := logFault (decide (s.cards[c.card].state = .cleared)) (fullReport s k c d) s.log } := by
  obtain ⟨hask, hfit⟩ := (foundFull_iff s h d c).mp hd
  obtain ⟨hroute, hst, hlive⟩ := (asksFor_iff s h d c).mp hask
  rw [testFit, if_pos ⟨hroute, hst, hlive, hfit⟩, raise_unmarked _ _ rfl rfl, writeDest_log, afterClearance]
  unfold writeDest
  split <;> rfl

theorem testFit_fits (hd : foundFull s h c d = false) : testFit h k c s d = s := by
  refine if_neg fun ⟨hroute, hst, hlive, hfit⟩ => ?_
  rw [(foundFull_iff s h d c).mpr ⟨(asksFor_iff s h d c).mpr ⟨hroute, hst, hlive⟩, hfit⟩] at hd
  cases hd

/-- R37 over a list of destinations: those found full go to FULL, each with its DEST_FULL, in the order of the list. -/
theorem testFit_foldl (l : List DestId) (hl : l.Nodup) :
    l.foldl (testFit h k c) s = { s with
        dests := (l.foldl (testFit h k c) s).dests
        notices := (l.foldl (testFit h k c) s).notices
        log := (l.foldl (testFit h k c) s).log }
      ∧ (∀ e : DestId, (l.foldl (testFit h k c) s).dests[e] =
        if e ∈ l ∧ foundFull s h c e = true then { s.dests[e] with state := .full } else s.dests[e])
      ∧ (l.foldl (testFit h k c) s).log = (l.filter (foundFull s h c)).foldl
        (fun m e => logFault (decide (s.cards[c.card].state = .cleared)) (fullReport s k c e) m) s.log := by
  induction l generalizing s with
  | nil => exact ⟨rfl, fun e => by simp, rfl⟩
  | cons d rest ih =>
    obtain ⟨hd, hrest⟩ := List.nodup_cons.mp hl
    obtain ⟨hframe, hdests, hlog⟩ := ih (testFit h k c s d) hrest
    rw [List.foldl_cons, List.filter_cons]
    cases hfull : foundFull s h c d with
    | false =>
      rw [testFit_fits s h d k c hfull] at hframe hdests hlog ⊢
      refine ⟨hframe, fun e => ?_, hlog⟩
      rw [hdests e]
      by_cases he : e = d
      · subst he; simp [hfull]
      · simp [he]
    | true =>
      have tested := testFit_full s h d k c hfull
      generalize testFit h k c s d = t at tested hframe hdests hlog ⊢
      have tdests (e : DestId) : t.dests[e] = if d = e then { s.dests[d] with state := .full } else s.dests[e] := by
        rw [tested]; exact get_set _ _ _ _
      have same (e : DestId) (he : e ∈ rest) : t.dests[e] = s.dests[e] := by
        rw [tdests, if_neg]
        rintro rfl
        exact hd he
      have tcards : t.cards = s.cards := by rw [tested]
      have hask (e : DestId) (he : e ∈ rest) : foundFull t h c e = foundFull s h c e := by
        simp only [foundFull, asksFor, same e he, tcards]
      refine ⟨by rw [hframe, tested], fun e => ?_, ?_⟩
      · rw [hdests e]
        by_cases he : e ∈ rest
        · rw [hask e he, same e he]
          simp [he]
        · rw [if_neg (fun h => he h.1), tdests]
          by_cases hde : d = e
          · subst hde; simp [hfull]
          · simp [hde, Ne.symm hde, he]
      · rw [hlog, List.filter_congr hask, if_pos rfl, List.foldl_cons, tested]
        refine List.foldl_ext _ _ _ fun m e he => ?_
        have hde : d ≠ e := by
          rintro rfl
          exact hd (List.mem_filter.mp he).1
        simp only [fullReport, get_set, if_neg hde]

/-! ## The consideration (R44) -/

/-- R37: the part once the destinations of a consideration have been tested. -/
def tested (h : CardId) (k : ClipId) (c : Clip) (s : Part) : Part := allDests.foldl (testFit h k c) s

theorem tested_frame : tested h k c s =
    { s with
      dests := (tested h k c s).dests, notices := (tested h k c s).notices, log := (tested h k c s).log } :=
  (testFit_foldl s h k c allDests (by decide)).1

theorem tested_dests : (tested h k c s).dests[d] =
    if foundFull s h c d = true then { s.dests[d] with state := .full } else s.dests[d] := by
  rw [tested, (testFit_foldl s h k c allDests (by decide)).2.1]
  simp only [mem_allDests, true_and]

theorem tested_cards : (tested h k c s).cards = s.cards := by rw [tested_frame]

/-- R44: the target set once the destinations have been tested. -/
theorem targetSet_tested : (targetSet h c (tested h k c s)).mem d = true ↔
    asksFor s h c d = true ∧ s.dests[d].fits (sectorsOf c.length) = true := by
  rw [targetSet, DestSet.mem_ofPred, tested_dests, tested_cards]
  by_cases hfull : foundFull s h c d = true
  · obtain ⟨-, hfit⟩ := (foundFull_iff s h d c).mp hfull
    simp only [if_pos hfull, hfit]
    simp
  · rw [if_neg hfull, asksFor_iff]
    simp only [Bool.and_eq_true, Bool.not_eq_true', beq_iff_eq]
    tauto

variable {s h k c}

theorem consider_notReady (hr : readyClip s h = none) : consider s h = (s, none) := by
  rw [consider, hr]

/-- R46: a clip with the required live copies asks for no destination. -/
theorem consider_copied (hr : readyClip s h = some k) (hc : s.clips[k] = some c) (hlive : s.cards[h].required ≤ c.live) :
    consider s h = (s, some ⟨h, k, DestSet.empty⟩) := by
  rw [consider, hr]
  simp only [hc, if_pos hlive]

theorem consider_enough (hr : readyClip s h = some k) (hc : s.clips[k] = some c) (hlive : c.live < s.cards[h].required)
    (hsize : s.cards[h].required ≤ c.live + (targetSet h c (tested h k c s)).size) :
    consider s h = (tested h k c s, some ⟨h, k, targetSet h c (tested h k c s)⟩) := by
  rw [consider, hr]
  simp only [hc, if_neg (not_le.mpr hlive)]
  rw [← tested, tested_cards, if_neg (not_lt.mpr hsize)]

theorem consider_short (hr : readyClip s h = some k) (hc : s.clips[k] = some c) {n : Nat}
    (hn : n = s.cards[h].required - (c.live + (targetSet h c (tested h k c s)).size))
    (hlive : c.live < s.cards[h].required)
    (hsize : c.live + (targetSet h c (tested h k c s)).size < s.cards[h].required) :
    consider s h = (shortfall h k n (tested h k c s), none) := by
  rw [consider, hr]
  simp only [hc, if_neg (not_le.mpr hlive)]
  rw [← tested, tested_cards, if_pos hsize, hn]

variable (s h)

/-- R44: the outcomes of a consideration. -/
theorem consider_cases :
    (readyClip s h = none ∧ consider s h = (s, none))
      ∨ ∃ k c, readyClip s h = some k ∧ s.clips[k] = some c
        ∧ ((s.cards[h].required ≤ c.live ∧ consider s h = (s, some ⟨h, k, DestSet.empty⟩))
          ∨ (c.live < s.cards[h].required
            ∧ s.cards[h].required ≤ c.live + (targetSet h c (tested h k c s)).size
            ∧ consider s h = (tested h k c s, some ⟨h, k, targetSet h c (tested h k c s)⟩))
          ∨ ∃ n, consider s h = (shortfall h k n (tested h k c s), none)) := by
  cases hr : readyClip s h with
  | none => exact .inl ⟨rfl, consider_notReady hr⟩
  | some k =>
    obtain ⟨c, hc, -⟩ := readyClip_listed hr
    refine .inr ⟨k, c, rfl, hc, ?_⟩
    rcases Nat.lt_or_ge c.live s.cards[h].required with hlive | hlive
    · rcases Nat.lt_or_ge (c.live + (targetSet h c (tested h k c s)).size) s.cards[h].required with hsize | hsize
      · exact .inr (.inr ⟨_, consider_short hr hc rfl hlive hsize⟩)
      · exact .inr (.inl ⟨hlive, hsize, consider_enough hr hc hlive hsize⟩)
    · exact .inl ⟨hlive, consider_copied hr hc hlive⟩

/-- R44: a card found short is HELD. -/
theorem shortfall_card (k : ClipId) (n : Nat) : (shortfall h k n s).cards[h].state = .held := by
  rw [shortfall, moveCard_self]
  rfl

end Sys2Proof.Machine
end

