-- ==== Sys2Proof/Proofs/AttemptEnd.lean ====
section
/-! PROOF. What the end of an attempt leaves (R47, R57, R58): its channel, the verify queues, its clip, its card, the log. -/

namespace Sys2Proof.Machine

variable (s : Part) (h g : CardId) (d : DestId) (k : ClipId) (p : PortId)

/-! ## The card of a fault (R153 to R155) -/

/-- From the card record `a` to `b` at most marks have opened: the state is kept, but that COPIED may have become HELD. -/
structure Card.MayReopen (a b : Card) : Prop where
  kept  : b = { a with
    openMarks := b.openMarks, waivedMarks := b.waivedMarks, generation := b.generation, state := b.state }
  state : b.state = a.state ∨ a.state = .copied ∧ b.state = .held

theorem Card.MayReopen.refl (a : Card) : a.MayReopen a := ⟨rfl, .inl rfl⟩

/-- R155: what an opening writes on the card. -/
theorem Card.mayReopen_noted (a : Card) (m w : MarkSet) (n : Nat) : a.MayReopen
    { a with
      openMarks := m, waivedMarks := w, generation := n, state := if a.state = .copied then .held else a.state } := by
  refine ⟨rfl, ?_⟩
  by_cases ha : a.state = .copied
  · exact .inr ⟨ha, if_pos ha⟩
  · exact .inl (if_neg ha)

theorem openCardMark_card (f : FaultKind) : s.cards[g].MayReopen (openCardMark h f s).cards[g] := by
  cases hf : s.cards[h].openMarks.has f with
  | true => rw [openCardMark_open s h f hf]; exact .refl _
  | false =>
    rw [openCardMark_cards s h f hf, get_set]
    by_cases hg : h = g
    · subst hg; rw [if_pos rfl]; exact Card.mayReopen_noted _ _ _ _
    · rw [if_neg hg]; exact .refl _

theorem openClipMark_card (f : FaultKind) : s.cards[g].MayReopen (openClipMark k f s).cards[g] := by
  cases hc : s.clips[k] with
  | none => rw [openClipMark, hc]; exact .refl _
  | some c =>
    cases hf : c.openMarks.has f with
    | true => rw [openClipMark_open hc hf]; exact .refl _
    | false =>
      rw [(openClipMark_writes hc hf).2, get_set]
      by_cases hg : c.card = g
      · subst hg; rw [if_pos rfl]; exact Card.mayReopen_noted _ _ _ _
      · rw [if_neg hg]; exact .refl _

/-- R146, R155: what a fault does to a card. -/
theorem raise_card (r : Report) : s.cards[g].MayReopen (raise r s).cards[g] := by
  unfold raise
  split
  · exact .refl _
  · unfold openMark
    split
    · split
      · exact openCardMark_card { s with log := logFault false r s.log } _ g _
      · exact .refl _
    · split
      · split
        · exact openClipMark_card { s with log := logFault false r s.log } g _ _
        · exact .refl _
      · exact .refl _

theorem modClip_card (f : Clip → Clip) : s.cards[g].MayReopen (modClip k f s).cards[g] := by
  rw [modClip_cards]
  exact .refl _

theorem raise_modClip_card (r : Report) (f : Clip → Clip) :
    s.cards[g].MayReopen (raise r (modClip k f s)).cards[g] := by
  simpa only [modClip_cards] using raise_card (modClip k f s) g r

/-- R57: what a failed attempt that is counted does to a card. -/
theorem countFailed_card : s.cards[g].MayReopen (countFailed k s).cards[g] := by
  unfold countFailed
  split
  · exact .refl _
  · split
    · exact modClip_card s g k _
    · exact raise_modClip_card s g k _ _

/-- R57: what settling a clip does to a card. -/
theorem settleClip_card : s.cards[g].MayReopen (settleClip k s).cards[g] := by
  unfold settleClip
  split
  · exact .refl _
  · split
    · exact countFailed_card s g k
    · split
      · exact raise_modClip_card s g k _ _
      · exact modClip_card s g k _

/-! ## The settling of a card (R58, R63, R162) -/

/-- The clearance evaluation writes the card's record and queues notices. -/
theorem evalClearance_frame : evalClearance h s =
    { s with cards := (evalClearance h s).cards, notices := (evalClearance h s).notices } := by
  unfold evalClearance enterCleared writeCard
  split
  · split <;> rfl
  · rfl

theorem moveCard_frame (st : CardState) : moveCard h st s =
    { s with cards := (moveCard h st s).cards, notices := (moveCard h st s).notices } := by
  unfold moveCard writeCard
  split <;> rfl

theorem settleCopying_frame : settleCopying h s =
    { s with cards := (settleCopying h s).cards, notices := (settleCopying h s).notices } := by
  unfold settleCopying
  split
  · split
    · exact moveCard_frame s h _
    · rw [evalClearance_frame, moveCard_frame]
  · rfl

theorem settleCardOf_frame : settleCardOf k s =
    { s with cards := (settleCardOf k s).cards, notices := (settleCardOf k s).notices } := by
  unfold settleCardOf
  split
  · unfold settleCard
    split
    · exact moveCard_frame s _ _
    · exact settleCopying_frame s _
  · rfl

/-- R162: the state of a card after its clearance has been evaluated. -/
theorem evalClearance_card : (evalClearance h s).cards[g] =
    if h = g ∧ s.cards[h].state = .copied ∧ clearanceHolds s h = true
      then { s.cards[h].toState .cleared with clearedUnsent := true } else s.cards[g] := by
  unfold evalClearance
  by_cases hclear : s.cards[h].state = .copied ∧ clearanceHolds s h = true
  · rw [if_pos hclear]
    change (writeCard h _ s).cards[g] = _
    rw [writeCard_cards, get_set]
    by_cases hg : h = g
    · rw [if_pos hg, if_pos ⟨hg, hclear⟩]
    · rw [if_neg hg, if_neg (fun e => hg e.1)]
  · rw [if_neg hclear, if_neg (fun e => hclear e.2)]

/-- R160: the clearance condition and the open marks do not depend on the card's state. -/
theorem clearanceHolds_congr {t : Part} (hclips : t.clips = s.clips)
    (hcard : t.cards[h] = { s.cards[h] with
      state := t.cards[h].state, suspendWaiting := t.cards[h].suspendWaiting, clearedUnsent := t.cards[h].clearedUnsent }) :
    clearanceHolds t h = clearanceHolds s h ∧ anyMarkOpen t h = anyMarkOpen s h := by
  generalize t.cards[h].state = a at hcard
  generalize t.cards[h].suspendWaiting = b at hcard
  generalize t.cards[h].clearedUnsent = e at hcard
  have hmarks : anyMarkOpen t h = anyMarkOpen s h := by
    unfold anyMarkOpen cardClips
    rw [hcard, hclips]
  refine ⟨?_, hmarks⟩
  unfold clearanceHolds
  rw [hmarks]
  unfold cardClips
  rw [hcard, hclips]

/-- A card in another state, and every other card as it was. -/
theorem moveCard_card (st : CardState) : (moveCard h st s).cards[g] =
    if h = g then s.cards[h].toState st else s.cards[g] := by
  rw [moveCard_cards, get_set]

/-- R58: the state of a card in COPYING that has run out of clips. -/
theorem settleCopying_settled (hst : s.cards[h].state = .copying) (hl : firstListed s h = none)
    (hk : inFlightClip s h = none) : (settleCopying h s).cards[h].state =
      if anyMarkOpen (settleCopying h s) h then .held
      else if clearanceHolds (settleCopying h s) h then .cleared else .copied := by
  have hcond : s.cards[h].state = .copying ∧ (firstListed s h).isNone ∧ (inFlightClip s h).isNone := by
    rw [hl, hk]; exact ⟨hst, rfl, rfl⟩
  rw [settleCopying, if_pos hcond]
  cases hm : anyMarkOpen s h with
  | true =>
    rw [if_pos rfl, anyMarkOpen_moveCard, hm, if_pos rfl, moveCard_self]
    rfl
  | false =>
    rw [if_neg (by decide)]
    have hmoved : (moveCard h .copied s).cards[h] = s.cards[h].toState .copied := moveCard_self _
    have hm' : anyMarkOpen (moveCard h .copied s) h = false := (anyMarkOpen_moveCard _).trans hm
    generalize moveCard h .copied s = t at hmoved hm' ⊢
    have hcopied : t.cards[h].state = .copied := by rw [hmoved]; rfl
    have hcard := evalClearance_card t h h
    obtain ⟨hclear, hopen⟩ := clearanceHolds_congr t h (t := evalClearance h t) (by rw [evalClearance_frame]) (by
      rw [hcard]; split <;> rfl)
    rw [hopen, hm', if_neg Bool.false_ne_true, hclear, hcard]
    by_cases hholds : clearanceHolds t h = true
    · rw [if_pos ⟨rfl, hcopied, hholds⟩, if_pos hholds]; rfl
    · rw [if_neg (fun e => hholds e.2.2), if_neg hholds]; exact hcopied

/-- R58: a card in another state, or with a clip LISTED or IN_FLIGHT, is left as it is. -/
theorem settleCopying_stays (hst : s.cards[h].state ≠ .copying ∨ firstListed s h ≠ none ∨ inFlightClip s h ≠ none) :
    settleCopying h s = s := by
  refine if_neg fun ⟨hcopying, hl, hk⟩ => ?_
  rcases hst with hst | hst | hst
  · exact hst hcopying
  · exact hst (Option.isNone_iff_eq_none.mp hl)
  · exact hst (Option.isNone_iff_eq_none.mp hk)

variable {s h} in
/-- R57 step 5: a card is settled by the state it had at the end of the attempt; one that was COPIED is out of question. -/
theorem settleCard_settled {st : CardState} (hst : st ≠ .copied → s.cards[h].state = st) :
    CardSettled st (settleCard h s) h := by
  have moved (hne : s.cards[h].state ≠ .suspending) : settleCard h s = settleCopying h s := if_neg hne
  refine ⟨fun hsusp => ?_, fun hcopying => ?_, fun h1 h2 h3 => ?_⟩
  · have hsame : s.cards[h].state = .suspending := (hst (by rw [hsusp]; decide)).trans hsusp
    rw [settleCard, if_pos hsame, moveCard_self]
    rfl
  · have hsame : s.cards[h].state = .copying := (hst (by rw [hcopying]; decide)).trans hcopying
    rw [moved (by rw [hsame]; decide)]
    have hkept : (settleCopying h s).cards[h].clips = s.cards[h].clips := (settleCopying_keeps s h).listing h
    have hclips : (settleCopying h s).clips = s.clips := by rw [settleCopying_frame]
    rw [hkept, hclips]
    refine ⟨fun ⟨j, hj, c, hc, hgoing⟩ => ?_, fun hover => ?_⟩
    · rw [settleCopying_stays]
      · exact hsame
      · rcases hgoing with hgoing | hgoing
        · exact .inr (.inl fun hnone => by
            have := (findClip_none s h).mp hnone j hj c hc
            simp [hgoing] at this)
        · exact .inr (.inr fun hnone => (inFlightClip_none s h).mp hnone j hj c hc hgoing)
    · refine settleCopying_settled s h hsame ((findClip_none s h).mpr fun j hj c hc => ?_)
        ((inFlightClip_none s h).mpr fun j hj c hc => (hover j hj c hc).2)
      simpa using (hover j hj c hc).1
  · rw [moved (by rw [hst h3]; exact h1), settleCopying_stays _ _ (.inl (by rw [hst h3]; exact h2))]
    exact hst h3

/-! ## The end of an attempt (R57) -/

/-- What `AttemptSettled` says of the part before is told by its cards. -/
theorem AttemptSettled.of_cards {s t : Part} {l : FaultLog} {c : Clip} {live : Nat} {q : Part} {k : ClipId}
    (hcards : t.cards = s.cards) (ha : AttemptSettled t l k c live q) : AttemptSettled s l k c live q := by
  unfold AttemptSettled FailureCounted at ha ⊢
  rwa [hcards] at ha

theorem settleClip_cardOf {c : Clip} (hc : s.clips[k] = some c) : clipCard (settleClip k s) k = some c.card := by
  have howner := (settleClip_keeps s k).owner k
  rwa [hc] at howner

/-- R57: what the end of the attempt of a clip in use leaves. -/
structure AttemptEnds (s q : Part) (p : PortId) (k : ClipId) (c : Clip) : Prop where
  channel  : q.channels[p] = Channel.idle s.channels[p].tagCounter
  channels : ∀ o : PortId, o ≠ p → q.channels[o] = s.channels[o]
  dests    : ∀ d : DestId, q.dests[d] = if s.channels[p].finished.mem d then s.dests[d].joined k else s.dests[d]
  clips    : ∀ j : ClipId, j ≠ k → q.clips[j] = s.clips[j]
  clip     : ∃ y, q.clips[k] = some y ∧ y.copies = c.copies ∧ y.sourceDigest = c.sourceDigest
    ∧ y.restarted = c.restarted
  settled  : AttemptSettled s s.log k c c.live q
  card     : CardSettled s.cards[c.card].state q c.card
  required : ∀ g : CardId, q.cards[g].required = s.cards[g].required

theorem evalClearance_required : (evalClearance h s).cards[g].required = s.cards[g].required := by
  rw [evalClearance_card]
  split
  · rename_i hg
    rw [s.card_congr hg.1.symm]; rfl
  · rfl

theorem moveCard_required (st : CardState) : (moveCard h st s).cards[g].required = s.cards[g].required := by
  rw [moveCard_card]
  split
  · rename_i hg
    rw [s.card_congr hg.symm]; rfl
  · rfl

theorem settleCard_required : (settleCard h s).cards[g].required = s.cards[g].required := by
  unfold settleCard settleCopying
  split
  · exact moveCard_required s h g _
  · split
    · split
      · exact moveCard_required s h g _
      · rw [evalClearance_required, moveCard_required]
    · rfl

variable {s k p} in
theorem endAttempt_ends {c : Clip} (hk : s.channels[p].clip = some k) (hc : s.clips[k] = some c) :
    AttemptEnds s (endAttempt p s) p k c := by
  unfold endAttempt closeAttempt
  rw [hk]
  dsimp only
  have uchannels (o : PortId) : (joinQueues k s.channels[p].finished (idleChannel p s)).channels[o] =
      if p = o then Channel.idle s.channels[p].tagCounter else s.channels[o] := by
    rw [joinQueues_channels, idleChannel, setChannel_channels, get_set]
  have udests (d : DestId) : (joinQueues k s.channels[p].finished (idleChannel p s)).dests[d] =
      if s.channels[p].finished.mem d then s.dests[d].joined k else s.dests[d] := joinQueues_dests _ _ _ _
  have uclips : (joinQueues k s.channels[p].finished (idleChannel p s)).clips = s.clips := joinQueues_clips _ _ _
  have ucards : (joinQueues k s.channels[p].finished (idleChannel p s)).cards = s.cards := joinQueues_cards _ _ _
  have ulog : (joinQueues k s.channels[p].finished (idleChannel p s)).log = s.log := joinQueues_log _ _ _
  generalize joinQueues k s.channels[p].finished (idleChannel p s) = u at uchannels udests uclips ucards ulog ⊢
  have huc : u.clips[k] = some c := by rw [uclips]; exact hc
  obtain ⟨hsettled, hmod⟩ := settleClip_settles huc
  have hcard (g : CardId) : s.cards[g].MayReopen (settleClip k u).cards[g] := by
    rw [← ucards]; exact settleClip_card u g k
  have howner := settleClip_cardOf u k huc
  generalize settleClip k u = v at hsettled hmod hcard howner ⊢
  have hframe := settleCardOf_frame v k
  have hsettles : settleCardOf k v = settleCard c.card v := by rw [settleCardOf, howner]
  have hstate : CardSettled s.cards[c.card].state (settleCard c.card v) c.card := by
    refine settleCard_settled fun hne => ?_
    rcases (hcard c.card).state with hst | ⟨hcopied, -⟩
    · exact hst
    · exact absurd hcopied hne
  have hrequired := settleCard_required v c.card
  rw [hsettles] at hframe ⊢
  generalize settleCard c.card v = q at hframe hstate hrequired ⊢
  have qchannels : q.channels = u.channels := by rw [hframe]; exact hmod.channels
  have qdests : q.dests = u.dests := by rw [hframe]; exact hmod.dests
  have qclips : q.clips = v.clips := by rw [hframe]
  have qlog : q.log = v.log := by rw [hframe]
  obtain ⟨y, hy, hrestarted, hdigest, hcopies⟩ := hmod.clip
  refine ⟨?_, fun o ho => ?_, fun d => ?_, fun j hj => ?_, ⟨y, by rw [qclips]; exact hy, hcopies, hdigest, hrestarted⟩,
    ?_, hstate, fun g => ?_⟩
  · rw [qchannels, uchannels, if_pos rfl]
  · rw [qchannels, uchannels, if_neg (Ne.symm ho)]
  · rw [qdests, udests]
  · rw [qclips, hmod.clips j hj, uclips]
  · have := AttemptSettled.of_cards ucards hsettled
    unfold AttemptSettled FailureCounted at this ⊢
    rw [qclips, qlog, ← ulog]
    exact this
  · rw [hrequired, (hcard g).kept]

end Sys2Proof.Machine
end

