-- ==== Sys2Proof/Proofs/Arbiter.lean ====
section
/-! PROOF. The grant evaluation as a whole (R45, R46): the candidates of its passes, and what it leaves alone of destinations,
channels and clips (`Arbitrates`). -/

namespace Sys2Proof.Machine

/-! ## The considerations of a pass (R44) -/

/-- From `s` to `t` cards have been considered: ACTIVE destinations may have become FULL; clips and channels are as they were. -/
structure Considers (s t : Part) : Prop where
  required : ∀ g : CardId, t.cards[g].required = s.cards[g].required
  clips    : t.clips = s.clips
  channels : t.channels = s.channels
  dests    : ∀ d : DestId, t.dests[d] = { s.dests[d] with state := t.dests[d].state }
  state    : ∀ d : DestId, t.dests[d].state = s.dests[d].state
    ∨ s.dests[d].state = .active ∧ t.dests[d].state = .full

theorem Considers.refl (s : Part) : Considers s s := ⟨fun _ => rfl, rfl, rfl, fun _ => rfl, fun _ => .inl rfl⟩

theorem Considers.trans {s t u : Part} (a : Considers s t) (b : Considers t u) : Considers s u where
  required g := (b.required g).trans (a.required g)
  clips := b.clips.trans a.clips
  channels := b.channels.trans a.channels
  dests d := (b.dests d).trans (by rw [a.dests d])
  state d := by
    rcases a.state d with ha | ⟨ha, ha'⟩ <;> rcases b.state d with hb | ⟨hb, hb'⟩
    · exact .inl (hb.trans ha)
    · exact .inr ⟨ha ▸ hb, hb'⟩
    · exact .inr ⟨ha, hb.trans ha'⟩
    · exact .inr ⟨ha, hb'⟩

variable (s : Part) (h : CardId) (d : DestId) (k : ClipId) (p : PortId)

theorem tested_considers (c : Clip) : Considers s (tested h k c s) := by
  refine ⟨fun g => by rw [tested_cards], by rw [tested_frame], by rw [tested_frame], fun d => ?_, fun d => ?_⟩
  · rw [tested_dests]; split <;> rfl
  · rw [tested_dests]
    split
    · rename_i hfull
      exact .inr ⟨((asksFor_iff _ _ _ _).mp ((foundFull_iff _ _ _ _).mp hfull).1).2.1, rfl⟩
    · exact .inl rfl

theorem shortfall_channels (n : Nat) : (shortfall h k n s).channels = s.channels := by
  rw [shortfall, moveCard_frame, raise_frame]

theorem shortfall_considers (n : Nat) : Considers s (shortfall h k n s) := by
  have hdests : (shortfall h k n s).dests = s.dests := by rw [shortfall, moveCard_frame, raise_frame]
  refine ⟨fun g => ?_, (shortfall_others s h k n).1, shortfall_channels s h k n, fun e => by rw [hdests],
    fun e => .inl (by rw [hdests])⟩
  rw [shortfall, moveCard_required, (raise_card s g _).kept]

theorem consider_considers : Considers s (consider s h).1 := by
  rcases consider_cases s h with ⟨-, hc⟩ | ⟨k, c, -, -, ⟨-, hc⟩ | ⟨-, -, hc⟩ | ⟨n, hc⟩⟩ <;> rw [hc] <;> dsimp only
  · exact .refl s
  · exact .refl s
  · exact tested_considers s h k c
  · exact (tested_considers s h k c).trans (shortfall_considers _ h k n)

theorem considerAll_considers (l : List CardId) : Considers s (considerAll l s).1 := by
  induction l generalizing s with
  | nil => exact .refl s
  | cons g rest ih => exact (consider_considers s g).trans (ih _)

/-! ## The candidates (R45 step 2) -/

/-- A candidate of the pass that has led from `s` to `t`: its card is ready with its clip, its target set was ACTIVE, and is
empty only where the clip has the required live copies. -/
structure Candidate.Stands (s t : Part) (c : Candidate) : Prop where
  ready  : readyClip t c.card = some c.clip
  active : ∀ d : DestId, c.targets.mem d = true → s.dests[d].state = .active
  copied : (∀ d : DestId, c.targets.mem d = false) → ∀ x, t.clips[c.clip] = some x → t.cards[c.card].required ≤ x.live

theorem DestSet.size_eq_zero {a : DestSet} (ha : ∀ d, a.mem d = false) : a.size = 0 := by
  rw [DestSet.size, List.isEmpty_iff.mp (a.isEmpty_iff.mpr ha)]
  rfl

/-- R44: a card that is not short gives a candidate that stands, and is ready no more where it gives none. -/
theorem consider_candidate :
    (∀ c, (consider s h).2 = some c → c.card = h ∧ c.Stands s (consider s h).1)
      ∧ ((consider s h).2 = none → readyClip (consider s h).1 h = none) := by
  rcases consider_cases s h with ⟨hr, hc⟩ | ⟨k, x, hr, hx, ⟨hlive, hc⟩ | ⟨hlive, hsize, hc⟩ | ⟨n, hc⟩⟩ <;> rw [hc] <;> dsimp only
  · exact ⟨fun _ hnone => (nomatch hnone), fun _ => hr⟩
  · refine ⟨fun c hsome => ?_, fun hnone => nomatch hnone⟩
    cases hsome
    refine ⟨rfl, hr, fun d hd => ?_, fun _ y hy => ?_⟩
    · rw [DestSet.mem_empty] at hd; cases hd
    · rw [hx] at hy; cases hy; exact hlive
  · refine ⟨fun c hsome => ?_, fun hnone => nomatch hnone⟩
    cases hsome
    have considered := tested_considers s h k x
    refine ⟨rfl, ?_, fun d hd => ?_, fun hempty y hy => ?_⟩
    · rw [← hr]
      exact readyClip_congr (by rw [tested_cards]) considered.clips considered.channels
    · exact ((asksFor_iff _ _ _ _).mp ((targetSet_tested _ _ _ _ _).mp hd).1).2.1
    · rw [considered.clips, hx] at hy
      cases hy
      rw [considered.required]
      rw [DestSet.size_eq_zero hempty] at hsize
      exact hsize
  · refine ⟨fun _ hnone => (nomatch hnone), fun _ => ?_⟩
    refine Option.eq_none_iff_forall_ne_some.mpr fun j hj => ?_
    have hst := (readyClip_some hj).1
    rw [shortfall_card] at hst
    cases hst

variable {s} in
/-- A candidate stands through the considerations of other cards, before and after its own. -/
theorem Candidate.Stands.later {t u : Part} {c : Candidate} (hc : c.Stands s t) (hcard : u.cards[c.card] = t.cards[c.card])
    (hu : Considers t u) : c.Stands s u where
  ready := (readyClip_congr hcard hu.clips hu.channels).trans hc.ready
  active := hc.active
  copied hempty x hx := by
    rw [hcard]
    exact hc.copied hempty x (hu.clips ▸ hx)

theorem Candidate.Stands.earlier {s t u : Part} {c : Candidate} (hc : c.Stands t u) (hs : Considers s t) :
    c.Stands s u where
  ready := hc.ready
  active d hd := by
    rcases hs.state d with hst | ⟨hst, -⟩
    · exact hst ▸ hc.active d hd
    · exact hst
  copied := hc.copied

/-- R45 step 2: the candidates of a pass are the cards still ready after it, in the order they were considered. -/
theorem considerAll_candidates (l : List CardId) (hl : l.Nodup) :
    ((considerAll l s).2.map Candidate.card).Sublist l
      ∧ (∀ c ∈ (considerAll l s).2, c.Stands s (considerAll l s).1)
      ∧ ∀ g ∈ l, ∀ k, readyClip (considerAll l s).1 g = some k → ∃ c ∈ (considerAll l s).2, c.card = g ∧ c.clip = k := by
  induction l generalizing s with
  | nil => exact ⟨List.Sublist.refl _, fun c hc => (nomatch hc), fun g hg => nomatch hg⟩
  | cons h rest ih =>
    obtain ⟨hh, hrest⟩ := List.nodup_cons.mp hl
    obtain ⟨hsub, hstand, hready⟩ := ih (consider s h).1 hrest
    have hsame : (considerAll rest (consider s h).1).1.cards[h] = (consider s h).1.cards[h] :=
      (considerAll_others (consider s h).1 rest).2 h hh
    have hlater := considerAll_considers (consider s h).1 rest
    have hstays : readyClip (considerAll rest (consider s h).1).1 h = readyClip (consider s h).1 h :=
      readyClip_congr hsame hlater.clips hlater.channels
    obtain ⟨hgives, hnone⟩ := consider_candidate s h
    have hfirst := consider_considers s h
    unfold considerAll
    dsimp only
    cases hc : (consider s h).2 with
    | none =>
      refine ⟨hsub.cons h, fun c hm => (hstand c hm).earlier hfirst, fun g hg j hj => ?_⟩
      rcases List.mem_cons.mp hg with rfl | hg
      · rw [hstays, hnone hc] at hj
        cases hj
      · exact hready g hg j hj
    | some c =>
      obtain ⟨hcard, hc⟩ := hgives c hc
      subst hcard
      refine ⟨hsub.cons_cons _, fun b hm => ?_, fun g hg j hj => ?_⟩
      · rcases List.mem_cons.mp hm with rfl | hm
        · exact hc.later hsame hlater
        · exact (hstand b hm).earlier hfirst
      · rcases List.mem_cons.mp hg with rfl | hg
        · rw [hstays, hc.ready, Option.some.injEq] at hj
          exact ⟨c, List.mem_cons_self, rfl, hj⟩
        · obtain ⟨b, hb, hbj⟩ := hready g hg j hj
          exact ⟨b, List.mem_cons_of_mem _ hb, hbj⟩

/-! ## A grant (R46, R47) -/

variable {s h k p} {c : Candidate}

theorem freeChannel_of (hso : s.cards[h].source = some p) (hp : s.channels[p].state = .idle) :
    freeChannel s h = some p := by
  rw [freeChannel, hso]
  exact if_pos hp

/-- R47: a grant to some destination begins the attempt. -/
theorem grant_begins (hp : freeChannel s c.card = some p) (hd : ∃ d : DestId, c.targets.mem d = true) :
    grant c s = granted c p s := by
  rw [grant, hp]
  change endIfEmpty p (granted c p s) = _
  rw [endIfEmpty, granted_channel, if_neg]
  rintro ⟨-, hempty⟩
  obtain ⟨d, hd⟩ := hd
  exact Bool.false_ne_true (((DestSet.isEmpty_iff c.targets).mp hempty d).symm.trans hd)

/-- R46: a grant to no destination ends the attempt at once. -/
theorem grant_ends (hp : freeChannel s c.card = some p) (hd : ∀ d : DestId, c.targets.mem d = false) :
    grant c s = endAttempt p (granted c p s) := by
  rw [grant, hp]
  change endIfEmpty p (granted c p s) = _
  refine if_pos ?_
  rw [granted_channel]
  exact ⟨rfl, (DestSet.isEmpty_iff _).mpr hd⟩

/-- R46: a grant to no destination leaves the copies of the clip as they are. -/
theorem Clip.granted_nowhere {x : Clip} {targets : DestSet} (hd : ∀ d : DestId, targets.mem d = false) :
    (x.granted targets).copies = x.copies := by
  refine Vector.ext fun i hi => ?_
  have he := Clip.granted_copies ⟨i, hi⟩ targets x
  rw [hd, if_neg Bool.false_ne_true] at he
  exact he

/-- From `s` to `t` an attempt of a LISTED clip may have begun, or ended at once: what is left alone of a clip. -/
structure Clip.Kept (s : Part) (c y : Clip) : Prop where
  unlisted : c.state ≠ .listed → y = c
  counts   : (∀ h : CardId, 1 ≤ s.cards[h].required) →
    y.failed = c.failed ∧ y.sourceDigest = c.sourceDigest ∧ y.restarted = c.restarted
  copies   : ∀ d : DestId, s.dests[d].state ≠ .active → y.copies[d] = c.copies[d]

/-- What the grant evaluation leaves alone. A destination changes in its state, from ACTIVE to FULL, and in its holder, from
none to a LISTED clip while it is ACTIVE and not draining; a channel only where it was IDLE; a clip only where it was LISTED. -/
structure Arbitrates (s t : Part) : Prop where
  required : ∀ g : CardId, t.cards[g].required = s.cards[g].required
  channels : ∀ p : PortId, s.channels[p].state ≠ .idle → t.channels[p] = s.channels[p]
  dests    : ∀ d : DestId, t.dests[d] = { s.dests[d] with state := t.dests[d].state, holder := t.dests[d].holder }
  state    : ∀ d : DestId, t.dests[d].state = s.dests[d].state
    ∨ s.dests[d].state = .active ∧ t.dests[d].state = .full
  holder   : ∀ d : DestId, t.dests[d].holder = s.dests[d].holder
    ∨ s.dests[d].state = .active ∧ s.dests[d].holder = none ∧ s.dests[d].draining = false
      ∧ ∃ k c, t.dests[d].holder = some k ∧ s.clips[k] = some c ∧ c.state = .listed
  clips    : ∀ k : ClipId, (s.clips[k] = none → t.clips[k] = none)
    ∧ ∀ c, s.clips[k] = some c → ∃ y, t.clips[k] = some y ∧ c.Kept s y

theorem Clip.Kept.refl (s : Part) (c : Clip) : c.Kept s c := ⟨fun _ => rfl, fun _ => ⟨rfl, rfl, rfl⟩, fun _ _ => rfl⟩

theorem Considers.arbitrates {s t : Part} (a : Considers s t) : Arbitrates s t where
  required := a.required
  channels p _ := by rw [a.channels]
  dests d := by
    have he := a.dests d
    rw [he]
  state := a.state
  holder d := .inl (by rw [a.dests d])
  clips k := by rw [a.clips]; exact ⟨id, fun c hc => ⟨c, hc, .refl s c⟩⟩

theorem Arbitrates.trans {s t u : Part} (a : Arbitrates s t) (b : Arbitrates t u) : Arbitrates s u where
  required g := (b.required g).trans (a.required g)
  channels p hp := by
    have ha := a.channels p hp
    exact (b.channels p (by rw [ha]; exact hp)).trans ha
  dests d := (b.dests d).trans (by rw [a.dests d])
  state d := by
    rcases a.state d with ha | ⟨ha, ha'⟩ <;> rcases b.state d with hb | ⟨hb, hb'⟩
    · exact .inl (hb.trans ha)
    · exact .inr ⟨ha ▸ hb, hb'⟩
    · exact .inr ⟨ha, hb.trans ha'⟩
    · exact .inr ⟨ha, hb'⟩
  holder d := by
    rcases b.holder d with hb | ⟨hactive, hfree, hdrain, k, y, hk, hy, hlisted⟩
    · rw [hb]
      exact a.holder d
    · rcases a.holder d with ha | ⟨-, -, -, j, -, hj, -⟩
      · have hactive' : s.dests[d].state = .active := by
          rcases a.state d with hst | ⟨hst, -⟩
          · exact hst ▸ hactive
          · exact hst
        have hdrain' : s.dests[d].draining = false := by
          rw [a.dests d] at hdrain; exact hdrain
        refine .inr ⟨hactive', ha ▸ hfree, hdrain', k, ?_⟩
        cases hs : s.clips[k] with
        | none => rw [(a.clips k).1 hs] at hy; cases hy
        | some c =>
          obtain ⟨y', hy', hkept⟩ := (a.clips k).2 c hs
          rw [hy', Option.some.injEq] at hy
          subst hy
          refine ⟨c, hk, rfl, ?_⟩
          by_contra hne
          rw [hkept.unlisted hne] at hlisted
          exact hne hlisted
      · rw [hj] at hfree; cases hfree
  clips k := by
    refine ⟨fun hk => (b.clips k).1 ((a.clips k).1 hk), fun c hc => ?_⟩
    obtain ⟨x, hx, hkept⟩ := (a.clips k).2 c hc
    obtain ⟨y, hy, hkept'⟩ := (b.clips k).2 x hx
    refine ⟨y, hy, fun hne => ?_, fun hreq => ?_, fun d hd => ?_⟩
    · have hxc := hkept.unlisted hne
      exact (hkept'.unlisted (by rw [hxc]; exact hne)).trans hxc
    · obtain ⟨h1, h2, h3⟩ := hkept.counts hreq
      obtain ⟨i1, i2, i3⟩ := hkept'.counts fun g => by rw [a.required]; exact hreq g
      exact ⟨i1.trans h1, i2.trans h2, i3.trans h3⟩
    · rw [← hkept.copies d hd]
      refine hkept'.copies d ?_
      rcases a.state d with hst | ⟨hst, -⟩
      · rw [hst]; exact hd
      · exact absurd hst hd

/-- R46, R47: a pass and its grant. -/
theorem grant_arbitrates {t : Part} (ht : Considers s t) (hc : c.Stands s t)
    (hfree : ∀ d : DestId, c.targets.mem d = true → t.dests[d].isFree = true) : Arbitrates s (grant c t) := by
  obtain ⟨-, -, hchannel, -⟩ := (readyClip_iff _ _ _).mp hc.ready
  obtain ⟨p, hp⟩ := Option.isSome_iff_exists.mp hchannel
  obtain ⟨hso, hidle⟩ := freeChannel_some hp
  obtain ⟨x, hx, hlisted⟩ := readyClip_listed hc.ready
  have hsx : s.clips[c.clip] = some x := ht.clips ▸ hx
  have gclip := granted_clip (p := p) hx
  have gchannels (q : PortId) (hq : s.channels[q].state ≠ .idle) :
      q ≠ p ∧ (granted c p t).channels[q] = s.channels[q] := by
    have hqp : q ≠ p := by
      rintro rfl
      rw [ht.channels] at hidle
      exact hq hidle
    exact ⟨hqp, by rw [granted_channels_other hqp, ht.channels]⟩
  by_cases hd : ∃ d : DestId, c.targets.mem d = true
  · rw [grant_begins hp hd]
    refine ⟨fun g => ?_, fun q hq => (gchannels q hq).2, fun d => ?_, fun d => ?_, fun d => ?_, fun j => ?_⟩
    · rw [granted_cards]; exact ht.required g
    · rw [granted_dests, ht.dests d]; split <;> rfl
    · rw [granted_dests]
      have : (if c.targets.mem d = true then { t.dests[d] with holder := some c.clip } else t.dests[d]).state
          = t.dests[d].state := by split <;> rfl
      rw [this]
      exact ht.state d
    · rw [granted_dests]
      split
      · rename_i hmem
        have hf := hfree d hmem
        rw [ht.dests d] at hf
        simp only [Dest.isFree, Bool.and_eq_true, Option.isNone_iff_eq_none, Bool.not_eq_true'] at hf
        exact .inr ⟨hc.active d hmem, hf.1, hf.2, c.clip, x, rfl, hsx, hlisted⟩
      · exact .inl (by rw [ht.dests d])
    · by_cases hj : j = c.clip
      · subst hj
        rw [hsx]
        refine ⟨fun hnone => (nomatch hnone), fun y hy => ?_⟩
        cases hy
        refine ⟨_, gclip, fun hne => absurd hlisted hne, fun _ => ⟨rfl, rfl, rfl⟩, fun d hd => ?_⟩
        rw [Clip.granted_copies, if_neg fun hmem => hd (hc.active d hmem)]
      · rw [granted_clips_other hj, ht.clips]
        exact ⟨id, fun y hy => ⟨y, hy, .refl s y⟩⟩
  · have hd' (d : DestId) : c.targets.mem d = false := Bool.eq_false_iff.mpr fun hmem => hd ⟨d, hmem⟩
    rw [grant_ends hp hd']
    have hends := endAttempt_ends (p := p) (by rw [granted_channel]; rfl) gclip
    have gdests (d : DestId) : (granted c p t).dests[d] = t.dests[d] := by
      rw [granted_dests, hd', if_neg Bool.false_ne_true]
    have hdests (d : DestId) : (endAttempt p (granted c p t)).dests[d] = t.dests[d] := by
      rw [hends.dests, granted_channel, if_neg, gdests]
      change ¬ DestSet.empty.mem d = true
      rw [DestSet.mem_empty]
      decide
    refine ⟨fun g => ?_, fun q hq => ?_, fun d => ?_, fun d => ?_, fun d => ?_, fun j => ?_⟩
    · rw [hends.required, granted_cards]; exact ht.required g
    · rw [hends.channels q (gchannels q hq).1, (gchannels q hq).2]
    · rw [hdests, ht.dests d]
    · rw [hdests]; exact ht.state d
    · rw [hdests, ht.dests d]; exact .inl rfl
    · by_cases hj : j = c.clip
      · subst hj
        rw [hsx]
        refine ⟨fun hnone => (nomatch hnone), fun y hy => ?_⟩
        cases hy
        obtain ⟨y, hy, hcopies, hdigest, hrestarted⟩ := hends.clip
        refine ⟨y, hy, fun hne => absurd hlisted hne, fun hreq => ⟨?_, hdigest, hrestarted⟩, fun d _ => ?_⟩
        · have hlive : 1 ≤ (x.granted c.targets).live := by
            rw [Clip.live_congr (Clip.granted_nowhere hd')]
            exact (ht.required c.card ▸ hreq c.card).trans (hc.copied hd' x hx)
          obtain ⟨z, hz, -, hfailed, -⟩ := hends.settled.2 hlive
          rw [hy, Option.some.injEq] at hz
          rw [hz]
          exact hfailed
        · rw [hcopies, Clip.granted_nowhere hd']
      · rw [hends.clips j hj, granted_clips_other hj, ht.clips]
        exact ⟨id, fun y hy => ⟨y, hy, .refl s y⟩⟩

/-- R45: what the grant evaluation leaves alone. -/
theorem grantPasses_arbitrates (n : Nat) (s : Part) : Arbitrates s (grantPasses n s) := by
  induction n generalizing s with
  | zero => exact (Considers.refl s).arbitrates
  | succ n ih =>
    unfold grantPasses
    split
    · rename_i c hc
      obtain ⟨hmem, hfree⟩ := chooseGrant_some _ hc
      have hstands := (considerAll_candidates s _ (cardOrder_nodup _)).2.1 c hmem
      exact (grant_arbitrates (considerAll_considers s _) hstands hfree).trans (ih _)
    · exact (considerAll_considers s _).arbitrates

theorem evalGrant_arbitrates (s : Part) : Arbitrates s (evalGrant s) := grantPasses_arbitrates 513 s

end Sys2Proof.Machine
end

