-- ==== Sys2Proof/Proofs/VerifyStarts.lean ====
section
/-! PROOF. The starts of verifies (R72): which clip each destination starts on, told from its own record and that clip's copy
there, and so the same in whatever order the destinations are taken. -/

namespace Sys2Proof.Machine

/-- R6: the offset of a copy that is WRITTEN. -/
def Copy.writtenAt : Copy → Option Nat
  | .written o => some o
  | _ => Option.none

theorem Copy.writtenAt_some (x : Copy) (o : Nat) : x.writtenAt = some o ↔ x = .written o := by
  cases x <;> simp [Copy.writtenAt]

/-- R72: the clip whose verify starts on the destination, with the offset of its copy. -/
def verifyStarting (s : Part) (d : DestId) : Option (ClipId × Nat) :=
  if s.dests[d].context.isNone ∧ s.dests[d].state.serves = true then
    s.dests[d].queue.head?.bind fun k => s.clips[k].bind fun c => c.copies[d].writtenAt.map fun o => (k, o)
  else none

/-- R72: a destination on which the verify of the clip starts, its copy at the offset. -/
def Dest.verifying (x : Dest) : Option (ClipId × Nat) → Dest
  | some (k, o) => { x with queue := x.queue.tail, context := some (VerifyContext.begin k o) }
  | none => x

/-- R72: the copy record of the clip `j` on a destination where a verify starts. -/
def Copy.begun (j : ClipId) (x : Copy) : Option (ClipId × Nat) → Copy
  | some (k, o) => if k = j then .verifying o else x
  | Option.none => x

variable (s : Part) (d e : DestId) (j k : ClipId)

theorem verifyStarting_some {o : Nat} : verifyStarting s d = some (k, o) ↔
    s.dests[d].context = none ∧ s.dests[d].state.serves = true ∧ s.dests[d].queue.head? = some k
      ∧ ∃ c, s.clips[k] = some c ∧ c.copies[d] = .written o := by
  unfold verifyStarting
  split
  · rename_i hcond
    rw [Option.isNone_iff_eq_none] at hcond
    simp only [Option.bind_eq_some_iff, Option.map_eq_some_iff, Prod.mk.injEq, Copy.writtenAt_some]
    constructor
    · rintro ⟨i, hi, c, hc, o, hw, rfl, rfl⟩
      exact ⟨hcond.1, hcond.2, hi, c, hc, hw⟩
    · rintro ⟨-, -, hi, c, hc, hw⟩
      exact ⟨k, hi, c, hc, o, hw, rfl, rfl⟩
  · rename_i hcond
    rw [Option.isNone_iff_eq_none] at hcond
    exact ⟨fun h => (nomatch h), fun h => absurd ⟨h.1, h.2.1⟩ hcond⟩

theorem verifyStarting_none (hd : s.dests[d].context ≠ none ∨ s.dests[d].state.serves = false ∨ s.dests[d].queue = []) :
    verifyStarting s d = none := by
  refine Option.eq_none_iff_forall_ne_some.mpr fun ⟨k, o⟩ hsome => ?_
  obtain ⟨hctx, hserves, hqueue, -⟩ := (verifyStarting_some s d k).mp hsome
  rcases hd with hd | hd | hd
  · exact hd hctx
  · rw [hd] at hserves; cases hserves
  · rw [hd] at hqueue; cases hqueue

/-- What a start tells is the destination's record and the clips' copies on it. -/
theorem verifyStarting_congr {s t : Part} (hd : t.dests[d] = s.dests[d])
    (hclips : ∀ k : ClipId, t.clips[k].map (fun c => c.copies[d]) = s.clips[k].map fun c => c.copies[d]) :
    verifyStarting t d = verifyStarting s d := by
  refine Option.ext fun ⟨k, o⟩ => ?_
  have hk : (∃ c, t.clips[k] = some c ∧ c.copies[d] = .written o) ↔ ∃ c, s.clips[k] = some c ∧ c.copies[d] = .written o := by
    have he := congrArg (· = some (Copy.written o)) (hclips k)
    simpa only [Option.map_eq_some_iff, eq_iff_iff] using he
  rw [verifyStarting_some, verifyStarting_some, hd, hk]

/-- R72: a verify that starts, and where none does. -/
theorem startVerify_eq : startVerify s d = { s with
    dests := s.dests.set d (s.dests[d].verifying (verifyStarting s d))
    clips := match verifyStarting s d with
      | some (k, o) => s.clips.set k (s.clips[k].map fun c => { c with copies := c.copies.set d (.verifying o) })
      | none => s.clips } := by
  have self : s.dests.set d s.dests[d] = s.dests := by
    refine Vector.ext fun i hi => ?_
    have := get_set s.dests d ⟨i, hi⟩ s.dests[d]
    split at this
    · rename_i heq; subst heq; exact this
    · exact this
  cases hstart : verifyStarting s d with
  | none =>
    have hsame : startVerify s d = s := by
      have hno (k : ClipId) (o : Nat) := (verifyStarting_some s d k (o := o)).not.mp (by rw [hstart]; exact fun h => nomatch h)
      unfold startVerify
      split
      · rename_i hcond
        rw [Option.isNone_iff_eq_none] at hcond
        split
        · rfl
        · rename_i k rest hq
          split
          · rfl
          · rename_i c hc
            split
            · rename_i o ho
              exact absurd ⟨hcond.1, hcond.2, by rw [hq]; rfl, c, hc, ho⟩ (hno k o)
            · rfl
      · rfl
    rw [hsame]
    dsimp only [Dest.verifying]
    rw [self]
  | some x =>
    obtain ⟨k, o⟩ := x
    obtain ⟨hctx, hserves, hqueue, c, hc, ho⟩ := (verifyStarting_some s d k).mp hstart
    obtain ⟨rest, hrest⟩ : ∃ rest, s.dests[d].queue = k :: rest := by
      cases hq : s.dests[d].queue with
      | nil => rw [hq] at hqueue; cases hqueue
      | cons i rest => rw [hq] at hqueue; cases hqueue; exact ⟨rest, rfl⟩
    rw [startVerify, if_pos ⟨Option.isNone_iff_eq_none.mpr hctx, hserves⟩]
    simp only [hrest, hc, ho]
    rw [writeDest, if_pos ⟨by rw [modClip_dests], by rw [modClip_dests]⟩, modClip, hc]
    simp only [Dest.verifying, hrest, List.tail_cons, Option.map_some]

theorem startVerify_dests : (startVerify s d).dests[e] =
    if d = e then s.dests[d].verifying (verifyStarting s d) else s.dests[e] := by
  rw [startVerify_eq, get_set]

/-- R72: the clip records once the verify of one of them has started. -/
theorem startVerify_clips : (s.clips[j] = none → (startVerify s d).clips[j] = none)
    ∧ ∀ c, s.clips[j] = some c → ∃ y, (startVerify s d).clips[j] = some y ∧ y = { c with copies := y.copies }
      ∧ ∀ e : DestId, y.copies[e] = if d = e then c.copies[d].begun j (verifyStarting s d) else c.copies[e] := by
  rw [startVerify_eq]
  cases hstart : verifyStarting s d with
  | none =>
    refine ⟨id, fun c hc => ⟨c, hc, rfl, fun e => ?_⟩⟩
    split
    · rename_i hde; subst hde; rfl
    · rfl
  | some x =>
    obtain ⟨k, o⟩ := x
    dsimp only
    rw [get_set]
    by_cases hk : k = j
    · subst hk
      rw [if_pos rfl]
      refine ⟨fun hc => by rw [hc]; rfl, fun c hc => ⟨_, by rw [hc]; rfl, rfl, fun e => ?_⟩⟩
      rw [get_set]
      split
      · rw [Copy.begun, if_pos rfl]
      · rfl
    · rw [if_neg hk]
      refine ⟨id, fun c hc => ⟨c, hc, rfl, fun e => ?_⟩⟩
      split
      · rename_i hde; subst hde; rw [Copy.begun, if_neg hk]
      · rfl

/-- R72 over a list of destinations: each starts by itself. -/
theorem startVerify_foldl (l : List DestId) (hl : l.Nodup) :
    l.foldl startVerify s = { s with dests := (l.foldl startVerify s).dests, clips := (l.foldl startVerify s).clips }
      ∧ (∀ e : DestId, (l.foldl startVerify s).dests[e] =
        if e ∈ l then s.dests[e].verifying (verifyStarting s e) else s.dests[e])
      ∧ ∀ j : ClipId, (s.clips[j] = none → (l.foldl startVerify s).clips[j] = none)
        ∧ ∀ c, s.clips[j] = some c → ∃ y, (l.foldl startVerify s).clips[j] = some y ∧ y = { c with copies := y.copies }
          ∧ ∀ e : DestId, y.copies[e] = if e ∈ l then c.copies[e].begun j (verifyStarting s e) else c.copies[e] := by
  induction l generalizing s with
  | nil => exact ⟨rfl, fun e => by simp, fun j => ⟨id, fun c hc => ⟨c, hc, rfl, fun e => by simp⟩⟩⟩
  | cons d rest ih =>
    obtain ⟨hd, hrest⟩ := List.nodup_cons.mp hl
    obtain ⟨hframe, hdests, hclips⟩ := ih (startVerify s d) hrest
    have later (e : DestId) (he : e ∈ rest) : verifyStarting (startVerify s d) e = verifyStarting s e := by
      have hde : d ≠ e := by rintro rfl; exact hd he
      refine verifyStarting_congr e (by rw [startVerify_dests, if_neg hde]) fun k => ?_
      obtain ⟨hnone, hsome⟩ := startVerify_clips s d k
      cases hk : s.clips[k] with
      | none => rw [hnone hk]
      | some c =>
        obtain ⟨y, hy, -, hcopies⟩ := hsome c hk
        rw [hy, Option.map_some, Option.map_some, hcopies, if_neg hde]
    rw [List.foldl_cons]
    refine ⟨by rw [hframe, startVerify_eq], fun e => ?_, fun j => ?_⟩
    · rw [hdests, startVerify_dests]
      by_cases he : e ∈ rest
      · have hde : d ≠ e := by rintro rfl; exact hd he
        rw [if_pos he, if_neg hde, later e he, if_pos (List.mem_cons_of_mem d he)]
      · rw [if_neg he]
        by_cases hde : d = e
        · subst hde; rw [if_pos rfl, if_pos List.mem_cons_self]
        · rw [if_neg hde, if_neg (by simp [he, Ne.symm hde])]
    · obtain ⟨hnone, hsome⟩ := startVerify_clips s d j
      refine ⟨fun hj => (hclips j).1 (hnone hj), fun c hc => ?_⟩
      obtain ⟨x, hx, hxc, hxcopies⟩ := hsome c hc
      obtain ⟨y, hy, hyx, hycopies⟩ := (hclips j).2 x hx
      refine ⟨y, hy, by rw [hyx, hxc], fun e => ?_⟩
      rw [hycopies, hxcopies]
      by_cases he : e ∈ rest
      · have hde : d ≠ e := by rintro rfl; exact hd he
        rw [if_pos he, if_neg hde, later e he, if_pos (List.mem_cons_of_mem d he)]
      · rw [if_neg he]
        by_cases hde : d = e
        · subst hde; rw [if_pos rfl, if_pos List.mem_cons_self]
        · rw [if_neg hde, if_neg (by simp [he, Ne.symm hde])]

/-! ## The starts of all destinations -/

theorem startVerifies_frame :
    startVerifies s = { s with clips := (startVerifies s).clips, dests := (startVerifies s).dests } :=
  (startVerify_foldl s allDests (by decide)).1

theorem startVerifies_dests : (startVerifies s).dests[d] = s.dests[d].verifying (verifyStarting s d) := by
  rw [startVerifies, (startVerify_foldl s allDests (by decide)).2.1, if_pos (mem_allDests d)]

theorem startVerifies_free (hj : s.clips[j] = none) : (startVerifies s).clips[j] = none :=
  ((startVerify_foldl s allDests (by decide)).2.2 j).1 hj

theorem startVerifies_clip {c : Clip} (hc : s.clips[j] = some c) :
    ∃ y, (startVerifies s).clips[j] = some y ∧ y = { c with copies := y.copies }
      ∧ ∀ d : DestId, y.copies[d] = c.copies[d].begun j (verifyStarting s d) := by
  obtain ⟨y, hy, hyc, hcopies⟩ := ((startVerify_foldl s allDests (by decide)).2.2 j).2 c hc
  exact ⟨y, hy, hyc, fun d => by rw [hcopies, if_pos (mem_allDests d)]⟩

/-- R72: a destination changes in its queue and its context alone, and where it does not serve not at all. -/
theorem Dest.verifying_kept (x : Dest) (o : Option (ClipId × Nat)) :
    x.verifying o = { x with queue := (x.verifying o).queue, context := (x.verifying o).context } := by
  cases o <;> rfl

theorem startVerifies_unserved (hd : s.dests[d].state.serves = false) : (startVerifies s).dests[d] = s.dests[d] := by
  rw [startVerifies_dests, verifyStarting_none s d (.inr (.inl hd))]
  rfl

/-- R72: only a WRITTEN copy of the clip at the head of the queue changes. -/
theorem begun_eq {c : Clip} (hc : s.clips[j] = some c)
    (hd : (∀ o, c.copies[d] ≠ .written o) ∨ s.dests[d].state.serves = false ∨ s.dests[d].queue.head? ≠ some j) :
    c.copies[d].begun j (verifyStarting s d) = c.copies[d] := by
  cases hstart : verifyStarting s d with
  | none => rfl
  | some x =>
    obtain ⟨k, o⟩ := x
    obtain ⟨-, hserves, hqueue, b, hb, ho⟩ := (verifyStarting_some s d k).mp hstart
    refine if_neg ?_
    rintro rfl
    rw [hc, Option.some.injEq] at hb
    subst hb
    rcases hd with hd | hd | hd
    · exact hd o ho
    · rw [hd] at hserves; cases hserves
    · exact hd hqueue

end Sys2Proof.Machine
end

