-- ==== Sys2Proof/Proofs/DestLimits.lean ====
section
/-! PROOF. R31, R33, R36, R83: every step keeps every destination within its limits (`DestsOk`). What keeps them composes
(`KeepsLimits`), so that it holds of an event when it holds of each of its effects. -/

namespace Sys2Proof.Machine

/-! ## One destination -/

/-- R31, R40, R83, R84: the lists, the credit and the settings in their ranges. -/
def Dest.InRange (x : Dest) : Prop :=
  x.stores.length ≤ 8 ∧ x.fetches.length ≤ 2 ∧ x.credit ≤ x.ratio ∧ 50 ≤ x.stallLimit ∧ x.stallLimit ≤ 10000
    ∧ (x.paceP = 1 ∨ x.paceP = 2 ∨ x.paceP = 3 ∨ x.paceP = 5) ∧ x.paceS ≤ 7

/-- R33: the stall timer runs exactly while a request is outstanding. -/
def Dest.Timed (x : Dest) : Prop := x.stallTimer.isSome = true ↔ x.outstanding ≠ 0

/-- R36: a draining destination has no holder and a STORE outstanding. -/
def Dest.Drains (x : Dest) : Prop := x.draining = true → x.holder = none ∧ x.stores ≠ []

theorem Dest.ok_iff (x : Dest) : x.ok ↔ x.InRange ∧ x.Timed ∧ x.Drains := by
  unfold Dest.ok Dest.InRange Dest.Timed Dest.Drains
  tauto

variable {x : Dest}

theorem Dest.idleLink_iff (x : Dest) : x.idleLink = true ↔ x.outstanding = 0 := by
  simp [Dest.idleLink, Dest.outstanding]

theorem Dest.timed_idle {y : Dest} (hy : y.outstanding = 0) (ht : y.stallTimer = none) : y.Timed := by
  simp [Dest.Timed, hy, ht]

theorem Dest.timed_busy {y : Dest} (hy : y.outstanding ≠ 0) (ht : y.stallTimer.isSome = true) : y.Timed := by
  simp [Dest.Timed, hy, ht]

/-- R33: an answer taken leaves the timer right, whatever it was. -/
theorem Dest.answered_timed (x : Dest) : x.answered.Timed := by
  by_cases hidle : x.idleLink = true
  · exact Dest.timed_idle ((Dest.idleLink_iff x).mp hidle) (if_pos hidle)
  · refine Dest.timed_busy (fun h => hidle ((Dest.idleLink_iff x).mpr h)) ?_
    rw [Dest.answered, if_neg hidle]
    rfl

/-- R33: a request counted failed leaves the timer right where it ran for as many requests before. -/
theorem Dest.failedRequest_timed {x y : Dest} (hy : y.Timed) (hx : x.stallTimer = y.stallTimer)
    (hle : x.outstanding ≤ y.outstanding) : x.failedRequest.Timed := by
  by_cases hidle : x.idleLink = true
  · exact Dest.timed_idle ((Dest.idleLink_iff x).mp hidle) (if_pos hidle)
  · have hne : x.outstanding ≠ 0 := fun h => hidle ((Dest.idleLink_iff x).mpr h)
    refine Dest.timed_busy hne ?_
    rw [Dest.failedRequest, if_neg hidle]
    rw [hx]
    exact hy.mpr (by omega)

/-- R33: the timer after a request has been sent. -/
theorem Dest.timerAfterSend_runs (hx : x.Timed) : x.timerAfterSend.isSome = true := by
  unfold Dest.timerAfterSend
  split
  · rfl
  · rename_i hidle
    exact hx.mpr fun h => hidle ((Dest.idleLink_iff x).mpr h)

theorem Dest.drains_of_not {y : Dest} (hy : y.draining = false) : y.Drains := by
  intro h
  rw [hy] at h
  cases h

/-- R28, R35: a destination out of service. -/
theorem Dest.lost_ok (hx : x.ok) (st : DestState) (ret : Option Service) : (x.lost st ret).ok := by
  obtain ⟨⟨-, -, hrest⟩, -, -⟩ := x.ok_iff.mp hx
  exact (Dest.ok_iff _).mpr ⟨⟨Nat.zero_le _, Nat.zero_le _, hrest⟩, Dest.timed_idle rfl rfl, Dest.drains_of_not rfl⟩

/-- R30, R36: a destination that has dropped out. -/
theorem Dest.dropped_ok (hx : x.ok) : x.dropped.ok := by
  obtain ⟨hrange, htimed, -⟩ := x.ok_iff.mp hx
  refine (Dest.ok_iff _).mpr ⟨hrange, htimed, fun hdrain => ⟨rfl, fun hnil => ?_⟩⟩
  change (!x.stores.isEmpty) = true at hdrain
  change x.stores = [] at hnil
  rw [hnil] at hdrain
  cases hdrain

/-- R32: a STORE of a tag that leaves the list of a destination that does not drain then. -/
theorem Dest.storeTaken_ok (hx : x.ok) (tag : Nat) (hdrain : (x.storeTaken tag).Drains) : (x.storeTaken tag).ok := by
  obtain ⟨⟨hstores, hrest⟩, -, -⟩ := x.ok_iff.mp hx
  exact (Dest.ok_iff _).mpr ⟨⟨(List.length_filter_le _ _).trans hstores, hrest⟩, Dest.answered_timed _, hdrain⟩

/-- R36: the draining of a destination ends. -/
theorem Dest.drained_ok (hx : x.ok) (tag : Nat) : ({ x.storeTaken tag with draining := false } : Dest).ok := by
  obtain ⟨⟨hstores, hrest⟩, -, -⟩ := x.ok_iff.mp hx
  refine (Dest.ok_iff _).mpr ⟨⟨(List.length_filter_le _ _).trans hstores, hrest⟩, ?_, Dest.drains_of_not rfl⟩
  exact Dest.answered_timed { x with stores := x.stores.filter fun r => r.tag != tag }

/-- R83: a credit earned. -/
theorem Dest.earned_ok (hx : x.ok) : x.earned.ok := by
  obtain ⟨⟨hs, hf, -, hrest⟩, htimed, hdrains⟩ := x.ok_iff.mp hx
  exact (Dest.ok_iff _).mpr ⟨⟨hs, hf, min_le_right _ _, hrest⟩, htimed, hdrains⟩

/-- R29: a destination that has finished. -/
theorem Dest.finished_ok (hx : x.ok) (n : Nat) : ({ x with cursor := x.cursor + n, holder := none } : Dest).ok := by
  obtain ⟨hrange, htimed, hdrains⟩ := x.ok_iff.mp hx
  exact (Dest.ok_iff _).mpr ⟨hrange, htimed, fun h => ⟨rfl, (hdrains h).2⟩⟩

/-- R31, R54: a STORE sent. -/
theorem Dest.storeSent_ok (hx : x.ok) (r : ReadyStore) (hlt : x.stores.length < 8) : (x.storeSent r).ok := by
  obtain ⟨⟨-, hrest⟩, htimed, hdrains⟩ := x.ok_iff.mp hx
  refine (Dest.ok_iff _).mpr ⟨⟨?_, hrest⟩, Dest.timed_busy ?_ (Dest.timerAfterSend_runs htimed), fun h => ?_⟩
  · simp only [Dest.storeSent, List.length_append, List.length_singleton]
    omega
  · simp [Dest.outstanding, Dest.storeSent]
  · exact ⟨(hdrains h).1, by simp [Dest.storeSent]⟩

/-- R31, R73, R83: a read-back FETCH sent. -/
theorem Dest.readSent_ok (hx : x.ok) (v : VerifyContext) (t : Try) (hlt : x.fetches.length < 2) : (x.readSent v t).ok := by
  obtain ⟨⟨hstores, -, hcredit, hrest⟩, htimed, hdrains⟩ := x.ok_iff.mp hx
  refine (Dest.ok_iff _).mpr ⟨⟨hstores, ?_, ?_, hrest⟩, Dest.timed_busy ?_ (Dest.timerAfterSend_runs htimed), hdrains⟩
  · simp only [Dest.readSent, List.length_append, List.length_singleton]
    omega
  · change (if x.paced then 0 else x.credit) ≤ x.ratio
    split
    · exact Nat.zero_le _
    · exact hcredit
  · simp [Dest.outstanding, Dest.readSent]

/-- R32: a read-back FETCH of a tag answered, or counted failed. -/
theorem Dest.withoutFetch_answered_ok (hx : x.ok) (tag : Nat) : (x.withoutFetch tag).answered.ok := by
  obtain ⟨⟨hstores, hfetches, hrest⟩, -, hdrains⟩ := x.ok_iff.mp hx
  exact (Dest.ok_iff _).mpr ⟨⟨hstores, (List.length_filter_le _ _).trans hfetches, hrest⟩, Dest.answered_timed _, hdrains⟩

theorem Dest.filter_failed_ok (hx : x.ok) (f : VerifyFetch → Bool) :
    ({ x with fetches := x.fetches.filter f } : Dest).failedRequest.ok := by
  obtain ⟨⟨hstores, hfetches, hrest⟩, htimed, hdrains⟩ := x.ok_iff.mp hx
  have hle : (x.fetches.filter f).length ≤ x.fetches.length := List.length_filter_le _ _
  exact (Dest.ok_iff _).mpr ⟨⟨hstores, hle.trans hfetches, hrest⟩,
    Dest.failedRequest_timed htimed rfl (Nat.add_le_add_left hle _), hdrains⟩

/-- R40: a stall limit taken. -/
theorem Dest.stallLimit_ok (hx : x.ok) (limit : Nat) : ({ x with stallLimit := adjustStall limit } : Dest).ok := by
  obtain ⟨⟨hs, hf, hc, -, -, hrest⟩, htimed, hdrains⟩ := x.ok_iff.mp hx
  refine (Dest.ok_iff _).mpr ⟨⟨hs, hf, hc, ?_, ?_, hrest⟩, htimed, hdrains⟩
  all_goals
    dsimp only
    unfold adjustStall clampNat
    split
    · omega
    · split <;> omega

/-- R84: pacing values taken. -/
theorem Dest.pacedBy_ok (hx : x.ok) (p e : Nat) : (x.pacedBy p e).ok := by
  obtain ⟨⟨hs, hf, -, hlo, hhi, -, -⟩, htimed, hdrains⟩ := x.ok_iff.mp hx
  refine (Dest.ok_iff _).mpr ⟨⟨hs, hf, Nat.zero_le _, hlo, hhi, ?_, min_le_right _ _⟩, htimed, hdrains⟩
  change adjustP p = 1 ∨ adjustP p = 2 ∨ adjustP p = 3 ∨ adjustP p = 5
  unfold adjustP
  split
  · exact .inl rfl
  · split
    · exact .inr (.inl rfl)
    · split
      · exact .inr (.inr (.inl rfl))
      · exact .inr (.inr (.inr rfl))

/-- R10, R80: a destination that forgets clips. -/
theorem Dest.forget_ok (hx : x.ok) (ks : List ClipId) : (x.forget ks).ok := by
  have hlen : (x.forget ks).fetches.length = x.fetches.length := by
    unfold Dest.forget
    split
    · split
      · exact List.length_map _
      · rfl
    · rfl
  obtain ⟨⟨hs, hf, hrest⟩, htimed, hdrains⟩ := x.ok_iff.mp hx
  rw [Dest.forget_kept]
  generalize (x.forget ks).fetches = fs at hlen ⊢
  refine (Dest.ok_iff _).mpr ⟨⟨hs, hlen ▸ hf, hrest⟩, ?_, hdrains⟩
  unfold Dest.Timed Dest.outstanding at htimed ⊢
  rw [hlen]
  exact htimed

/-- R33, R73: a destination a millisecond later. -/
theorem Dest.after_ok (hx : x.ok) : x.after.ok := by
  obtain ⟨⟨hs, hf, hrest⟩, htimed, hdrains⟩ := x.ok_iff.mp hx
  have hlen : x.after.fetches.length = x.fetches.length := List.length_map _
  refine (Dest.ok_iff _).mpr ⟨⟨hs, hlen ▸ hf, hrest⟩, ?_, hdrains⟩
  have htimer : x.after.stallTimer.isSome = x.stallTimer.isSome := Option.isSome_map
  unfold Dest.Timed Dest.outstanding at htimed ⊢
  rw [hlen, htimer]
  exact htimed

/-- R24: a destination after a full reset. -/
theorem Dest.blank_ok (st : DestState) : (Dest.blank st).ok := by
  refine (Dest.ok_iff _).mpr ⟨⟨?_, ?_, ?_, ?_, ?_, .inl rfl, ?_⟩, Dest.timed_idle rfl rfl, Dest.drains_of_not rfl⟩
  all_goals simp [Dest.blank]

/-- R72: a verify that starts. -/
theorem Dest.verifying_ok (hx : x.ok) (o : Option (ClipId × Nat)) : (x.verifying o).ok := by
  cases o <;> exact hx

/-! ## The operations of the engines -/

/-- What keeps the destinations within their limits; it composes. -/
def KeepsLimits (s t : Part) : Prop := DestsOk s → DestsOk t

theorem KeepsLimits.refl (s : Part) : KeepsLimits s s := id

theorem KeepsLimits.trans {s t u : Part} (a : KeepsLimits s t) (b : KeepsLimits t u) : KeepsLimits s u := fun hs => b (a hs)

theorem KeepsLimits.of_dests {s t : Part} (hd : t.dests = s.dests) : KeepsLimits s t := fun hs d => by
  rw [hd]
  exact hs d

theorem KeepsLimits.of_each {s t : Part} (hd : ∀ d : DestId, s.dests[d].ok → t.dests[d].ok) : KeepsLimits s t :=
  fun hs d => hd d (hs d)

theorem KeepsLimits.foldl {α : Type} (f : Part → α → Part) (hf : ∀ t a, KeepsLimits t (f t a)) (l : List α) (s : Part) :
    KeepsLimits s (l.foldl f s) := by
  induction l generalizing s with
  | nil => exact .refl s
  | cons a rest ih => exact (hf s a).trans (ih _)

variable (s : Part) (h : CardId) (d : DestId) (k : ClipId) (p : PortId)

/-- A destination written with a record within the limits where the old one was. -/
theorem writeDest_limits {y : Dest} (hy : s.dests[d].ok → y.ok) : KeepsLimits s (writeDest d y s) := by
  refine .of_each fun e he => ?_
  rw [writeDest_dests, get_set]
  split
  · rename_i hde
    subst hde
    exact hy he
  · exact he

/-- A destination written twice. -/
theorem writeDest_twice_limits {y z : Dest} (hy : s.dests[d].ok → y.ok) : KeepsLimits s (writeDest d y (writeDest d z s)) := by
  have hdests : (writeDest d y (writeDest d z s)).dests = (writeDest d y s).dests := by
    rw [writeDest_dests, writeDest_dests, writeDest_dests, Vector.set_set]
  exact (writeDest_limits s d hy).trans (.of_dests hdests)

theorem modClip_limits (f : Clip → Clip) : KeepsLimits s (modClip k f s) := .of_dests (modClip_dests s k f)

theorem moveCard_limits (st : CardState) : KeepsLimits s (moveCard h st s) := .of_dests (writeCard_dests s h _)

theorem raise_limits (r : Report) : KeepsLimits s (raise r s) := .of_dests (raise_dests s r)

theorem dropOut_limits : KeepsLimits s (dropOut d s) := by
  unfold dropOut
  split
  · exact .refl s
  · refine (modClip_limits s _ _).trans (writeDest_limits _ d fun hx => ?_)
    rw [modClip_dests] at hx
    exact Dest.dropped_ok hx

theorem withdrawAll_limits (ds : DestSet) : KeepsLimits s (withdrawAll ds s) :=
  .foldl _ (fun t e => dropOut_limits t e) _ s

theorem leaveAttempt_limits : KeepsLimits s (leaveAttempt d s) := by
  unfold leaveAttempt
  split
  · exact .refl s
  · split
    · exact dropOut_limits s d
    · exact (dropOut_limits s d).trans (.of_dests rfl)

theorem drainEnded_limits : KeepsLimits s (drainEnded d s) :=
  .foldl _ (fun t q => .of_dests (drainedFor_frame t d q).1) _ s

theorem joinQueues_limits (ds : DestSet) : KeepsLimits s (joinQueues k ds s) := by
  refine .of_each fun e he => ?_
  rw [joinQueues_dests]
  split <;> exact he

theorem countFailed_dests : (countFailed k s).dests = s.dests := by
  unfold countFailed
  split
  · rfl
  · split
    · exact modClip_dests s k _
    · exact (raise_dests _ _).trans (modClip_dests s k _)

theorem settleClip_dests : (settleClip k s).dests = s.dests := by
  cases hc : s.clips[k] with
  | none => rw [settleClip, hc]
  | some c => exact (settleClip_settles hc).2.dests

theorem settleCardOf_dests : (settleCardOf k s).dests = s.dests := by rw [settleCardOf_frame]

theorem settleCopying_dests : (settleCopying h s).dests = s.dests := by rw [settleCopying_frame]

theorem closeAttempt_limits : KeepsLimits s (closeAttempt p k s) :=
  (joinQueues_limits (idleChannel p s) k _).trans (.of_dests (settleClip_dests _ k))

theorem endAttempt_limits : KeepsLimits s (endAttempt p s) := by
  unfold endAttempt
  split
  · exact (closeAttempt_limits s _ p).trans (.of_dests (settleCardOf_dests _ _))
  · exact .of_dests rfl

theorem endIfEmpty_limits : KeepsLimits s (endIfEmpty p s) := by
  unfold endIfEmpty
  split
  · exact endAttempt_limits s p
  · exact .refl s

theorem endAttemptOf_limits : KeepsLimits s (endAttemptOf k s) := by
  unfold endAttemptOf
  split
  · exact endIfEmpty_limits s _
  · exact .refl s

/-- R46: a destination takes a holder only where it is not draining. -/
theorem evalGrant_limits : KeepsLimits s (evalGrant s) := by
  have hs := evalGrant_arbitrates s
  refine .of_each fun d hd => ?_
  obtain ⟨hrange, htimed, hdrains⟩ := (Dest.ok_iff _).mp hd
  have hdrains' : (evalGrant s).dests[d].Drains := by
    rcases hs.holder d with hkept | ⟨-, -, hdrain, -⟩
    · intro h
      rw [hkept]
      rw [hs.dests d] at h ⊢
      exact hdrains h
    · exact Dest.drains_of_not (by rw [hs.dests d]; exact hdrain)
  rw [hs.dests d] at hdrains' ⊢
  exact (Dest.ok_iff _).mpr ⟨hrange, htimed, hdrains'⟩

theorem startVerifies_limits : KeepsLimits s (startVerifies s) := .of_each fun d hd => by
  rw [startVerifies_dests]
  exact Dest.verifying_ok hd _

theorem afterEvent_limits : KeepsLimits s (afterEvent s) := (evalGrant_limits s).trans (startVerifies_limits _)

theorem stopVerify_limits : KeepsLimits s (stopVerify d s) := by
  unfold stopVerify
  split
  · exact .refl s
  · refine (modClip_limits s _ _).trans (writeDest_limits _ d fun hx => ?_)
    rw [modClip_dests] at hx
    exact hx

theorem release_limits : KeepsLimits s (release h s) := by
  refine KeepsLimits.trans (t := released h s) (.of_each fun d hd => ?_) (startVerifies_limits _)
  rw [released_dests]
  exact Dest.forget_ok hd _

/-! ## The directive unit and the frame tracker -/

theorem placeAnswer_limits (a : Answer) : KeepsLimits s (placeAnswer a s) := by
  unfold placeAnswer
  split <;> exact .of_dests rfl

theorem lockUnit_limits (cause : Nat) : KeepsLimits s (lockUnit cause s) := by
  unfold lockUnit
  split
  · exact .of_dests rfl
  · exact .of_dests ((raise_dests _ _).trans rfl)

theorem limits_unit : UnitClosed KeepsLimits where
  refl := .refl
  trans := .trans
  answer a s := placeAnswer_limits s a
  count _ := .of_dests rfl
  lock cause s := lockUnit_limits s cause
  hold _ _ := .of_dests rfl
  waiting _ _ := .of_dests rfl

theorem evalClipClearance_dests : (evalClipClearance k s).dests = s.dests := by
  unfold evalClipClearance
  split
  · rw [evalClearance_frame]
  · rfl

theorem limits_picture : PictureClosed KeepsLimits where
  refl := .refl
  trans := .trans
  quiet q := .of_dests q.dests
  raise r s _ := raise_limits s r
  clip k f s _ := modClip_limits s k f
  commit _ _ _ _ := .of_dests rfl
  clear k s := .of_dests (evalClipClearance_dests s k)

/-! ## The directives on cards -/

theorem unbindPort_dests (o : Option PortId) : (unbindPort o s).dests = s.dests := by rw [unbindPort_eq]

theorem mount_dests (port : Nat) (label : List Byte) (copies review mode : Nat) :
    (mount port label copies review mode s).1.dests = s.dests := by
  unfold mount
  split
  · rfl
  · split
    · rfl
    · split
      · split
        · rfl
        · split
          · exact writeCard_dests _ _ _
          · rfl
      · split
        · rfl
        · exact writeCard_dests _ _ _

theorem listClips_limits (card : Nat) (items : List ClipItem) : KeepsLimits s (listClips card items s).1 := by
  have appended (h : CardId) : KeepsLimits s (appendClips h items s) := .of_dests appendClips_frame.2.2
  unfold listClips
  split
  · exact .refl s
  · split
    · exact .refl s
    · split
      · exact .refl s
      · dsimp only
        split
        · exact (appended _).trans (afterEvent_limits _)
        · exact appended _

theorem loseSource_dests : (loseSource h s).dests = s.dests := writeCard_dests s h _

theorem dismount_limits (card : Nat) : KeepsLimits s (dismount card s).1 := by
  unfold dismount
  split
  · exact .refl s
  · rename_i h _
    split
    · exact .refl s
    · exact .refl s
    · exact .refl s
    · dsimp only
      exact release_limits s h
    · dsimp only
      exact .of_dests ((loseSource_dests _ h).trans (unbindPort_dests s _))

theorem retire_limits (card : Nat) : KeepsLimits s (retire card s).1 := by
  unfold retire
  split
  · exact .refl s
  · split
    · exact .refl s
    · dsimp only
      exact release_limits s _

theorem route_dests (card : Nat) (ports : List Nat) : (route card ports s).1.dests = s.dests := by
  unfold route
  split
  · rfl
  · split
    · rfl
    · split
      · rfl
      · split
        · rfl
        · exact writeCard_dests _ _ _

theorem settledCopying_limits (st : CardState) : KeepsLimits s (settleCopying h (moveCard h st s)) :=
  (moveCard_limits s h st).trans (.of_dests (settleCopying_dests _ h))

theorem start_limits (card : Nat) : KeepsLimits s (start card s).1 := by
  unfold start
  split
  · exact .refl s
  · split
    · exact .refl s
    · split
      · exact .refl s
      · split
        · exact .refl s
        · dsimp only
          exact (settledCopying_limits s _ .copying).trans (afterEvent_limits _)

theorem abandonClip_limits : KeepsLimits s (abandonClip p k s) :=
  (withdrawAll_limits s _).trans
    ((joinQueues_limits (idleChannel p _) k _).trans (modClip_limits _ k _))

theorem promptAbandon_limits : KeepsLimits s (promptAbandon h p k s) := by
  refine KeepsLimits.trans ?_ (afterEvent_limits _)
  refine (abandonClip_limits s k p).trans ?_
  unfold settleAbandon
  split
  · exact moveCard_limits _ h _
  · exact moveCard_limits (setChannel p _ _) h _

theorem suspend_limits (card : Nat) : KeepsLimits s (suspend card s).1 := by
  unfold suspend
  split
  · exact .refl s
  · rename_i h _
    split
    · exact .refl s
    · split
      · exact moveCard_limits s h _
      · unfold suspendInFlight
        dsimp only
        split
        · exact moveCard_limits s h _
        · split
          · exact .of_dests (writeCard_dests s h _)
          · split
            · exact promptAbandon_limits s h _ _
            · exact moveCard_limits s h _

theorem resume_limits (card : Nat) : KeepsLimits s (resume card s).1 := by
  unfold resume
  split
  · exact .refl s
  · rename_i h _
    split
    · exact .refl s
    · unfold resumeCard
      dsimp only
      split
      · exact (settledCopying_limits s h .copying).trans (afterEvent_limits _)
      · exact settledCopying_limits s h .copying

theorem stopChannel_limits : KeepsLimits s (stopChannel p s) := by
  unfold stopChannel
  split
  · exact .refl s
  · exact .of_dests rfl
  · split
    · exact (withdrawAll_limits s _).trans
        ((joinQueues_limits (idleChannel p _) _ _).trans (.of_dests (countFailed_dests _ _)))
    · exact .of_dests rfl

theorem abortCard_limits : KeepsLimits s (abortCard h s) := by
  unfold abortCard
  refine KeepsLimits.trans ?_ (moveCard_limits _ h _)
  split
  · exact stopChannel_limits s _
  · exact .refl s

theorem abort_limits (card : Nat) : KeepsLimits s (abort card s).1 := by
  unfold abort
  split
  · exact .refl s
  · split
    · exact .refl s
    · dsimp only
      split
      · exact (abortCard_limits s _).trans (afterEvent_limits _)
      · exact abortCard_limits s _

theorem haltCard_limits : KeepsLimits s (haltCard s h) := by
  unfold haltCard
  split
  · exact abortCard_limits s h
  · exact .refl s

theorem haltVerify_limits : KeepsLimits s (haltVerify s d) := by
  unfold haltVerify
  split
  · exact .refl s
  · exact (stopVerify_limits s d).trans (writeDest_limits _ d fun hx => Dest.filter_failed_ok hx _)

theorem halted_limits : KeepsLimits s (allDests.foldl haltVerify (allCards.foldl haltCard s)) :=
  (KeepsLimits.foldl haltCard haltCard_limits allCards s).trans (.foldl haltVerify haltVerify_limits allDests _)

theorem acceptWith_limits (n : Nat) : KeepsLimits s (acceptWith n s) := .of_dests rfl

theorem haltAll_limits : KeepsLimits s (haltAll s).1 := by
  unfold haltAll
  dsimp only
  exact ((halted_limits s).trans (acceptWith_limits _ _)).trans (afterEvent_limits _)

theorem relistAll_limits (required : Nat) (ks : List ClipId) : KeepsLimits s (relistAll required ks s) :=
  .foldl _ (fun t k => modClip_limits t k _) _ s

theorem recopy_limits (card : Nat) : KeepsLimits s (recopy card s).1 := by
  unfold recopy
  split
  · exact .refl s
  · rename_i h _
    split
    · exact .refl s
    · split
      · exact .refl s
      · split
        · exact .refl s
        · split
          · dsimp only
            exact ((relistAll_limits s _ _).trans (moveCard_limits _ h _)).trans (afterEvent_limits _)
          · unfold recopyNothing
            dsimp only
            split
            · split
              · exact moveCard_limits s h _
              · exact (moveCard_limits s h _).trans (.of_dests (by rw [evalClearance_frame]))
            · exact .refl s

theorem waive_limits (card generation : Nat) : KeepsLimits s (waive card generation s).1 := by
  unfold waive
  split
  · exact .refl s
  · rename_i h _
    split
    · exact .refl s
    · split
      · exact .refl s
      · have waived : KeepsLimits s (waiveClips s.cards[h].clips s) := .foldl _ (fun t k => modClip_limits t k _) _ s
        dsimp only
        unfold waiveCard
        exact (waived.trans (.of_dests (writeCard_dests _ h _))).trans (.of_dests (by rw [evalClearance_frame]))

/-! ## The directives on destinations -/

theorem changeDest_limits {y : Dest} (hy : s.dests[d].ok → y.ok) : KeepsLimits s (changeDest d y s) := by
  unfold changeDest
  split
  · exact writeDest_limits s d hy
  · exact (writeDest_limits s d hy).trans (afterEvent_limits _)

theorem setRegion_limits (port base length : Nat) : KeepsLimits s (setRegion port base length s).1 := by
  unfold setRegion
  split
  · exact .refl s
  · split
    · exact .refl s
    · split
      · exact .refl s
      · exact changeDest_limits s _ id

theorem setStall_limits (port limit : Nat) : KeepsLimits s (setStall port limit s).1 := by
  unfold setStall
  split
  · exact .refl s
  · exact writeDest_limits s _ fun hx => Dest.stallLimit_ok hx limit

theorem closeDest_limits (port : Nat) : KeepsLimits s (closeDest port s).1 := by
  unfold closeDest
  split
  · exact .refl s
  · split
    · exact changeDest_limits s _ id
    · exact changeDest_limits s _ id
    all_goals exact .refl s

theorem reviveDest_limits (port : Nat) : KeepsLimits s (reviveDest port s).1 := by
  unfold reviveDest
  split
  · exact .refl s
  · split
    · exact changeDest_limits s _ id
    · exact .refl s

theorem setPacing_limits (port q e : Nat) : KeepsLimits s (setPacing port q e s).1 := by
  unfold setPacing
  split
  · exact .refl s
  · exact writeDest_limits s _ fun hx => Dest.pacedBy_ok hx q e

theorem limits_owners : OwnersClosed KeepsLimits where
  toUnitClosed := limits_unit
  quiet q := .of_dests q.dests
  mount port label copies review mode s := .of_dests (mount_dests s port label copies review mode)
  listClips card items s := listClips_limits s card items
  dismount card s := dismount_limits s card
  retire card s := retire_limits s card
  route card ports s := .of_dests (route_dests s card ports)
  start card s := start_limits s card
  suspend card s := suspend_limits s card
  resume card s := resume_limits s card
  abort card s := abort_limits s card
  haltAll s := haltAll_limits s
  recopy card s := recopy_limits s card
  setRegion port base length s := setRegion_limits s port base length
  setStall port limit s := setStall_limits s port limit
  closeDest port s := closeDest_limits s port
  reviveDest port s := reviveDest_limits s port
  setPacing port p e s := setPacing_limits s port p e
  waive card generation s := waive_limits s card generation

theorem limits_station : StationClosed KeepsLimits := limits_owners.station limits_picture

/-! ## The events of the ports -/

theorem detachCopying_limits : KeepsLimits s (detachCopying h p s) := by
  unfold detachCopying
  dsimp only
  generalize (⟨.sourceLost, some h, inFlightClip s h, none, none, p.val⟩ : Report) = r
  have held : KeepsLimits s (writeCard h { (raise r s).cards[h].toState .held with source := none } (raise r s)) :=
    (raise_limits s r).trans (.of_dests (writeCard_dests _ h _))
  split
  · exact held
  · refine (held.trans ?_).trans (afterEvent_limits _)
    unfold detachChannel
    split
    · exact .refl _
    · exact .of_dests rfl
    · split
      · exact (withdrawAll_limits _ _).trans (closeAttempt_limits _ _ p)
      · exact .of_dests rfl

theorem detach_limits : KeepsLimits s (detach p s) := by
  unfold detach
  split
  · refine KeepsLimits.trans (t := setPort p ⟨false, none⟩ s) (.of_dests rfl) ?_
    unfold detachCard
    split
    · exact release_limits _ _
    · exact detachCopying_limits _ _ p
    · exact detachCopying_limits _ _ p
    · exact detachCopying_limits _ _ p
    · exact .of_dests (loseSource_dests _ _)
  · exact .of_dests rfl

theorem sourceDetach_limits : KeepsLimits s (sourceDetach p s) := by
  unfold sourceDetach
  split
  · exact detach_limits s p
  · exact .refl s

theorem sourceAttach_limits : KeepsLimits s (sourceAttach p s) := by
  unfold sourceAttach
  split
  · split
    · exact (detach_limits s p).trans (.of_dests rfl)
    · exact .of_dests rfl
  · exact .refl s

theorem destLinkUp_limits : KeepsLimits s (destLinkUp d s) := by
  unfold destLinkUp
  split
  · refine KeepsLimits.trans ?_ (afterEvent_limits _)
    exact writeDest_limits s d id
  · exact .refl s

/-- R28, R35: the loss of a destination's service. -/
theorem loseDest_limits (st : DestState) (ret : Option Service) (kind : FaultKind) :
    KeepsLimits s (loseDest d st ret kind s) := by
  have lost : KeepsLimits s (writeDest d (s.dests[d].lost st ret) s) :=
    writeDest_limits s d fun hx => Dest.lost_ok hx st ret
  have stopped := (lost.trans (leaveAttempt_limits _ d)).trans (stopVerify_limits _ d)
  unfold loseDest
  dsimp only
  refine KeepsLimits.trans ?_ (afterEvent_limits _)
  generalize (⟨kind, none, none, some d, none, s.dests[d].outstanding⟩ : Report) = r
  have heard : KeepsLimits s (if s.dests[d].draining then drainEnded d (raise r (stopVerify d (leaveAttempt d
      (writeDest d (s.dests[d].lost st ret) s)))) else raise r (stopVerify d (leaveAttempt d
      (writeDest d (s.dests[d].lost st ret) s)))) := by
    split
    · exact (stopped.trans (raise_limits _ r)).trans (drainEnded_limits _ d)
    · exact stopped.trans (raise_limits _ r)
  split
  · exact heard.trans (endAttemptOf_limits _ _)
  · exact heard

theorem destLinkDown_limits : KeepsLimits s (destLinkDown d s) := by
  unfold destLinkDown
  split
  · exact loseDest_limits s d _ _ _
  · exact .refl s

theorem stallTimeout_limits : KeepsLimits s (stallTimeout d s) := by
  unfold stallTimeout
  split
  · exact loseDest_limits s d _ _ _
  · exact .refl s

/-! ## Requests and answers of a source port -/

theorem sendFetch_dests : (sendFetch p s).dests = s.dests := by
  unfold sendFetch
  split
  · rfl
  · split <;> rfl

theorem finishDigest_dests (value : Nat) : (finishDigest k value s).dests = s.dests := by
  unfold finishDigest
  split
  · rfl
  · split
    · dsimp only
      split
      · exact (raise_dests _ _).trans (modClip_dests s k _)
      · exact modClip_dests s k _
    · split
      · rfl
      · exact raise_dests s _

theorem blockArrived_dests (x : ClipId × Clip) (block : Nat) (data : List Byte) :
    (blockArrived p x block data s).dests = s.dests := by
  unfold blockArrived
  dsimp only
  split
  · exact finishDigest_dests _ _ _
  · rfl

theorem tryFailed_limits (f : Fetch) : KeepsLimits s (tryFailed p k f s) := by
  unfold tryFailed
  split
  · exact .of_dests rfl
  · have withdrawn := (raise_limits s (clipReport s .sourceRead k none f.block)).trans
      (withdrawAll_limits _ (raise (clipReport s .sourceRead k none f.block) s).channels[p].writing)
    exact ((withdrawn.trans (.of_dests rfl)).trans (.of_dests ((settleCardOf_dests _ k).trans
      (countFailed_dests (idleChannel p _) k)))).trans (afterEvent_limits _)

theorem sourceBlock_limits (b : Rx) : KeepsLimits s (sourceBlock p b s) := by
  unfold sourceBlock
  split
  · exact .refl s
  · split
    · exact .of_dests rfl
    · split
      · exact tryFailed_limits (dropFetch p b.tag s) _ p _
      · exact .of_dests (blockArrived_dests _ p _ _ _)

theorem fetchTimeout_limits (tag : Nat) : KeepsLimits s (fetchTimeout p tag s) := by
  unfold fetchTimeout
  split
  · exact .refl s
  · split
    · exact .of_dests rfl
    · exact tryFailed_limits (dropFetch p tag s) _ p _

/-! ## Requests and answers of a destination port -/

variable {s d} in
/-- R31: a STORE is ready only below the limit. -/
theorem readyStore_length {r : ReadyStore} (hr : readyStore s d = some r) : s.dests[d].stores.length < 8 := by
  unfold readyStore at hr
  split at hr
  · cases hr
  · split at hr
    · cases hr
    · split at hr
      · rename_i hcond
        exact hcond.2.2
      · cases hr

variable {s d} in
/-- R31: a read-back FETCH is ready only below the limit. -/
theorem readyRead_length {x : VerifyContext × Try} (hr : readyRead s d = some x) : s.dests[d].fetches.length < 2 := by
  unfold readyRead at hr
  split at hr
  · cases hr
  · split at hr
    · cases hr
    · split at hr
      · rename_i hcond
        exact hcond.2.1
      · cases hr

theorem sendStore_limits : KeepsLimits s (sendStore d s) := by
  unfold sendStore
  split
  · rename_i r hr _
    refine KeepsLimits.trans ?_ (writeDest_limits _ d fun hx => ?_)
    · exact .of_dests rfl
    · exact Dest.storeSent_ok hx r (readyStore_length (s := s) hr)
  · exact .refl s

theorem sendVerifyFetch_limits : KeepsLimits s (sendVerifyFetch d s) := by
  unfold sendVerifyFetch
  split
  · exact .refl s
  · rename_i x hr
    refine KeepsLimits.trans ?_ (writeDest_limits _ d fun hx => ?_)
    · exact .of_dests rfl
    · exact Dest.readSent_ok hx x.1 x.2 (readyRead_length hr)

theorem completeDest_limits (sectors : Nat) : KeepsLimits s (completeDest d k p sectors s) := by
  unfold completeDest
  dsimp only
  refine KeepsLimits.trans ?_ (afterEvent_limits _)
  refine KeepsLimits.trans ?_ (endIfEmpty_limits _ p)
  refine KeepsLimits.trans ?_ (.of_dests rfl)
  exact (modClip_limits s k _).trans (writeDest_limits _ d fun hx => Dest.finished_ok hx sectors)

theorem storeSucceeded_limits : KeepsLimits s (storeSucceeded d k s) := by
  have earned := writeDest_limits s d (y := s.dests[d].earned) Dest.earned_ok
  unfold storeSucceeded
  dsimp only
  split
  · split
    · exact earned.trans (completeDest_limits _ d k _ _)
    · exact earned
  · exact earned

theorem storeFailed_limits (block : Nat) : KeepsLimits s (storeFailed d k block s) :=
  (((raise_limits s _).trans (leaveAttempt_limits _ d)).trans (endAttemptOf_limits _ k)).trans (afterEvent_limits _)

/-- R36: a STORE answered on a draining destination. -/
theorem drainingAnswer_limits (tag : Nat) :
    KeepsLimits s (drainingAnswer d (writeDest d (s.dests[d].storeTaken tag) s)) := by
  have hwritten : (writeDest d (s.dests[d].storeTaken tag) s).dests[d] = s.dests[d].storeTaken tag := by
    rw [writeDest_dests, get_set, if_pos rfl]
  unfold drainingAnswer
  rw [hwritten]
  split
  · refine KeepsLimits.trans ?_ ((drainEnded_limits _ d).trans (afterEvent_limits _))
    exact writeDest_twice_limits s d fun hx => Dest.drained_ok hx tag
  · rename_i hne
    refine writeDest_limits s d fun hx => Dest.storeTaken_ok hx tag fun hdrain => ?_
    obtain ⟨-, -, hdrains⟩ := (Dest.ok_iff _).mp hx
    exact ⟨(hdrains hdrain).1, fun hnil => hne (List.isEmpty_iff.mpr hnil)⟩

theorem storeDone_limits (b : Rx) : KeepsLimits s (storeDone d b s) := by
  unfold storeDone
  split
  · exact .refl s
  · split
    · exact .refl s
    · dsimp only
      split
      · exact drainingAnswer_limits s d b.tag
      · rename_i hdrain
        have taken : KeepsLimits s (writeDest d (s.dests[d].storeTaken b.tag) s) :=
          writeDest_limits s d fun hx => Dest.storeTaken_ok hx b.tag (Dest.drains_of_not (Bool.eq_false_iff.mpr hdrain))
        split
        · split
          · exact taken.trans (storeSucceeded_limits _ d _)
          · exact taken.trans (storeFailed_limits _ d _ _)
        · exact taken

theorem endVerify_limits (v : VerifyContext) (verdict : Copy) (fault : Option (FaultKind × Nat)) :
    KeepsLimits s (endVerify d v verdict fault s) := by
  unfold endVerify
  dsimp only
  refine KeepsLimits.trans ?_ (startVerifies_limits _)
  refine KeepsLimits.trans ?_ (.of_dests (evalClipClearance_dests _ v.clip))
  have freed : KeepsLimits s (writeDest d s.dests[d].verifyOver
      (modClip v.clip (fun c => { c with copies := c.copies.set d verdict }) s)) := by
    refine (modClip_limits s v.clip _).trans (writeDest_limits _ d fun hx => ?_)
    rw [modClip_dests] at hx
    exact Dest.filter_failed_ok (x := { s.dests[d] with context := none }) hx _
  split
  · exact freed.trans (raise_limits _ _)
  · exact freed

theorem readFailed_limits (v : VerifyContext) (t : Try) : KeepsLimits s (readFailed d v t s) := by
  unfold readFailed
  split
  · exact writeDest_limits s d id
  · exact endVerify_limits s d _ _ _

theorem compareDigest_limits (v : VerifyContext) (c : Clip) : KeepsLimits s (compareDigest d v c s) := by
  unfold compareDigest
  split <;> exact endVerify_limits s d _ _ _

theorem readArrived_limits (v : VerifyContext) (block : Nat) (data : List Byte) :
    KeepsLimits s (readArrived d v block data s) := by
  unfold readArrived
  split
  · exact .refl s
  · dsimp only
    split
    · refine KeepsLimits.trans ?_ (compareDigest_limits _ d _ _)
      exact writeDest_limits s d id
    · exact writeDest_limits s d id

theorem verifyBlock_limits (b : Rx) : KeepsLimits s (verifyBlock d b s) := by
  unfold verifyBlock
  split
  · exact .refl s
  · have taken : KeepsLimits s (writeDest d (s.dests[d].withoutFetch b.tag).answered s) :=
      writeDest_limits s d fun hx => Dest.withoutFetch_answered_ok hx b.tag
    dsimp only
    split
    · split
      · exact taken.trans (readFailed_limits _ d _ _)
      · exact taken.trans (readArrived_limits _ d _ _ _)
    · exact taken

theorem verifyFetchTimeout_limits (tag : Nat) : KeepsLimits s (verifyFetchTimeout d tag s) := by
  unfold verifyFetchTimeout
  split
  · exact .refl s
  · have taken : KeepsLimits s (writeDest d (s.dests[d].withoutFetch tag).failedRequest s) :=
      writeDest_limits s d fun hx => Dest.filter_failed_ok hx _
    dsimp only
    split
    · exact taken.trans (readFailed_limits _ d _ _)
    · exact taken

theorem portParcelTaken_limits (port : Port) (kind : Nat) (b : Rx) : KeepsLimits s (portParcelTaken port kind b s) := by
  unfold portParcelTaken
  split
  · exact sourceBlock_limits s _ b
  · exact verifyBlock_limits s _ b
  · exact storeDone_limits s _ b
  · exact .refl s

/-! ## Station egress, the full reset and the timers -/

theorem noticeSent_limits (n : Notice) : KeepsLimits s (noticeSent n s) := by
  unfold noticeSent
  split
  · unfold releaseHeld
    split
    · refine KeepsLimits.trans ?_ (limits_station.offerWaiting _)
      exact .of_dests rfl
    · exact .refl s
  · exact .of_dests (writeCard_dests s _ _)
  · exact .refl s

theorem sendFault_dests {t : Part} (ht : sendFault s = some t) : t.dests = s.dests := by
  unfold sendFault at ht
  split at ht
  · cases ht
    rfl
  · split at ht
    · cases ht
      rfl
    · cases ht

theorem sendStats_dests {t : Part} (ht : sendStats s = some t) : t.dests = s.dests := by
  unfold sendStats at ht
  split at ht
  · cases ht
    rfl
  · cases ht

theorem egress_limits : KeepsLimits s (egress s) := by
  unfold egress
  split
  · exact .refl s
  · split
    · refine KeepsLimits.trans ?_ (noticeSent_limits _ _)
      exact .of_dests rfl
    · split
      · rename_i t ht
        exact .of_dests (sendFault_dests s ht)
      · cases ht : sendStats s with
        | some t => exact .of_dests (sendStats_dests s ht)
        | none => exact .refl s

theorem takeEvent_limits (c : Instr) : KeepsLimits s (takeEvent c s) := by
  cases c
  case egressSend => exact egress_limits s
  case portForeignParcel port kind b => exact portParcelTaken_limits s port kind b
  case sourceAttach p => exact sourceAttach_limits s p
  case sourceDetach p => exact sourceDetach_limits s p
  case destLinkUp d => exact destLinkUp_limits s d
  case destLinkDown d => exact destLinkDown_limits s d
  case stationLinkDown => exact (limits_picture.abandonFrame s).trans (.of_dests rfl)
  case stationLinkUp => exact .of_dests rfl
  case sendFetch p => exact .of_dests (sendFetch_dests s p)
  case sourceBlock p b => exact sourceBlock_limits s p b
  case fetchTimeout p tag => exact fetchTimeout_limits s p tag
  case sendStore d => exact sendStore_limits s d
  case storeDone d b => exact storeDone_limits s d b
  case stallTimeout d => exact stallTimeout_limits s d
  case sendVerifyFetch d => exact sendVerifyFetch_limits s d
  case verifyBlock d b => exact verifyBlock_limits s d b
  case verifyFetchTimeout d tag => exact verifyFetchTimeout_limits s d tag
  all_goals exact .refl s

theorem resetEnds_limits (src : BitVec 2) (dst : BitVec 3) (present : BitVec 4) (up : BitVec 6) (station : Bool) :
    KeepsLimits s (resetEnds src dst present up station s) := by
  unfold resetEnds
  split
  · refine .of_each fun d _ => ?_
    change (destsAfterReset (fittedDests dst) up)[d].ok
    rw [destsAfterReset, tabulate_get]
    exact Dest.blank_ok _
  · exact .refl s

theorem tick_limits (m : State) : KeepsLimits m.part (tick m).part := by
  unfold tick
  split
  · exact .refl _
  · refine .of_each fun d hd => ?_
    dsimp only [passMillisecond]
    rw [mapEach_get]
    exact Dest.after_ok hd

theorem step_limits {m t : State} (hstep : step m = .next t) : KeepsLimits m.part t.part := by
  unfold step at hstep
  split at hstep
  · cases hstep
    exact tick_limits m
  · rcases exec_cases hstep with ht | ht | ⟨cause, ht⟩ | ⟨src, dst, present, up, station, -, ht⟩ <;> rw [ht]
    · exact limits_station.ingress _ _
    · unfold unlessReset
      split
      · exact .refl _
      · exact takeEvent_limits _ _
    · exact .of_dests rfl
    · exact resetEnds_limits _ _ _ _ _ _

end Sys2Proof.Machine

namespace Sys2Proof.Proofs
open Machine

/-- Settles O54: each effect of a command keeps the destinations within their limits (`KeepsLimits`), and so does every
step. -/
theorem destsKept : Obligations.DestsKept := fun _ _ hs hstep => step_limits hstep hs

end Sys2Proof.Proofs
end

