-- ==== Sys2Proof/Proofs/GrantPasses.lean ====
section
/-! PROOF. The passes of the grant evaluation (R45, R46): why they end, which candidate a pass grants, and what a grant is. -/

namespace Sys2Proof.Machine

variable {s t : Part} {c : Candidate} {p : PortId}

/-! ## The passes end (R45) -/

/-- The clips that wait to be granted. -/
def listedClips (s : Part) : Finset ClipId :=
  Finset.univ.filter fun k => s.clips[k].any fun c => c.state == .listed

theorem mem_listedClips (k : ClipId) : k ∈ listedClips s ↔ ∃ c, s.clips[k] = some c ∧ c.state = .listed := by
  simp [listedClips, Option.any_eq_true]

theorem listedClips_card_le (s : Part) : (listedClips s).card ≤ 512 :=
  (Finset.card_le_univ _).trans_eq (Fintype.card_fin 512)

/-- R46, R57: a grant takes its clip out of LISTED and leaves every other clip as it is. -/
theorem grant_clips (hc : c.Stands s t) (hreq : 1 ≤ t.cards[c.card].required) :
    (∀ y, (grant c t).clips[c.clip] = some y → y.state ≠ .listed)
      ∧ ∀ j : ClipId, j ≠ c.clip → (grant c t).clips[j] = t.clips[j] := by
  obtain ⟨-, -, hchannel, -⟩ := (readyClip_iff _ _ _).mp hc.ready
  obtain ⟨p, hp⟩ := Option.isSome_iff_exists.mp hchannel
  obtain ⟨x, hx, -⟩ := readyClip_listed hc.ready
  have gclip := granted_clip (p := p) hx
  by_cases hd : ∃ d : DestId, c.targets.mem d = true
  · rw [grant_begins hp hd]
    refine ⟨fun y hy hlisted => ?_, fun j hj => granted_clips_other hj⟩
    rw [gclip] at hy
    cases hy
    cases hlisted
  · have hd' (d : DestId) : c.targets.mem d = false := Bool.eq_false_iff.mpr fun hmem => hd ⟨d, hmem⟩
    rw [grant_ends hp hd']
    have hends := endAttempt_ends (p := p) (by rw [granted_channel]; rfl) gclip
    refine ⟨fun y hy hlisted => ?_, fun j hj => (hends.clips j hj).trans (granted_clips_other hj)⟩
    have hlive : 1 ≤ (x.granted c.targets).live := by
      rw [Clip.live_congr (Clip.granted_nowhere hd')]
      exact hreq.trans (hc.copied hd' x hx)
    obtain ⟨z, hz, hwritten, -⟩ := hends.settled.2 hlive
    rw [hy, Option.some.injEq] at hz
    rw [← hz, hlisted] at hwritten
    cases hwritten

/-- R45: a pass that grants leaves fewer clips LISTED. -/
theorem pass_unlists (hreq : ∀ h : CardId, 1 ≤ s.cards[h].required) {order : List CardId} (horder : order.Nodup)
    (hc : chooseGrant (considerAll order s).1 (considerAll order s).2 = some c) :
    (listedClips (grant c (considerAll order s).1)).card < (listedClips s).card := by
  obtain ⟨hmem, -⟩ := chooseGrant_some _ hc
  have hstands := (considerAll_candidates s order horder).2.1 c hmem
  have hconsiders := considerAll_considers s order
  generalize (considerAll order s).1 = t at hstands hconsiders ⊢
  obtain ⟨hgranted, hothers⟩ := grant_clips hstands (hconsiders.required c.card ▸ hreq c.card)
  obtain ⟨x, hx, hlisted⟩ := readyClip_listed hstands.ready
  rw [hconsiders.clips] at hx
  refine Finset.card_lt_card ⟨fun k hk => ?_, fun hsub => ?_⟩
  · obtain ⟨y, hy, hylisted⟩ := (mem_listedClips k).mp hk
    have hne : k ≠ c.clip := by
      rintro rfl
      exact hgranted y hy hylisted
    rw [hothers k hne, hconsiders.clips] at hy
    exact (mem_listedClips k).mpr ⟨y, hy, hylisted⟩
  · obtain ⟨y, hy, hylisted⟩ := (mem_listedClips c.clip).mp (hsub ((mem_listedClips c.clip).mpr ⟨x, hx, hlisted⟩))
    exact hgranted y hy hylisted

theorem pass_required {order : List CardId} (horder : order.Nodup)
    (hc : chooseGrant (considerAll order s).1 (considerAll order s).2 = some c) (h : CardId) :
    (grant c (considerAll order s).1).cards[h].required = s.cards[h].required := by
  obtain ⟨hmem, hfree⟩ := chooseGrant_some _ hc
  have hstands := (considerAll_candidates s order horder).2.1 c hmem
  exact (grant_arbitrates (considerAll_considers s order) hstands hfree).required h

/-- R45: more passes than clips LISTED change nothing. -/
theorem grantPasses_extra (n : Nat) (s : Part) (hreq : ∀ h : CardId, 1 ≤ s.cards[h].required)
    (hn : (listedClips s).card < n) (more : Nat) : grantPasses (n + more) s = grantPasses n s := by
  induction n generalizing s with
  | zero => cases hn
  | succ n ih =>
    have hnodup := cardOrder_nodup s.grantPointer
    rw [Nat.succ_add, grantPasses, grantPasses]
    split
    · rename_i c hc
      refine ih _ (fun h => ?_) ?_
      · rw [pass_required hnodup hc]
        exact hreq h
      · exact (pass_unlists hreq hnodup hc).trans_le (Nat.le_of_lt_succ hn)
    · rfl

/-- R45: a pass that grants nothing ends the evaluation. -/
theorem evalGrant_over (hc : chooseGrant (considerAll (cardOrder s.grantPointer) s).1
    (considerAll (cardOrder s.grantPointer) s).2 = none) : evalGrant s = (considerAll (cardOrder s.grantPointer) s).1 := by
  rw [evalGrant, grantPasses, hc]

/-- R45: after a grant the evaluation is made anew. -/
theorem evalGrant_again (hreq : ∀ h : CardId, 1 ≤ s.cards[h].required)
    (hc : chooseGrant (considerAll (cardOrder s.grantPointer) s).1 (considerAll (cardOrder s.grantPointer) s).2 = some c) :
    evalGrant s = evalGrant (grant c (considerAll (cardOrder s.grantPointer) s).1) := by
  have hnodup := cardOrder_nodup s.grantPointer
  rw [evalGrant, grantPasses, hc]
  refine (grantPasses_extra 512 _ (fun h => ?_) ?_ 1).symm
  · rw [pass_required hnodup hc]
    exact hreq h
  · exact (pass_unlists hreq hnodup hc).trans_le (listedClips_card_le s)

/-! ## The order and the choice (R45) -/

theorem cardOrder_get (pointer : CardId) (i : Fin 8) : (cardOrder pointer)[i.val]? = some (pointer + i) := by
  fin_cases i <;> rfl

theorem mem_cardOrder (pointer h : CardId) : h ∈ cardOrder pointer := by
  have hget := cardOrder_get pointer (h - pointer)
  rw [add_sub_cancel] at hget
  exact List.mem_of_getElem? hget

/-- R45 step 2: the candidates of a pass are the cards ready after it. -/
theorem readyClip_considered (s : Part) (h : CardId) (k : ClipId) :
    readyClip (considerAll (cardOrder s.grantPointer) s).1 h = some k
      ↔ ∃ c ∈ (considerAll (cardOrder s.grantPointer) s).2, c.card = h ∧ c.clip = k := by
  obtain ⟨-, hstands, hready⟩ := considerAll_candidates s _ (cardOrder_nodup s.grantPointer)
  constructor
  · exact hready h (mem_cardOrder _ h) k
  · rintro ⟨c, hc, rfl, rfl⟩
    exact (hstands c hc).ready

theorem isFree_iff (x : Dest) : x.isFree = true ↔ x.holder = none ∧ x.draining = false := by
  simp [Dest.isFree]

/-- R45 step 4: what may be granted against a reservation. -/
theorem grantable_iff (reserved : DestSet) : grantable s reserved c = true ↔
    ∀ d : DestId, c.targets.mem d = true → s.dests[d].isFree = true ∧ reserved.mem d = false := by
  simp [grantable, DestSet.allMembers_iff]

theorem grantable_senior : grantable s DestSet.empty c = true ↔
    ∀ d : DestId, c.targets.mem d = true → s.dests[d].isFree = true := by
  simp [grantable_iff, DestSet.mem_empty]

/-- R45 steps 3 and 4: what the senior card needs and is free is reserved for it. -/
theorem grantable_reserved (senior : Candidate) : grantable s (reservedFor s senior) c = true ↔
    ∀ d : DestId, c.targets.mem d = true → s.dests[d].isFree = true ∧ senior.targets.mem d = false := by
  rw [grantable_iff]
  refine forall₂_congr fun d _ => and_congr_right fun hfree => ?_
  rw [reservedFor, DestSet.mem_ofPred, hfree, Bool.and_true]

theorem chooseGrant_senior {senior : Candidate} {others : List Candidate}
    (hfree : ∀ d : DestId, senior.targets.mem d = true → s.dests[d].isFree = true) :
    chooseGrant s (senior :: others) = some senior := if_pos (grantable_senior.mpr hfree)

theorem chooseGrant_others {senior : Candidate} {others : List Candidate}
    (hheld : ∃ d : DestId, senior.targets.mem d = true ∧ s.dests[d].isFree = false) :
    chooseGrant s (senior :: others) = others.find? (grantable s (reservedFor s senior)) := by
  refine if_neg fun hall => ?_
  obtain ⟨d, hd, hf⟩ := hheld
  rw [grantable_senior.mp hall d hd] at hf
  cases hf

/-! ## What a grant is (R46, R47) -/

theorem granted_eq {x : Clip} (hx : s.clips[c.clip] = some x) : granted c p s = { s with
    grantPointer := c.card + 1
    channels := s.channels.set p (Channel.begin c.clip c.targets s.channels[p].tagCounter)
    dests := (granted c p s).dests
    clips := s.clips.set c.clip (some (x.granted c.targets)) } := by
  have hframe := (takeDest_foldl s c.clip c.targets.members).1
  unfold granted
  generalize c.targets.members.foldl (takeDest c.clip) s = t at hframe ⊢
  rw [hframe]
  simp only [modClip, hx, setChannel]

/-- R46: a grant to no destination takes none. -/
theorem granted_dests_nowhere (hd : ∀ d : DestId, c.targets.mem d = false) : (granted c p s).dests = s.dests := by
  refine Vector.ext fun i hi => ?_
  have he := granted_dests s p c ⟨i, hi⟩
  rw [hd, if_neg Bool.false_ne_true] at he
  exact he

theorem Clip.granted_eq_nowhere {x : Clip} {targets : DestSet} (hd : ∀ d : DestId, targets.mem d = false) :
    x.granted targets = { x with state := .inFlight } := by
  have hcopies := Clip.granted_nowhere (x := x) hd
  unfold Clip.granted at hcopies ⊢
  dsimp only at hcopies
  rw [hcopies]

/-- R46, R57: a grant to no destination leaves every destination as it is. -/
theorem grant_ends_dests {x : Clip} (hp : freeChannel s c.card = some p) (hx : s.clips[c.clip] = some x)
    (hd : ∀ d : DestId, c.targets.mem d = false) : (grant c s).dests = s.dests := by
  have hends := endAttempt_ends (p := p) (by rw [granted_channel]; rfl) (granted_clip (p := p) hx)
  have hnone (d : DestId) : (granted c p s).channels[p].finished.mem d = false := by
    rw [granted_channel]
    exact DestSet.mem_empty d
  rw [grant_ends hp hd]
  refine Eq.trans (Vector.ext fun i hi => ?_) (granted_dests_nowhere (p := p) hd)
  have he := hends.dests ⟨i, hi⟩
  rw [hnone, if_neg Bool.false_ne_true] at he
  exact he

end Sys2Proof.Machine

namespace Sys2Proof.Proofs
open Machine

/-- Settles O60: the passes end as each grant leaves fewer clips LISTED (`grantPasses_extra`); the candidates of a pass by
`considerAll_candidates`, the choice among them by `grantable_reserved`, the grant by `granted_eq`. -/
theorem grantPassesSuffice : Obligations.GrantPassesSuffice := by
  refine ⟨fun s hreq more => ?_, fun s t found hfound => ?_, fun s senior others free may hfree hmay => ?_,
    fun s c p x begun hso hidle hx hbegun => ?_⟩
  · exact grantPasses_extra 513 s hreq (Nat.lt_succ_of_le (listedClips_card_le s)) more
  · have ht : t = (considerAll (cardOrder s.grantPointer) s).1 := congrArg Prod.fst hfound
    have hf : found = (considerAll (cardOrder s.grantPointer) s).2 := congrArg Prod.snd hfound
    rw [ht, hf]
    exact ⟨cardOrder_get _, (considerAll_candidates s _ (cardOrder_nodup _)).1, readyClip_considered s, evalGrant_over,
      fun c hc hreq => evalGrant_again hreq hc⟩
  · have hisFree (d : DestId) : s.dests[d].isFree = free d := by
      rw [Bool.eq_iff_iff, isFree_iff, hfree]
    have hgrantable : grantable s (reservedFor s senior) = may := by
      funext c
      rw [Bool.eq_iff_iff, grantable_reserved, hmay]
      simp only [hisFree]
    refine ⟨rfl, fun hall => chooseGrant_senior fun d hd => (hisFree d).trans (hall d hd), fun ⟨d, hd, hheld⟩ => ?_⟩
    rw [chooseGrant_others ⟨d, hd, (hisFree d).trans hheld⟩, hgrantable]
    refine ⟨fun hnone => List.find?_eq_none.mpr fun c hc => by simp [hnone c hc], fun before c rest hsplit hbefore hc => ?_⟩
    exact List.find?_eq_some_iff_append.mpr ⟨hc, before, rest, hsplit, fun e he => by simp [hbefore e he]⟩
  · have hp := freeChannel_of hso hidle
    have hgranted := granted_eq (p := p) hx
    change begun = Channel.begin c.clip c.targets s.channels[p].tagCounter at hbegun
    rw [← hbegun] at hgranted
    refine ⟨fun hd => ?_, fun hd => ⟨grant_ends_dests hp hx hd, ?_⟩⟩
    · rw [grant_begins hp hd]
      refine ⟨x.granted c.targets, hgranted, rfl, fun d => ⟨Clip.granted_copies d _ x, granted_dests s p c d⟩⟩
    · rw [grant_ends hp hd, hgranted, granted_dests_nowhere hd, Clip.granted_eq_nowhere hd]

end Sys2Proof.Proofs
end

