-- ==== Sys2Proof/Proofs/Starting.lean ====
section
/-! PROOF. START (R62) and the first grant of the card it starts (R44 to R47). -/

namespace Sys2Proof.Machine

variable {s : Part} {h : CardId} {k : ClipId} {c : Clip} {p : PortId} {d : DestId}

theorem Dest.fits_iff (x : Dest) (length : Nat) :
    x.fits (sectorsOf length) = true ↔ x.cursor + 8 * ((length + 4095) / 4096) ≤ x.length := by
  unfold Dest.fits sectorsOf blocksOf Config.blockBytes
  exact decide_eq_true_iff

/-- R46: a clip with no copy record has no live copy. -/
theorem Clip.live_zero (hnone : ∀ d : DestId, c.copies[d] = .none) : c.live = 0 := by
  refine List.countP_eq_zero.mpr fun x hx => ?_
  obtain ⟨i, hi, rfl⟩ := Vector.getElem_of_mem (Vector.mem_toList_iff.mp hx)
  have hi' : c.copies[i] = .none := hnone ⟨i, hi⟩
  rw [hi']
  decide

/-! ## A pass with one card to consider -/

/-- R37: where the clip fits on every destination that is asked, the test changes nothing. -/
theorem tested_fits (hfits : ∀ d : DestId, asksFor s h c d = true → s.dests[d].fits (sectorsOf c.length) = true) :
    tested h k c s = s := by
  have hstill (l : List DestId) : l.foldl (testFit h k c) s = s := by
    induction l with
    | nil => rfl
    | cons d rest ih =>
      have hfull : foundFull s h c d = false := Bool.eq_false_iff.mpr fun hfull => by
        obtain ⟨hask, hnot⟩ := (foundFull_iff s h d c).mp hfull
        rw [hfits d hask] at hnot
        cases hnot
      rw [List.foldl_cons, testFit_fits s h d k c hfull, ih]
  exact hstill allDests

/-- R45 step 2: a pass in which no card is ready. -/
theorem considerAll_idle {l : List CardId} (hidle : ∀ g : CardId, readyClip s g = none) : considerAll l s = (s, []) := by
  induction l with
  | nil => rfl
  | cons g rest ih => rw [considerAll, consider_notReady (hidle g), ih]

/-- R45 step 2: a pass in which one card is ready, and not short. -/
theorem considerAll_single {b : Candidate} {l : List CardId} (hl : l.Nodup) (hcard : consider s h = (s, some b))
    (hothers : ∀ g : CardId, g ≠ h → readyClip s g = none) :
    considerAll l s = (s, if h ∈ l then [b] else []) := by
  induction l with
  | nil => rfl
  | cons g rest ih =>
    obtain ⟨hg, hrest⟩ := List.nodup_cons.mp hl
    by_cases hgh : g = h
    · subst hgh
      rw [considerAll, hcard, ih hrest, if_neg hg, if_pos List.mem_cons_self]
    · rw [considerAll, consider_notReady (hothers g hgh), ih hrest]
      simp [Ne.symm hgh]

/-! ## The first grant of a card (R44 to R46) -/

/-- R62: the card alone is in COPYING, its channel idle, its clips LISTED, the first without a copy, and each destination of
its route, at least as many as its required copies, free, ACTIVE and with room for that clip. -/
structure BeginsCopying (s : Part) (h : CardId) (k : ClipId) (c : Clip) (p : PortId) : Prop where
  copying  : ∀ g : CardId, s.cards[g].state = .copying ↔ g = h
  source   : s.cards[h].source = some p
  idle     : s.channels[p].state = .idle
  required : 1 ≤ s.cards[h].required ∧ s.cards[h].required ≤ s.cards[h].route.size
  first    : ∃ rest, s.cards[h].clips = k :: rest
  listed   : ∀ j ∈ s.cards[h].clips, ∃ x, s.clips[j] = some x ∧ x.state = .listed
  clip     : s.clips[k] = some c
  copies   : ∀ d : DestId, c.copies[d] = .none
  route    : ∀ d : DestId, s.cards[h].route.mem d = true → s.dests[d].state = .active ∧ s.dests[d].isFree = true
    ∧ s.dests[d].fits (sectorsOf c.length) = true

namespace BeginsCopying

variable (hs : BeginsCopying s h k c p)
include hs

theorem ready : readyClip s h = some k := by
  obtain ⟨rest, hrest⟩ := hs.first
  obtain ⟨x, hx, hlisted⟩ := hs.listed k (hrest ▸ List.mem_cons_self)
  refine (readyClip_iff s h k).mpr ⟨(hs.copying h).mpr rfl, ?_, ?_, ?_⟩
  · refine (inFlightClip_none s h).mpr fun j hj y hy hflight => ?_
    obtain ⟨z, hz, hzlisted⟩ := hs.listed j hj
    rw [hy, Option.some.injEq] at hz
    rw [← hz, hflight] at hzlisted
    cases hzlisted
  · exact (freeChannel_isSome s h).mpr ⟨p, hs.source, hs.idle⟩
  · exact (firstListed_iff s h k).mpr ⟨[], rest, x, hrest, hx, hlisted, fun j hj => (nomatch hj)⟩

theorem others_notReady {g : CardId} (hg : g ≠ h) : readyClip s g = none :=
  Option.eq_none_iff_forall_ne_some.mpr fun _ hj => hg ((hs.copying g).mp (readyClip_some hj).1)

/-- R44: the card gives a candidate of its whole route. -/
theorem considered : consider s h = (s, some ⟨h, k, s.cards[h].route⟩) := by
  have htested : tested h k c s = s := tested_fits fun d hask =>
    (hs.route d ((asksFor_iff s h d c).mp hask).1).2.2
  have htargets : targetSet h c (tested h k c s) = s.cards[h].route := by
    refine DestSet.ext_mem fun d => ?_
    rw [Bool.eq_iff_iff, targetSet_tested, asksFor_iff]
    constructor
    · exact fun hask => hask.1.1
    · intro hmem
      obtain ⟨hactive, -, hfits⟩ := hs.route d hmem
      exact ⟨⟨hmem, hactive, by rw [hs.copies]; rfl⟩, hfits⟩
  have hlive := Clip.live_zero hs.copies
  rw [consider_enough hs.ready hs.clip (by rw [hlive]; exact hs.required.1), htargets, htested]
  rw [htargets, hlive, Nat.zero_add]
  exact hs.required.2

/-- R45: the card is granted its first clip, and no further grant is made. -/
theorem evalGrant_eq : evalGrant s = granted ⟨h, k, s.cards[h].route⟩ p s := by
  have hpass : considerAll (cardOrder s.grantPointer) s = (s, [⟨h, k, s.cards[h].route⟩]) := by
    rw [considerAll_single (cardOrder_nodup _) hs.considered fun g => hs.others_notReady, if_pos (mem_cardOrder _ h)]
  have hchosen : chooseGrant s [⟨h, k, s.cards[h].route⟩] = some ⟨h, k, s.cards[h].route⟩ :=
    chooseGrant_senior fun d hd => (hs.route d hd).2.1
  have hsome : ∃ d : DestId, s.cards[h].route.mem d = true := by
    by_contra hnone
    have hzero : s.cards[h].route.size = 0 :=
      DestSet.size_eq_zero fun d => Bool.eq_false_iff.mpr fun hd => hnone ⟨d, hd⟩
    have := hs.required
    omega
  have hover (g : CardId) : readyClip (granted ⟨h, k, s.cards[h].route⟩ p s) g = none := by
    refine Option.eq_none_iff_forall_ne_some.mpr fun j hj => ?_
    obtain ⟨hcopying, hflight, -⟩ := (readyClip_iff _ _ _).mp hj
    rw [granted_cards] at hcopying
    obtain rfl := (hs.copying g).mp hcopying
    obtain ⟨rest, hrest⟩ := hs.first
    refine (inFlightClip_none _ _).mp hflight k ?_ _ (granted_clip (c := ⟨g, k, s.cards[g].route⟩) hs.clip) rfl
    rw [granted_cards, hrest]
    exact List.mem_cons_self
  rw [evalGrant, grantPasses, hpass]
  simp only [hchosen]
  rw [grant_begins (freeChannel_of hs.source hs.idle) hsome, grantPasses, considerAll_idle hover]
  rfl

/-- R46, R47, R72: the part after the grant and the starts of verifies, none of them on the clip just granted. -/
theorem afterEvent_eq : ∃ q, afterEvent s = q ∧ q.cards = s.cards ∧ q.grantPointer = h + 1
    ∧ (∃ x, q.clips[k] = some x ∧ x.state = .inFlight
        ∧ ∀ d : DestId, x.copies[d] = if s.cards[h].route.mem d then .writing else .none)
    ∧ (∀ d : DestId, q.dests[d].holder = if s.cards[h].route.mem d then some k else s.dests[d].holder)
    ∧ q.channels[p] = Channel.begin k s.cards[h].route s.channels[p].tagCounter := by
  have hclip := granted_clip (c := ⟨h, k, s.cards[h].route⟩) (p := p) hs.clip
  have hcards := granted_cards s p ⟨h, k, s.cards[h].route⟩
  have hpointer := congrArg Part.grantPointer (granted_eq (c := ⟨h, k, s.cards[h].route⟩) (p := p) hs.clip)
  have hdests := granted_dests s p ⟨h, k, s.cards[h].route⟩
  have hchannel := granted_channel (s := s) (p := p) (c := ⟨h, k, s.cards[h].route⟩)
  rw [afterEvent, hs.evalGrant_eq]
  generalize granted ⟨h, k, s.cards[h].route⟩ p s = t at hclip hcards hpointer hdests hchannel ⊢
  have hframe := startVerifies_frame t
  refine ⟨_, rfl, by rw [hframe]; exact hcards, by rw [hframe]; exact hpointer, ?_, fun d => ?_,
    by rw [hframe]; exact hchannel⟩
  · obtain ⟨y, hy, hyx, hcopies⟩ := startVerifies_clip t k hclip
    refine ⟨y, hy, by rw [hyx]; rfl, fun d => ?_⟩
    have hcopy : (c.granted s.cards[h].route).copies[d] = if s.cards[h].route.mem d then .writing else .none := by
      rw [Clip.granted_copies, hs.copies]
    rw [hcopies, begun_eq t d k hclip (.inl fun o => ?_), hcopy]
    rw [hcopy]
    split <;> exact fun h => nomatch h
  · rw [startVerifies_dests, Dest.verifying_kept]
    change t.dests[d].holder = _
    rw [hdests]
    dsimp only
    split <;> rfl

end BeginsCopying

/-! ## START (R62) -/

/-- R62: START of a card that it starts. -/
theorem start_taken {card : Nat} (hcard : h.val = card) (hst : s.cards[h].state = .mounted)
    (hroute : ∃ d : DestId, s.cards[h].route.mem d = true)
    (hlisted : ∃ k ∈ s.cards[h].clips, ∃ c, s.clips[k] = some c ∧ c.state = .listed) :
    start card s = (afterEvent (moveCard h .copying s), .done) := by
  have hu : usedCard s card = some h := usedCard_of_inUse hcard (by rw [hst]; decide)
  have hroute' : ¬ s.cards[h].route.isEmpty = true := fun hempty => by
    obtain ⟨d, hd⟩ := hroute
    rw [(DestSet.isEmpty_iff _).mp hempty d] at hd
    cases hd
  obtain ⟨k, hk, c, hc, hclip⟩ := hlisted
  have hclips : ¬ s.cards[h].clips.isEmpty = true := fun hempty => by
    rw [List.isEmpty_iff.mp hempty] at hk
    cases hk
  have hstays : settleCopying h (moveCard h .copying s) = moveCard h .copying s := by
    refine settleCopying_stays _ _ (.inr (.inl fun hnone => ?_))
    rw [firstListed, findClip_moveCard] at hnone
    have := (findClip_none s h).mp hnone k hk c hc
    rw [hclip] at this
    cases this
  rw [start, hu]
  refine (if_neg (not_not_intro hst)).trans ((if_neg hroute').trans ((if_neg hclips).trans ?_))
  rw [hstays]

/-- R62: the part in which the card has been moved to COPYING. -/
theorem beginsCopying_started (hothers : ∀ g : CardId, s.cards[g].state ≠ .copying)
    (hso : s.cards[h].source = some p) (hidle : s.channels[p].state = .idle)
    (hreq : 1 ≤ s.cards[h].required ∧ s.cards[h].required ≤ s.cards[h].route.size)
    {rest : List ClipId} (hfirst : s.cards[h].clips = k :: rest)
    (hlisted : ∀ j ∈ k :: rest, ∃ x, s.clips[j] = some x ∧ x.state = .listed) (hc : s.clips[k] = some c)
    (hcopies : ∀ d : DestId, c.copies[d] = .none)
    (hroute : ∀ d : DestId, s.cards[h].route.mem d = true → s.dests[d].state = .active ∧ s.dests[d].isFree = true
      ∧ s.dests[d].fits (sectorsOf c.length) = true) :
    BeginsCopying (moveCard h .copying s) h k c p := by
  have hcard : (moveCard h .copying s).cards[h] = s.cards[h].toState .copying := moveCard_self _
  have hclips : (moveCard h .copying s).clips = s.clips := moveCard_clips _
  have hchannels : (moveCard h .copying s).channels = s.channels := by rw [moveCard_frame]
  have hdests : (moveCard h .copying s).dests = s.dests := by rw [moveCard_frame]
  refine ⟨fun g => ?_, by rw [hcard]; exact hso, by rw [hchannels]; exact hidle, by rw [hcard]; exact hreq,
    ⟨rest, by rw [hcard]; exact hfirst⟩, ?_, by rw [hclips]; exact hc, hcopies, ?_⟩
  · rw [moveCard_card]
    split
    · rename_i hg
      exact ⟨fun _ => hg.symm, fun _ => rfl⟩
    · rename_i hg
      exact ⟨fun hcopying => absurd hcopying (hothers g), fun hgh => absurd hgh.symm hg⟩
  · rw [hcard, hclips]
    exact fun j hj => hlisted j (hfirst ▸ hj)
  · rw [hcard, hdests]
    exact hroute

end Sys2Proof.Machine

namespace Sys2Proof.Proofs
open Machine

/-- Settles O19: `start_taken`, the one grant by `BeginsCopying.evalGrant_eq`, the readiness by `readyClip_iff`, the
consideration by its cases (`consider_copied`, `consider_enough`, `consider_short`). -/
theorem startGrants : Obligations.StartGrants := by
  refine ⟨fun s tag card h hs hcard hst hroute hlisted => ?_,
    fun s tag card h k rest c p hs hcard hst hso hlo hhi hothers hidle hfirst hlisted hc hcopies hroute => ?_,
    fun s h k => ?_, fun s h => ⟨consider_notReady, fun k c asked hr hc hasked => ⟨consider_copied hr hc, fun hlive => ?_⟩⟩⟩
  · exact answers_of rfl hs.1 (.inl hs.2) (start_taken hcard hst hroute hlisted)
  · have hbegins : BeginsCopying (moveCard h .copying s.part) h k c p := by
      refine beginsCopying_started hothers hso hidle ⟨hlo, hhi⟩ hfirst hlisted hc hcopies fun d hd => ?_
      obtain ⟨hactive, hholder, hdrain, hfits⟩ := hroute d hd
      exact ⟨hactive, (isFree_iff _).mpr ⟨hholder, hdrain⟩, (Dest.fits_iff _ _).mpr hfits⟩
    have hsome : ∃ d : DestId, s.part.cards[h].route.mem d = true := by
      by_contra hnone
      have hzero : s.part.cards[h].route.size = 0 :=
        DestSet.size_eq_zero fun d => Bool.eq_false_iff.mpr fun hd => hnone ⟨d, hd⟩
      omega
    obtain ⟨q, hq, hcards, hpointer, hclip, hholder, hchannel⟩ := hbegins.afterEvent_eq
    have hcard' : (moveCard h .copying s.part).cards[h] = s.part.cards[h].toState .copying := moveCard_self _
    have hframe : (moveCard h .copying s.part).channels = s.part.channels ∧
        (moveCard h .copying s.part).dests = s.part.dests := by rw [moveCard_frame]; exact ⟨rfl, rfl⟩
    rw [hcard', hframe.1] at hchannel
    rw [hcard'] at hclip
    rw [hcard', hframe.2] at hholder
    refine ⟨q, hq ▸ answers_of rfl hs.1 (.inl hs.2) (start_taken hcard hst hsome ?_), by rw [hcards, hcard']; rfl, hpointer,
      hclip, hholder, ?_⟩
    · exact ⟨k, hfirst ▸ List.mem_cons_self, hlisted k List.mem_cons_self⟩
    · rw [hchannel]
      exact ⟨rfl, rfl, rfl, rfl, rfl, rfl, rfl, rfl, rfl, rfl, rfl⟩
  · rw [readyClip_iff, inFlightClip_none, freeChannel_isSome, firstListed_iff]
  · have hask : asked = asksFor s h c := funext fun d => by rw [Bool.eq_iff_iff, asksFor_iff, hasked]
    have hfull (d : DestId) : (asked d && decide (s.dests[d].length < s.dests[d].cursor + 8 * ((c.length + 4095) / 4096)))
        = foundFull s h c d := by
      rw [Bool.eq_iff_iff, foundFull_iff, hask, Bool.and_eq_true, decide_eq_true_iff, ← Bool.not_eq_true, Dest.fits_iff,
        not_le]
    refine ⟨tested h k c s, targetSet h c (tested h k c s), tested_frame s h k c, fun d => ?_, fun d => ?_, ?_,
      consider_enough hr hc hlive, consider_short hr hc rfl hlive⟩
    · rw [targetSet_tested, Dest.fits_iff, hask]
    · rw [tested_dests]
      refine if_congr ?_ rfl rfl
      rw [← hfull, Bool.and_eq_true, decide_eq_true_iff]
    · simp only [hfull]
      exact (testFit_foldl s h k c allDests (by decide)).2.2

end Sys2Proof.Proofs
end

