-- ==== Sys2Proof/Proofs/DestRequests.lean ====
section
/-! PROOF. The requests a destination link takes (R31, R54, R73): the STORE and the read-back FETCH that are ready, and the
destination after each. -/

namespace Sys2Proof.Machine

variable {s : Part} {d : DestId} {x : Dest} {k : ClipId} {p : PortId}

/-- R25: a destination written in the state and the draining it was in queues no notice. -/
theorem writeDest_still (hst : x.state = s.dests[d].state) (hdrain : x.draining = s.dests[d].draining) :
    writeDest d x s = { s with dests := s.dests.set d x } := if_pos ⟨hst.symm, hdrain.symm⟩

theorem Dest.timerAfterSend_eq (x : Dest) :
    x.timerAfterSend = if x.stores = [] ∧ x.fetches = [] then some x.stallLimit else x.stallTimer := by
  refine if_congr ?_ rfl rfl
  simp [Dest.idleLink]

theorem blocksOf_gt (n length : Nat) : n < blocksOf length ↔ 4096 * n < length := by
  unfold blocksOf Config.blockBytes
  omega

theorem DestState.serves_iff (st : DestState) : st.serves = true ↔ st = .active ∨ st = .full ∨ st = .closed := by
  cases st <;> decide

/-! ## The read-back FETCH (R73) -/

section Reading

variable {v : VerifyContext} {t : Try} {c : Clip}

/-- R73: a new block is asked for where no try failed. -/
theorem VerifyContext.wants_new (hr : v.retries = []) (length : Nat) : v.wants (blocksOf length) =
    if 4096 * v.nextFetch < length ∧ v.held.length < 2 then some ⟨v.nextFetch, 1⟩ else none := by
  rw [wants, hr]
  dsimp only
  exact if_congr (and_congr_left' (blocksOf_gt _ _)) rfl rfl

theorem VerifyContext.wants_again {rest : List Try} (hr : v.retries = t :: rest) (blocks : Nat) : v.wants blocks = some t := by
  rw [wants, hr]

theorem VerifyContext.fetched_new (hr : v.retries = []) : v.fetched ⟨v.nextFetch, 1⟩ =
    { v with nextFetch := v.nextFetch + 1, held := v.held ++ [⟨v.nextFetch, none⟩] } := by
  simp [fetched, hr]

theorem VerifyContext.fetched_again {rest : List Try} (hr : v.retries = t :: rest) : v.fetched t = { v with retries := rest } := by
  simp [fetched, hr]

theorem Dest.paceAllows_iff (x : Dest) : x.paceAllows = true ↔ (x.paced = true → x.credit = x.paceP * 2 ^ x.paceS) := by
  unfold Dest.paceAllows Dest.ratio
  cases x.paced <;> simp

theorem readyRead_of (hv : s.dests[d].context = some v) (hc : s.clips[v.clip] = some c)
    (hserves : s.dests[d].state.serves = true) (hlen : s.dests[d].fetches.length < 2)
    (hpace : s.dests[d].paceAllows = true) : readyRead s d = (v.wants (blocksOf c.length)).map fun t => (v, t) := by
  rw [readyRead, hv]
  dsimp only
  rw [hc]
  exact if_pos ⟨hserves, hlen, hpace⟩

/-- R73: when a read-back FETCH is ready. -/
theorem readyRead_some (hr : readyRead s d = some (v, t)) : s.dests[d].context = some v
    ∧ ∃ c, s.clips[v.clip] = some c ∧ s.dests[d].state.serves = true ∧ s.dests[d].fetches.length < 2
      ∧ s.dests[d].paceAllows = true ∧ v.wants (blocksOf c.length) = some t := by
  unfold readyRead at hr
  split at hr
  · cases hr
  · rename_i u hu
    split at hr
    · cases hr
    · rename_i c hc
      split at hr
      · rename_i hcond
        obtain ⟨a, ha, hav⟩ := Option.map_eq_some_iff.mp hr
        cases hav
        exact ⟨hu, c, hc, hcond.1, hcond.2.1, hcond.2.2, ha⟩
      · cases hr

theorem sendVerifyFetch_none (hr : readyRead s d = none) : sendVerifyFetch d s = s := by rw [sendVerifyFetch, hr]

/-- R73, R83: the FETCH that is ready is taken. -/
theorem sendVerifyFetch_some (hr : readyRead s d = some (v, t)) : sendVerifyFetch d s = { s with
    dests := s.dests.set d
      { s.dests[d] with
        context := some (v.fetched t)
        fetches := s.dests[d].fetches ++ [⟨s.dests[d].tagCounter, 1500, some t⟩]
        tagCounter := (s.dests[d].tagCounter + 1) % 65536
        stallTimer := if s.dests[d].stores = [] ∧ s.dests[d].fetches = [] then some s.dests[d].stallLimit
          else s.dests[d].stallTimer
        credit := if s.dests[d].paced then 0 else s.dests[d].credit }
    out := .dest d (fetchParcel s.dests[d].tagCounter (s.dests[d].base + v.offset + 8 * t.block)) :: s.out } := by
  rw [sendVerifyFetch, hr]
  dsimp only
  rw [writeDest_still]
  · rw [Dest.readSent, Dest.timerAfterSend_eq]
    rfl
  · rfl
  · rfl

end Reading

/-! ## The STORE (R54) -/

variable {data : List Byte}

/-- R54: the channel of an attempt is the one that runs for its clip. -/
theorem runningChannel_only (hp : ∀ q : PortId, (s.channels[q].state = .running ∧ s.channels[q].clip = some k) ↔ q = p) :
    runningChannel s k = some p := by
  cases hr : runningChannel s k with
  | none =>
    obtain ⟨hrun, hk⟩ := (hp p).mpr rfl
    exact absurd hk ((runningChannel_none s k).mp hr p hrun)
  | some q => exact congrArg some ((hp q).mp (runningChannel_some s k hr))

theorem readyStore_of (hk : s.dests[d].holder = some k) (hp : runningChannel s k = some p)
    (hmem : s.channels[p].writing.mem d = true) (hlt : s.channels[p].sendIndex[d] < s.channels[p].nextDigest)
    (hlen : s.dests[d].stores.length < 8) {g : Held}
    (hg : s.channels[p].held.find? (fun b => b.block == s.channels[p].sendIndex[d]) = some g) (hdata : g.data = some data) :
    readyStore s d = some ⟨p, k, s.channels[p].sendIndex[d], data⟩ := by
  have hheld : s.channels[p].heldData s.channels[p].sendIndex[d] = some data := by
    rw [Channel.heldData, hg]
    exact hdata
  rw [readyStore, hk]
  dsimp only
  rw [hp]
  dsimp only
  rw [hheld]
  exact if_pos ⟨hmem, hlt, hlen⟩

/-- R31, R54: what a STORE is ready for. -/
theorem readyStore_some {r : ReadyStore} (hr : readyStore s d = some r) : s.dests[d].holder = some r.clip
    ∧ s.channels[r.channel].state = .running ∧ s.channels[r.channel].writing.mem d = true
    ∧ s.channels[r.channel].sendIndex[d] < s.channels[r.channel].nextDigest ∧ s.dests[d].stores.length < 8 := by
  unfold readyStore at hr
  split at hr
  · cases hr
  · rename_i k hk
    split at hr
    · cases hr
    · rename_i p hp
      split at hr
      · rename_i hcond
        obtain ⟨a, ha, hav⟩ := Option.map_eq_some_iff.mp hr
        cases hav
        exact ⟨hk, (runningChannel_some s k hp).1, hcond.1, hcond.2.1, hcond.2.2⟩
      · cases hr

theorem sendStore_waits (hr : readyRead s d ≠ none) : sendStore d s = s := by
  rw [sendStore]
  split
  · rename_i hnone
    exact absurd hnone hr
  · rfl

theorem sendStore_none (hr : readyStore s d = none) : sendStore d s = s := by rw [sendStore, hr]

/-- R48: the blocks sent to the whole writing set. -/
theorem Channel.sentToAll_eq (c : Channel) (b : Held) : c.sentToAll b =
    (decide (b.block < c.nextDigest) && allDests.all fun e => !c.writing.mem e || decide (b.block < c.sendIndex[e])) := by
  rw [Channel.sentToAll, DestSet.allMembers, DestSet.members, List.all_filter]

/-- R33, R48, R54: the STORE that is ready is taken. -/
theorem sendStore_some {r : ReadyStore} (hr : readyStore s d = some r) (hread : readyRead s d = none) :
    sendStore d s = { s with
      channels := s.channels.set r.channel (s.channels[r.channel].stored d r.block)
      dests := s.dests.set d
        { s.dests[d] with
          stores := s.dests[d].stores ++ [⟨s.dests[d].tagCounter, r.block, r.clip⟩]
          tagCounter := (s.dests[d].tagCounter + 1) % 65536
          stallTimer := if s.dests[d].stores = [] ∧ s.dests[d].fetches = [] then some s.dests[d].stallLimit
            else s.dests[d].stallTimer }
      out := .dest d (storeParcel s.dests[d].tagCounter (s.dests[d].base + s.dests[d].cursor + 8 * r.block) r.data)
        :: s.out } := by
  rw [sendStore, hr, hread]
  dsimp only
  rw [writeDest_still]
  · rw [Dest.storeSent, Dest.timerAfterSend_eq]
    rfl
  · rfl
  · rfl

end Sys2Proof.Machine

namespace Sys2Proof.Proofs
open Machine

/-- Settles O40: the starts of verifies by `startVerifies_dests` and `startVerifies_clip`, the FETCH by
`sendVerifyFetch_some`, ready as `readyRead_of` says. -/
theorem sendVerifyFetch : Obligations.SendVerifyFetch := by
  refine ⟨fun s => ⟨rfl, startVerifies_frame s, fun d => ⟨fun k rest c o hctx hst hqueue hc ho => ?_, fun hidle => ?_⟩⟩,
    fun s d x paced hr hx hpaced => ?_⟩
  · have hstart : verifyStarting s d = some (k, o) := (verifyStarting_some s d k).mpr
      ⟨hctx, (DestState.serves_iff _).mpr hst, by rw [hqueue]; rfl, c, hc, ho⟩
    refine ⟨by rw [startVerifies_dests, hstart, Dest.verifying, hqueue]; rfl, fun j e he => ?_⟩
    obtain ⟨y, hy, hye, hcopies⟩ := startVerifies_clip s j he
    refine ⟨y, hy, hye, ?_⟩
    rw [hcopies, hstart]
    exact if_congr eq_comm rfl rfl
  · have hnone : verifyStarting s d = none := by
      refine verifyStarting_none s d ?_
      rcases hidle with hctx | hqueue | hst | hst | hst
      · exact .inl hctx
      · exact .inr (.inr hqueue)
      all_goals exact .inr (.inl (by rw [hst]; rfl))
    refine ⟨by rw [startVerifies_dests, hnone]; rfl, fun j e he => ?_⟩
    obtain ⟨y, hy, hye, hcopies⟩ := startVerifies_clip s j he
    exact ⟨y, hy, hye, by rw [hcopies, hnone]; rfl⟩
  · subst hx
    have hpace : paced = s.part.dests[d].paced := by
      rw [Bool.eq_iff_iff, hpaced]
      simp [Dest.paced, Option.isSome_iff_ne_none]
    subst hpace
    have hexec := exec_event (c := .sendVerifyFetch d) (f := Machine.sendVerifyFetch d) rfl hr
    refine ⟨fun v c hv hc hst hlen hallows => ?_, fun hnone => ?_⟩
    · have hready := readyRead_of hv hc ((DestState.serves_iff _).mpr hst) hlen ((Dest.paceAllows_iff _).mpr hallows)
      refine ⟨fun hretries hlt hheld => ?_, fun r rest hretries => ?_⟩
      · rw [v.wants_new hretries, if_pos ⟨hlt, hheld⟩] at hready
        rw [hexec, sendVerifyFetch_some hready, v.fetched_new hretries]
      · rw [v.wants_again hretries] at hready
        rw [hexec, sendVerifyFetch_some hready, v.fetched_again hretries]
    · rw [hexec, sendVerifyFetch_none]
      refine Option.eq_none_iff_forall_ne_some.mpr fun ⟨v, t⟩ hready => ?_
      obtain ⟨hv, c, hc, hserves, hlen, hallows, hwants⟩ := readyRead_some hready
      rcases hnone with hctx | hst | hst | hst | hfull | ⟨hpaced, hcredit⟩ | ⟨w, hw, hretries, hfull⟩
      · rw [hctx] at hv; cases hv
      · rw [hst] at hserves; cases hserves
      · rw [hst] at hserves; cases hserves
      · rw [hst] at hserves; cases hserves
      · omega
      · exact hcredit ((Dest.paceAllows_iff _).mp hallows hpaced)
      · rw [hv, Option.some.injEq] at hw
        subst hw
        rw [v.wants_new hretries] at hwants
        split at hwants
        · rename_i hcond
          rcases hfull with hheld | hlength
          · omega
          · have := hlength c hc
            omega
        · cases hwants

/-- Settles O38: the STORE is taken as `sendStore_some` says where `readyStore_of` makes it ready and no read-back FETCH is;
otherwise nothing is. -/
theorem sendStore : Obligations.SendStore := by
  intro s d x hr hx
  subst hx
  have hexec := exec_event (c := .sendStore d) (f := Machine.sendStore d) rfl hr
  refine ⟨fun k p ch g data hk hch hp hmem hlt hg hdata => ?_, fun hnone => ?_⟩
  · subst hch
    refine ⟨fun hlen hread => ⟨_, rfl, ?_⟩, fun hread => by rw [hexec, sendStore_waits hread]⟩
    rw [hexec, sendStore_some (readyStore_of hk (runningChannel_only hp) hmem hlt hlen hg hdata) hread, Channel.stored,
      Channel.freeSent]
    simp only [Channel.sentToAll_eq]
  · rw [hexec, sendStore_none]
    refine Option.eq_none_iff_forall_ne_some.mpr fun r hready => ?_
    obtain ⟨hk, hrun, hmem, hlt, hlen⟩ := readyStore_some hready
    rcases hnone with hholder | hfull | hall
    · rw [hholder] at hk; cases hk
    · omega
    · rcases hall r.channel hrun with hnot | hsent
      · rw [hmem] at hnot; cases hnot
      · omega

end Sys2Proof.Proofs
end

