-- ==== Sys2Proof/Proofs/AfterEvents.lean ====
section
/-! PROOF. What follows an event's own effects (R45, R72), seen from outside: what the grant evaluation and the starts of
verifies together leave alone of channels, destinations, clips and the log. -/

namespace Sys2Proof.Machine

variable {q : Part} {k : ClipId} {c : Clip} {p : PortId} {d : DestId}

/-- R45: a channel that is not IDLE is left as it is. -/
theorem afterEvent_channel (hp : q.channels[p].state ≠ .idle) : (afterEvent q).channels[p] = q.channels[p] := by
  have hframe := startVerifies_frame (evalGrant q)
  rw [afterEvent, hframe]
  exact (evalGrant_arbitrates q).channels p hp

/-- R45, R72: a destination changes in its state, its holder, its queue and its context alone. -/
theorem afterEvent_dest (q : Part) (d : DestId) : (afterEvent q).dests[d] = { q.dests[d] with
    state := (afterEvent q).dests[d].state, holder := (afterEvent q).dests[d].holder
    queue := (afterEvent q).dests[d].queue, context := (afterEvent q).dests[d].context } := by
  rw [afterEvent, startVerifies_dests, Dest.verifying_kept, (evalGrant_arbitrates q).dests d]

/-- R45, R72: a destination out of service is left as it is. -/
theorem evalGrant_unserved (hd : q.dests[d].state.serves = false) : (evalGrant q).dests[d] = q.dests[d] := by
  have ha := evalGrant_arbitrates q
  have hne : q.dests[d].state ≠ .active := fun hst => by
    rw [hst] at hd
    cases hd
  have hst : (evalGrant q).dests[d].state = q.dests[d].state := (ha.state d).resolve_right fun h => hne h.1
  have hholder : (evalGrant q).dests[d].holder = q.dests[d].holder := (ha.holder d).resolve_right fun h => hne h.1
  rw [ha.dests d, hst, hholder]

theorem afterEvent_unserved (hd : q.dests[d].state.serves = false) : (afterEvent q).dests[d] = q.dests[d] := by
  have he := evalGrant_unserved hd
  rw [afterEvent, startVerifies_unserved _ _ (by rw [he]; exact hd), he]

/-- R46: a clip that is not LISTED becomes the holder of no destination. -/
theorem afterEvent_holder (hc : q.clips[k] = some c) (hl : c.state ≠ .listed) (hd : q.dests[d].holder ≠ some k) :
    (afterEvent q).dests[d].holder ≠ some k := by
  rw [afterEvent, startVerifies_dests, Dest.verifying_kept]
  change (evalGrant q).dests[d].holder ≠ some k
  rcases (evalGrant_arbitrates q).holder d with hkept | ⟨-, -, -, j, x, hj, hx, hlisted⟩
  · rw [hkept]
    exact hd
  · rw [hj]
    rintro hjk
    cases hjk
    rw [hc, Option.some.injEq] at hx
    exact hl (hx ▸ hlisted)

/-- What becomes of the record `c` of a clip in use. -/
structure Clip.Follows (q : Part) (k : ClipId) (c y : Clip) : Prop where
  unlisted : c.state ≠ .listed → y = { c with copies := y.copies }
  counts   : (∀ h : CardId, 1 ≤ q.cards[h].required) →
    y.failed = c.failed ∧ y.sourceDigest = c.sourceDigest ∧ y.restarted = c.restarted
  unserved : ∀ d : DestId, q.dests[d].state.serves = false → y.copies[d] = c.copies[d]
  copies   : c.state ≠ .listed → ∀ d : DestId, ((∀ o, c.copies[d] ≠ .written o) ∨ q.dests[d].queue.head? ≠ some k) →
    y.copies[d] = c.copies[d]

theorem afterEvent_clip (hc : q.clips[k] = some c) : ∃ y, (afterEvent q).clips[k] = some y ∧ c.Follows q k y := by
  have ha := evalGrant_arbitrates q
  obtain ⟨b, hb, hkept⟩ := (ha.clips k).2 c hc
  obtain ⟨y, hy, hyb, hcopies⟩ := startVerifies_clip (evalGrant q) k hb
  refine ⟨y, hy, fun hl => ?_, fun hreq => ?_, fun d hd => ?_, fun hl d hd => ?_⟩
  · rw [hyb, hkept.unlisted hl]
  · rw [hyb]
    exact hkept.counts hreq
  · have hne : q.dests[d].state ≠ .active := fun hst => by
      rw [hst] at hd
      cases hd
    have hserves : (evalGrant q).dests[d].state.serves = false := by
      rw [evalGrant_unserved hd]
      exact hd
    rw [hcopies, begun_eq _ d k hb (.inr (.inl hserves)), hkept.copies d hne]
  · have hbc := hkept.unlisted hl
    rw [hbc] at hb hcopies
    rw [hcopies]
    refine begun_eq _ d k hb (hd.imp id fun hhead => .inr ?_)
    rw [ha.dests d]
    exact hhead

/-- R148: no entry of the fault log is lost. -/
theorem afterEvent_log (q : Part) : q.log.entries <+: (afterEvent q).log.entries := (afterEvent_spares (h := 0) (p := 0) q).log

/-! ## The fault log -/

variable {l m : FaultLog} {r : Report} {after : Bool}

/-- R148: the entry a fault adds to a log that is not full. -/
theorem logFault_entries (hm : l.marker = none) (hlen : l.entries.length < 63) : (logFault after r l).entries =
    l.entries ++ [⟨l.nextSeq, r.kind, r.card, r.clip, r.dest, r.frame, r.detail, after⟩] := by
  rw [logFault, hm]
  exact congrArg FaultLog.entries (if_pos hlen)

/-- R148: that entry stands behind those before it, whatever is logged after. -/
theorem logFault_stays {kind : FaultKind} {card : Option CardId} {clip : Option ClipId} {dest : Option DestId}
    {frame : Option (Nat × Timecode)} {detail : Nat} (hm : l.marker = none) (hlen : l.entries.length < 63)
    (hpre : (logFault after ⟨kind, card, clip, dest, frame, detail⟩ l).entries <+: m.entries) :
    m.entries[l.entries.length]? = some ⟨l.nextSeq, kind, card, clip, dest, frame, detail, after⟩ := by
  obtain ⟨rest, hrest⟩ := hpre
  rw [← hrest, logFault_entries hm hlen]
  simp

end Sys2Proof.Machine
end

