-- ==== Sys2Proof/Proofs/StoreAnswers.lean ====
section
/-! PROOF. A STORE-DONE (R32, R36, R55): the draining that counts down, the credit earned, the destination that has finished
and the one that is withdrawn, and the attempt that goes on or ends with it (R57). -/

namespace Sys2Proof.Machine

variable {s : Part} {d : DestId} {x : Dest} {k : ClipId} {c : Clip} {p : PortId}

/-! ## Writes -/

/-- R25: a destination write touches the destinations and the notice queue. -/
theorem writeDest_eq : writeDest d x s = { s with dests := s.dests.set d x, notices := (writeDest d x s).notices } := by
  unfold writeDest
  split <;> rfl

theorem modClip_eq (f : Clip → Clip) (hc : s.clips[k] = some c) :
    modClip k f s = { s with clips := s.clips.set k (some (f c)) } := by
  rw [modClip, hc]

theorem Dest.storeTaken_eq (x : Dest) (tag : Nat) : x.storeTaken tag = { x with
    stores := x.stores.filter fun r => r.tag != tag
    stallTimer := if (x.stores.filter fun r => r.tag != tag) = [] ∧ x.fetches = [] then none else some x.stallLimit } := by
  rw [Dest.storeTaken, Dest.answered]
  dsimp only
  congr 1
  refine if_congr ?_ rfl rfl
  simp [Dest.idleLink]

/-! ## The answer that is taken (R32) -/

section Taken

variable {b : Rx} {r : StoreReq} (hdam : damaged 0x04 b = false)
  (hr : s.dests[d].stores.find? (fun q => q.tag == b.tag) = some r)
include hdam hr

theorem storeDone_draining (hdrain : s.dests[d].draining = true) :
    storeDone d b s = drainingAnswer d (writeDest d (s.dests[d].storeTaken b.tag) s) := by
  rw [storeDone, hdam, hr]
  simp only [hdrain, if_true, Bool.false_eq_true, if_false]

theorem storeDone_succeeds (hdrain : s.dests[d].draining = false) (hk : s.dests[d].holder = some k) (hstatus : b.status = 0) :
    storeDone d b s = storeSucceeded d k (writeDest d (s.dests[d].storeTaken b.tag) s) := by
  rw [storeDone, hdam, hr]
  simp only [hdrain, hk, hstatus, if_true, Bool.false_eq_true, if_false]

theorem storeDone_fails (hdrain : s.dests[d].draining = false) (hk : s.dests[d].holder = some k) (hstatus : b.status ≠ 0) :
    storeDone d b s = storeFailed d k r.block (writeDest d (s.dests[d].storeTaken b.tag) s) := by
  rw [storeDone, hdam, hr]
  simp only [hdrain, hk, hstatus, Bool.false_eq_true, if_false]

end Taken

theorem storeTaken_written (tag : Nat) : writeDest d (s.dests[d].storeTaken tag) s =
    { s with dests := s.dests.set d (s.dests[d].storeTaken tag) } := if_pos ⟨rfl, rfl⟩

/-! ## Draining (R36) -/

theorem drainingAnswer_waits (hstores : s.dests[d].stores ≠ []) : drainingAnswer d s = s :=
  if_neg fun h => hstores (List.isEmpty_iff.mp h)

theorem drainingAnswer_ends (hstores : s.dests[d].stores = []) (hdrain : s.dests[d].draining = true) :
    drainingAnswer d s = afterEvent (drainEnded d
      (queueNotice (.destState d s.dests[d].state s.dests[d].ret s.dests[d].base s.dests[d].length s.dests[d].cursor false)
        { s with dests := s.dests.set d { s.dests[d] with draining := false } })) := by
  refine (if_pos (List.isEmpty_iff.mpr hstores)).trans (congrArg (fun t => afterEvent (drainEnded d t)) (if_neg ?_))
  rintro ⟨-, h⟩
  rw [hdrain] at h
  cases h

/-! ## The end of the attempt, or its going on (R55 to R57) -/

theorem endIfEmpty_goesOn {e : DestId} (he : s.channels[p].writing.mem e = true) : endIfEmpty p s = s := by
  refine if_neg ?_
  rintro ⟨-, hempty⟩
  rw [(DestSet.isEmpty_iff _).mp hempty e] at he
  cases he

theorem endIfEmpty_ends (hrun : s.channels[p].state = .running) (hnone : ∀ e, s.channels[p].writing.mem e = false) :
    endIfEmpty p s = endAttempt p s := if_pos ⟨hrun, (DestSet.isEmpty_iff _).mpr hnone⟩

theorem endAttemptOf_running (hp : runningChannel s k = some p) : endAttemptOf k s = endIfEmpty p s := by
  rw [endAttemptOf, hp]

/-- R55: the writing set once the destination has left it. -/
theorem Channel.without_writing (ch : Channel) (d e : DestId) :
    (ch.without d).writing.mem e = (ch.writing.mem e && e != d) := by
  change (ch.writing.erase d).mem e = _
  rw [DestSet.mem_erase]
  by_cases he : d = e
  · subst he; simp
  · rw [if_neg he]; simp [Ne.symm he]

theorem DestSet.mem_insert_self (a : DestSet) (d : DestId) : (a.insert d).mem d = true := by
  unfold DestSet.insert DestSet.mem
  rw [get_set, if_pos rfl]

/-! ## A success (R29, R55, R83) -/

/-- R29: the part once the destination has finished its holder, the clip `k` of record `c`, on the channel `p`. -/
def destFinished (d : DestId) (k : ClipId) (p : PortId) (c : Clip) (s : Part) : Part :=
  { s with
    channels := s.channels.set p
      { s.channels[p].without d with finished := (s.channels[p].without d).finished.insert d }
    clips := s.clips.set k (some { c with copies := c.copies.set d (.written s.dests[d].cursor) })
    dests := s.dests.set d { s.dests[d] with cursor := s.dests[d].cursor + sectorsOf c.length, holder := none } }

theorem completeDest_eq (hc : s.clips[k] = some c) : completeDest d k p (sectorsOf c.length) s =
    afterEvent (endIfEmpty p (destFinished d k p c s)) := by
  unfold completeDest
  rw [modClip_eq _ hc]
  dsimp only
  rw [writeDest_still]
  · rfl
  · rfl
  · rfl

theorem storeSucceeded_earns (hp : runningChannel s k = some p) (hc : s.clips[k] = some c)
    (hmore : s.dests[d].stores ≠ [] ∨ s.channels[p].sendIndex[d] ≠ blocksOf c.length) :
    storeSucceeded d k s = { s with dests := s.dests.set d s.dests[d].earned } := by
  have hearned : writeDest d s.dests[d].earned s = { s with dests := s.dests.set d s.dests[d].earned } := writeDest_still rfl rfl
  unfold storeSucceeded
  rw [hearned, hp, hc]
  refine if_neg fun hall => ?_
  obtain ⟨hidx, hstores⟩ := Bool.and_eq_true_iff.mp hall
  dsimp only at hidx hstores
  rw [get_set, if_pos rfl] at hstores
  rcases hmore with hmore | hmore
  · exact hmore (List.isEmpty_iff.mp hstores)
  · exact hmore (beq_iff_eq.mp hidx)

theorem storeSucceeded_completes (hp : runningChannel s k = some p) (hc : s.clips[k] = some c)
    (hstores : s.dests[d].stores = []) (hidx : s.channels[p].sendIndex[d] = blocksOf c.length) :
    storeSucceeded d k s =
      afterEvent (endIfEmpty p (destFinished d k p c { s with dests := s.dests.set d s.dests[d].earned })) := by
  have hearned : writeDest d s.dests[d].earned s = { s with dests := s.dests.set d s.dests[d].earned } := writeDest_still rfl rfl
  unfold storeSucceeded
  rw [hearned, hp, hc]
  refine Eq.trans (if_pos ?_) (completeDest_eq hc)
  refine Bool.and_eq_true_iff.mpr ⟨beq_iff_eq.mpr hidx, ?_⟩
  dsimp only
  rw [get_set, if_pos rfl]
  exact List.isEmpty_iff.mpr hstores

theorem destFinished_channel : (destFinished d k p c s).channels[p] =
    { s.channels[p].without d with finished := (s.channels[p].without d).finished.insert d } := by
  rw [destFinished, get_set, if_pos rfl]

theorem destFinished_dest : (destFinished d k p c s).dests[d] =
    { s.dests[d] with cursor := s.dests[d].cursor + sectorsOf c.length, holder := none } := by
  rw [destFinished, get_set, if_pos rfl]

theorem destFinished_clip : (destFinished d k p c s).clips[k] =
    some { c with copies := c.copies.set d (.written s.dests[d].cursor) } := by
  rw [destFinished, get_set, if_pos rfl]

/-- R45, R57, R72: a destination out of an attempt that goes on, after the grant evaluation and the starts of verifies. -/
theorem attempt_goesOn (hrun : s.channels[p].state = .running) (hc : s.clips[k] = some c) (hst : c.state = .inFlight)
    (hholder : s.dests[d].holder = none) (hqueue : k ∉ s.dests[d].queue) :
    ∃ y, (afterEvent s).clips[k] = some y ∧ y.copies[d] = c.copies[d]
      ∧ (afterEvent s).dests[d].cursor = s.dests[d].cursor ∧ (afterEvent s).dests[d].holder ≠ some k
      ∧ (afterEvent s).dests[d].draining = s.dests[d].draining ∧ (afterEvent s).channels[p] = s.channels[p] := by
  have hl : c.state ≠ .listed := by rw [hst]; decide
  obtain ⟨y, hy, hfollows⟩ := afterEvent_clip hc
  have hdest := afterEvent_dest s d
  refine ⟨y, hy, hfollows.copies hl d (.inr fun hhead => hqueue (List.mem_of_head? hhead)), by rw [hdest],
    afterEvent_holder hc hl (by rw [hholder]; exact fun h => nomatch h), by rw [hdest],
    afterEvent_channel (by rw [hrun]; decide)⟩

/-! ## A failure (R30, R55) -/

/-- R30, R55: a destination that leaves its holder's attempt. -/
theorem leaveAttempt_eq (hk : s.dests[d].holder = some k) (hp : runningChannel s k = some p) (hc : s.clips[k] = some c) :
    leaveAttempt d s = { s with
      channels := s.channels.set p (s.channels[p].without d), notices := (leaveAttempt d s).notices
      clips := s.clips.set k (some (c.withoutCopy d)), dests := s.dests.set d s.dests[d].dropped } := by
  unfold leaveAttempt
  rw [hk]
  simp only [hp]
  rw [dropOut_held hk, modClip_eq _ hc, writeDest_eq]
  rfl

theorem clipReport_eq (hc : s.clips[k] = some c) (kind : FaultKind) (e : Option DestId) (detail : Nat) :
    clipReport s kind k e detail = ⟨kind, some c.card, some k, e, none, detail⟩ := by
  rw [clipReport, clipCard, hc]
  rfl

/-- R146: the fault of a card that marks nothing. -/
theorem raise_logged {r : Report} {h : CardId} (hcard : r.kind.marksCard = false) (hclip : r.kind.marksClip = false)
    (hr : r.card = some h) : raise r s = { s with log := logFault (decide (s.cards[h].state = .cleared)) r s.log } := by
  rw [raise_unmarked s r hcard hclip, afterClearance, hr]
  congr 2

/-- R55: the part once the destination has been withdrawn for the STORE of `block` that failed. -/
theorem storeError_withdrawn (hk : s.dests[d].holder = some k) (hp : runningChannel s k = some p) (hc : s.clips[k] = some c)
    (block : Nat) : ∃ q, leaveAttempt d (raise (clipReport s .storeError k (some d) block) s) = q
      ∧ q = { s with
        channels := s.channels.set p (s.channels[p].without d), notices := q.notices
        clips := s.clips.set k (some (c.withoutCopy d)), dests := s.dests.set d s.dests[d].dropped
        log := logFault (decide (s.cards[c.card].state = .cleared)) ⟨.storeError, some c.card, some k, some d, none, block⟩
          s.log } := by
  refine ⟨_, rfl, ?_⟩
  rw [clipReport_eq hc, raise_logged rfl rfl rfl]
  exact leaveAttempt_eq hk hp hc

/-- R55: where the attempt of the clip goes on, as its other channels are not of it. -/
theorem runningChannel_without {q : Part} (hp : runningChannel s k = some p)
    (hq : q.channels = s.channels.set p (s.channels[p].without d)) :
    q.channels[p] = s.channels[p].without d ∧ runningChannel q k = some p := by
  have hself : q.channels[p] = s.channels[p].without d := by rw [hq, get_set, if_pos rfl]
  have hsame : ∀ o : PortId, (q.channels[o].state == .running && q.channels[o].clip == some k)
      = (s.channels[o].state == .running && s.channels[o].clip == some k) := by
    intro o
    rw [hq, get_set]
    split
    · rename_i ho
      subst ho
      rfl
    · rfl
  refine ⟨hself, ?_⟩
  unfold runningChannel at hp ⊢
  simp only [hsame]
  exact hp

/-! ## The outcomes -/

section Outcomes

variable (hp : runningChannel s k = some p) (hc : s.clips[k] = some c)
include hp hc

/-- R29, R55: a destination finishes while another is still written. -/
theorem storeSucceeded_finishes {e : DestId} (he : s.channels[p].writing.mem e = true) (hed : e ≠ d) (hst : c.state = .inFlight)
    (hqueue : k ∉ s.dests[d].queue) (hstores : s.dests[d].stores = [])
    (hidx : s.channels[p].sendIndex[d] = blocksOf c.length) :
    ∃ y, (storeSucceeded d k s).clips[k] = some y ∧ y.copies[d] = .written s.dests[d].cursor
      ∧ (storeSucceeded d k s).dests[d].cursor = s.dests[d].cursor + sectorsOf c.length
      ∧ (storeSucceeded d k s).dests[d].holder ≠ some k ∧ (storeSucceeded d k s).channels[p].state = .running
      ∧ (storeSucceeded d k s).channels[p].finished.mem d = true
      ∧ ∀ g : DestId, (storeSucceeded d k s).channels[p].writing.mem g = (s.channels[p].writing.mem g && g != d) := by
  rw [storeSucceeded_completes hp hc hstores hidx]
  have hself : ({ s with dests := s.dests.set d s.dests[d].earned } : Part).dests[d] = s.dests[d].earned := by
    dsimp only
    rw [get_set, if_pos rfl]
  have hchannels : ({ s with dests := s.dests.set d s.dests[d].earned } : Part).channels = s.channels := rfl
  generalize ({ s with dests := s.dests.set d s.dests[d].earned } : Part) = t at hself hchannels ⊢
  have hchannel := destFinished_channel (d := d) (k := k) (p := p) (c := c) (s := t)
  have hdest := destFinished_dest (d := d) (k := k) (p := p) (c := c) (s := t)
  have hclip := destFinished_clip (d := d) (k := k) (p := p) (c := c) (s := t)
  rw [hchannels] at hchannel
  rw [hself] at hdest hclip
  generalize destFinished d k p c t = u at hchannel hdest hclip ⊢
  have hwriting (g : DestId) : u.channels[p].writing.mem g = (s.channels[p].writing.mem g && g != d) := by
    rw [hchannel]
    exact Channel.without_writing _ d g
  have hrun : u.channels[p].state = .running := by rw [hchannel]; exact (runningChannel_some s k hp).1
  rw [endIfEmpty_goesOn (e := e) (by rw [hwriting, he]; simpa using hed)]
  obtain ⟨y, hy, hcopy, hcursor, hholder, -, hkept⟩ := attempt_goesOn (d := d) hrun hclip hst (by rw [hdest])
    (by rw [hdest]; exact hqueue)
  refine ⟨y, hy, ?_, by rw [hcursor, hdest]; rfl, hholder, by rw [hkept]; exact hrun, ?_, fun g => by rw [hkept, hwriting]⟩
  · rw [hcopy, get_set, if_pos rfl]
    rfl
  · rw [hkept, hchannel]
    exact DestSet.mem_insert_self _ d

/-- R29, R57: a destination finishes and was the last to be written. -/
theorem storeSucceeded_ends (hlast : ∀ e : DestId, s.channels[p].writing.mem e = true → e = d)
    (hstores : s.dests[d].stores = []) (hidx : s.channels[p].sendIndex[d] = blocksOf c.length) :
    ∃ q, storeSucceeded d k s = afterEvent (endAttempt p q)
      ∧ q.channels[p] = { s.channels[p].without d with finished := (s.channels[p].without d).finished.insert d }
      ∧ q = { s with
        channels := s.channels.set p
          { s.channels[p].without d with finished := (s.channels[p].without d).finished.insert d }
        clips := s.clips.set k (some { c with copies := c.copies.set d (.written s.dests[d].cursor) })
        dests := s.dests.set d
          { s.dests[d].earned with cursor := s.dests[d].cursor + sectorsOf c.length, holder := none } } := by
  refine ⟨destFinished d k p c { s with dests := s.dests.set d s.dests[d].earned }, ?_, destFinished_channel, ?_⟩
  case refine_2 =>
    have hself : (s.dests.set d s.dests[d].earned)[d] = s.dests[d].earned := by rw [get_set, if_pos rfl]
    rw [destFinished]
    dsimp only
    rw [hself, Vector.set_set]
    rfl
  rw [storeSucceeded_completes hp hc hstores hidx, endIfEmpty_ends]
  · rw [destFinished_channel]
    exact (runningChannel_some s k hp).1
  · intro e
    rw [destFinished_channel]
    refine (Channel.without_writing _ d e).trans (Bool.eq_false_iff.mpr fun hmem => ?_)
    obtain ⟨he, hne⟩ := Bool.and_eq_true_iff.mp hmem
    exact (bne_iff_ne.mp hne) (hlast e he)

/-- R30, R55: a destination is withdrawn while another is still written. -/
theorem storeFailed_withdraws (hk : s.dests[d].holder = some k) (block : Nat) {e : DestId}
    (he : s.channels[p].writing.mem e = true) (hed : e ≠ d) (hst : c.state = .inFlight) (hqueue : k ∉ s.dests[d].queue) :
    ∃ y, (storeFailed d k block s).clips[k] = some y ∧ y.copies[d] = .none
      ∧ (storeFailed d k block s).dests[d].cursor = s.dests[d].cursor
      ∧ (storeFailed d k block s).dests[d].holder ≠ some k
      ∧ (storeFailed d k block s).dests[d].draining = !s.dests[d].stores.isEmpty
      ∧ (storeFailed d k block s).channels[p].state = .running
      ∧ (∀ g : DestId, (storeFailed d k block s).channels[p].writing.mem g = (s.channels[p].writing.mem g && g != d))
      ∧ (logFault (decide (s.cards[c.card].state = .cleared)) ⟨.storeError, some c.card, some k, some d, none, block⟩
        s.log).entries <+: (storeFailed d k block s).log.entries := by
  obtain ⟨u, hu, heq⟩ := storeError_withdrawn hk hp hc block
  obtain ⟨hchannel, hrunning⟩ := runningChannel_without hp (congrArg Part.channels heq)
  have hdest : u.dests[d] = s.dests[d].dropped := by rw [heq, get_set, if_pos rfl]
  have hclip : u.clips[k] = some (c.withoutCopy d) := by rw [heq, get_set, if_pos rfl]
  have hlog : u.log = _ := congrArg Part.log heq
  dsimp only at hlog
  rw [storeFailed, hu, endAttemptOf_running hrunning]
  have hwriting (g : DestId) : u.channels[p].writing.mem g = (s.channels[p].writing.mem g && g != d) := by
    rw [hchannel, Channel.without_writing]
  have hrun : u.channels[p].state = .running := by rw [hchannel]; exact (runningChannel_some s k hp).1
  rw [endIfEmpty_goesOn (e := e) (by rw [hwriting, he]; simpa using hed)]
  obtain ⟨y, hy, hcopy, hcursor, hholder, hdrain, hkept⟩ := attempt_goesOn (d := d) hrun hclip hst (by rw [hdest]; rfl)
    (by rw [hdest]; exact hqueue)
  refine ⟨y, hy, ?_, by rw [hcursor, hdest]; rfl, hholder, by rw [hdrain, hdest]; rfl, by rw [hkept]; exact hrun,
    fun g => by rw [hkept, hwriting], ?_⟩
  · rw [hcopy, Clip.withoutCopy, get_set, if_pos rfl]
  · rw [← hlog]
    exact afterEvent_log u

/-- R30, R57: a destination is withdrawn and was the last to be written. -/
theorem storeFailed_ends (hk : s.dests[d].holder = some k) (block : Nat)
    (hlast : ∀ e : DestId, s.channels[p].writing.mem e = true → e = d) :
    ∃ q, storeFailed d k block s = afterEvent (endAttempt p q) ∧ q.channels[p] = s.channels[p].without d
      ∧ q = { s with
        channels := s.channels.set p (s.channels[p].without d), notices := q.notices
        clips := s.clips.set k (some (c.withoutCopy d)), dests := s.dests.set d s.dests[d].dropped
        log := logFault (decide (s.cards[c.card].state = .cleared)) ⟨.storeError, some c.card, some k, some d, none, block⟩
          s.log } := by
  obtain ⟨u, hu, heq⟩ := storeError_withdrawn hk hp hc block
  obtain ⟨hchannel, hrunning⟩ := runningChannel_without hp (congrArg Part.channels heq)
  refine ⟨u, ?_, hchannel, heq⟩
  rw [storeFailed, hu, endAttemptOf_running hrunning, endIfEmpty_ends]
  · rw [hchannel]
    exact (runningChannel_some s k hp).1
  · intro e
    rw [hchannel]
    refine (Channel.without_writing _ d e).trans (Bool.eq_false_iff.mpr fun hmem => ?_)
    obtain ⟨he, hne⟩ := Bool.and_eq_true_iff.mp hmem
    exact (bne_iff_ne.mp hne) (hlast e he)

end Outcomes

end Sys2Proof.Machine

namespace Sys2Proof.Proofs
open Machine

/-- R57: the end of an attempt, as `AttemptEnds` tells it. -/
theorem endAttempt_told {s q : Part} {p : PortId} {k : ClipId} {c : Clip} (hends : AttemptEnds s q p k c) :
    q.channels[p].Idles s.channels[p].tagCounter
      ∧ (∀ o : PortId, o ≠ p → q.channels[o] = s.channels[o])
      ∧ (∀ d : DestId, q.dests[d] =
        { s.dests[d] with
          queue := if s.channels[p].finished.mem d then s.dests[d].queue ++ [k] else s.dests[d].queue })
      ∧ (∀ j : ClipId, j ≠ k → q.clips[j] = s.clips[j]) := by
  refine ⟨hends.channel ▸ Channel.idle_idles _, hends.channels, fun d => ?_, hends.clips⟩
  rw [hends.dests]
  split <;> rfl

/-- Settles O39: the end of an attempt by `endAttempt_ends`; an answer by the equation of its case, `attempt_goesOn` where
another destination is still written and `endIfEmpty_ends` where none is. -/
theorem storeDone : Obligations.StoreDone := by
  refine ⟨fun s q p k c hk hc hq => ?_, fun s d b x r left timer hr hx hdam hfind hleft htimer => ?_⟩
  · have hends := endAttempt_ends hk hc
    rw [← hq] at hends
    obtain ⟨hchannel, hchannels, hdests, hclips⟩ := endAttempt_told hends
    refine ⟨hchannel, hchannels, hdests, hclips, hends.settled.1, fun hlive => ?_, hends.card⟩
    obtain ⟨y, hy, hst, hfailed, henough, hshort⟩ := hends.settled.2 hlive
    obtain ⟨z, hz, hcopies, -⟩ := hends.clip
    rw [hy, Option.some.injEq] at hz
    subst hz
    exact ⟨y, hy, hst, hfailed, hcopies, henough, hshort⟩
  · subst hx
    have hexec := exec_event (c := .storeDone d b) (f := Machine.storeDone d b) rfl hr
    have htaken : s.part.dests[d].storeTaken b.tag = { s.part.dests[d] with stores := left, stallTimer := timer } := by
      rw [Dest.storeTaken_eq, ← hleft, ← htimer]
    have hwritten := storeTaken_written (s := s.part) (d := d) b.tag
    rw [htaken] at hwritten
    generalize hy : ({ s.part.dests[d] with stores := left, stallTimer := timer } : Dest) = y at htaken hwritten
    have hself : ({ s.part with dests := s.part.dests.set d y } : Part).dests[d] = y := by
      dsimp only
      rw [get_set, if_pos rfl]
    refine ⟨fun hdrain hne => ?_, fun hdrain hnil => ?_, fun k c p ch hdrain hk hc hch hp => ?_⟩
    · rw [hexec, storeDone_draining hdam hfind hdrain, htaken, hwritten, drainingAnswer_waits]
      rw [hself, ← hy]
      exact hne
    · rw [hexec, storeDone_draining hdam hfind hdrain, htaken, hwritten, drainingAnswer_ends, hself, Vector.set_set, ← hy, hnil]
      · rw [hself, ← hy]
        exact hnil
      · rw [hself, ← hy]
        exact hdrain
    · subst hch
      have hcursor : y.cursor = s.part.dests[d].cursor := by rw [← hy]
      have hstores : y.stores = left := by rw [← hy]
      have hholder : y.holder = some k := by rw [← hy]; exact hk
      have hset (z : Dest) : (s.part.dests.set d y).set d z = s.part.dests.set d z := Vector.set_set ..
      generalize ht : ({ s.part with dests := s.part.dests.set d y } : Part) = t at hwritten hself
      have hlogs : t.log = s.part.log := by rw [← ht]
      have hcards : t.cards = s.part.cards := by rw [← ht]
      have hchannels : t.channels = s.part.channels := by rw [← ht]
      have htdests : t.dests = s.part.dests.set d y := by rw [← ht]
      have htc : t.clips[k] = some c := by rw [← ht]; exact hc
      have hrunning : runningChannel t k = some p := runningChannel_only (by rw [hchannels]; exact hp)
      have hsuccess (hstatus : b.status = 0) : exec (.storeDone d b) s = .next { s with part := storeSucceeded d k t } := by
        rw [hexec, storeDone_succeeds hdam hfind hdrain hk hstatus, htaken, hwritten]
      have hfailure (hstatus : b.status ≠ 0) :
          exec (.storeDone d b) s = .next { s with part := storeFailed d k r.block t } := by
        rw [hexec, storeDone_fails hdam hfind hdrain hk hstatus, htaken, hwritten]
      refine ⟨fun hstatus hmore => ?_, fun e he hed hst hqueue => ⟨fun hstatus hnil hidx => ?_, fun hstatus => ?_,
        fun hlast => ⟨fun hstatus hnil hidx => ?_, fun hstatus => ?_⟩⟩⟩
      · rw [hsuccess hstatus, storeSucceeded_earns hrunning htc, hself, ← ht, hset, ← hy]
        · rfl
        · rw [hself, hstores, hchannels]
          exact hmore
      · rw [← hchannels] at he hidx
        obtain ⟨z, hz⟩ := storeSucceeded_finishes hrunning htc (d := d) he hed hst
          (by rw [hself, ← hy]; exact hqueue) (by rw [hself, hstores]; exact hnil) hidx
        rw [hself, hcursor, hchannels] at hz
        exact ⟨_, z, hsuccess hstatus, hz⟩
      · rw [← hchannels] at he
        obtain ⟨z, hclip, hcopy, hkept, hheld, hdrains, hrun, hwriting, hlog⟩ := storeFailed_withdraws hrunning htc (d := d)
          (by rw [hself, hholder]) r.block he hed hst (by rw [hself, ← hy]; exact hqueue)
        rw [hself, hcursor] at hkept
        rw [hself, hstores] at hdrains
        rw [hlogs, hcards] at hlog
        rw [hchannels] at hwriting
        refine ⟨_, z, hfailure hstatus, hclip, hcopy, hkept, hheld, hdrains, hrun, hwriting, fun hm hlen => ?_⟩
        dsimp only
        exact logFault_stays hm hlen hlog
      · rw [← hchannels] at hlast hidx
        obtain ⟨q, hq, hchannel, heq⟩ := storeSucceeded_ends hrunning htc (d := d) hlast (by rw [hself, hstores]; exact hnil) hidx
        refine ⟨q, by rw [hsuccess hstatus, hq], ?_, fun o ho => ?_, ?_⟩
        · rw [hself, htdests, hset, ← ht, ← hy, hnil] at heq
          rw [heq]
          rfl
        · rw [heq, get_set, if_neg (Ne.symm ho), hchannels]
        · rw [hchannel, ← hchannels]
          exact ⟨(runningChannel_some _ k hrunning).2, rfl, rfl⟩
      · rw [← hchannels] at hlast
        obtain ⟨q, hq, hchannel, heq⟩ := storeFailed_ends hrunning htc (d := d) (by rw [hself, hholder]) r.block hlast
        refine ⟨q, by rw [hfailure hstatus, hq], ?_, fun o ho => ?_, ?_⟩
        · rw [hself, htdests, hset, hlogs, hcards, ← ht, ← hy] at heq
          rw [heq]
          rfl
        · rw [heq, get_set, if_neg (Ne.symm ho), hchannels]
        · rw [hchannel, ← hchannels]
          exact ⟨(runningChannel_some _ k hrunning).2, rfl, rfl⟩

end Sys2Proof.Proofs
end

