-- ==== Sys2Proof/Proofs/FailedTries.lean ====
section
/-! PROOF. A copy FETCH whose try fails (R50, R51), and the end of the attempt at a third (R59). -/

namespace Sys2Proof.Machine

variable {s : Part} {d : DestId} {k : ClipId} {c : Clip} {p : PortId}

/-! ## The withdrawal of a writing set (R30) -/

/-- From `s` to `t` destinations of the list have dropped out of the attempts of their holders. -/
structure DropsOut (ds : List DestId) (s t : Part) : Prop where
  cards    : t.cards = s.cards
  channels : t.channels = s.channels
  log      : t.log = s.log
  others   : ∀ d : DestId, d ∉ ds → t.dests[d] = s.dests[d]
  cursor   : ∀ d : DestId, t.dests[d].cursor = s.dests[d].cursor
  clips    : ∀ (k : ClipId) (c : Clip), s.clips[k] = some c → ∃ y, t.clips[k] = some y ∧ y = { c with copies := y.copies }

theorem dropOut_dropsOut (s : Part) (d : DestId) : DropsOut [d] s (dropOut d s) := by
  cases hk : s.dests[d].holder with
  | none =>
    have hsame : dropOut d s = s := by rw [dropOut, hk]
    rw [hsame]
    exact ⟨rfl, rfl, rfl, fun e _ => rfl, fun e => rfl, fun j b hb => ⟨b, hb, rfl⟩⟩
  | some k =>
    refine ⟨dropOut_cards s d, dropOut_channels s d, dropOut_log s d, fun e he => ?_, fun e => ?_, fun j b hb => ?_⟩
    · rw [dropOut_dests (hd := hk), if_neg]
      rintro rfl
      exact he List.mem_cons_self
    · rw [dropOut_dests (hd := hk)]
      split
      · rename_i hde
        subst hde
        rfl
      · rfl
    · rw [dropOut_clips (hd := hk)]
      split
      · rename_i hkj
        subst hkj
        exact ⟨_, by rw [hb, Option.map_some], rfl⟩
      · exact ⟨b, hb, rfl⟩

theorem withdrawAll_dropsOut (ds : DestSet) (s : Part) : DropsOut ds.members s (withdrawAll ds s) := by
  unfold withdrawAll
  generalize ds.members = l
  induction l generalizing s with
  | nil => exact ⟨rfl, rfl, rfl, fun e _ => rfl, fun e => rfl, fun j b hb => ⟨b, hb, rfl⟩⟩
  | cons d rest ih =>
    have hd := dropOut_dropsOut s d
    have hrest := ih (dropOut d s)
    rw [List.foldl_cons]
    refine ⟨hrest.cards.trans hd.cards, hrest.channels.trans hd.channels, hrest.log.trans hd.log, fun e he => ?_,
      fun e => (hrest.cursor e).trans (hd.cursor e), fun j b hb => ?_⟩
    · rw [List.mem_cons, not_or] at he
      rw [hrest.others e he.2, hd.others e (by rw [List.mem_singleton]; exact he.1)]
    · obtain ⟨x, hx, hxb⟩ := hd.clips j b hb
      obtain ⟨y, hy, hyx⟩ := hrest.clips j x hx
      exact ⟨y, hy, by rw [hyx, hxb]⟩

/-! ## The end of the attempt as failed (R59) -/

/-- R59: the part once the attempt of the clip `k` on the channel `p` has ended as failed. -/
def failedAttempt (p : PortId) (k : ClipId) (s : Part) : Part :=
  settleCardOf k (countFailed k (idleChannel p (withdrawAll s.channels[p].writing s)))

theorem blockFailed_eq (hc : s.clips[k] = some c) (block : Nat) : blockFailed p k block s =
    afterEvent (failedAttempt p k
      { s with
        log := logFault (decide (s.cards[c.card].state = .cleared)) ⟨.sourceRead, some c.card, some k, none, none, block⟩
          s.log }) := by
  unfold blockFailed
  rw [clipReport_eq hc, raise_logged rfl rfl rfl]
  rfl

/-- What the end of an attempt as failed leaves. -/
structure FailsAttempt (s q : Part) (p : PortId) (k : ClipId) (c : Clip) : Prop where
  channel  : q.channels[p] = Channel.idle s.channels[p].tagCounter
  counted  : FailureCounted s s.log k c q
  card     : CardSettled s.cards[c.card].state q c.card
  dests    : q.dests = (withdrawAll s.channels[p].writing s).dests
  clip     : ∃ z b, q.clips[k] = some z ∧ (withdrawAll s.channels[p].writing s).clips[k] = some b ∧ z.copies = b.copies
    ∧ z.sourceDigest = c.sourceDigest ∧ z.restarted = c.restarted
  required : ∀ g : CardId, q.cards[g].required = s.cards[g].required

theorem failedAttempt_fails (hc : s.clips[k] = some c) : FailsAttempt s (failedAttempt p k s) p k c := by
  have hdrops := withdrawAll_dropsOut s.channels[p].writing s
  unfold failedAttempt
  generalize hw : withdrawAll s.channels[p].writing s = w at hdrops ⊢
  obtain ⟨b, hb, hbc⟩ := hdrops.clips k c hc
  have hbi : (idleChannel p w).clips[k] = some b := hb
  obtain ⟨hcounted, hsettled⟩ := countFailed_counts hbi
  have hcard (g : CardId) : s.cards[g].MayReopen (countFailed k (idleChannel p w)).cards[g] := by
    rw [← hdrops.cards]
    exact countFailed_card (idleChannel p w) g k
  have howner : clipCard (countFailed k (idleChannel p w)) k = some c.card := by
    have howner := (countFailed_keeps (idleChannel p w) k).owner k
    rw [hbi] at howner
    rw [clipCard, howner, hbc]
    rfl
  generalize countFailed k (idleChannel p w) = v at hcounted hsettled hcard howner ⊢
  have hframe := settleCardOf_frame v k
  have hsettles : settleCardOf k v = settleCard c.card v := by rw [settleCardOf, howner]
  rw [hsettles] at hframe ⊢
  have hstate : CardSettled s.cards[c.card].state (settleCard c.card v) c.card := by
    refine settleCard_settled fun hne => ?_
    rcases (hcard c.card).state with hst | ⟨hcopied, -⟩
    · exact hst
    · exact absurd hcopied hne
  have hrequired := settleCard_required v c.card
  generalize settleCard c.card v = q at hframe hstate hrequired ⊢
  have qclips : q.clips = v.clips := by rw [hframe]
  have qlog : q.log = v.log := by rw [hframe]
  obtain ⟨z, hz, hrestarted, hdigest, hcopies⟩ := hsettled.clip
  refine ⟨?_, ?_, hstate, ?_, ⟨z, b, by rw [qclips, hz], by rw [hw, hb], hcopies, by rw [hdigest, hbc], by rw [hrestarted, hbc]⟩,
    fun g => ?_⟩
  · rw [hframe]
    dsimp only
    rw [hsettled.channels, idleChannel, setChannel_channels, get_set, if_pos rfl, hdrops.channels]
  · unfold FailureCounted at hcounted ⊢
    rw [qclips, qlog]
    rw [hbc] at hcounted
    have hcards : (idleChannel p w).cards = s.cards := hdrops.cards
    have hlog : (idleChannel p w).log = s.log := hdrops.log
    rw [hcards, hlog] at hcounted
    exact hcounted
  · rw [hframe, hw]
    exact hsettled.dests
  · rw [hrequired, (hcard g).kept]

/-- R57: a failed attempt logs at most a fault more. -/
theorem FailureCounted.log_prefix {l : FaultLog} {q : Part} (hf : FailureCounted s l k c q) : l.entries <+: q.log.entries := by
  obtain ⟨y, -, hless, hlast⟩ := hf
  rcases Nat.lt_or_ge (c.failed + 1) 3 with hlt | hge
  · rw [(hless hlt).2.2.2]
  · rw [(hlast hge).2.2.1]
    exact logFault_prefix _ _ _

/-! ## The failed try (R50, R51) -/

theorem blockBad_iff (b : Rx) : blockBad b = true ↔ b.status ≠ 0 ∨ damaged 0x02 b = true ∨ b.payload.length ≠ 4096 := by
  simp [blockBad, Config.blockBytes, or_assoc]

theorem channelClip_of (hk : s.channels[p].clip = some k) (hc : s.clips[k] = some c) : channelClip s p = some (k, c) := by
  rw [channelClip, hk]
  simp only [hc, Option.map_some]

section Tried

variable {f : Fetch} {tag : Nat} (hf : s.channels[p].fetches.find? (fun g => g.tag == tag) = some f)
  (hk : s.channels[p].clip = some k) (hc : s.clips[k] = some c)
include hf hk hc

theorem fetchTimeout_fails : fetchTimeout p tag s = tryFailed p k f (dropFetch p tag s) := by
  rw [fetchTimeout, hf]
  simp only [channelClip_of hk hc]

theorem sourceBlock_fails {b : Rx} (htag : b.tag = tag) (hbad : blockBad b = true) :
    sourceBlock p b s = tryFailed p k f (dropFetch p tag s) := by
  subst htag
  rw [sourceBlock, hf]
  simp only [channelClip_of hk hc, hbad, if_true]

end Tried

/-- R51: a first or second try is asked for again. -/
theorem tryFailed_again {f : Fetch} (tag : Nat) (hf : f.tryNo < 3) : tryFailed p k f (dropFetch p tag s) = { s with
    channels := s.channels.set p
      { s.channels[p] with
        fetches := s.channels[p].fetches.filter fun g => g.tag != tag
        retries := s.channels[p].retries ++ [⟨f.block, f.tryNo + 1⟩] } } := by
  have hself : (dropFetch p tag s).channels[p] =
      { s.channels[p] with fetches := s.channels[p].fetches.filter fun g => g.tag != tag } := by
    rw [dropFetch, setChannel_channels, get_set, if_pos rfl]
  rw [tryFailed]
  refine (if_pos hf).trans ?_
  rw [hself]
  simp only [dropFetch, setChannel, Vector.set_set]

/-- R51, R59: a third ends the attempt. -/
theorem tryFailed_last {f : Fetch} (tag : Nat) (hf : 3 ≤ f.tryNo) :
    tryFailed p k f (dropFetch p tag s) = blockFailed p k f.block (dropFetch p tag s) := if_neg (not_lt.mpr hf)

/-- R59: the destinations of the writing set are withdrawn, and with them the clip's copies there. -/
theorem FailsAttempt.withdrawn {q : Part} (hq : FailsAttempt s q p k c) (hc : s.clips[k] = some c)
    (hheld : ∀ d : DestId, s.channels[p].writing.mem d = true → s.dests[d].holder = some k) :
    (∀ d : DestId, s.channels[p].writing.mem d = true → q.dests[d] = s.dests[d].dropped)
      ∧ ∃ z, q.clips[k] = some z
        ∧ ∀ d : DestId, z.copies[d] = if s.channels[p].writing.mem d then .none else c.copies[d] := by
  obtain ⟨z, b, hz, hb, hcopies, -⟩ := hq.clip
  refine ⟨fun d hd => ?_, z, hz, fun d => ?_⟩
  · rw [hq.dests, withdrawAll_dests (hk := hheld), if_pos hd]
  · rw [withdrawAll_clips (hk := hheld), if_pos rfl, hc, Option.map_some, Option.some.injEq] at hb
    rw [hcopies, ← hb, Clip.withoutCopies_get]
    simp only [DestSet.mem_members]

/-- R45, R57, R59: the clip of the failed attempt, after the grant evaluation too. -/
theorem FailsAttempt.clip_after {q : Part} (hq : FailsAttempt s q p k c) (hreq : ∀ h : CardId, 1 ≤ s.cards[h].required) :
    ∃ y, (afterEvent q).clips[k] = some y ∧ y.failed = min (c.failed + 1) 3 ∧ (3 ≤ c.failed + 1 → y.state = .failed)
      ∧ y.sourceDigest = c.sourceDigest ∧ y.restarted = c.restarted := by
  obtain ⟨z, b, hz, -, -, hdigest, hrestarted⟩ := hq.clip
  obtain ⟨a, ha, hless, hlast⟩ := hq.counted
  rw [hz, Option.some.injEq] at ha
  subst ha
  obtain ⟨y, hy, hfollows⟩ := afterEvent_clip hz
  obtain ⟨hyfailed, hydigest, hyrestarted⟩ := hfollows.counts fun h => by rw [hq.required]; exact hreq h
  refine ⟨y, hy, ?_, fun hge => ?_, hydigest.trans hdigest, hyrestarted.trans hrestarted⟩
  · rw [hyfailed]
    rcases Nat.lt_or_ge (c.failed + 1) 3 with hlt | hge
    · rw [(hless hlt).1]
      omega
    · rw [(hlast hge).1]
      omega
  · have hst := (hlast hge).2.1
    rw [hfollows.unlisted (by rw [hst]; decide)]
    exact hst

end Sys2Proof.Machine

namespace Sys2Proof.Proofs
open Machine

/-- Settles O37: a first or second try by `tryFailed_again`; a third ends the attempt as `failedAttempt_fails` tells, and
what follows the event leaves of it what `afterEvent_clip` and `afterEvent_dest` say. -/
theorem copyTryFails : Obligations.CopyTryFails := by
  intro s p c tag x f k cl hr hx hf hk hc hcmd
  subst hx
  have hexec : exec c s = .next { s with part := tryFailed p k f (dropFetch p tag s.part) } := by
    rcases hcmd with rfl | ⟨b, rfl, htag, hbad⟩
    · rw [exec_event (f := fetchTimeout p tag) rfl hr, fetchTimeout_fails hf hk hc]
    · rw [exec_event (f := sourceBlock p b) rfl hr, sourceBlock_fails hf hk hc htag ((blockBad_iff b).mpr hbad)]
  refine ⟨fun hlt => by rw [hexec, tryFailed_again tag hlt], fun hge hreq => ?_⟩
  have hclip : (dropFetch p tag s.part).clips[k] = some cl := hc
  rw [tryFailed_last tag hge, blockFailed_eq hclip] at hexec
  generalize ht : ({ dropFetch p tag s.part with
    log := logFault (decide ((dropFetch p tag s.part).cards[cl.card].state = .cleared))
      ⟨.sourceRead, some cl.card, some k, none, none, f.block⟩ (dropFetch p tag s.part).log } : Part) = t at hexec
  have tcards : t.cards = s.part.cards := by rw [← ht]; rfl
  have tdests : t.dests = s.part.dests := by rw [← ht]; rfl
  have tclip : t.clips[k] = some cl := by rw [← ht]; exact hc
  have tlog : t.log = logFault (decide (s.part.cards[cl.card].state = .cleared))
      ⟨.sourceRead, some cl.card, some k, none, none, f.block⟩ s.part.log := by rw [← ht]; rfl
  have tchannel : t.channels[p] =
      { s.part.channels[p] with fetches := s.part.channels[p].fetches.filter fun g => g.tag != tag } := by
    rw [← ht]
    dsimp only
    rw [dropFetch, setChannel_channels, get_set, if_pos rfl]
  have hfails := failedAttempt_fails (p := p) tclip
  have hdrops := withdrawAll_dropsOut t.channels[p].writing t
  have hafter := hfails.clip_after (by rw [tcards]; exact hreq)
  have hwithdrawn := hfails.withdrawn tclip
  obtain ⟨hchannel, hcounted, hcard, hdests, -, -⟩ := hfails
  have hcounted' : FailureCounted s.part t.log k cl (failedAttempt p k t) := by
    unfold FailureCounted at hcounted ⊢
    rw [tcards] at hcounted
    exact hcounted
  rw [tcards] at hcard
  rw [tchannel] at hchannel hdrops hdests hwithdrawn
  rw [tdests] at hwithdrawn
  generalize failedAttempt p k t = q at hexec hchannel hcounted hcounted' hcard hdests hafter hwithdrawn
  obtain ⟨y, hy, hyfacts⟩ := hafter
  have hcursor (d : DestId) : (afterEvent q).dests[d].cursor = s.part.dests[d].cursor := by
    rw [afterEvent_dest, ← tdests]
    dsimp only
    rw [hdests]
    exact hdrops.cursor d
  refine ⟨_, y, q, hexec, rfl, hchannel ▸ Channel.idle_idles _, tlog ▸ hcounted', hcard, fun d hd => ?_, hwithdrawn, hy,
    hyfacts.1, hyfacts.2.1, hyfacts.2.2.1, hyfacts.2.2.2, hcursor, fun hm hlen => ?_⟩
  · rw [hdests, hdrops.others d (fun hmem => by rw [DestSet.mem_members] at hmem; exact absurd (hd.symm.trans hmem) (by decide)),
      tdests]
  · dsimp only
    refine logFault_stays hm hlen ?_
    rw [← tlog]
    exact hcounted.log_prefix.trans (afterEvent_log q)

end Sys2Proof.Proofs
end

