-- ==== Sys2Proof/Proofs/DestLoss.lean ====
section
/-! PROOF. The link events of a destination and its stall (R26, R28, R35): the destination out of service, its verify back in
its queue, its holder's copy gone, and the channels that waited for its draining. -/

namespace Sys2Proof.Machine

variable {s : Part} {d : DestId} {k : ClipId} {p : PortId}

/-! ## The end of an attempt, whatever its clip -/

/-- From `s` to `t` the attempt of a RUNNING channel may have ended. -/
structure MayEndAttempt (s t : Part) : Prop where
  dests    : ∀ d : DestId, ∃ l : List ClipId, t.dests[d] = { s.dests[d] with queue := s.dests[d].queue ++ l }
  clips    : ∀ (k : ClipId) (c : Clip), s.clips[k] = some c → ∃ y, t.clips[k] = some y ∧ y.copies = c.copies
  channels : ∀ p : PortId, s.channels[p].state ≠ .running → t.channels[p] = s.channels[p]
  log      : s.log.entries <+: t.log.entries

theorem MayEndAttempt.refl (s : Part) : MayEndAttempt s s :=
  ⟨fun _ => ⟨[], by rw [List.append_nil]⟩, fun _ c hc => ⟨c, hc, rfl⟩, fun _ _ => rfl, List.prefix_refl _⟩



theorem endAttempt_channels (s : Part) (p q : PortId) : (endAttempt p s).channels[q] =
    if p = q then Channel.idle s.channels[p].tagCounter else s.channels[q] := by
  have idled : (idleChannel p s).channels[q] =
      if p = q then Channel.idle s.channels[p].tagCounter else s.channels[q] := by
    rw [idleChannel, setChannel_channels, get_set]
  unfold endAttempt
  split
  · rw [settleCardOf_frame]
    dsimp only
    rw [closeAttempt, settleClip_channels, joinQueues_channels]
    exact idled
  · exact idled

theorem endAttempt_log (s : Part) (p : PortId) : s.log.entries <+: (endAttempt p s).log.entries := by
  unfold endAttempt
  split
  · exact ((closeAttempt_spares (h := 0) (p := 0) s _ p).trans (settleCardOf_spares _ _)).log
  · exact List.prefix_refl _

theorem endAttempt_mayEnd (hrun : s.channels[p].state = .running) : MayEndAttempt s (endAttempt p s) := by
  have hchannels (q : PortId) (hq : s.channels[q].state ≠ .running) : (endAttempt p s).channels[q] = s.channels[q] := by
    rw [endAttempt_channels, if_neg]
    rintro rfl
    exact hq hrun
  have hlog := endAttempt_log s p
  cases hk : s.channels[p].clip with
  | none =>
    rw [endAttempt, hk] at hchannels hlog ⊢
    exact ⟨fun _ => ⟨[], by rw [List.append_nil]; rfl⟩, fun _ c hc => ⟨c, hc, rfl⟩, hchannels, hlog⟩
  | some k =>
    have hjoined (d : DestId) (x : Dest) (b : Bool) : ∃ l : List ClipId,
        (if b then x.joined k else x) = { x with queue := x.queue ++ l } := by
      cases b with
      | true => exact ⟨[k], rfl⟩
      | false => exact ⟨[], by rw [List.append_nil]; rfl⟩
    cases hc : s.clips[k] with
    | none =>
      have hsame : endAttempt p s = settleCardOf k (joinQueues k s.channels[p].finished (idleChannel p s)) := by
        have hfree : (joinQueues k s.channels[p].finished (idleChannel p s)).clips[k] = none := by
          rw [joinQueues_clips]
          exact hc
        rw [endAttempt, hk]
        dsimp only
        rw [closeAttempt, settleClip, hfree]
      refine ⟨fun e => ?_, fun j b hb => ?_, hchannels, hlog⟩
      · rw [hsame, settleCardOf_frame]
        dsimp only
        rw [joinQueues_dests]
        exact hjoined e _ _
      · rw [hsame, settleCardOf_frame]
        dsimp only
        rw [joinQueues_clips]
        exact ⟨b, hb, rfl⟩
    | some c =>
      have hends := endAttempt_ends hk hc
      refine ⟨fun e => ?_, fun j b hb => ?_, hchannels, hlog⟩
      · rw [hends.dests]
        exact hjoined e _ _
      · by_cases hj : j = k
        · subst hj
          rw [hc, Option.some.injEq] at hb
          subst hb
          obtain ⟨y, hy, hcopies, -⟩ := hends.clip
          exact ⟨y, hy, hcopies⟩
        · exact ⟨b, by rw [hends.clips j hj, hb], rfl⟩

theorem endIfEmpty_mayEnd (p : PortId) (s : Part) : MayEndAttempt s (endIfEmpty p s) := by
  unfold endIfEmpty
  split
  · rename_i hcond
    exact endAttempt_mayEnd hcond.1
  · exact .refl s

theorem endAttemptOf_mayEnd (k : ClipId) (s : Part) : MayEndAttempt s (endAttemptOf k s) := by
  unfold endAttemptOf
  split
  · exact endIfEmpty_mayEnd _ s
  · exact .refl s

/-! ## The drain sets (R65) -/

theorem Channel.drained_drain (c : Channel) (hc : c.state = .waiting) : (c.drained d).drain.mem d = false := by
  unfold Channel.drained
  split
  · split
    · exact DestSet.mem_empty d
    · exact (DestSet.mem_erase _ _ _).trans (if_pos rfl)
  · rename_i hcond
    exact Bool.eq_false_iff.mpr fun hmem => hcond ⟨hc, hmem⟩

theorem Channel.drained_state (c : Channel) (hc : c.state ≠ .running) : (c.drained d).state ≠ .running := by
  unfold Channel.drained
  split
  · split
    · exact fun h => nomatch h
    · exact hc
  · exact hc

theorem drainEnded_channels (s : Part) (d : DestId) (p : PortId) : (drainEnded d s).channels[p] = s.channels[p].drained d := by
  have hfold := (drainedFor_foldl d allPorts (by decide) s).2.2.1 p
  rw [if_pos (mem_allPorts p)] at hfold
  exact hfold

theorem drainedFor_log (s : Part) (d : DestId) (p : PortId) : (drainedFor d p s).log = s.log := by
  unfold drainedFor
  split
  · split
    · split
      · split
        · exact writeCard_log _ _ _
        · rfl
      · rfl
    · rfl
  · rfl

theorem drainEnded_log (s : Part) (d : DestId) : (drainEnded d s).log = s.log := by
  unfold drainEnded
  generalize allPorts = l
  induction l generalizing s with
  | nil => rfl
  | cons p rest ih => rw [List.foldl_cons, ih, drainedFor_log]

/-- R47: a channel that begins an attempt waits for no destination. -/
theorem grant_drain {c : Candidate} (hp : s.channels[p].drain.mem d = false) : (grant c s).channels[p].drain.mem d = false := by
  cases hq : freeChannel s c.card with
  | none =>
    rw [grant, hq]
    exact hp
  | some q =>
    have hgranted : (granted c q s).channels[p].drain.mem d = false := by
      rw [granted_channels]
      split
      · exact DestSet.mem_empty d
      · exact hp
    by_cases hd : ∃ e : DestId, c.targets.mem e = true
    · rw [grant_begins hq hd]
      exact hgranted
    · have hd' (e : DestId) : c.targets.mem e = false := Bool.eq_false_iff.mpr fun hmem => hd ⟨e, hmem⟩
      rw [grant_ends hq hd', endAttempt_channels]
      split
      · exact DestSet.mem_empty d
      · exact hgranted

theorem evalGrant_drain (hp : s.channels[p].drain.mem d = false) : (evalGrant s).channels[p].drain.mem d = false := by
  unfold evalGrant
  generalize 513 = n
  induction n generalizing s with
  | zero => exact hp
  | succ n ih =>
    have hpass : (considerAll (cardOrder s.grantPointer) s).1.channels[p].drain.mem d = false := by
      rw [(considerAll_considers s _).channels]
      exact hp
    rw [grantPasses]
    cases chooseGrant (considerAll (cardOrder s.grantPointer) s).1 (considerAll (cardOrder s.grantPointer) s).2 with
    | none => exact hpass
    | some c => exact ih (grant_drain hpass)

theorem afterEvent_drain (hp : s.channels[p].drain.mem d = false) : (afterEvent s).channels[p].drain.mem d = false := by
  have hchannels : (startVerifies (evalGrant s)).channels = (evalGrant s).channels := by rw [startVerifies_frame]
  rw [afterEvent, hchannels]
  exact evalGrant_drain hp

/-! ## The destination that leaves its attempt and its verify (R28, R30, R78) -/

theorem Dest.unheld {x : Dest} (hx : x.holder = none) : { x with holder := none } = x := by rw [← hx]

theorem Dest.dropped_idle {x : Dest} (hstores : x.stores = []) (hdrain : x.draining = false) :
    x.dropped = { x with holder := none } := by
  have hsame : (!x.stores.isEmpty) = x.draining := by rw [hstores, hdrain]; rfl
  rw [Dest.dropped, hsame]

/-- R28, R30: a destination without STOREs leaves its holder's attempt and drains nothing. -/
theorem leaveAttempt_dest (hstores : s.dests[d].stores = []) (hdrain : s.dests[d].draining = false) :
    (leaveAttempt d s).dests[d] = { s.dests[d] with holder := none } := by
  have hdropped := Dest.dropped_idle hstores hdrain
  cases hk : s.dests[d].holder with
  | none =>
    have hsame : leaveAttempt d s = s := by rw [leaveAttempt, hk]
    rw [hsame, Dest.unheld hk]
  | some k =>
    have hdest : (dropOut d s).dests[d] = s.dests[d].dropped := by rw [dropOut_dests (hd := hk), if_pos rfl]
    rw [leaveAttempt, hk]
    dsimp only
    split
    · rw [hdest, hdropped]
    · rw [setChannel_dests, hdest, hdropped]

theorem leaveAttempt_dropOut (s : Part) (d : DestId) : (leaveAttempt d s).clips = (dropOut d s).clips
    ∧ (leaveAttempt d s).log = s.log ∧ ∀ p : PortId, s.channels[p].state ≠ .running →
      (leaveAttempt d s).channels[p] = s.channels[p] := by
  unfold leaveAttempt
  split
  · rename_i hnone
    rw [dropOut, hnone]
    exact ⟨rfl, rfl, fun _ _ => rfl⟩
  · split
    · exact ⟨rfl, dropOut_log s d, fun p _ => by rw [dropOut_channels]⟩
    · rename_i q hq
      refine ⟨setChannel_clips _ _ _, (setChannel_log _ _ _).trans (dropOut_log s d), fun p hp => ?_⟩
      rw [setChannel_channels, get_set, if_neg, dropOut_channels]
      rintro rfl
      exact hp (runningChannel_some s _ hq).1

theorem Dest.unverified {x : Dest} (hx : x.context = none) : { x with context := none } = x := by rw [← hx]

/-- R78: the verify of a destination is stopped. -/
theorem stopVerify_dest (s : Part) (d : DestId) : (stopVerify d s).dests[d] = { s.dests[d] with
    queue := (s.dests[d].context.map VerifyContext.clip).toList ++ s.dests[d].queue, context := none } := by
  cases hv : s.dests[d].context with
  | none =>
    have hsame : stopVerify d s = s := by rw [stopVerify, hv]
    rw [hsame]
    exact (Dest.unverified hv).symm
  | some v =>
    rw [stopVerify, hv]
    dsimp only
    rw [writeDest_dests, modClip_dests, get_set, if_pos rfl]
    rfl

theorem stopVerify_frame (s : Part) (d : DestId) :
    (stopVerify d s).channels = s.channels ∧ (stopVerify d s).log = s.log := by
  unfold stopVerify
  split
  · exact ⟨rfl, rfl⟩
  · rw [writeDest_channels, writeDest_log, modClip_channels, modClip_log]
    exact ⟨rfl, rfl⟩

/-- R78: the copy of a stopped verify is WRITTEN again. -/
theorem stopVerify_clip {v : VerifyContext} (hv : s.dests[d].context = some v) :
    (stopVerify d s).clips[v.clip] = s.clips[v.clip].map fun c => { c with copies := c.copies.set d (.written v.offset) } := by
  rw [stopVerify, hv]
  dsimp only
  rw [writeDest_clips, modClip_get, if_pos rfl]

theorem stopVerify_other {j : ClipId} (hj : ∀ v, s.dests[d].context = some v → v.clip ≠ j) :
    (stopVerify d s).clips[j] = s.clips[j] := by
  cases hv : s.dests[d].context with
  | none => rw [stopVerify, hv]
  | some v =>
    rw [stopVerify, hv]
    dsimp only
    rw [writeDest_clips, modClip_get, if_neg (hj v hv)]

/-! ## The loss of a destination's service (R28, R35) -/

/-- R28, R35: the part once the destination has been taken out of service, left its attempt and stopped its verify, and the
fault is raised. -/
def destDown (d : DestId) (st : DestState) (ret : Option Service) (kind : FaultKind) (s : Part) : Part :=
  raise ⟨kind, none, none, some d, none, s.dests[d].outstanding⟩
    (stopVerify d (leaveAttempt d (writeDest d (s.dests[d].lost st ret) s)))

/-- R28, R35: the part once the channels that waited for its draining have heard of it, and its holder's attempt. -/
def destGone (d : DestId) (st : DestState) (ret : Option Service) (kind : FaultKind) (s : Part) : Part :=
  match s.dests[d].holder with
  | some k => endAttemptOf k (if s.dests[d].draining then drainEnded d (destDown d st ret kind s) else destDown d st ret kind s)
  | none => if s.dests[d].draining then drainEnded d (destDown d st ret kind s) else destDown d st ret kind s

theorem loseDest_eq (d : DestId) (st : DestState) (ret : Option Service) (kind : FaultKind) (s : Part) :
    loseDest d st ret kind s = afterEvent (destGone d st ret kind s) := rfl

/-- R28, R35, R78: the destination out of service. -/
def Dest.gone (x : Dest) (st : DestState) (ret : Option Service) : Dest :=
  { x.lost st ret with holder := none, queue := (x.context.map VerifyContext.clip).toList ++ x.queue, context := none }

variable {st : DestState} {ret : Option Service} {kind : FaultKind}

theorem lost_written : (writeDest d (s.dests[d].lost st ret) s).dests[d] = s.dests[d].lost st ret := by
  rw [writeDest_dests, get_set, if_pos rfl]

theorem lost_left : (leaveAttempt d (writeDest d (s.dests[d].lost st ret) s)).dests[d] =
    { s.dests[d].lost st ret with holder := none } := by
  rw [leaveAttempt_dest, lost_written]
  · rw [lost_written]; rfl
  · rw [lost_written]; rfl

section Down

variable (hcard : kind.marksCard = false) (hclip : kind.marksClip = false)
include hcard hclip

/-- R28, R35: what the loss itself leaves: the fault marks nothing. -/
theorem destDown_frame : (destDown d st ret kind s).dests[d] = s.dests[d].gone st ret
    ∧ (destDown d st ret kind s).clips = (stopVerify d (leaveAttempt d (writeDest d (s.dests[d].lost st ret) s))).clips
    ∧ (destDown d st ret kind s).log =
      logFault false ⟨kind, none, none, some d, none, s.dests[d].stores.length + s.dests[d].fetches.length⟩ s.log
    ∧ ∀ p : PortId, s.channels[p].state ≠ .running → (destDown d st ret kind s).channels[p] = s.channels[p] := by
  obtain ⟨-, hleft, hkept⟩ := leaveAttempt_dropOut (writeDest d (s.dests[d].lost st ret) s) d
  have hdest := stopVerify_dest (leaveAttempt d (writeDest d (s.dests[d].lost st ret) s)) d
  obtain ⟨hchannels, hlog⟩ := stopVerify_frame (leaveAttempt d (writeDest d (s.dests[d].lost st ret) s)) d
  rw [lost_left] at hdest
  rw [hleft, writeDest_log] at hlog
  rw [writeDest_channels] at hkept
  unfold destDown
  rw [raise_unmarked _ _ hcard hclip]
  refine ⟨hdest, rfl, ?_, fun p hp => ?_⟩
  · dsimp only
    rw [hlog]
    rfl
  · dsimp only
    rw [hchannels]
    exact hkept p hp

/-- R28, R65: what the channels hear leaves. -/
theorem destGone_frame : (∃ l : List ClipId, (destGone d st ret kind s).dests[d] =
      { s.dests[d].gone st ret with queue := (s.dests[d].gone st ret).queue ++ l })
    ∧ (∀ (j : ClipId) (c : Clip),
      (stopVerify d (leaveAttempt d (writeDest d (s.dests[d].lost st ret) s))).clips[j] = some c →
        ∃ y, (destGone d st ret kind s).clips[j] = some y ∧ y.copies = c.copies)
    ∧ (logFault false ⟨kind, none, none, some d, none, s.dests[d].stores.length + s.dests[d].fetches.length⟩ s.log).entries
      <+: (destGone d st ret kind s).log.entries
    ∧ (s.dests[d].draining = true → ∀ p : PortId, s.channels[p].state = .waiting →
      (destGone d st ret kind s).channels[p].drain.mem d = false) := by
  obtain ⟨hdest, hclips, hlog, hkept⟩ := destDown_frame (s := s) (d := d) (st := st) (ret := ret) hcard hclip
  unfold destGone
  rw [← hlog, ← hclips]
  rw [← hdest]
  generalize destDown d st ret kind s = t at hkept ⊢
  have hheard : (if s.dests[d].draining then drainEnded d t else t).dests = t.dests
      ∧ (if s.dests[d].draining then drainEnded d t else t).clips = t.clips
      ∧ (if s.dests[d].draining then drainEnded d t else t).log = t.log
      ∧ (s.dests[d].draining = true → ∀ p : PortId, s.channels[p].state = .waiting →
        (if s.dests[d].draining then drainEnded d t else t).channels[p].drain.mem d = false
          ∧ (if s.dests[d].draining then drainEnded d t else t).channels[p].state ≠ .running) := by
    cases s.dests[d].draining with
    | false => exact ⟨rfl, rfl, rfl, fun h => nomatch h⟩
    | true =>
      obtain ⟨hdests, hclips, -⟩ := drainEnded_leaves t d
      refine ⟨hdests, hclips, drainEnded_log t d, fun _ p hp => ?_⟩
      have hne : s.channels[p].state ≠ .running := by rw [hp]; decide
      rw [if_pos rfl, drainEnded_channels, hkept p hne]
      exact ⟨Channel.drained_drain _ hp, Channel.drained_state _ hne⟩
  generalize (if s.dests[d].draining then drainEnded d t else t) = u at hheard ⊢
  obtain ⟨hdests, hclips, hlogs, hdrain⟩ := hheard
  rw [← hdests, ← hclips, ← hlogs]
  have hend : MayEndAttempt u (match s.dests[d].holder with
      | some k => endAttemptOf k u
      | none => u) := by
    split
    · exact endAttemptOf_mayEnd _ u
    · exact .refl u
  refine ⟨hend.dests d, hend.clips, hend.log, fun hd p hp => ?_⟩
  obtain ⟨hmem, hne⟩ := hdrain hd p hp
  rw [hend.channels p hne]
  exact hmem

end Down

/-! ## The clips (R30, R78) -/

/-- R78: the copy of the verify that was stopped is WRITTEN again. -/
theorem destGone_verified (hcard : kind.marksCard = false) (hclip : kind.marksClip = false) {v : VerifyContext}
    (hv : s.dests[d].context = some v) {a : Clip} (ha : s.clips[v.clip] = some a) :
    ∃ y, (destGone d st ret kind s).clips[v.clip] = some y ∧ y.copies[d] = .written v.offset := by
  obtain ⟨-, hclips, -⟩ := destGone_frame (s := s) (d := d) (st := st) (ret := ret) hcard hclip
  have hleft : ∃ b, (leaveAttempt d (writeDest d (s.dests[d].lost st ret) s)).clips[v.clip] = some b := by
    rw [(leaveAttempt_dropOut _ d).1]
    obtain ⟨b, hb, -⟩ := (dropOut_dropsOut (writeDest d (s.dests[d].lost st ret) s) d).clips v.clip a
      (by rw [writeDest_clips]; exact ha)
    exact ⟨b, hb⟩
  obtain ⟨b, hb⟩ := hleft
  have hstopped := stopVerify_clip (s := leaveAttempt d (writeDest d (s.dests[d].lost st ret) s)) (d := d) (v := v)
    (by rw [lost_left]; exact hv)
  rw [hb, Option.map_some] at hstopped
  obtain ⟨y, hy, hcopies⟩ := hclips _ _ hstopped
  exact ⟨y, hy, by rw [hcopies, get_set, if_pos rfl]⟩

/-- R30: the copy of the holder is gone. -/
theorem destGone_held (hcard : kind.marksCard = false) (hclip : kind.marksClip = false) (hk : s.dests[d].holder = some k)
    {a : Clip} (ha : s.clips[k] = some a) (hv : ∀ v, s.dests[d].context = some v → v.clip ≠ k) :
    ∃ y, (destGone d st ret kind s).clips[k] = some y ∧ y.copies[d] = .none := by
  obtain ⟨-, hclips, -⟩ := destGone_frame (s := s) (d := d) (st := st) (ret := ret) hcard hclip
  have hleft : (leaveAttempt d (writeDest d (s.dests[d].lost st ret) s)).clips[k] = some (a.withoutCopy d) := by
    rw [(leaveAttempt_dropOut _ d).1, dropOut_clips (k := k) (hd := by rw [lost_written]; exact hk), if_pos rfl, writeDest_clips, ha,
      Option.map_some]
  have hstopped := stopVerify_other (s := leaveAttempt d (writeDest d (s.dests[d].lost st ret) s)) (d := d) (j := k)
    (by rw [lost_left]; exact hv)
  rw [hleft] at hstopped
  obtain ⟨y, hy, hcopies⟩ := hclips _ _ hstopped
  exact ⟨y, hy, by rw [hcopies, Clip.withoutCopy, get_set, if_pos rfl]⟩

/-! ## The events -/

/-- R26: what link up does to a destination that is ABSENT. -/
theorem destLinkUp_absent (hst : s.dests[d].state = .absent) (hd : d.val < s.reset.dests) : destLinkUp d s =
    afterEvent (queueNotice
      (.destState d .unset s.dests[d].ret s.dests[d].base s.dests[d].length s.dests[d].cursor s.dests[d].draining)
      { s with dests := s.dests.set d { s.dests[d] with state := .unset } }) := by
  refine (if_pos ⟨hd, hst⟩).trans (congrArg afterEvent (if_neg ?_))
  rintro ⟨h, -⟩
  rw [hst] at h
  cases h

/-- R28, R35: the loss and the stall are one event but for the state and the fault. -/
theorem loses_exec {m : State} {c : Instr} (hr : m.runs)
    (hc : (c = .destLinkDown d ∧ st = .absent ∧ kind = .destLost ∧ d.val < m.part.reset.dests ∧ m.part.dests[d].state ≠ .absent)
      ∨ (c = .stallTimeout d ∧ st = .stalled ∧ kind = .destStall ∧ m.part.dests[d].stallTimer.isSome = true)) :
    exec c m = .next { m with part := loseDest d st m.part.dests[d].keptReturn kind m.part }
      ∧ kind.marksCard = false ∧ kind.marksClip = false ∧ st.serves = false := by
  rcases hc with ⟨rfl, rfl, rfl, hd, hst⟩ | ⟨rfl, rfl, rfl, htimer⟩
  · refine ⟨(exec_event (f := destLinkDown d) rfl hr).trans ?_, rfl, rfl, rfl⟩
    rw [destLinkDown, if_pos ⟨hd, hst⟩]
  · refine ⟨(exec_event (f := stallTimeout d) rfl hr).trans ?_, rfl, rfl, rfl⟩
    rw [stallTimeout, if_pos htimer]

end Sys2Proof.Machine

namespace Sys2Proof.Proofs
open Machine

/-- Settles O34: link up by `destLinkUp_absent`; the loss of a destination and its stall leave what `destGone_frame` says,
and as it is out of service then, what follows the event leaves it and the copies on it alone. -/
theorem destLinkEvents : Obligations.DestLinkEvents := by
  intro s d x hr hx
  subst hx
  have hup := exec_event (c := .destLinkUp d) (f := destLinkUp d) rfl hr
  have hdown := exec_event (c := .destLinkDown d) (f := destLinkDown d) rfl hr
  refine ⟨fun hd => ⟨?_, ?_⟩, fun hst => ?_, fun hst hd => by rw [hup, destLinkUp_absent hst hd], fun hst => ?_, fun htimer => ?_,
    fun c st kind hc => ?_⟩
  · rw [hup, destLinkUp, if_neg (fun h => absurd h.1 (not_lt.mpr hd))]
  · rw [hdown, destLinkDown, if_neg (fun h => absurd h.1 (not_lt.mpr hd))]
  · rw [hup, destLinkUp, if_neg (fun h => hst h.2)]
  · rw [hdown, destLinkDown, if_neg (fun h => h.2 hst)]
  · rw [exec_event (c := .stallTimeout d) (f := stallTimeout d) rfl hr, stallTimeout, htimer]
    rfl
  · obtain ⟨hexec, hcard, hclip, hserves⟩ := loses_exec hr hc
    rw [loseDest_eq] at hexec
    obtain ⟨⟨l, hdest⟩, -, hlog, hdrain⟩ :=
      destGone_frame (s := s.part) (d := d) (st := st) (ret := s.part.dests[d].keptReturn) hcard hclip
    have hverified (v : VerifyContext) (hv : s.part.dests[d].context = some v) (a : Clip) (ha : s.part.clips[v.clip] = some a) :=
      destGone_verified (st := st) (ret := s.part.dests[d].keptReturn) hcard hclip hv ha
    have hheld (k : ClipId) (a : Clip) (hk : s.part.dests[d].holder = some k) (ha : s.part.clips[k] = some a)
        (hv : ∀ v, s.part.dests[d].context = some v → v.clip ≠ k) :=
      destGone_held (st := st) (ret := s.part.dests[d].keptReturn) hcard hclip hk ha hv
    generalize destGone d st s.part.dests[d].keptReturn kind s.part = t at hexec hdest hlog hdrain hverified hheld
    have hunserved : t.dests[d].state.serves = false := by rw [hdest]; exact hserves
    have hafter := afterEvent_unserved hunserved
    rw [hdest] at hafter
    have copy_kept (k : ClipId) (o : Copy) (hk : ∃ y, t.clips[k] = some y ∧ y.copies[d] = o) :
        ∃ y, (afterEvent t).clips[k] = some y ∧ y.copies[d] = o := by
      obtain ⟨b, hb, ho⟩ := hk
      obtain ⟨y, hy, hfollows⟩ := afterEvent_clip hb
      exact ⟨y, hy, (hfollows.unserved d hunserved).trans ho⟩
    refine ⟨_, _, hexec, hafter, rfl, ?_, rfl, rfl, rfl, rfl, rfl, rfl, rfl, rfl, rfl, rfl, rfl, fun v hv => ⟨?_, fun a ha => ?_⟩,
      fun hd p hp => ?_, fun k a hk ha hv => ?_, fun hm hlen => ?_⟩
    · change s.part.dests[d].keptReturn = _
      rw [Dest.keptReturn]
      cases s.part.dests[d].state <;> rfl
    · dsimp only [Dest.gone]
      rw [hv]
      rfl
    · exact copy_kept v.clip _ (hverified v hv a ha)
    · dsimp only
      exact afterEvent_drain (hdrain hd p hp)
    · exact copy_kept k _ (hheld k a hk ha hv)
    · dsimp only
      exact logFault_stays hm hlen (hlog.trans (afterEvent_log t))

end Sys2Proof.Proofs
end

