-- ==== Sys2Proof/Proofs/Verdicts.lean ====
section
/-! PROOF. The end of a verify (R75 to R77): the verdict on its copy, the fault and the mark of a BAD one, the clearance of the
card, and the destination free for the next. -/

namespace Sys2Proof.Machine

variable {s : Part} {d : DestId} {k : ClipId} {c : Clip} {v : VerifyContext}

/-! ## Clearance through the starts of verifies (R160) -/

/-- What clearance reads of a clip record. -/
def Clip.clearing (c : Clip) : ClipState × Nat × MarkSet × Bool × Bool :=
  (c.state, c.verified, c.waivedMarks, c.reviewed, c.marked)

/-- R160: clearance is told by the card's record and by what it reads of the clips. -/
theorem clearanceHolds_of_clearing {t : Part} {h : CardId} (hcard : t.cards[h] = s.cards[h])
    (hclips : ∀ k : ClipId, t.clips[k].map Clip.clearing = s.clips[k].map Clip.clearing) :
    clearanceHolds t h = clearanceHolds s h := by
  have hlist : (cardClips t h).map Clip.clearing = (cardClips s h).map Clip.clearing := by
    unfold cardClips
    rw [List.map_filterMap, List.map_filterMap, hcard]
    exact List.filterMap_congr fun k _ => hclips k
  have hall (f : ClipState × Nat × MarkSet × Bool × Bool → Bool) (r : Part) :
      (cardClips r h).all (f ∘ Clip.clearing) = ((cardClips r h).map Clip.clearing).all f := List.all_map.symm
  have hany (r : Part) : (cardClips r h).any Clip.marked = ((cardClips r h).map Clip.clearing).any fun x => x.2.2.2.2 :=
    (List.any_map (f := Clip.clearing) (p := fun x => x.2.2.2.2)).symm
  have hkeep (f : ClipState × Nat × MarkSet × Bool × Bool → Bool) :
      (cardClips t h).all (f ∘ Clip.clearing) = (cardClips s h).all (f ∘ Clip.clearing) := by rw [hall, hall, hlist]
  have hmarks : anyMarkOpen t h = anyMarkOpen s h := by
    unfold anyMarkOpen
    rw [hcard, hany t, hany s, hlist]
  unfold clearanceHolds
  rw [hmarks, hcard]
  congr 1
  congr 1
  · congr 1
    · exact hkeep fun x => x.1 == .failed || decide (s.cards[h].required ≤ x.2.1)
    · exact hkeep fun x => x.1 != .failed || x.2.2.1.has .clipFailed
  · congr 1
    exact hkeep fun x => x.1 == .failed || x.2.2.2.1

/-- R6: copies verified in the same places are as many. -/
theorem Clip.verified_congr {b c : Clip} (h : ∀ d : DestId, b.copies[d].isVerified = c.copies[d].isVerified) :
    b.verified = c.verified := by
  have hmap : b.copies.map Copy.isVerified = c.copies.map Copy.isVerified := by
    refine Vector.ext fun i hi => ?_
    rw [Vector.getElem_map, Vector.getElem_map]
    exact h ⟨i, hi⟩
  have hcount (x : Clip) : x.verified = (x.copies.map Copy.isVerified).toList.countP id := by
    rw [Vector.toList_map, List.countP_map]
    rfl
  rw [hcount, hcount, hmap]

/-- R72: a verify that starts has not verified yet. -/
theorem Copy.begun_isVerified {c : Clip} (hc : s.clips[k] = some c) (d : DestId) :
    (c.copies[d].begun k (verifyStarting s d)).isVerified = c.copies[d].isVerified := by
  cases hstart : verifyStarting s d with
  | none => rfl
  | some x =>
    obtain ⟨j, o⟩ := x
    obtain ⟨-, -, -, b, hb, ho⟩ := (verifyStarting_some s d j).mp hstart
    change (if j = k then Copy.verifying o else c.copies[d]).isVerified = c.copies[d].isVerified
    split
    · rename_i hjk
      subst hjk
      rw [hc, Option.some.injEq] at hb
      subst hb
      rw [ho]
      rfl
    · rfl

theorem startVerifies_clearance (s : Part) (h : CardId) : clearanceHolds (startVerifies s) h = clearanceHolds s h := by
  refine clearanceHolds_of_clearing (by rw [startVerifies_frame]) fun k => ?_
  cases hc : s.clips[k] with
  | none => rw [startVerifies_free s k hc]
  | some c =>
    obtain ⟨y, hy, hyc, hcopies⟩ := startVerifies_clip s k hc
    have hverified : y.verified = c.verified := Clip.verified_congr fun d => by
      rw [hcopies]
      exact Copy.begun_isVerified hc d
    rw [hy, Option.map_some, Option.map_some]
    unfold Clip.clearing
    rw [hverified, hyc]
    rfl

/-! ## The end of a verify (R75 to R77) -/

/-- R75 to R77: the part once the verdict stands on the copy and the destination is free. -/
def judged (d : DestId) (v : VerifyContext) (verdict : Copy) (s : Part) : Part :=
  writeDest d s.dests[d].verifyOver (modClip v.clip (fun c => { c with copies := c.copies.set d verdict }) s)

theorem endVerify_good (verdict : Copy) :
    endVerify d v verdict none s = startVerifies (evalClipClearance v.clip (judged d v verdict s)) := rfl

theorem endVerify_bad (verdict : Copy) (kind : FaultKind) (n : Nat) :
    endVerify d v verdict (some (kind, n)) s = startVerifies (evalClipClearance v.clip
      (raise (clipReport (judged d v verdict s) kind v.clip (some d) n) (judged d v verdict s))) := rfl

theorem judged_frame (verdict : Copy) : (judged d v verdict s).cards = s.cards ∧ (judged d v verdict s).log = s.log := by
  rw [judged, writeDest_cards, writeDest_log, modClip_cards, modClip_log]
  exact ⟨rfl, rfl⟩

theorem judged_clip (verdict : Copy) (hc : s.clips[v.clip] = some c) :
    (judged d v verdict s).clips[v.clip] = some { c with copies := c.copies.set d verdict } := by
  rw [judged, writeDest_clips, modClip_get, if_pos rfl, hc, Option.map_some]

theorem judged_dest (verdict : Copy) : (judged d v verdict s).dests[d] = s.dests[d].verifyOver := by
  rw [judged, writeDest_dests, get_set, if_pos rfl]

theorem evalClipClearance_of (hc : s.clips[k] = some c) : evalClipClearance k s = evalClearance c.card s := by
  rw [evalClipClearance, clipCard, hc]
  rfl

/-- R72: a copy with a verdict is not started on again. -/
theorem startVerifies_judged (hc : s.clips[k] = some c) (hcopy : ∀ o, c.copies[d] ≠ .written o) :
    ∃ y, (startVerifies s).clips[k] = some y ∧ y.copies[d] = c.copies[d] ∧ y.openMarks = c.openMarks := by
  obtain ⟨y, hy, hyc, hcopies⟩ := startVerifies_clip s k hc
  exact ⟨y, hy, (hcopies d).trans (begun_eq s d k hc (.inl hcopy)), by rw [hyc]⟩

/-- R75, R77: the destination after its verify: no FETCH but of no verify, and a verify that starts anew at most. -/
theorem startVerifies_over {x : Dest} (hd : s.dests[d] = x.verifyOver) :
    (∀ w, (startVerifies s).dests[d].context = some w → w.nextFetch = 0 ∧ w.nextDigest = 0)
      ∧ ∀ g ∈ (startVerifies s).dests[d].fetches, g.use = none := by
  have hfetches (o : Option (ClipId × Nat)) : (x.verifyOver.verifying o).fetches = x.fetches.filter fun f => f.use.isNone := by
    cases o <;> rfl
  rw [startVerifies_dests, hd]
  refine ⟨fun w hw => ?_, fun g hg => ?_⟩
  · cases hstart : verifyStarting s d with
    | none =>
      rw [hstart] at hw
      exact nomatch hw
    | some y =>
      rw [hstart] at hw
      cases hw
      exact ⟨rfl, rfl⟩
  · rw [hfetches] at hg
    exact Option.isNone_iff_eq_none.mp (List.mem_filter.mp hg).2

theorem evalClipClearance_frame (s : Part) (k : ClipId) : evalClipClearance k s =
    { s with cards := (evalClipClearance k s).cards, notices := (evalClipClearance k s).notices } := by
  unfold evalClipClearance
  split
  · exact evalClearance_frame s _
  · rfl

theorem endVerify_dest (verdict : Copy) (fault : Option (FaultKind × Nat)) :
    (∀ w, (endVerify d v verdict fault s).dests[d].context = some w → w.nextFetch = 0 ∧ w.nextDigest = 0)
      ∧ ∀ g ∈ (endVerify d v verdict fault s).dests[d].fetches, g.use = none := by
  have hcleared (t : Part) : (evalClipClearance v.clip t).dests = t.dests := by rw [evalClipClearance_frame]
  cases fault with
  | none =>
    rw [endVerify_good]
    exact startVerifies_over (by rw [hcleared]; exact judged_dest verdict)
  | some x =>
    rw [endVerify_bad]
    exact startVerifies_over (by rw [hcleared, raise_dests]; exact judged_dest verdict)

/-- R76: the verdict on a copy that agrees with its source. -/
theorem endVerify_verified (hk : v.clip = k) (hc : s.clips[k] = some c) (o : Nat) :
    (∃ y, (endVerify d v (.verified o) none s).clips[k] = some y ∧ y.copies[d] = .verified o)
      ∧ (endVerify d v (.verified o) none s).log = s.log
      ∧ (endVerify d v (.verified o) none s).cards[c.card].state =
        if s.cards[c.card].state = .copied ∧ clearanceHolds (endVerify d v (.verified o) none s) c.card = true then .cleared
          else s.cards[c.card].state := by
  subst hk
  have hjudged := judged_clip (d := d) (.verified o) hc
  obtain ⟨hcards, hlog⟩ := judged_frame (s := s) (d := d) (v := v) (.verified o)
  rw [endVerify_good, evalClipClearance_of hjudged, startVerifies_clearance]
  generalize judged d v (.verified o) s = t at hjudged hcards hlog ⊢
  have hcard := evalClearance_card t c.card c.card
  have hframe := evalClearance_frame t c.card
  obtain ⟨hclear, -⟩ := clearanceHolds_congr t c.card (t := evalClearance c.card t) (by rw [hframe]) (by
    rw [hcard]; split <;> rfl)
  dsimp only
  rw [hclear]
  generalize evalClearance c.card t = u at hcard hframe ⊢
  have huc : u.clips[v.clip] = some { c with copies := c.copies.set d (.verified o) } := by rw [hframe]; exact hjudged
  have hcopy : ({ c with copies := c.copies.set d (.verified o) } : Clip).copies[d] = .verified o := by
    dsimp only
    rw [get_set, if_pos rfl]
  have hafter := startVerifies_frame u
  refine ⟨?_, ?_, ?_⟩
  · obtain ⟨y, hy, hycopy, -⟩ := startVerifies_judged huc (d := d) (by rw [hcopy]; exact fun _ h => nomatch h)
    exact ⟨y, hy, hycopy.trans hcopy⟩
  · rw [hafter]
    dsimp only
    rw [hframe]
    exact hlog
  · rw [hafter]
    dsimp only
    rw [hcard, hcards]
    by_cases hcond : s.cards[c.card].state = .copied ∧ clearanceHolds t c.card = true
    · rw [if_pos ⟨rfl, hcond⟩, if_pos hcond]
      rfl
    · rw [if_neg (fun h => hcond h.2), if_neg hcond]

/-- R153, R155: a card in COPIED on whose clip a mark opens goes to HELD, another stays in its state. -/
theorem raise_reopens {r : Report} (hcard : r.kind.marksCard = false) (hclip : r.kind.marksClip = true)
    (hk : r.clip = some k) (hr : r.card = some c.card) (hc : s.clips[k] = some c) :
    (s.cards[c.card].state = .copied → c.openMarks.has r.kind = false → (raise r s).cards[c.card].state = .held)
      ∧ (s.cards[c.card].state ≠ .copied → (raise r s).cards[c.card].state = s.cards[c.card].state) := by
  refine ⟨fun hst hm => ?_, fun hst => ?_⟩
  · have hafter : afterClearance s r = false := by
      rw [afterClearance, hr]
      dsimp only
      rw [hst]
      rfl
    have hraise : raise r s = openClipMark k r.kind { s with log := logFault false r s.log } := by
      rw [raise, if_neg (by rw [hafter]; decide), openMark, hcard, hclip, hk]
      rfl
    rw [hraise, (openClipMark_writes (s := { s with log := logFault false r s.log }) hc hm).2, get_set, if_pos rfl]
    exact if_pos hst
  · exact (raise_card s c.card r).state.resolve_right fun h => hst h.1

/-- R75, R77: the verdict on a copy that is BAD. -/
theorem endVerify_spoiled {kind : FaultKind} (hcard : kind.marksCard = false) (hclip : kind.marksClip = true)
    (hk : v.clip = k) (hc : s.clips[k] = some c) (o n : Nat) :
    (∃ y, (endVerify d v (.bad o) (some (kind, n)) s).clips[k] = some y ∧ y.copies[d] = .bad o
        ∧ (s.cards[c.card].state ≠ .cleared → y.openMarks.has kind = true))
      ∧ (s.cards[c.card].state = .copied → c.openMarks.has kind = false →
        (endVerify d v (.bad o) (some (kind, n)) s).cards[c.card].state = .held)
      ∧ (s.cards[c.card].state ≠ .copied →
        (endVerify d v (.bad o) (some (kind, n)) s).cards[c.card].state = s.cards[c.card].state)
      ∧ (endVerify d v (.bad o) (some (kind, n)) s).log =
        logFault (decide (s.cards[c.card].state = .cleared)) ⟨kind, some c.card, some k, some d, none, n⟩ s.log := by
  subst hk
  have hjudged := judged_clip (d := d) (.bad o) hc
  obtain ⟨hcards, hlog⟩ := judged_frame (s := s) (d := d) (v := v) (.bad o)
  rw [endVerify_bad, clipReport_eq hjudged]
  generalize judged d v (.bad o) s = t at hjudged hcards hlog ⊢
  have hraised := raise_onClip (r := ⟨kind, some c.card, some v.clip, some d, none, n⟩)
    (y := { c with copies := c.copies.set d (.bad o) }) hcard hclip rfl rfl hjudged
  have hreopens := raise_reopens (r := ⟨kind, some c.card, some v.clip, some d, none, n⟩)
    (c := { c with copies := c.copies.set d (.bad o) }) hcard hclip rfl rfl hjudged
  have hlogged := raise_log t ⟨kind, some c.card, some v.clip, some d, none, n⟩
  have hafter : afterClearance t ⟨kind, some c.card, some v.clip, some d, none, n⟩ = decide (s.cards[c.card].state = .cleared) := by
    rw [← hcards]
    rfl
  rw [hafter, hlog] at hlogged
  dsimp only at hraised hreopens
  rw [hcards] at hraised hreopens
  generalize raise ⟨kind, some c.card, some v.clip, some d, none, n⟩ t = u at hraised hreopens hlogged ⊢
  obtain ⟨⟨m, w, hu, hm⟩, -, -⟩ := hraised
  rw [evalClipClearance_of hu]
  dsimp only
  have hcleared := evalClearance_card u c.card c.card
  have hframe := evalClearance_frame u c.card
  have hstill (hst : u.cards[c.card].state ≠ .copied) : (evalClearance c.card u).cards[c.card] = u.cards[c.card] := by
    rw [hcleared, if_neg (fun h => hst h.2.1)]
  generalize evalClearance c.card u = z at hcleared hframe hstill ⊢
  have hz : z.clips[v.clip] = some { c with copies := c.copies.set d (.bad o), openMarks := m, waivedMarks := w } := by
    rw [hframe]
    exact hu
  have hcopy : ({ c with copies := c.copies.set d (.bad o), openMarks := m, waivedMarks := w } : Clip).copies[d] = .bad o := by
    dsimp only
    rw [get_set, if_pos rfl]
  have hstarts : (startVerifies z).cards = z.cards ∧ (startVerifies z).log = z.log := by
    rw [startVerifies_frame]
    exact ⟨rfl, rfl⟩
  rw [hstarts.1, hstarts.2]
  refine ⟨?_, fun hst hnot => ?_, fun hst => ?_, ?_⟩
  · obtain ⟨y, hy, hycopy, hymarks⟩ := startVerifies_judged hz (d := d) (by rw [hcopy]; exact fun _ h => nomatch h)
    exact ⟨y, hy, hycopy.trans hcopy, fun hst => by rw [hymarks]; exact hm hst⟩
  · have hheld := hreopens.1 hst hnot
    rw [hstill (by rw [hheld]; decide), hheld]
  · have hsame := hreopens.2 hst
    rw [hstill (by rw [hsame]; exact hst), hsame]
  · rw [hframe]
    exact hlogged

end Sys2Proof.Machine
end

