-- ==== Sys2Proof/Proofs/VerifyAnswers.lean ====
section
/-! PROOF. A BLOCK read back (R74, R76): the blocks that enter the verify digest in their turn, and the verdict with the last;
a read-back FETCH whose try fails (R75). -/

namespace Sys2Proof.Machine

variable {s : Part} {d : DestId} {v : VerifyContext} {c : Clip}

/-! ## The digest in turn (R74) -/

/-- R74: the lanes after the clip's bytes of the block `g`. -/
def turnLanes (length : Nat) (lanes : Nat × Nat) (g : Nat × List Byte) : Nat × Nat :=
  digestBytes lanes (g.2.take (min 4096 (length - 4096 * g.1)))

/-- R74: the context once the blocks of `turn` have entered its digest and left its buffer. -/
def VerifyContext.turned (length : Nat) (turn : List (Nat × List Byte)) (v : VerifyContext) : VerifyContext :=
  { v with
    nextDigest := v.nextDigest + turn.length
    laneA := (turn.foldl (turnLanes length) (v.laneA, v.laneB)).1
    laneB := (turn.foldl (turnLanes length) (v.laneA, v.laneB)).2
    held := v.held.filter fun g => decide (g.block < v.nextDigest ∨ v.nextDigest + turn.length ≤ g.block) }

/-- The blocks of `turn` stand in the buffer, in turn from the next to be digested. -/
def VerifyContext.Awaits (v : VerifyContext) (turn : List (Nat × List Byte)) : Prop :=
  ∀ (i : Nat) (g : Nat × List Byte), turn[i]? = some g →
    g.1 = v.nextDigest + i ∧ v.held.find? (fun h => h.block == g.1) = some ⟨g.1, some g.2⟩

theorem VerifyContext.digestNext_enters {data : List Byte} {n : Nat} (length : Nat)
    (hnext : v.held.find? (fun b => b.block == v.nextDigest) = some ⟨n, some data⟩) :
    v.digestNext length = { v with
      laneA := (turnLanes length (v.laneA, v.laneB) (v.nextDigest, data)).1
      laneB := (turnLanes length (v.laneA, v.laneB) (v.nextDigest, data)).2
      nextDigest := v.nextDigest + 1
      held := v.held.filter fun b => b.block != v.nextDigest } := by
  rw [digestNext, hnext]
  rfl

theorem VerifyContext.digestNext_waits (length : Nat)
    (hnext : ∀ g, v.held.find? (fun b => b.block == v.nextDigest) = some g → g.data = none) : v.digestNext length = v := by
  unfold digestNext
  split
  · rename_i heq
    cases hnext _ heq
  · rfl

/-- A search for a block of a buffer from which other blocks have been taken. -/
theorem find_filter_block (held : List Held) (f : Held → Bool) (n : Nat) (hf : ∀ b : Held, b.block = n → f b = true) :
    (held.filter f).find? (fun b => b.block == n) = held.find? fun b => b.block == n := by
  rw [List.find?_filter]
  refine congrArg (fun p => List.find? p held) (funext fun b => ?_)
  by_cases hb : b.block = n
  · simp [hf b hb, hb]
  · simp [hb]

/-- R74: as many rounds as blocks stand in turn digest them all. -/
theorem VerifyContext.digestNext_turn (length : Nat) (turn : List (Nat × List Byte)) (v : VerifyContext) (hv : v.Awaits turn) :
    (digestNext length)^[turn.length] v = v.turned length turn := by
  induction turn generalizing v with
  | nil =>
    have hall : (v.held.filter fun g => decide (g.block < v.nextDigest ∨ v.nextDigest ≤ g.block)) = v.held := by
      refine List.filter_eq_self.mpr fun g _ => decide_eq_true ?_
      omega
    change v = { v with held := _ }
    rw [List.length_nil, Nat.add_zero, hall]
  | cons g rest ih =>
    obtain ⟨hblock, hfound⟩ := hv 0 g rfl
    rw [Nat.add_zero] at hblock
    rw [hblock] at hfound
    rw [List.length_cons, Function.iterate_succ_apply, digestNext_enters length hfound, ih]
    · have hheld : ((v.held.filter fun b => b.block != v.nextDigest).filter fun b =>
          decide (b.block < v.nextDigest + 1 ∨ v.nextDigest + 1 + rest.length ≤ b.block))
          = v.held.filter fun b => decide (b.block < v.nextDigest ∨ v.nextDigest + (g :: rest).length ≤ b.block) := by
        rw [List.filter_filter]
        refine List.filter_congr fun b _ => ?_
        rw [Bool.eq_iff_iff, List.length_cons]
        simp only [Bool.and_eq_true, decide_eq_true_eq, bne_iff_ne, ne_eq]
        omega
      have hg : (v.nextDigest, g.2) = g := by rw [← hblock]
      unfold turned
      dsimp only
      rw [hheld, hg, List.foldl_cons, List.length_cons, Nat.add_right_comm, Nat.add_assoc]
    · intro i e he
      obtain ⟨hb, hf⟩ := hv (i + 1) e he
      refine ⟨by rw [hb]; dsimp only; omega, ?_⟩
      dsimp only
      rw [find_filter_block, hf]
      intro b hbe
      rw [bne_iff_ne]
      omega

/-- R74: as many blocks stand in turn as the buffer holds at most. -/
theorem VerifyContext.Awaits.length_le {turn : List (Nat × List Byte)} (hv : v.Awaits turn) : turn.length ≤ v.held.length := by
  have hnodup : ((List.range turn.length).map fun i => v.nextDigest + i).Nodup :=
    List.nodup_range.map fun a b hab => by simpa using hab
  have hsub : ((List.range turn.length).map fun i => v.nextDigest + i) ⊆ v.held.map Held.block := by
    intro n hn
    obtain ⟨i, hi, rfl⟩ := List.mem_map.mp hn
    have hlt := List.mem_range.mp hi
    obtain ⟨hb, hf⟩ := hv i turn[i] (List.getElem?_eq_getElem hlt)
    exact List.mem_map.mpr ⟨_, List.mem_of_find?_eq_some hf, hb⟩
  have hle := (hnodup.subperm hsub).length_le
  rwa [List.length_map, List.length_range, List.length_map] at hle

/-- R74: two rounds digest what the buffer of two blocks has in turn. -/
theorem VerifyContext.digestArrived_turn (length : Nat) {turn : List (Nat × List Byte)} (hv : v.Awaits turn)
    (hheld : v.held.length ≤ 2)
    (hend : ∀ g, v.held.find? (fun h => h.block == v.nextDigest + turn.length) = some g → g.data = none) :
    v.digestArrived length = v.turned length turn := by
  have hstop : (v.turned length turn).digestNext length = v.turned length turn := by
    refine digestNext_waits length fun g hg => hend g ?_
    rw [← hg]
    refine (find_filter_block v.held _ _ fun b hb => decide_eq_true ?_).symm
    exact .inr hb.ge
  have hsplit : 2 = 2 - turn.length + turn.length := by
    have := hv.length_le
    omega
  change (digestNext length)^[2] v = _
  rw [hsplit, Function.iterate_add_apply, digestNext_turn length turn v hv, Function.iterate_fixed hstop]

/-! ## The FETCH answered or timed out (R32, R33) -/

theorem Dest.withoutFetch_answered_eq (x : Dest) (tag : Nat) : (x.withoutFetch tag).answered = { x with
    fetches := x.fetches.filter fun g => g.tag != tag
    stallTimer := if x.stores = [] ∧ (x.fetches.filter fun g => g.tag != tag) = [] then none else some x.stallLimit } := by
  rw [Dest.answered, Dest.withoutFetch]
  dsimp only
  congr 1
  refine if_congr ?_ rfl rfl
  simp [Dest.idleLink]

theorem Dest.withoutFetch_failed_eq (x : Dest) (tag : Nat) : (x.withoutFetch tag).failedRequest = { x with
    fetches := x.fetches.filter fun g => g.tag != tag
    stallTimer := if x.stores = [] ∧ (x.fetches.filter fun g => g.tag != tag) = [] then none else x.stallTimer } := by
  rw [Dest.failedRequest, Dest.withoutFetch]
  dsimp only
  congr 1
  refine if_congr ?_ rfl rfl
  simp [Dest.idleLink]

section Answered

variable {f : VerifyFetch} {tag : Nat} (hf : s.dests[d].fetches.find? (fun g => g.tag == tag) = some f)
include hf

theorem verifyBlock_orphan {b : Rx} (htag : b.tag = tag) (huse : f.use = none) :
    verifyBlock d b s = writeDest d (s.dests[d].withoutFetch tag).answered s := by
  subst htag
  rw [verifyBlock, hf]
  simp only [huse]

theorem verifyFetchTimeout_orphan (huse : f.use = none) :
    verifyFetchTimeout d tag s = writeDest d (s.dests[d].withoutFetch tag).failedRequest s := by
  rw [verifyFetchTimeout, hf]
  simp only [huse]

variable {r : Try} (huse : f.use = some r) (hv : s.dests[d].context = some v)
include huse hv

theorem verifyBlock_arrives {b : Rx} (htag : b.tag = tag) (hgood : blockBad b = false) : verifyBlock d b s =
    readArrived d v r.block b.payload (writeDest d (s.dests[d].withoutFetch tag).answered s) := by
  subst htag
  rw [verifyBlock, hf]
  simp only [huse, hv, hgood, Bool.false_eq_true, if_false]

theorem verifyBlock_fails {b : Rx} (htag : b.tag = tag) (hbad : blockBad b = true) : verifyBlock d b s =
    readFailed d v r (writeDest d (s.dests[d].withoutFetch tag).answered s) := by
  subst htag
  rw [verifyBlock, hf]
  simp only [huse, hv, hbad, if_true]

theorem verifyFetchTimeout_fails : verifyFetchTimeout d tag s =
    readFailed d v r (writeDest d (s.dests[d].withoutFetch tag).failedRequest s) := by
  rw [verifyFetchTimeout, hf]
  simp only [huse, hv]

end Answered

section Arrived

variable (hc : s.clips[v.clip] = some c) {block : Nat} {data : List Byte} {w : VerifyContext}
  (hw : (v.place block data).digestArrived c.length = w)
include hc hw

/-- R74: a block that has arrived, and others are still to come. -/
theorem readArrived_more (hmore : w.nextDigest ≠ blocksOf c.length) : readArrived d v block data s =
    { s with dests := s.dests.set d { s.dests[d] with context := some w } } := by
  have hwritten : writeDest d { s.dests[d] with context := some w } s =
      { s with dests := s.dests.set d { s.dests[d] with context := some w } } := if_pos ⟨rfl, rfl⟩
  rw [readArrived, hc]
  dsimp only
  rw [hw, hwritten, if_neg hmore]

/-- R76: the last block has arrived. -/
theorem readArrived_last (hlast : w.nextDigest = blocksOf c.length) : readArrived d v block data s =
    compareDigest d w c { s with dests := s.dests.set d { s.dests[d] with context := some w } } := by
  have hwritten : writeDest d { s.dests[d] with context := some w } s =
      { s with dests := s.dests.set d { s.dests[d] with context := some w } } := if_pos ⟨rfl, rfl⟩
  rw [readArrived, hc]
  dsimp only
  rw [hw, hwritten, if_pos hlast]

end Arrived

/-- R75: a try that failed and was not the third. -/
theorem readFailed_again {r : Try} (hr : r.tryNo < 3) : readFailed d v r s = { s with
    dests := s.dests.set d
      { s.dests[d] with context := some { v with retries := v.retries ++ [⟨r.block, r.tryNo + 1⟩] } } } :=
  (if_pos hr).trans (if_pos ⟨rfl, rfl⟩)

theorem readFailed_last {r : Try} (hr : 3 ≤ r.tryNo) :
    readFailed d v r s = endVerify d v (.bad v.offset) (some (.verifyRead, r.block)) s := if_neg (not_lt.mpr hr)

end Sys2Proof.Machine

namespace Sys2Proof.Proofs
open Machine

/-- Settles O42: an orphaned FETCH only leaves the list; a try of the verify is asked for again (`readFailed_again`) or ends
it with the verdict of `endVerify_spoiled`. -/
theorem verifyTryFails : Obligations.VerifyTryFails := by
  intro s d c tag x f left timer hr hx hf hleft hcmd
  subst hx
  have htaken : ∃ y : Dest, y = { s.part.dests[d] with fetches := left, stallTimer := timer }
      ∧ (f.use = none → exec c s = .next { s with part := { s.part with dests := s.part.dests.set d y } })
      ∧ ∀ (r : Try) (v : VerifyContext), f.use = some r → s.part.dests[d].context = some v →
        exec c s = .next { s with part := readFailed d v r { s.part with dests := s.part.dests.set d y } } := by
    rcases hcmd with ⟨rfl, htimer⟩ | ⟨b, rfl, htag, hbad, htimer⟩
    · have hexec := exec_event (c := .verifyFetchTimeout d tag) (f := verifyFetchTimeout d tag) rfl hr
      have hwritten : writeDest d (s.part.dests[d].withoutFetch tag).failedRequest s.part = { s.part with
          dests := s.part.dests.set d (s.part.dests[d].withoutFetch tag).failedRequest } := if_pos ⟨rfl, rfl⟩
      refine ⟨(s.part.dests[d].withoutFetch tag).failedRequest, ?_, fun huse => ?_, fun r v huse hv => ?_⟩
      · rw [Dest.withoutFetch_failed_eq, ← hleft, htimer]
      · rw [hexec, verifyFetchTimeout_orphan hf huse, hwritten]
      · rw [hexec, verifyFetchTimeout_fails hf huse hv, hwritten]
    · have hexec := exec_event (c := .verifyBlock d b) (f := verifyBlock d b) rfl hr
      have hwritten : writeDest d (s.part.dests[d].withoutFetch tag).answered s.part = { s.part with
          dests := s.part.dests.set d (s.part.dests[d].withoutFetch tag).answered } := if_pos ⟨rfl, rfl⟩
      refine ⟨(s.part.dests[d].withoutFetch tag).answered, ?_, fun huse => ?_, fun r v huse hv => ?_⟩
      · rw [Dest.withoutFetch_answered_eq, ← hleft, htimer]
      · rw [hexec, verifyBlock_orphan hf htag huse, hwritten]
      · rw [hexec, verifyBlock_fails hf huse hv htag ((blockBad_iff b).mpr hbad), hwritten]
  obtain ⟨y, hy, horphan, htry⟩ := htaken
  refine ⟨fun huse => by rw [horphan huse, hy], fun r v huse hv => ⟨fun hlt => ?_, fun hge cl hcl => ?_⟩⟩
  · rw [htry r v huse hv, readFailed_again hlt, get_set, if_pos rfl, Vector.set_set, hy]
  · have hexec := htry r v huse hv
    rw [readFailed_last hge] at hexec
    generalize ht : ({ s.part with dests := s.part.dests.set d y } : Part) = t at hexec
    have tcards : t.cards = s.part.cards := by rw [← ht]
    have tlog : t.log = s.part.log := by rw [← ht]
    have tclip : t.clips[v.clip] = some cl := by rw [← ht]; exact hcl
    obtain ⟨⟨z, hz, hcopy, hmark⟩, hheld, hstays, hlog⟩ :=
      endVerify_spoiled (d := d) (kind := .verifyRead) rfl rfl rfl tclip v.offset r.block
    have hdest := endVerify_dest (s := t) (d := d) (v := v) (.bad v.offset) (some (.verifyRead, r.block))
    rw [tcards] at hmark hheld hstays hlog
    rw [tlog] at hlog
    generalize endVerify d v (.bad v.offset) (some (.verifyRead, r.block)) t = u at hexec hz hheld hstays hlog hdest
    refine ⟨_, z, hexec, hz, hcopy, hheld, hstays, hmark, hdest.2, fun hm hlen => ?_⟩
    dsimp only
    rw [hlog, logFault_entries hm hlen]

/-- Settles O41: an orphaned FETCH only leaves the list; the blocks in turn enter the digest (`digestArrived_turn`), and the
last brings the verdict (`endVerify_verified`, `endVerify_spoiled`). -/
theorem verifyBlock : Obligations.VerifyBlock := by
  intro s d b x f left timer hr hx hf hleft htimer
  subst hx
  have hexec := exec_event (c := .verifyBlock d b) (f := Machine.verifyBlock d b) rfl hr
  have hwritten : writeDest d (s.part.dests[d].withoutFetch b.tag).answered s.part = { s.part with
      dests := s.part.dests.set d (s.part.dests[d].withoutFetch b.tag).answered } := if_pos ⟨rfl, rfl⟩
  have htaken : (s.part.dests[d].withoutFetch b.tag).answered =
      { s.part.dests[d] with fetches := left, stallTimer := timer } := by
    rw [Dest.withoutFetch_answered_eq, ← hleft, ← htimer]
  rw [htaken] at hwritten
  refine ⟨fun huse => ?_, fun r v c held turn lanes huse hv hc hstatus hdam hlen hbuffer hheld hturn hend hlanes => ?_⟩
  · rw [hexec, verifyBlock_orphan hf rfl huse, htaken, hwritten]
  · have hgood : blockBad b = false := by
      rw [← Bool.not_eq_true, blockBad_iff]
      simp [hstatus, hdam, hlen]
    have hplaced : v.place r.block b.payload = { v with held := held } := by
      rw [hheld]
      rfl
    have hdigested : (v.place r.block b.payload).digestArrived c.length = ({ v with held := held } : VerifyContext).turned c.length turn := by
      rw [hplaced]
      refine VerifyContext.digestArrived_turn c.length hturn ?_ hend
      rw [hheld]
      exact (List.length_map _).trans_le hbuffer
    have hlanes' : turn.foldl (turnLanes c.length) (v.laneA, v.laneB) = lanes := hlanes.symm
    have hturned : ({ v with held := held } : VerifyContext).turned c.length turn = { v with
        nextDigest := v.nextDigest + turn.length, laneA := lanes.1, laneB := lanes.2
        held := held.filter fun g => decide (g.block < v.nextDigest ∨ v.nextDigest + turn.length ≤ g.block) } := by
      rw [← hlanes']
      rfl
    rw [hturned] at hdigested
    generalize ht : ({ s.part with
      dests := s.part.dests.set d { s.part.dests[d] with fetches := left, stallTimer := timer } } : Part) = t at hwritten
    have tclip : t.clips[v.clip] = some c := by rw [← ht]; exact hc
    have tdest : t.dests[d] = { s.part.dests[d] with fetches := left, stallTimer := timer } := by
      rw [← ht, get_set, if_pos rfl]
    have tdests (z : Dest) : t.dests.set d z = s.part.dests.set d z := by rw [← ht, Vector.set_set]
    rw [verifyBlock_arrives hf huse hv rfl hgood, htaken, hwritten] at hexec
    refine ⟨fun hmore => ?_, fun hlast => ?_⟩
    · rw [hexec, readArrived_more tclip hdigested hmore, tdest, tdests, ← ht]
    · rw [readArrived_last tclip hdigested hlast] at hexec
      generalize hw : ({ v with
        nextDigest := v.nextDigest + turn.length, laneA := lanes.1, laneB := lanes.2
        held := held.filter fun g => decide (g.block < v.nextDigest ∨ v.nextDigest + turn.length ≤ g.block) } :
          VerifyContext) = w at hexec
      generalize hu : ({ t with dests := t.dests.set d { t.dests[d] with context := some w } } : Part) = u at hexec
      have ucards : u.cards = s.part.cards := by rw [← hu, ← ht]
      have ulog : u.log = s.part.log := by rw [← hu, ← ht]
      have wclip : w.clip = v.clip := by rw [← hw]
      have uclip : u.clips[v.clip] = some c := by rw [← hu]; exact tclip
      have woffset : w.offset = v.offset := by rw [← hw]
      have wdigest : digestValue (w.laneA, w.laneB) = lanes.2 * 2 ^ 32 + lanes.1 := by rw [← hw]; rfl
      have wlane : w.laneA = lanes.1 := by rw [← hw]
      rw [compareDigest, wdigest] at hexec
      by_cases hsame : c.sourceDigest = some (lanes.2 * 2 ^ 32 + lanes.1)
      · rw [if_pos hsame] at hexec
        obtain ⟨⟨y, hy, hcopy⟩, hlog, hcard⟩ := endVerify_verified (d := d) wclip uclip w.offset
        have hdest := endVerify_dest (s := u) (d := d) (v := w) (.verified w.offset) none
        rw [ucards] at hcard
        generalize endVerify d w (.verified w.offset) none u = z at hexec hy hlog hcard hdest
        exact ⟨_, y, hexec, hy, fun _ => ⟨woffset ▸ hcopy, hlog.trans ulog, hcard⟩, fun hne => absurd hsame hne, hdest.1, hdest.2⟩
      · rw [if_neg hsame] at hexec
        obtain ⟨⟨y, hy, hcopy, hmark⟩, hheldCard, hstays, hlog⟩ :=
          endVerify_spoiled (d := d) (kind := .verifyMismatch) rfl rfl wclip uclip w.offset w.laneA
        have hdest := endVerify_dest (s := u) (d := d) (v := w) (.bad w.offset) (some (.verifyMismatch, w.laneA))
        rw [ucards] at hmark hheldCard hstays hlog
        generalize endVerify d w (.bad w.offset) (some (.verifyMismatch, w.laneA)) u = z at hexec hy hheldCard hstays hlog hdest
        rw [wlane, ulog] at hlog
        refine ⟨_, y, hexec, hy, fun h => absurd h hsame, fun _ => ⟨woffset ▸ hcopy, hmark, hheldCard, hstays, fun hm hlen => ?_⟩,
          hdest.1, hdest.2⟩
        dsimp only
        rw [hlog, logFault_entries hm hlen]

end Sys2Proof.Proofs
end

