-- ==== Sys2Proof/Proofs/Milliseconds.lean ====
section
/-! PROOF. A millisecond (R33, R49, R73): the timers that count down, and the events of those that reach 0. -/

namespace Sys2Proof.Machine

variable {s : Part} {p : PortId} {d : DestId} {tag : Nat}

/-- R78: the events of a millisecond come about in some order, none lost. -/
theorem drawOrder_perm (fuel n : Nat) (l : List Instr) : (drawOrder fuel n l).Perm l := by
  induction fuel generalizing n l with
  | zero => exact .refl l
  | succ fuel ih =>
    match l with
    | [] => exact .refl _
    | [c] => exact .refl _
    | a :: b :: rest =>
      have hlt : Config.freePick n % (a :: b :: rest).length < (a :: b :: rest).length :=
        Nat.mod_lt _ (Nat.succ_pos _)
      rw [drawOrder, List.getElem?_eq_getElem hlt]
      · exact ((ih _ _).cons _).trans (List.getElem_cons_eraseIdx_perm hlt)
      · exact fun h => nomatch h
      · exact fun c h => nomatch h

theorem fetchTimeout_mem_expiries : .fetchTimeout p tag ∈ expiries s ↔
    ∃ f ∈ s.channels[p].fetches, f.tag = tag ∧ f.timer = 1 := by
  simp only [expiries, List.mem_append, List.mem_flatMap, channelExpiries, readExpiries, stallExpiries, List.mem_map,
    List.mem_filter, beq_iff_eq]
  constructor
  · rintro ((⟨q, -, f, ⟨hf, htimer⟩, heq⟩ | ⟨e, -, f, -, heq⟩) | ⟨e, -, hmem⟩)
    · cases heq
      exact ⟨f, hf, rfl, htimer⟩
    · cases heq
    · split at hmem <;> simp at hmem
  · rintro ⟨f, hf, rfl, htimer⟩
    exact .inl (.inl ⟨p, mem_allPorts p, f, ⟨hf, htimer⟩, rfl⟩)

theorem verifyFetchTimeout_mem_expiries : .verifyFetchTimeout d tag ∈ expiries s ↔
    ∃ f ∈ s.dests[d].fetches, f.tag = tag ∧ f.timer = 1 := by
  simp only [expiries, List.mem_append, List.mem_flatMap, channelExpiries, readExpiries, stallExpiries, List.mem_map,
    List.mem_filter, beq_iff_eq]
  constructor
  · rintro ((⟨q, -, f, -, heq⟩ | ⟨e, -, f, ⟨hf, htimer⟩, heq⟩) | ⟨e, -, hmem⟩)
    · cases heq
    · cases heq
      exact ⟨f, hf, rfl, htimer⟩
    · split at hmem <;> simp at hmem
  · rintro ⟨f, hf, rfl, htimer⟩
    exact .inl (.inr ⟨d, mem_allDests d, f, ⟨hf, htimer⟩, rfl⟩)

theorem stallTimeout_mem_expiries : .stallTimeout d ∈ expiries s ↔ s.dests[d].stallTimer = some 1 := by
  simp only [expiries, List.mem_append, List.mem_flatMap, channelExpiries, readExpiries, stallExpiries, List.mem_map]
  constructor
  · rintro ((⟨q, -, f, -, heq⟩ | ⟨e, -, f, -, heq⟩) | ⟨e, -, hmem⟩)
    · cases heq
    · cases heq
    · split at hmem
      · rename_i htimer
        cases List.mem_singleton.mp hmem
        exact htimer
      · cases hmem
  · intro htimer
    exact .inr ⟨d, mem_allDests d, by rw [if_pos htimer]; exact List.mem_singleton.mpr rfl⟩

end Sys2Proof.Machine

namespace Sys2Proof.Proofs
open Machine

/-- Settles O2: `drawOrder_perm` for the events, `mapEach_get` for the timers. -/
theorem millisecondPasses : Obligations.MillisecondPasses := by
  intro s hpending
  have hstep : step s = .next (tick s) := by rw [step, hpending]
  refine ⟨fun hheld => by rw [hstep, tick, if_pos hheld], fun hr => ?_⟩
  have hr' : ¬ s.part.reset.holding.isSome = true := by rw [hr]; decide
  have hqueue : (tick s).pending.Perm (expiries s.part) := by
    rw [tick, if_neg hr']
    dsimp only
    rw [hpending, List.nil_append]
    exact drawOrder_perm _ _ _
  have hpart : (tick s).part = passMillisecond s.part := by rw [tick, if_neg hr']
  refine ⟨tick s, hstep, hqueue, fun p => ?_, fun d => ?_, fun p g => hqueue.mem_iff.trans fetchTimeout_mem_expiries,
    fun d g => hqueue.mem_iff.trans verifyFetchTimeout_mem_expiries,
    fun d => hqueue.mem_iff.trans stallTimeout_mem_expiries, by rw [hpart]; rfl⟩
  · rw [hpart, passMillisecond]
    exact mapEach_get _ _ p
  · rw [hpart, passMillisecond]
    exact mapEach_get _ _ d

end Sys2Proof.Proofs
end

