-- ==== Sys2Proof/Proofs/DestDirectives.lean ====
section
/-! PROOF. The directives on destinations (R38 to R42, R84), and the parcels of a port that are discarded (R32, R50, R168,
R169). -/

namespace Sys2Proof.Machine

variable {s : Part} {d : DestId} {port : Nat} {x : Dest}

/-! ## The port (R38) -/

/-- R38: a port above D5 or not fitted. -/
theorem asDest_none (hport : 6 ≤ port ∨ s.reset.dests ≤ port) : asDest s port = none := by
  unfold asDest
  split
  · rename_i hlt
    exact if_neg fun h => by omega
  · rfl

theorem asDest_some (hd : d.val = port) (hport : port < s.reset.dests) : asDest s port = some d := by
  subst hd
  exact asDest_val s d hport

theorem queryDest_noPort (hnone : asDest s port = none) : queryDest port s = (s, .refuse .noPort) := by rw [queryDest, hnone]

theorem setRegion_noPort (hnone : asDest s port = none) (base length : Nat) :
    setRegion port base length s = (s, .refuse .noPort) := by rw [setRegion, hnone]

theorem setStall_noPort (hnone : asDest s port = none) (limit : Nat) :
    setStall port limit s = (s, .refuse .noPort) := by rw [setStall, hnone]

theorem closeDest_noPort (hnone : asDest s port = none) : closeDest port s = (s, .refuse .noPort) := by rw [closeDest, hnone]

theorem reviveDest_noPort (hnone : asDest s port = none) : reviveDest port s = (s, .refuse .noPort) := by
  rw [reviveDest, hnone]

theorem setPacing_noPort (hnone : asDest s port = none) (p e : Nat) :
    setPacing port p e s = (s, .refuse .noPort) := by rw [setPacing, hnone]

/-! ## A change of state (R25, R45) -/

/-- R45: a destination written in its own state. -/
theorem changeDest_stays (hst : s.dests[d].state = x.state) (hdrain : s.dests[d].draining = x.draining) :
    changeDest d x s = { s with dests := s.dests.set d x } := (if_pos hst).trans (if_pos ⟨hst, hdrain⟩)

/-- R25, R45: a destination written in another state. -/
theorem changeDest_moves (hst : s.dests[d].state ≠ x.state) : changeDest d x s =
    afterEvent (queueNotice (.destState d x.state x.ret x.base x.length x.cursor x.draining)
      { s with dests := s.dests.set d x }) :=
  (if_neg hst).trans (congrArg afterEvent (if_neg fun h => hst h.1))

/-! ## SET-REGION (R39) -/

theorem anyCopyOn_iff : anyCopyOn s d = true ↔ ∃ (k : ClipId) (c : Clip), s.clips[k] = some c ∧ c.copies[d] ≠ .none := by
  unfold anyCopyOn
  rw [List.any_eq_true]
  constructor
  · rintro ⟨o, ho, hcopy⟩
    obtain ⟨i, hi, rfl⟩ := Vector.getElem_of_mem (Vector.mem_toList_iff.mp ho)
    cases hc : s.clips[i] with
    | none => rw [hc] at hcopy; cases hcopy
    | some c =>
      rw [hc] at hcopy
      exact ⟨⟨i, hi⟩, c, hc, bne_iff_ne.mp hcopy⟩
  · rintro ⟨k, c, hc, hcopy⟩
    refine ⟨s.clips[k], Vector.mem_toList_iff.mpr (Vector.getElem_mem k.isLt), ?_⟩
    rw [hc]
    exact bne_iff_ne.mpr hcopy

theorem adjustRegionLength_eq (n : Nat) :
    adjustRegionLength n = if n / 8 * 8 < 8 then 8 else min (n / 8 * 8) (2 ^ 44) := by
  unfold adjustRegionLength clampNat
  split
  · rfl
  · split <;> omega

/-- R39: the region taken lies below sector 2^48. -/
theorem adjustRegion_fits (base length : Nat) :
    adjustRegionBase base (adjustRegionLength length) + adjustRegionLength length ≤ 2 ^ 48
      ∧ adjustRegionLength length % 8 = 0 := by
  rw [adjustRegionLength_eq]
  unfold adjustRegionBase
  split <;> split <;> omega

/-- R39: what an ACTIVE destination keeps of itself under a new region. -/
theorem Dest.withRegion_active {base length : Nat} (hactive : x.state = .active) :
    x.withRegion base length = { x with base := base, length := length, cursor := 0, ret := none } := by
  cases x
  cases hactive
  rfl

/-- R25, R39: a region taken in another state than ACTIVE. -/
theorem changeDest_withRegion {base length : Nat} (hactive : s.dests[d].state ≠ .active)
    (hdrain : s.dests[d].draining = false) : changeDest d (s.dests[d].withRegion base length) s =
      afterEvent (queueNotice (.destState d .active none base length 0 false)
        { s with dests := s.dests.set d (s.dests[d].withRegion base length) }) := by
  have hmoves : changeDest d (s.dests[d].withRegion base length) s =
      afterEvent (queueNotice (.destState d .active none base length 0 s.dests[d].draining)
        { s with dests := s.dests.set d (s.dests[d].withRegion base length) }) := changeDest_moves hactive
  rw [hmoves, hdrain]

section Fitted

variable (hd : asDest s port = some d)
include hd

theorem setRegion_wrongState (base length : Nat) (hst : s.dests[d].state = .absent) :
    setRegion port base length s = (s, .refuse .wrongState) := by
  rw [setRegion, hd]
  exact if_pos hst

theorem setRegion_inUse (base length : Nat) (hst : s.dests[d].state ≠ .absent)
    (huse : s.dests[d].holder.isSome = true ∨ s.dests[d].draining = true
      ∨ ∃ (k : ClipId) (c : Clip), s.clips[k] = some c ∧ c.copies[d] ≠ .none) :
    setRegion port base length s = (s, .refuse .inUse) := by
  have huse' : (s.dests[d].holder.isSome || s.dests[d].draining || anyCopyOn s d) = true := by
    rw [← anyCopyOn_iff] at huse
    simp only [Bool.or_eq_true, or_assoc]
    exact huse
  rw [setRegion, hd]
  exact (if_neg hst).trans (if_pos huse')

/-- R39: the region is taken. -/
theorem setRegion_taken (base length : Nat) (hst : s.dests[d].state ≠ .absent) (hholder : s.dests[d].holder = none)
    (hdrain : s.dests[d].draining = false) (hcopies : ∀ (k : ClipId) (c : Clip), s.clips[k] = some c → c.copies[d] = .none) :
    setRegion port base length s =
      (changeDest d
          (s.dests[d].withRegion (adjustRegionBase base (adjustRegionLength length)) (adjustRegionLength length)) s,
        .taken
          (adjustRegionLength length != length || adjustRegionBase base (adjustRegionLength length) != base) .nothing) := by
  have hfree : ¬ (s.dests[d].holder.isSome || s.dests[d].draining || anyCopyOn s d) = true := by
    rw [hholder, hdrain]
    change ¬ anyCopyOn s d = true
    rw [anyCopyOn_iff]
    rintro ⟨k, c, hc, hcopy⟩
    exact hcopy (hcopies k c hc)
  rw [setRegion, hd]
  exact (if_neg hst).trans (if_neg hfree)

/-! ## SET-STALL, SET-PACING, CLOSE-DEST and REVIVE-DEST (R40 to R42, R84) -/

theorem setStall_taken (limit : Nat) : setStall port limit s =
    ({ s with dests := s.dests.set d { s.dests[d] with stallLimit := adjustStall limit } },
      .taken (adjustStall limit != limit) .nothing) := by
  have hwritten : writeDest d { s.dests[d] with stallLimit := adjustStall limit } s =
      { s with dests := s.dests.set d { s.dests[d] with stallLimit := adjustStall limit } } := if_pos ⟨rfl, rfl⟩
  rw [setStall, hd]
  dsimp only
  rw [hwritten]

theorem setPacing_taken (p e : Nat) : setPacing port p e s =
    ({ s with dests := s.dests.set d (s.dests[d].pacedBy p e) }, .taken (adjustP p != p || adjustS e != e) .nothing) := by
  have hwritten : writeDest d (s.dests[d].pacedBy p e) s =
      { s with dests := s.dests.set d (s.dests[d].pacedBy p e) } := if_pos ⟨rfl, rfl⟩
  rw [setPacing, hd]
  dsimp only
  rw [hwritten]

theorem closeDest_closes (hst : s.dests[d].state = .active ∨ s.dests[d].state = .full) : closeDest port s =
    (afterEvent (queueNotice
      (.destState d .closed s.dests[d].ret s.dests[d].base s.dests[d].length s.dests[d].cursor s.dests[d].draining)
      { s with dests := s.dests.set d { s.dests[d] with state := .closed } }), .done) := by
  have hmoves : changeDest d { s.dests[d] with state := .closed } s = _ := changeDest_moves fun h => by
    rcases hst with hst | hst <;> rw [hst] at h <;> cases h
  rw [closeDest, hd]
  rcases hst with hst | hst
  all_goals
    dsimp only
    rw [hst]
    dsimp only
    rw [hmoves]

theorem closeDest_closed (hst : s.dests[d].state = .closed) : closeDest port s = (s, .done) := by
  rw [closeDest, hd]
  dsimp only
  rw [hst]

theorem closeDest_wrongState (hst : s.dests[d].state = .absent ∨ s.dests[d].state = .unset ∨ s.dests[d].state = .stalled) :
    closeDest port s = (s, .refuse .wrongState) := by
  rw [closeDest, hd]
  dsimp only
  rcases hst with hst | hst | hst <;> rw [hst]

theorem reviveDest_revives {st : DestState} (hrevives : s.dests[d].revivesTo = some st) (hst : s.dests[d].state ≠ st) :
    reviveDest port s =
      (afterEvent (queueNotice
        (.destState d st none s.dests[d].base s.dests[d].length s.dests[d].cursor s.dests[d].draining)
        { s with dests := s.dests.set d { s.dests[d] with state := st, ret := none } }), .done) := by
  have hmoves : changeDest d { s.dests[d] with state := st, ret := none } s = _ := changeDest_moves hst
  rw [reviveDest, hd]
  dsimp only
  rw [hrevives]
  dsimp only
  rw [hmoves]

theorem reviveDest_wrongState (hrevives : s.dests[d].revivesTo = none) : reviveDest port s = (s, .refuse .wrongState) := by
  rw [reviveDest, hd]
  dsimp only
  rw [hrevives]

end Fitted

/-- R42: the states REVIVE-DEST is refused in. -/
theorem Dest.revivesTo_none (hst : x.state = .active ∨ x.state = .full ∨ x.state = .closed ∨ x.state = .absent
    ∨ (x.state = .unset ∧ x.length = 0)) : x.revivesTo = none := by
  unfold Dest.revivesTo
  rcases hst with hst | hst | hst | hst | ⟨hst, hlen⟩ <;> rw [hst]
  exact if_pos hlen

/-- R42: the state REVIVE-DEST brings back, another than the one it leaves. -/
theorem Dest.revivesTo_some {v : Service} (hv : x.ret = some v)
    (hst : x.state = .stalled ∨ (x.state = .unset ∧ x.length ≠ 0)) : x.revivesTo = some v.state ∧ x.state ≠ v.state := by
  unfold Dest.revivesTo
  rcases hst with hst | ⟨hst, hlen⟩
  · rw [hst, hv]
    exact ⟨rfl, by cases v <;> decide⟩
  · rw [hst, hv]
    exact ⟨if_neg hlen, by cases v <;> decide⟩

/-! ## The parcels that are discarded (R32, R50, R168, R169) -/

theorem unlessReset_same {f : Part → Part} (hf : f s = s) : unlessReset f s = s := by
  unfold unlessReset
  split
  · rfl
  · exact hf

/-- An event that changes nothing, the part held in reset or not. -/
theorem exec_same {m : State} {c : Instr} {f : Part → Part} (hexec : exec c m = .next (m.onPart (unlessReset f)))
    (hf : f m.part = m.part) : exec c m = .next m := by
  rw [hexec, State.onPart, unlessReset_same hf]

theorem portParcelTaken_foreign {q : Port} {kind : Nat} (b : Rx) (hkind : portKind q kind = false) :
    portParcelTaken q kind b s = s := by
  unfold portParcelTaken
  split
  · cases hkind
  · cases hkind
  · cases hkind
  · rfl

theorem find_tag_none {α : Type} {l : List α} {tag : α → Nat} {n : Nat} (hl : ∀ a ∈ l, tag a ≠ n) :
    l.find? (fun a => tag a == n) = none := by
  rw [List.find?_eq_none]
  exact fun a ha h => hl a ha (beq_iff_eq.mp h)

end Sys2Proof.Machine

namespace Sys2Proof.Proofs
open Machine

/-- The result of a directive one of whose two values may have been adjusted. -/
theorem taken_eq (a a' b b' : Nat) : Reply.taken (a != a' || b != b') .nothing =
    ⟨if a = a' ∧ b = b' then .done else .adjusted, .nothing⟩ := by
  unfold Reply.taken
  by_cases h : a = a' ∧ b = b'
  · rw [if_pos h, h.1, h.2]
    simp
  · have hne : (a != a' || b != b') = true := by
      rw [Bool.or_eq_true, bne_iff_ne, bne_iff_ne]
      tauto
    rw [if_neg h, if_pos hne]

/-- Settles O24: the refusals by their checks, the region taken by `setRegion_taken`, with `changeDest_stays` where the state
is kept and `changeDest_moves` where it changes. -/
theorem setRegion : Obligations.SetRegion := by
  intro s tag port base length d len b hs hd hport hlen hb
  have hdest := asDest_some hd hport
  rw [← adjustRegionLength_eq] at hlen
  have hb' : b = adjustRegionBase base len := hb
  subst hlen
  subst hb'
  refine ⟨adjustRegion_fits base length,
    fun hst => refuses_of rfl hs.1 (.inl hs.2) (setRegion_wrongState hdest base length hst),
    fun hst huse => refuses_of rfl hs.1 (.inl hs.2) (setRegion_inUse hdest base length hst huse),
    fun hst hholder hdrain hcopies => ?_⟩
  have htaken := setRegion_taken hdest base length hst hholder hdrain hcopies
  rw [taken_eq] at htaken
  refine ⟨fun hactive => answers_of rfl hs.1 (.inl hs.2) (htaken.trans ?_),
    fun hactive => answers_of rfl hs.1 (.inl hs.2) (htaken.trans ?_)⟩
  · have hstays : changeDest d (s.part.dests[d].withRegion (adjustRegionBase base (adjustRegionLength length))
        (adjustRegionLength length)) s.part = _ := changeDest_stays hactive rfl
    rw [hstays, Dest.withRegion_active hactive]
  · rw [changeDest_withRegion hactive hdrain]
    rfl

/-- Settles O25: `asDest_none`, and `setStall_taken`. -/
theorem noPort : Obligations.NoPort := by
  refine ⟨fun s tag port base length limit hs hport => ?_, fun s tag port limit d hs hd hport => ?_⟩
  · have hnone := asDest_none hport
    exact ⟨refuses_of rfl hs (.inr rfl) (queryDest_noPort hnone), fun ha =>
      ⟨refuses_of rfl hs (.inl ha.2) (setRegion_noPort hnone base length),
        refuses_of rfl hs (.inl ha.2) (setStall_noPort hnone limit),
        refuses_of rfl hs (.inl ha.2) (closeDest_noPort hnone),
        refuses_of rfl hs (.inl ha.2) (reviveDest_noPort hnone)⟩⟩
  · refine answers_of rfl hs.1 (.inl hs.2) ((setStall_taken (asDest_some hd hport) limit).trans ?_)
    have hresult : Reply.taken (adjustStall limit != limit) .nothing =
        ⟨if limit < 50 ∨ 10000 < limit then .adjusted else .done, .nothing⟩ := by
      unfold Reply.taken
      congr 1
      refine if_congr ?_ rfl rfl
      rw [bne_iff_ne, adjustStall, clampNat]
      split
      · omega
      · split <;> omega
    rw [hresult]
    rfl

/-- Settles O26: each directive by the equation of its case. -/
theorem closeReviveAndPace : Obligations.CloseReviveAndPace := by
  refine ⟨fun s tag port p e hs hport => refuses_of rfl hs.1 (.inl hs.2) (setPacing_noPort (asDest_none hport) p e),
    fun s tag port d x hs hd hport hx => ?_⟩
  subst hx
  have hdest := asDest_some hd hport
  refine ⟨fun hst => answers_of rfl hs.1 (.inl hs.2) (closeDest_closes hdest hst),
    fun hst => answers_of rfl hs.1 (.inl hs.2) (closeDest_closed hdest hst),
    fun hst => refuses_of rfl hs.1 (.inl hs.2) (closeDest_wrongState hdest hst), fun v hv hst => ?_,
    fun hst => refuses_of rfl hs.1 (.inl hs.2) (reviveDest_wrongState hdest (Dest.revivesTo_none hst)),
    fun p e p' e' hp he => ?_⟩
  · obtain ⟨hrevives, hne⟩ := Dest.revivesTo_some hv hst
    exact answers_of rfl hs.1 (.inl hs.2) (reviveDest_revives hdest hrevives hne)
  · have hp' : adjustP p = p' := hp.symm
    have he' : adjustS e = e' := by
      rw [he, adjustS]
      split <;> omega
    have htaken := setPacing_taken hdest p e
    rw [taken_eq, Dest.pacedBy, hp', he'] at htaken
    exact answers_of rfl hs.1 (.inl hs.2) htaken

/-- Settles O8: each parcel finds nothing to answer, and the part is returned as it is. -/
theorem discardedParcels : Obligations.DiscardedParcels := by
  refine ⟨fun s port kind p hkind => exec_same (f := portParcelTaken port kind p) rfl (portParcelTaken_foreign p hkind),
    fun s p b htags => exec_same (f := sourceBlock p b) rfl ?_, fun s d b htags => exec_same (f := Machine.verifyBlock d b) rfl ?_,
    fun s d b htags => exec_same (f := Machine.storeDone d b) rfl ?_⟩
  · rw [sourceBlock, find_tag_none (tag := Fetch.tag) htags]
  · rw [Machine.verifyBlock, find_tag_none (tag := VerifyFetch.tag) htags]
  · rw [Machine.storeDone]
    split
    · rfl
    · rename_i hdam
      rw [find_tag_none (tag := StoreReq.tag) (htags.resolve_right hdam)]

end Sys2Proof.Proofs
end

