-- ==== Sys2Proof/Proofs/ChannelLimits.lean ====
section
/-! PROOF. R47, R48, R65: every step keeps every copy channel within its limits (`ChannelsOk`). A relation that holds of every
effect that leaves the channels and the fault log alone, of every fault raised, and of every channel written with a record
within the limits where the old one was, holds of every step (`EffectsClosed`). -/

namespace Sys2Proof.Machine

/-! ## One channel -/

section Channel

variable {c : Channel}

/-- R48: of a RUNNING channel only the two lists are bounded. -/
theorem Channel.ok_running (hrun : c.state = .running) : c.ok ↔ c.fetches.length ≤ 4 ∧ c.held.length ≤ 16 := by
  simp [Channel.ok, hrun]

theorem Channel.idle_ok (tag : Nat) : (Channel.idle tag).ok :=
  ⟨Nat.zero_le _, Nat.zero_le _, fun _ => rfl, nofun, fun _ => ⟨rfl, rfl, rfl, rfl, rfl⟩⟩

theorem Channel.begin_ok (k : ClipId) (targets : DestSet) (tag : Nat) : (Channel.begin k targets tag).ok :=
  (Channel.ok_running rfl).mpr ⟨Nat.zero_le _, Nat.zero_le _⟩

/-- R64: a channel that waits for the draining of some destination. -/
theorem Channel.waiting_ok (tag : Nat) {drain : DestSet} (hdrain : drain.isEmpty = false) :
    ({ Channel.idle tag with state := .waiting, drain := drain } : Channel).ok :=
  ⟨Nat.zero_le _, Nat.zero_le _, nofun, fun _ => hdrain, fun _ => ⟨rfl, rfl, rfl, rfl, rfl⟩⟩

/-- A channel whose lists have grown no longer. -/
theorem Channel.ok.shorter (hc : c.ok) {fetches : List Fetch} {held : List Held} (hfetches : fetches.length ≤ c.fetches.length)
    (hheld : held.length ≤ c.held.length) : ({ c with fetches := fetches, held := held } : Channel).ok := by
  obtain ⟨hf, hh, hidle, hwaiting, hempty⟩ := hc
  refine ⟨hfetches.trans hf, hheld.trans hh, hidle, hwaiting, fun hst => ?_⟩
  obtain ⟨hclip, hwriting, hfinished, hnofetch, hnoheld⟩ := hempty hst
  rw [hnofetch] at hfetches
  rw [hnoheld] at hheld
  exact ⟨hclip, hwriting, hfinished, List.length_eq_zero_iff.mp (Nat.le_zero.mp hfetches),
    List.length_eq_zero_iff.mp (Nat.le_zero.mp hheld)⟩

theorem Channel.ok.after (hc : c.ok) : c.after.ok :=
  hc.shorter (List.length_map _).le le_rfl

/-- R54: a block sent. -/
theorem Channel.ok.stored (hc : c.ok) (d : DestId) (block : Nat) : (c.stored d block).ok :=
  hc.shorter le_rfl (List.length_filter_le _ _)

/-- R55, R56: a destination out of the writing set of a RUNNING channel, into the finished set or not. -/
theorem Channel.ok.without (hc : c.ok) (hrun : c.state = .running) (d : DestId) (finished : DestSet) :
    ({ c.without d with finished := finished } : Channel).ok := by
  obtain ⟨hfetches, hheld⟩ := (Channel.ok_running hrun).mp hc
  exact (Channel.ok_running (c := { c.without d with finished := finished }) hrun).mpr
    ⟨hfetches, (List.length_filter_le _ _).trans hheld⟩

/-- R65: a channel that hears of the end of a draining. -/
theorem Channel.ok.drained (hc : c.ok) (d : DestId) : (c.drained d).ok := by
  unfold Channel.drained
  split
  · rename_i hwaits
    split
    · exact Channel.idle_ok _
    · rename_i hmore
      obtain ⟨hfetches, hheld, -, -, hempty⟩ := hc
      refine ⟨hfetches, hheld, fun hidle => ?_, fun _ => Bool.eq_false_iff.mpr hmore, hempty⟩
      rw [hwaits.1] at hidle
      cases hidle
  · exact hc

/-- R48: a FETCH sent, by a RUNNING channel below its limits. -/
theorem Channel.ok.fetched (hc : c.ok) (hrun : c.state = .running) (t : Try) (hfetches : c.fetches.length < 4)
    (hheld : c.retries = [] → c.held.length < 16) : (c.fetched t).ok := by
  obtain ⟨-, hle⟩ := (Channel.ok_running hrun).mp hc
  refine (Channel.ok_running (c := c.fetched t) hrun).mpr ⟨?_, ?_⟩
  · simpa [Channel.fetched] using hfetches
  · unfold Channel.fetched
    dsimp only
    split
    · rename_i hretries
      simpa using hheld (List.isEmpty_iff.mp hretries)
    · exact hle

/-- R53: the digest moves on in its lanes and in the next block alone. -/
theorem Channel.digestArrived_frame (length n : Nat) (c : Channel) : ∃ next a b,
    Channel.digestArrived length n c = { c with nextDigest := next, laneA := a, laneB := b } := by
  induction n generalizing c with
  | zero => exact ⟨_, _, _, rfl⟩
  | succ n ih =>
    obtain ⟨next, a, b, hn⟩ := ih (c.digestNext length)
    refine ⟨next, a, b, hn.trans ?_⟩
    unfold Channel.digestNext
    split <;> rfl

/-- R50, R53: a block placed in its pool block, and the digest moved on. -/
theorem Channel.ok.placed (hc : c.ok) (place : Held → Held) (length n : Nat) :
    (Channel.digestArrived length n { c with held := c.held.map place }).ok := by
  obtain ⟨next, a, b, hn⟩ := Channel.digestArrived_frame length n { c with held := c.held.map place }
  rw [hn]
  exact hc.shorter le_rfl (List.length_map _).le

end Channel

/-- R48, R51: a FETCH is ready only on a RUNNING channel below its limits. -/
theorem readyFetch_below {s : Part} {c : Channel} {blocks : Nat} {t : Try} (ht : readyFetch s c blocks = some t) :
    c.state = .running ∧ c.fetches.length < 4 ∧ (c.retries = [] → c.held.length < 16) := by
  unfold readyFetch at ht
  split at ht
  · cases ht
  · rename_i hlimits
    push Not at hlimits
    obtain ⟨hrun, -, hfetches⟩ := hlimits
    refine ⟨hrun, hfetches, fun hretries => ?_⟩
    rw [hretries] at ht
    dsimp only at ht
    split at ht
    · rename_i hnew
      exact hnew.2.1
    · cases ht

/-! ## The operations of the engines -/

/-- A relation that holds of every effect that leaves the channels and the fault log alone, of every fault raised or sent, of
every channel written with a record within the limits where the old one was, of the millisecond and of the full reset. -/
structure EffectsClosed (R : Part → Part → Prop) : Prop where
  refl        : ∀ s, R s s
  trans       : ∀ {s t u}, R s t → R t u → R s u
  apart       : ∀ {s t}, t.channels = s.channels → t.log = s.log → R s t
  fault       : ∀ r s, R s (raise r s)
  channel     : ∀ p c s, (s.channels[p].ok → c.ok) → R s (setChannel p c s)
  sent        : ∀ {s t}, sendFault s = some t → R s t
  millisecond : ∀ s, R s (passMillisecond s)
  reset       : ∀ src dst present up station s, R s (resetEnds src dst present up station s)

namespace EffectsClosed

variable {R : Part → Part → Prop} (hR : EffectsClosed R) (s : Part) (h : CardId) (d : DestId) (k : ClipId) (p : PortId)
include hR

theorem foldl {α : Type} (f : Part → α → Part) (hf : ∀ t a, R t (f t a)) (l : List α) : R s (l.foldl f s) := by
  induction l generalizing s with
  | nil => exact hR.refl s
  | cons a rest ih => exact hR.trans (hf s a) (ih _)

variable {s} in
/-- An effect after one that leaves the channels and the log alone. -/
theorem after {t u : Part} (htu : R t u) (hchannels : t.channels = s.channels := by rfl) (hlog : t.log = s.log := by rfl) :
    R s u :=
  hR.trans (hR.apart hchannels hlog) htu

theorem card (c : Card) : R s (writeCard h c s) := hR.apart (writeCard_channels s h c) (writeCard_log s h c)

theorem move (st : CardState) : R s (moveCard h st s) := hR.card s h _

theorem dest (x : Dest) : R s (writeDest d x s) := hR.apart (writeDest_channels s d x) (writeDest_log s d x)

theorem clip (f : Clip → Clip) : R s (modClip k f s) := hR.apart (modClip_channels s k f) (modClip_log s k f)

theorem idle : R s (idleChannel p s) := hR.channel p _ s fun _ => Channel.idle_ok _

theorem clearance : R s (evalClearance h s) := hR.apart (by rw [evalClearance_frame]) (by rw [evalClearance_frame])

theorem clipClearance : R s (evalClipClearance k s) :=
  hR.apart (by rw [evalClipClearance_frame]) (by rw [evalClipClearance_frame])

theorem copyingSettled : R s (settleCopying h s) := hR.apart (by rw [settleCopying_frame]) (by rw [settleCopying_frame])

theorem cardSettled : R s (settleCardOf k s) := hR.apart (by rw [settleCardOf_frame]) (by rw [settleCardOf_frame])

theorem queues (ds : DestSet) : R s (joinQueues k ds s) := hR.apart (joinQueues_channels s k ds) (joinQueues_log s k ds)

theorem dropped : R s (dropOut d s) := hR.apart (dropOut_channels s d) (dropOut_log s d)

theorem withdrawn (ds : DestSet) : R s (withdrawAll ds s) := hR.foldl s _ (fun t e => hR.dropped t e) _

theorem left : R s (leaveAttempt d s) := by
  unfold leaveAttempt
  split
  · exact hR.refl s
  · rename_i k _
    split
    · exact hR.dropped s d
    · rename_i p hp
      obtain ⟨hrun, -⟩ := runningChannel_some s k hp
      refine hR.trans (hR.dropped s d) (hR.channel p _ _ fun hok => ?_)
      rw [dropOut_channels] at hok
      exact hok.without hrun d s.channels[p].finished

theorem drainHeard : R s (drainedFor d p s) := by
  obtain ⟨-, -, -, hchannels⟩ := drainedFor_frame s d p
  refine hR.trans (hR.channel p (s.channels[p].drained d) s fun hok => hok.drained d) (hR.apart ?_ ?_)
  · exact hchannels
  · exact drainedFor_log s d p

theorem drainOver : R s (drainEnded d s) := hR.foldl s _ (fun t q => hR.drainHeard t d q) _

theorem failureCounted : R s (countFailed k s) := by
  unfold countFailed
  split
  · exact hR.refl s
  · split
    · exact hR.clip s k _
    · exact hR.trans (hR.clip s k _) (hR.fault _ _)

theorem clipSettled : R s (settleClip k s) := by
  unfold settleClip
  split
  · exact hR.refl s
  · split
    · exact hR.failureCounted s k
    · split
      · exact hR.trans (hR.clip s k _) (hR.fault _ _)
      · exact hR.clip s k _

theorem attemptClosed : R s (closeAttempt p k s) :=
  hR.trans (hR.idle s p) (hR.trans (hR.queues _ k _) (hR.clipSettled _ k))

theorem attemptEnded : R s (endAttempt p s) := by
  unfold endAttempt
  split
  · exact hR.trans (hR.attemptClosed s _ p) (hR.cardSettled _ _)
  · exact hR.idle s p

theorem endedIfEmpty : R s (endIfEmpty p s) := by
  unfold endIfEmpty
  split
  · exact hR.attemptEnded s p
  · exact hR.refl s

theorem attemptOfEnded : R s (endAttemptOf k s) := by
  unfold endAttemptOf
  split
  · exact hR.endedIfEmpty s _
  · exact hR.refl s

/-! ### The grant arbiter and the verify engine -/

theorem tested (c : Clip) : R s (tested h k c s) := by
  refine hR.foldl s _ (fun t e => ?_) allDests
  unfold testFit
  split
  · exact hR.trans (hR.dest t e _) (hR.fault _ _)
  · exact hR.refl t

theorem considered : R s (consider s h).1 := by
  rcases consider_cases s h with ⟨-, heq⟩ | ⟨k, c, -, -, ⟨-, heq⟩ | ⟨-, -, heq⟩ | ⟨n, heq⟩⟩ <;> rw [heq] <;> dsimp only
  · exact hR.refl s
  · exact hR.refl s
  · exact hR.tested s h k c
  · exact hR.trans (hR.tested s h k c) (hR.trans (hR.fault _ _) (hR.move _ h _))

theorem allConsidered (l : List CardId) : R s (considerAll l s).1 := by
  induction l generalizing s with
  | nil => exact hR.refl s
  | cons g rest ih => exact hR.trans (hR.considered s g) (ih _)

theorem grants (c : Candidate) : R s (grant c s) := by
  unfold grant
  split
  · exact hR.refl s
  · rename_i q _
    refine hR.trans ?_ (hR.endedIfEmpty _ q)
    refine hR.trans ?_ (hR.channel q _ _ fun _ => Channel.begin_ok _ _ _)
    refine hR.trans ?_ (hR.clip _ c.clip _)
    rw [(takeDest_foldl s c.clip c.targets.members).1]
    exact hR.apart rfl rfl

theorem passes (n : Nat) : R s (grantPasses n s) := by
  induction n generalizing s with
  | zero => exact hR.refl s
  | succ n ih =>
    have considered := hR.allConsidered s (cardOrder s.grantPointer)
    unfold grantPasses
    split
    · exact hR.trans considered (hR.trans (hR.grants _ _) (ih _))
    · exact considered

theorem verifies : R s (startVerifies s) := hR.apart (by rw [startVerifies_frame]) (by rw [startVerifies_frame])

theorem event : R s (afterEvent s) := hR.trans (hR.passes s 513) (hR.verifies _)

theorem verifyStopped : R s (stopVerify d s) := hR.apart (stopVerify_frame s d).1 (stopVerify_frame s d).2

theorem releases : R s (release h s) := by
  refine hR.trans (t := released h s) (hR.apart (released_channels s h) ?_) (hR.verifies _)
  rw [released, writeCard_log, unbindPort_eq, freeClipRecords_frame]

/-! ### The directive unit and the frame tracker -/

theorem unit : UnitClosed R where
  refl := hR.refl
  trans := hR.trans
  answer a s := by
    unfold placeAnswer
    split <;> exact hR.apart rfl rfl
  count _ := hR.apart rfl rfl
  lock cause s := by
    unfold lockUnit
    split
    · exact hR.apart rfl rfl
    · exact hR.after (hR.fault _ _)
  hold _ _ := hR.apart rfl rfl
  waiting _ _ := hR.apart rfl rfl

theorem picture : PictureClosed R where
  refl := hR.refl
  trans := hR.trans
  quiet q := hR.apart q.channels q.log
  raise r s _ := hR.fault r s
  clip k f s _ := hR.clip s k f
  commit _ _ _ _ := hR.apart rfl rfl
  clear k s := hR.clipClearance s k

/-! ### The directives -/

theorem mounts (port : Nat) (label : List Byte) (copies review mode : Nat) : R s (mount port label copies review mode s).1 := by
  have written (g : CardId) (c : Card) (q : PortId) (x : SourcePort) : R s (writeCard g c (setPort q x s)) :=
    hR.after (hR.card (setPort q x s) g c)
  unfold mount
  split
  · exact hR.refl s
  · split
    · exact hR.refl s
    · split
      · split
        · exact hR.refl s
        · split
          · exact written _ _ _ _
          · exact hR.refl s
      · split
        · exact hR.refl s
        · exact written _ _ _ _

theorem listsClips (card : Nat) (items : List ClipItem) : R s (listClips card items s).1 := by
  have appended (h : CardId) : R s (appendClips h items s) := by
    rw [appendClips_eq]
    exact hR.apart rfl rfl
  unfold listClips
  split
  · exact hR.refl s
  · split
    · exact hR.refl s
    · split
      · exact hR.refl s
      · dsimp only
        split
        · exact hR.trans (appended _) (hR.event _)
        · exact appended _

theorem unbinds (o : Option PortId) : R s (unbindPort o s) := by
  rw [unbindPort_eq]
  exact hR.apart rfl rfl

theorem dismounts (card : Nat) : R s (dismount card s).1 := by
  unfold dismount
  split
  · exact hR.refl s
  · rename_i h _
    split
    · exact hR.refl s
    · exact hR.refl s
    · exact hR.refl s
    · dsimp only
      exact hR.releases s h
    · dsimp only
      exact hR.trans (hR.unbinds s _) (hR.card _ h _)

theorem retires (card : Nat) : R s (retire card s).1 := by
  unfold retire
  split
  · exact hR.refl s
  · split
    · exact hR.refl s
    · dsimp only
      exact hR.releases s _

theorem routes (card : Nat) (ports : List Nat) : R s (route card ports s).1 := by
  unfold route
  split
  · exact hR.refl s
  · split
    · exact hR.refl s
    · split
      · exact hR.refl s
      · split
        · exact hR.refl s
        · exact hR.card s _ _

theorem beginsCopying : R s (settleCopying h (moveCard h .copying s)) := hR.trans (hR.move s h _) (hR.copyingSettled _ h)

theorem starts (card : Nat) : R s (start card s).1 := by
  unfold start
  split
  · exact hR.refl s
  · split
    · exact hR.refl s
    · split
      · exact hR.refl s
      · split
        · exact hR.refl s
        · dsimp only
          exact hR.trans (hR.beginsCopying s _) (hR.event _)

/-- R64, R67: an attempt whose destinations are withdrawn and whose finished ones queue the clip. -/
theorem attemptDropped (ds fin : DestSet) : R s (attemptDropped p k ds fin s) :=
  hR.trans (hR.withdrawn s ds) (hR.trans (hR.idle _ p) (hR.queues _ k fin))

theorem promptAbandoned : R s (promptAbandon h p k s) := by
  have abandoned : R s (abandonClip p k s) := hR.trans (hR.attemptDropped s k p _ _) (hR.clip _ k _)
  refine hR.trans abandoned (hR.trans ?_ (hR.event _))
  unfold settleAbandon
  split
  · exact hR.move _ h _
  · rename_i hdrain
    exact hR.trans (hR.channel p _ _ fun _ => Channel.waiting_ok _ (Bool.eq_false_iff.mpr hdrain)) (hR.move _ h _)

theorem suspends (card : Nat) : R s (suspend card s).1 := by
  unfold suspend
  split
  · exact hR.refl s
  · rename_i h _
    split
    · exact hR.refl s
    · split
      · exact hR.move s h _
      · unfold suspendInFlight
        dsimp only
        split
        · exact hR.move s h _
        · split
          · exact hR.card s h _
          · split
            · exact hR.promptAbandoned s h _ _
            · exact hR.move s h _

theorem resumes (card : Nat) : R s (resume card s).1 := by
  unfold resume
  split
  · exact hR.refl s
  · rename_i h _
    split
    · exact hR.refl s
    · unfold resumeCard
      dsimp only
      split
      · exact hR.trans (hR.beginsCopying s h) (hR.event _)
      · exact hR.beginsCopying s h

theorem channelStopped : R s (stopChannel p s) := by
  unfold stopChannel
  split
  · exact hR.refl s
  · exact hR.idle s p
  · split
    · exact hR.trans (hR.attemptDropped s _ p _ _) (hR.failureCounted _ _)
    · exact hR.idle s p

theorem cardAborted : R s (abortCard h s) := by
  unfold abortCard
  refine hR.trans ?_ (hR.move _ h _)
  split
  · exact hR.channelStopped s _
  · exact hR.refl s

theorem aborts (card : Nat) : R s (abort card s).1 := by
  unfold abort
  split
  · exact hR.refl s
  · split
    · exact hR.refl s
    · dsimp only
      split
      · exact hR.trans (hR.cardAborted s _) (hR.event _)
      · exact hR.cardAborted s _

theorem cardHalted : R s (haltCard s h) := by
  unfold haltCard
  split
  · exact hR.cardAborted s h
  · exact hR.refl s

theorem verifyHalted : R s (haltVerify s d) := by
  unfold haltVerify
  split
  · exact hR.refl s
  · exact hR.trans (hR.verifyStopped s d) (hR.dest _ d _)

theorem haltsAll : R s (haltAll s).1 := by
  have accepted (n : Nat) (t : Part) : R t (acceptWith n t) := hR.apart rfl rfl
  have stopped : R s (allDests.foldl haltVerify (allCards.foldl haltCard s)) :=
    hR.trans (hR.foldl s _ (fun t g => hR.cardHalted t g) _) (hR.foldl _ _ (fun t e => hR.verifyHalted t e) _)
  unfold haltAll
  dsimp only
  exact hR.trans stopped (hR.trans (accepted _ _) (hR.event _))

theorem recopies (card : Nat) : R s (recopy card s).1 := by
  have relisted (required : Nat) (ks : List ClipId) : R s (relistAll required ks s) :=
    hR.foldl s _ (fun t k => hR.clip t k _) _
  unfold recopy
  split
  · exact hR.refl s
  · rename_i h _
    split
    · exact hR.refl s
    · split
      · exact hR.refl s
      · split
        · exact hR.refl s
        · split
          · dsimp only
            exact hR.trans (relisted _ _) (hR.trans (hR.move _ h _) (hR.event _))
          · unfold recopyNothing
            dsimp only
            split
            · split
              · exact hR.move s h _
              · exact hR.trans (hR.move s h _) (hR.clearance _ h)
            · exact hR.refl s

theorem waives (card generation : Nat) : R s (waive card generation s).1 := by
  unfold waive
  split
  · exact hR.refl s
  · rename_i h _
    split
    · exact hR.refl s
    · split
      · exact hR.refl s
      · have waived : R s (waiveClips s.cards[h].clips s) := hR.foldl s _ (fun t k => hR.clip t k _) _
        dsimp only
        exact hR.trans waived (hR.trans (hR.card _ h _) (hR.clearance _ h))

theorem destChanged (x : Dest) : R s (changeDest d x s) := by
  unfold changeDest
  split
  · exact hR.dest s d x
  · exact hR.trans (hR.dest s d x) (hR.event _)

theorem setsRegion (port base length : Nat) : R s (setRegion port base length s).1 := by
  unfold setRegion
  split
  · exact hR.refl s
  · split
    · exact hR.refl s
    · split
      · exact hR.refl s
      · exact hR.destChanged s _ _

theorem setsStall (port limit : Nat) : R s (setStall port limit s).1 := by
  unfold setStall
  split
  · exact hR.refl s
  · exact hR.dest s _ _

theorem closesDest (port : Nat) : R s (closeDest port s).1 := by
  unfold closeDest
  split
  · exact hR.refl s
  · split
    · exact hR.destChanged s _ _
    · exact hR.destChanged s _ _
    all_goals exact hR.refl s

theorem revivesDest (port : Nat) : R s (reviveDest port s).1 := by
  unfold reviveDest
  split
  · exact hR.refl s
  · split
    · exact hR.destChanged s _ _
    · exact hR.refl s

theorem setsPacing (port q e : Nat) : R s (setPacing port q e s).1 := by
  unfold setPacing
  split
  · exact hR.refl s
  · exact hR.dest s _ _

theorem owners : OwnersClosed R where
  toUnitClosed := hR.unit
  quiet q := hR.apart q.channels q.log
  mount port label copies review mode s := hR.mounts s port label copies review mode
  listClips card items s := hR.listsClips s card items
  dismount card s := hR.dismounts s card
  retire card s := hR.retires s card
  route card ports s := hR.routes s card ports
  start card s := hR.starts s card
  suspend card s := hR.suspends s card
  resume card s := hR.resumes s card
  abort card s := hR.aborts s card
  haltAll s := hR.haltsAll s
  recopy card s := hR.recopies s card
  setRegion port base length s := hR.setsRegion s port base length
  setStall port limit s := hR.setsStall s port limit
  closeDest port s := hR.closesDest s port
  reviveDest port s := hR.revivesDest s port
  setPacing port p e s := hR.setsPacing s port p e
  waive card generation s := hR.waives s card generation

theorem station : StationClosed R := hR.owners.station hR.picture

/-! ### The events of the ports -/

theorem detachesCopying : R s (detachCopying h p s) := by
  have taken : R s (sourceTaken h p s) := hR.trans (hR.fault _ s) (hR.card _ h _)
  rw [detachCopying_eq]
  split
  · exact taken
  · refine hR.trans taken (hR.trans ?_ (hR.event _))
    unfold detachChannel
    split
    · exact hR.refl _
    · exact hR.idle _ p
    · split
      · exact hR.trans (hR.withdrawn _ _) (hR.attemptClosed _ _ p)
      · exact hR.idle _ p

theorem detaches : R s (detach p s) := by
  have gone : R s (setPort p ⟨false, none⟩ s) := hR.apart rfl rfl
  unfold detach
  split
  · refine hR.trans gone ?_
    unfold detachCard
    split
    · exact hR.releases _ _
    · exact hR.detachesCopying _ _ p
    · exact hR.detachesCopying _ _ p
    · exact hR.detachesCopying _ _ p
    · exact hR.card _ _ _
  · exact gone

theorem sourceDetaches : R s (sourceDetach p s) := by
  unfold sourceDetach
  split
  · exact hR.detaches s p
  · exact hR.refl s

theorem sourceAttaches : R s (sourceAttach p s) := by
  unfold sourceAttach
  split
  · split
    · exact hR.trans (hR.detaches s p) (hR.apart rfl rfl)
    · exact hR.apart rfl rfl
  · exact hR.refl s

theorem destRises : R s (destLinkUp d s) := by
  unfold destLinkUp
  split
  · exact hR.trans (hR.dest s d _) (hR.event _)
  · exact hR.refl s

/-- R28, R35: the loss of a destination's service. -/
theorem destLost (st : DestState) (ret : Option Service) (kind : FaultKind) : R s (loseDest d st ret kind s) := by
  have down : R s (destDown d st ret kind s) :=
    hR.trans (hR.dest s d _) (hR.trans (hR.left _ d) (hR.trans (hR.verifyStopped _ d) (hR.fault _ _)))
  have heard : R s (if s.dests[d].draining then drainEnded d (destDown d st ret kind s) else destDown d st ret kind s) := by
    split
    · exact hR.trans down (hR.drainOver _ d)
    · exact down
  rw [loseDest_eq]
  refine hR.trans ?_ (hR.event _)
  unfold destGone
  split
  · exact hR.trans heard (hR.attemptOfEnded _ _)
  · exact heard

theorem destFalls : R s (destLinkDown d s) := by
  unfold destLinkDown
  split
  · exact hR.destLost s d _ _ _
  · exact hR.refl s

theorem stalls : R s (stallTimeout d s) := by
  unfold stallTimeout
  split
  · exact hR.destLost s d _ _ _
  · exact hR.refl s

/-! ### Requests and answers of a source port -/

theorem fetchSent : R s (sendFetch p s) := by
  unfold sendFetch
  split
  · exact hR.refl s
  · split
    · rename_i t ht
      obtain ⟨hrun, hfetches, hheld⟩ := readyFetch_below ht
      refine hR.trans ?_ (hR.channel p _ _ fun hok => ?_)
      · exact hR.apart rfl rfl
      · exact Channel.ok.fetched (c := s.channels[p]) hok hrun t hfetches hheld
    · exact hR.refl s

theorem fetchDropped (tag : Nat) : R s (dropFetch p tag s) :=
  hR.channel p _ s fun hok => hok.shorter (List.length_filter_le _ _) le_rfl

theorem digestFinished (value : Nat) : R s (finishDigest k value s) := by
  unfold finishDigest
  split
  · exact hR.refl s
  · split
    · dsimp only
      split
      · exact hR.trans (hR.clip s k _) (hR.fault _ _)
      · exact hR.clip s k _
    · split
      · exact hR.refl s
      · exact hR.fault _ s

theorem blockArrives (x : ClipId × Clip) (block : Nat) (data : List Byte) : R s (blockArrived p x block data s) := by
  have placed (n : Nat) := hR.channel p (Channel.digestArrived x.2.length n { s.channels[p] with
    held := s.channels[p].held.map fun b => if b.block = block then { b with data := some data } else b }) s
      fun hok => hok.placed _ _ _
  unfold blockArrived
  dsimp only
  split
  · exact hR.trans (placed _) (hR.digestFinished _ _ _)
  · exact placed _

theorem tryFails (f : Fetch) : R s (tryFailed p k f s) := by
  unfold tryFailed
  split
  · exact hR.channel p _ s fun hok => hok
  · unfold blockFailed
    dsimp only
    refine hR.trans ?_ (hR.trans (hR.failureCounted _ k) (hR.trans (hR.cardSettled _ k) (hR.event _)))
    exact hR.trans (hR.fault _ s) (hR.trans (hR.withdrawn _ _) (hR.idle _ p))

theorem blockTaken (b : Rx) : R s (sourceBlock p b s) := by
  unfold sourceBlock
  split
  · exact hR.refl s
  · split
    · exact hR.fetchDropped s p _
    · refine hR.trans (hR.fetchDropped s p b.tag) ?_
      split
      · exact hR.tryFails _ _ p _
      · exact hR.blockArrives _ p _ _ _

theorem fetchExpires (tag : Nat) : R s (fetchTimeout p tag s) := by
  unfold fetchTimeout
  split
  · exact hR.refl s
  · split
    · exact hR.fetchDropped s p tag
    · exact hR.trans (hR.fetchDropped s p tag) (hR.tryFails _ _ p _)

/-! ### Requests and answers of a destination port -/

theorem storeSent : R s (sendStore d s) := by
  unfold sendStore
  split
  · rename_i r _ _
    refine hR.trans ?_ (hR.dest _ d _)
    refine hR.trans ?_ (hR.channel r.channel _ _ fun hok => ?_)
    · exact hR.apart rfl rfl
    · exact Channel.ok.stored (c := s.channels[r.channel]) hok d r.block
  · exact hR.refl s

theorem readSent : R s (sendVerifyFetch d s) := by
  unfold sendVerifyFetch
  split
  · exact hR.refl s
  · refine hR.trans ?_ (hR.dest _ d _)
    exact hR.apart rfl rfl

variable {s k p} in
theorem storeSucceeds : R s (storeSucceeded d k s) := by
  have earned := hR.dest s d s.dests[d].earned
  unfold storeSucceeded
  dsimp only
  split
  · rename_i p c hp _
    split
    · obtain ⟨hrun, -⟩ := runningChannel_some s k hp
      refine hR.trans earned ?_
      unfold completeDest
      dsimp only
      refine hR.trans ?_ (hR.trans (hR.endedIfEmpty _ p) (hR.event _))
      refine hR.trans (hR.trans (hR.clip _ k _) (hR.dest _ d _)) (hR.channel p _ _ fun hok => ?_)
      refine hok.without ?_ d _
      rw [writeDest_channels, modClip_channels, writeDest_channels]
      exact hrun
    · exact earned
  · exact earned

theorem storeFails (block : Nat) : R s (storeFailed d k block s) :=
  hR.trans (hR.fault _ s) (hR.trans (hR.left _ d) (hR.trans (hR.attemptOfEnded _ k) (hR.event _)))

theorem drainAnswered : R s (drainingAnswer d s) := by
  unfold drainingAnswer
  split
  · exact hR.trans (hR.dest s d _) (hR.trans (hR.drainOver _ d) (hR.event _))
  · exact hR.refl s

theorem storeAnswered (b : Rx) : R s (storeDone d b s) := by
  unfold storeDone
  split
  · exact hR.refl s
  · split
    · exact hR.refl s
    · refine hR.trans (hR.dest s d (s.dests[d].storeTaken b.tag)) ?_
      dsimp only
      split
      · exact hR.drainAnswered _ d
      · split
        · split
          · exact hR.storeSucceeds d
          · exact hR.storeFails _ d _ _
        · exact hR.refl _

theorem verifyEnds (v : VerifyContext) (verdict : Copy) (fault : Option (FaultKind × Nat)) :
    R s (endVerify d v verdict fault s) := by
  have judged : R s (judged d v verdict s) := hR.trans (hR.clip s v.clip _) (hR.dest _ d _)
  cases fault with
  | none => exact hR.trans judged (hR.trans (hR.clipClearance _ _) (hR.verifies _))
  | some x => exact hR.trans judged (hR.trans (hR.fault _ _) (hR.trans (hR.clipClearance _ _) (hR.verifies _)))

theorem readFails (v : VerifyContext) (t : Try) : R s (readFailed d v t s) := by
  unfold readFailed
  split
  · exact hR.dest s d _
  · exact hR.verifyEnds s d _ _ _

theorem digestCompared (v : VerifyContext) (c : Clip) : R s (compareDigest d v c s) := by
  unfold compareDigest
  split <;> exact hR.verifyEnds s d _ _ _

theorem readArrives (v : VerifyContext) (block : Nat) (data : List Byte) : R s (readArrived d v block data s) := by
  unfold readArrived
  split
  · exact hR.refl s
  · dsimp only
    split
    · exact hR.trans (hR.dest s d _) (hR.digestCompared _ d _ _)
    · exact hR.dest s d _

theorem readAnswered (b : Rx) : R s (verifyBlock d b s) := by
  unfold verifyBlock
  split
  · exact hR.refl s
  · refine hR.trans (hR.dest s d (s.dests[d].withoutFetch b.tag).answered) ?_
    dsimp only
    split
    · split
      · exact hR.readFails _ d _ _
      · exact hR.readArrives _ d _ _ _
    · exact hR.refl _

theorem readExpires (tag : Nat) : R s (verifyFetchTimeout d tag s) := by
  unfold verifyFetchTimeout
  split
  · exact hR.refl s
  · refine hR.trans (hR.dest s d (s.dests[d].withoutFetch tag).failedRequest) ?_
    dsimp only
    split
    · exact hR.readFails _ d _ _
    · exact hR.refl _

theorem portParcel (port : Port) (kind : Nat) (b : Rx) : R s (portParcelTaken port kind b s) := by
  unfold portParcelTaken
  split
  · exact hR.blockTaken s _ b
  · exact hR.readAnswered s _ b
  · exact hR.storeAnswered s _ b
  · exact hR.refl s

/-! ### Station egress and the step -/

theorem noticeLeft (n : Notice) : R s (noticeSent n s) := by
  unfold noticeSent
  split
  · unfold releaseHeld
    split
    · refine hR.trans ?_ (hR.station.offerWaiting _)
      exact hR.apart rfl rfl
    · exact hR.refl s
  · exact hR.card s _ _
  · exact hR.refl s

theorem egresses : R s (egress s) := by
  unfold egress
  split
  · exact hR.refl s
  · split
    · refine hR.trans ?_ (hR.noticeLeft _ _)
      exact hR.apart rfl rfl
    · split
      · rename_i t ht
        exact hR.sent ht
      · unfold sendStats
        split
        · exact hR.apart rfl rfl
        · exact hR.refl s

theorem takesEvent (c : Instr) : R s (takeEvent c s) := by
  cases c
  case egressSend => exact hR.egresses s
  case portForeignParcel port kind b => exact hR.portParcel s port kind b
  case sourceAttach p => exact hR.sourceAttaches s p
  case sourceDetach p => exact hR.sourceDetaches s p
  case destLinkUp d => exact hR.destRises s d
  case destLinkDown d => exact hR.destFalls s d
  case stationLinkDown => exact hR.trans (hR.picture.abandonFrame s) (hR.apart rfl rfl)
  case stationLinkUp => exact hR.apart rfl rfl
  case sendFetch p => exact hR.fetchSent s p
  case sourceBlock p b => exact hR.blockTaken s p b
  case fetchTimeout p tag => exact hR.fetchExpires s p tag
  case sendStore d => exact hR.storeSent s d
  case storeDone d b => exact hR.storeAnswered s d b
  case stallTimeout d => exact hR.stalls s d
  case sendVerifyFetch d => exact hR.readSent s d
  case verifyBlock d b => exact hR.readAnswered s d b
  case verifyFetchTimeout d tag => exact hR.readExpires s d tag
  all_goals exact hR.refl s

/-- Every step is in the relation. -/
theorem step {m t : State} (hstep : step m = .next t) : R m.part t.part := by
  unfold Machine.step at hstep
  split at hstep
  · cases hstep
    unfold tick
    split
    · exact hR.refl _
    · exact hR.millisecond _
  · rcases exec_cases hstep with ht | ht | ⟨cause, ht⟩ | ⟨src, dst, present, up, station, -, ht⟩ <;> rw [ht]
    · exact hR.station.ingress _ _
    · unfold unlessReset
      split
      · exact hR.refl _
      · exact hR.takesEvent _ _
    · exact hR.apart rfl rfl
    · exact hR.reset _ _ _ _ _ _

end EffectsClosed

/-! ## The invariant -/

/-- What keeps each channel within its limits. -/
def KeepsChannels (s t : Part) : Prop := ∀ p : PortId, s.channels[p].ok → t.channels[p].ok

theorem KeepsChannels.of_eq {s t : Part} (hchannels : t.channels = s.channels) : KeepsChannels s t := fun p hok => by
  rw [hchannels]
  exact hok

theorem sendFault_channels {s t : Part} (ht : sendFault s = some t) : t.channels = s.channels := by
  unfold sendFault at ht
  split at ht
  · cases ht
    rfl
  · split at ht
    · cases ht
      rfl
    · cases ht

theorem channels_effects : EffectsClosed KeepsChannels where
  refl _ _ := id
  trans hst htu p hok := htu p (hst p hok)
  apart hchannels _ := .of_eq hchannels
  fault r s := .of_eq (raise_channels s r)
  channel p c s hc q hok := by
    rw [setChannel_channels, get_set]
    split
    · rename_i hpq
      subst hpq
      exact hc hok
    · exact hok
  sent ht := .of_eq (sendFault_channels ht)
  millisecond s p hok := by
    rw [passMillisecond, mapEach_get]
    exact hok.after
  reset src dst present up station s := by
    unfold resetEnds
    split
    · intro p _
      change (Vector.replicate 4 (Channel.idle 0))[p].ok
      rw [Fin.getElem_fin, Vector.getElem_replicate]
      exact Channel.idle_ok _
    · exact fun _ => id

end Sys2Proof.Machine

namespace Sys2Proof.Proofs
open Machine

/-- Settles O55: each write of a channel keeps it within its limits, and no other effect touches the channels
(`channels_effects`). -/
theorem channelsKept : Obligations.ChannelsKept := fun _ _ hs hstep p => channels_effects.step hstep p (hs p)

end Sys2Proof.Proofs
end

