-- ==== Sys2Proof/Proofs/DigestLanes.lean ====
section
/-! PROOF. The clip digest (R52): it goes on word by word, its lanes stay below the prime, and its A lane is the sum of the
bytes, each with the weight of its place in its word. -/

namespace Sys2Proof.Machine

/-! ## The words -/

theorem words_append (a b : List Byte) (ha : a.length % 4 = 0) : words (a ++ b) = words a ++ words b := by
  induction a using words.induct with
  | case1 x y z w rest ih =>
    have hrest : rest.length % 4 = 0 := by simp only [List.length_cons] at ha; omega
    simp only [List.cons_append, words, ih hrest]
  | case2 => rfl
  | case3 rest hfour hnil =>
    match rest, hfour, hnil, ha with
    | [], _, hnil, _ => exact absurd rfl hnil
    | [_], _, _, ha => simp at ha
    | [_, _], _, _, ha => simp at ha
    | [_, _, _], _, _, ha => simp at ha
    | x :: y :: z :: w :: rest, hfour, _, _ => exact absurd rfl (hfour x y z w rest)

/-- The sum of the bytes, the byte at place `i` weighed by its place in its word. -/
def weighed : Nat → List Byte → Nat
  | _, [] => 0
  | i, b :: bs => b.toNat * 256 ^ (i % 4) + weighed (i + 1) bs

theorem weighed_append (i : Nat) (a b : List Byte) : weighed i (a ++ b) = weighed i a + weighed (i + a.length) b := by
  induction a generalizing i with
  | nil => simp [weighed]
  | cons x a ih => simp only [List.cons_append, weighed, ih, List.length_cons, Nat.add_assoc, Nat.add_comm 1]

theorem weighed_four (i : Nat) (a : List Byte) : weighed (i + 4) a = weighed i a := by
  induction a generalizing i with
  | nil => rfl
  | cons x a ih => rw [weighed, weighed, Nat.add_mod_right, Nat.add_right_comm, ih]

/-- R52, R168: the words of a run of bytes add up to its weighed bytes. -/
theorem words_sum (l : List Byte) : (words l).sum = weighed 0 l := by
  induction l using words.induct with
  | case1 a b c d rest ih =>
    have hrest : weighed 4 rest = weighed 0 rest := weighed_four 0 rest
    simp only [words, List.sum_cons, ih, leNat, weighed, Nat.zero_add, Nat.reduceAdd, Nat.reduceMod, hrest]
    omega
  | case2 => rfl
  | case3 rest hfour hnil =>
    match rest, hfour, hnil with
    | [], _, hnil => exact absurd rfl hnil
    | [a], _, _ => simp [words, leNat, weighed]
    | [a, b], _, _ => simp [words, leNat, weighed]; omega
    | [a, b, c], _, _ => simp [words, leNat, weighed]; omega
    | a :: b :: c :: d :: rest, hfour, _ => exact absurd rfl (hfour a b c d rest)

/-! ## The lanes -/

/-- R52: both lanes stay below the prime. -/
theorem lanes_below (ws : List Nat) (lanes : Nat × Nat) (hA : lanes.1 < Config.digestPrime) (hB : lanes.2 < Config.digestPrime) :
    (ws.foldl laneStep lanes).1 < Config.digestPrime ∧ (ws.foldl laneStep lanes).2 < Config.digestPrime := by
  induction ws generalizing lanes with
  | nil => exact ⟨hA, hB⟩
  | cons w ws ih => exact ih _ (Nat.mod_lt _ (by decide)) (Nat.mod_lt _ (by decide))

/-- R52: the A lane is the sum of the words, in the field of the prime. -/
theorem laneA_modEq (ws : List Nat) (lanes : Nat × Nat) :
    (ws.foldl laneStep lanes).1 ≡ lanes.1 + ws.sum [MOD Config.digestPrime] := by
  induction ws generalizing lanes with
  | nil => rfl
  | cons w ws ih =>
    rw [List.foldl_cons, List.sum_cons, ← Nat.add_assoc]
    exact (ih _).trans ((Nat.mod_modEq _ _).add_right _)

theorem digestBytes_laneA (lanes : Nat × Nat) (a : List Byte) :
    (digestBytes lanes a).1 ≡ lanes.1 + weighed 0 a [MOD Config.digestPrime] := by
  rw [← words_sum]
  exact laneA_modEq _ lanes

/-- R52: one byte changed changes the A lane, as its weighed value lies below the prime. -/
theorem digestBytes_laneA_ne (lanes : Nat × Nat) (a b : List Byte) {x y : Byte} (hxy : x ≠ y) :
    (digestBytes lanes (a ++ x :: b)).1 ≠ (digestBytes lanes (a ++ y :: b)).1 := by
  intro heq
  have hsame := (digestBytes_laneA lanes (a ++ x :: b)).symm.trans (heq ▸ digestBytes_laneA lanes (a ++ y :: b))
  rw [weighed_append, weighed_append, weighed, weighed] at hsame
  have hbyte := (hsame.add_left_cancel' _).add_left_cancel' _ |>.add_right_cancel' _
  rw [Nat.zero_add] at hbyte
  have hweight : 0 < 256 ^ (a.length % 4) ∧ 256 ^ (a.length % 4) ≤ 256 ^ 3 :=
    ⟨by positivity, Nat.pow_le_pow_right (by decide) (by omega)⟩
  have hlt (z : Byte) : z.toNat * 256 ^ (a.length % 4) < Config.digestPrime :=
    calc z.toNat * 256 ^ (a.length % 4) ≤ 255 * 256 ^ 3 := Nat.mul_le_mul (Nat.le_of_lt_succ z.isLt) hweight.2
      _ < Config.digestPrime := by decide
  exact hxy (BitVec.eq_of_toNat_eq (Nat.eq_of_mul_eq_mul_right hweight.1 (hbyte.eq_of_lt_of_lt (hlt x) (hlt y))))

end Sys2Proof.Machine

namespace Sys2Proof.Proofs
open Machine

/-- Settles O47: the words of the pieces are those of the whole (`words_append`); `lanes_below`; `digestBytes_laneA_ne`. -/
theorem digestStreams : Obligations.DigestStreams := by
  refine ⟨fun lanes a b ha => ?_, fun lanes a hA hB => ?_, fun lanes a b x y => digestBytes_laneA_ne lanes a b⟩
  · rw [digestBytes, digestBytes, digestBytes, words_append a b ha, List.foldl_append]
  · obtain ⟨hA', hB'⟩ := lanes_below (words a) lanes hA hB
    have hvalue : digestValue (digestBytes lanes a) < 2 ^ 64 := by
      simp only [digestValue, digestBytes, Config.digestPrime] at hA' hB' ⊢
      omega
    exact ⟨hA', hB', hvalue⟩

end Sys2Proof.Proofs
end

