-- ==== Sys2Proof/Proofs/SourceRequests.lean ====
section
/-! PROOF. A FETCH of a copy channel taken by the source link (R48, R49, R51), and a good BLOCK that answers one: the blocks that
enter the source digest in their turn, and its final value (R50, R52, R53). -/

namespace Sys2Proof.Machine

variable {s : Part} {p : PortId} {k : ClipId} {c : Clip} {x : Channel} {t : Try}

/-! ## A FETCH sent (R48, R49, R51) -/

section Ready

variable (hrun : x.state = .running) (hw : ∃ d : DestId, x.writing.mem d = true) (hf : x.fetches.length < 4)
include hrun hw hf

theorem readyFetch_running (blocks : Nat) : readyFetch s x blocks =
    match x.retries with
    | t :: _ => some t
    | [] => if x.nextFetch < blocks ∧ x.held.length < 16 ∧ 0 < poolFree s then some ⟨x.nextFetch, 1⟩ else none := by
  obtain ⟨d, hd⟩ := hw
  have hwriting : x.writing.isEmpty ≠ true := fun he => by
    rw [(DestSet.isEmpty_iff _).mp he] at hd
    cases hd
  have hfetches : ¬ Config.maxFetches ≤ x.fetches.length := not_le.mpr hf
  rw [readyFetch, if_neg (by tauto)]
  rfl

theorem readyFetch_again {rest : List Try} (hr : x.retries = t :: rest) (blocks : Nat) : readyFetch s x blocks = some t := by
  rw [readyFetch_running hrun hw hf, hr]

theorem readyFetch_new (hr : x.retries = []) (length : Nat) (hmore : 4096 * x.nextFetch < length) (hheld : x.held.length < 16)
    (hpool : (s.channels.toList.map fun ch => ch.held.length).sum < 64) :
    readyFetch s x (blocksOf length) = some ⟨x.nextFetch, 1⟩ := by
  rw [readyFetch_running hrun hw hf, hr]
  exact if_pos ⟨(blocksOf_gt _ _).mpr hmore, hheld, Nat.sub_pos_of_lt hpool⟩

end Ready

/-- R48: no FETCH is ready on a channel that is not RUNNING, that has 4 outstanding, or that has no try to repeat and neither a
block to ask for nor room for one. -/
theorem readyFetch_none {length : Nat} (hx : x.state ≠ .running ∨ 4 ≤ x.fetches.length
      ∨ (x.retries = [] ∧ (16 ≤ x.held.length ∨ 64 ≤ (s.channels.toList.map fun ch => ch.held.length).sum
        ∨ length ≤ 4096 * x.nextFetch))) : readyFetch s x (blocksOf length) = none := by
  unfold readyFetch
  split
  · rfl
  · rename_i hlimits
    push Not at hlimits
    obtain ⟨hrun, -, hfetches⟩ := hlimits
    obtain ⟨hr, hroom⟩ := (hx.resolve_left (not_not.mpr hrun)).resolve_left (not_le.mpr hfetches)
    rw [hr]
    refine if_neg fun ⟨hmore, hheld, hpool⟩ => ?_
    rcases hroom with h | h | h
    · exact absurd hheld (not_lt.mpr h)
    · exact absurd hpool (by rw [poolFree]; exact not_lt.mpr (Nat.sub_eq_zero_of_le h).le)
    · exact absurd ((blocksOf_gt _ _).mp hmore) (not_lt.mpr h)

theorem Channel.fetched_new (hr : x.retries = []) : x.fetched ⟨x.nextFetch, 1⟩ = { x with
    fetches := x.fetches ++ [⟨x.tagCounter, x.nextFetch, 1, 1500⟩]
    tagCounter := (x.tagCounter + 1) % 65536
    nextFetch := x.nextFetch + 1
    held := x.held ++ [⟨x.nextFetch, none⟩] } := by
  rw [fetched, hr]
  rfl

theorem Channel.fetched_again {rest : List Try} (hr : x.retries = t :: rest) : x.fetched t = { x with
    fetches := x.fetches ++ [⟨x.tagCounter, t.block, t.tryNo, 1500⟩]
    tagCounter := (x.tagCounter + 1) % 65536
    retries := rest } := by
  rw [fetched, hr]
  rfl

theorem sendFetch_sends (hk : s.channels[p].clip = some k) (hc : s.clips[k] = some c)
    (ht : readyFetch s s.channels[p] (blocksOf c.length) = some t) : sendFetch p s = { s with
      channels := s.channels.set p (s.channels[p].fetched t)
      out := .source p (fetchParcel s.channels[p].tagCounter (c.start + 8 * t.block)) :: s.out } := by
  rw [sendFetch, channelClip_of hk hc]
  dsimp only
  rw [ht]
  rfl

theorem sendFetch_waits (hx : ∀ k c, s.channels[p].clip = some k → s.clips[k] = some c →
    readyFetch s s.channels[p] (blocksOf c.length) = none) : sendFetch p s = s := by
  unfold sendFetch
  split
  · rfl
  · rename_i x hclip
    obtain ⟨hk, hc⟩ := channelClip_some hclip
    rw [hx _ _ hk hc]

/-! ## The digest in turn (R53) -/

/-- R53: the channel once the blocks of `turn` have entered its digest. -/
def Channel.turned (length : Nat) (turn : List (Nat × List Byte)) (c : Channel) : Channel :=
  { c with
    nextDigest := c.nextDigest + turn.length
    laneA := (turn.foldl (turnLanes length) (c.laneA, c.laneB)).1
    laneB := (turn.foldl (turnLanes length) (c.laneA, c.laneB)).2 }

/-- The blocks of `turn` stand in the channel's pool blocks, in turn from the next to be digested. -/
def Channel.Awaits (c : Channel) (turn : List (Nat × List Byte)) : Prop :=
  ∀ (i : Nat) (g : Nat × List Byte), turn[i]? = some g →
    g.1 = c.nextDigest + i ∧ c.held.find? (fun h => h.block == g.1) = some ⟨g.1, some g.2⟩

theorem Channel.digestNext_enters {data : List Byte} {n : Nat} (length : Nat)
    (hnext : x.held.find? (fun b => b.block == x.nextDigest) = some ⟨n, some data⟩) :
    x.digestNext length = { x with
      laneA := (turnLanes length (x.laneA, x.laneB) (x.nextDigest, data)).1
      laneB := (turnLanes length (x.laneA, x.laneB) (x.nextDigest, data)).2
      nextDigest := x.nextDigest + 1 } := by
  rw [digestNext, hnext]
  rfl

theorem Channel.digestNext_waits (length : Nat)
    (hnext : ∀ g, x.held.find? (fun b => b.block == x.nextDigest) = some g → g.data = none) : x.digestNext length = x := by
  unfold digestNext
  split
  · rename_i heq
    cases hnext _ heq
  · rfl

theorem Channel.digestArrived_iterate (length n : Nat) (x : Channel) :
    Channel.digestArrived length n x = (digestNext length)^[n] x := by
  induction n generalizing x with
  | zero => rfl
  | succ n ih => exact ih _

/-- R53: as many rounds as blocks stand in turn digest them all. -/
theorem Channel.digestNext_turn (length : Nat) (turn : List (Nat × List Byte)) (x : Channel) (hx : x.Awaits turn) :
    (digestNext length)^[turn.length] x = x.turned length turn := by
  induction turn generalizing x with
  | nil => rfl
  | cons g rest ih =>
    obtain ⟨hblock, hfound⟩ := hx 0 g rfl
    rw [Nat.add_zero] at hblock
    rw [hblock] at hfound
    have hg : (x.nextDigest, g.2) = g := by rw [← hblock]
    rw [List.length_cons, Function.iterate_succ_apply, digestNext_enters length hfound, ih, hg]
    · unfold turned
      dsimp only
      rw [List.foldl_cons, List.length_cons, Nat.add_right_comm, Nat.add_assoc]
    · intro i e he
      obtain ⟨hb, hf⟩ := hx (i + 1) e he
      exact ⟨by rw [hb]; dsimp only; omega, hf⟩

/-- R53: no more blocks stand in turn than the channel holds, as in the buffer of a verify (R74). -/
theorem Channel.Awaits.length_le {turn : List (Nat × List Byte)} (hx : x.Awaits turn) : turn.length ≤ x.held.length :=
  VerifyContext.Awaits.length_le (v := { VerifyContext.begin 0 0 with nextDigest := x.nextDigest, held := x.held }) hx

/-- R53: as many rounds as blocks are held digest what stands in turn. -/
theorem Channel.digestArrived_turn (length : Nat) {turn : List (Nat × List Byte)} (hx : x.Awaits turn)
    (hend : ∀ g, x.held.find? (fun h => h.block == x.nextDigest + turn.length) = some g → g.data = none) :
    Channel.digestArrived length x.held.length x = x.turned length turn := by
  have hstop : (x.turned length turn).digestNext length = x.turned length turn := digestNext_waits length hend
  obtain ⟨more, hmore⟩ := Nat.exists_eq_add_of_le' hx.length_le
  rw [digestArrived_iterate, hmore, Function.iterate_add_apply, digestNext_turn length turn x hx,
    Function.iterate_fixed hstop]

/-! ## The final value (R53) -/

/-- R53: the value that `value` is compared with: the source digest the clip keeps, else the one the camera gave, else
itself. -/
def Clip.digestKept (c : Clip) (value : Nat) : Nat := (c.sourceDigest.orElse fun _ => c.cameraDigest).getD value

theorem Clip.digestKept_first (hnone : c.sourceDigest = none) (value : Nat) :
    c.digestKept value = c.cameraDigest.getD value := by
  rw [digestKept, hnone]
  rfl

theorem Clip.digestKept_again {kept : Nat} (hkept : c.sourceDigest = some kept) (value : Nat) : c.digestKept value = kept := by
  rw [digestKept, hkept]
  rfl

/-- R53: the part with the final value set as the clip's source digest, or the one it keeps left. -/
def digestSet (k : ClipId) (c : Clip) (value : Nat) (s : Part) : Part :=
  { s with clips := s.clips.set k (some { c with sourceDigest := some (c.sourceDigest.getD value) }) }

theorem digestSet_clip (value : Nat) :
    (digestSet k c value s).clips[k] = some { c with sourceDigest := some (c.sourceDigest.getD value) } := by
  rw [digestSet, get_set, if_pos rfl]

theorem digestSet_again (hc : s.clips[k] = some c) {kept : Nat} (hkept : c.sourceDigest = some kept) (value : Nat) :
    digestSet k c value s = s := by
  have hrecord : { c with sourceDigest := some (c.sourceDigest.getD value) } = c := by
    rw [hkept, Option.getD_some, ← hkept]
  rw [digestSet, hrecord, ← hc, Fin.getElem_fin, Vector.set_getElem_self]

/-- R53: SOURCE_DIGEST is raised where the final value differs from the one it is compared with. -/
theorem finishDigest_eq (hc : s.clips[k] = some c) (value : Nat) : finishDigest k value s =
    if c.digestKept value = value then digestSet k c value s
    else raise ⟨.sourceDigest, some c.card, some k, none, none, value % 2 ^ 32⟩ (digestSet k c value s) := by
  have hreport := clipReport_eq (digestSet_clip (s := s) (k := k) (c := c) value) .sourceDigest none (digestLaneA value)
  rw [finishDigest, hc]
  dsimp only
  cases hkept : c.sourceDigest with
  | none =>
    have hset : modClip k (fun c => { c with sourceDigest := some value }) s = digestSet k c value s := by
      rw [modClip_eq _ hc, digestSet, hkept]
      rfl
    dsimp only
    rw [hset, hreport, Clip.digestKept_first hkept]
    cases hcamera : c.cameraDigest with
    | none => simp
    | some camera => by_cases heq : camera = value <;> simp [heq, digestLaneA]
  | some kept =>
    rw [digestSet_again hc hkept] at hreport ⊢
    dsimp only
    rw [hreport, Clip.digestKept_again hkept]
    rfl

/-- R53: what the final value of the digest leaves. -/
theorem finishDigest_leaves (hc : s.clips[k] = some c) (value : Nat) :
    ∃ z, (finishDigest k value s).clips[k] = some z ∧ (finishDigest k value s).channels = s.channels
      ∧ z.sourceDigest = some (c.sourceDigest.getD value)
      ∧ (c.digestKept value = value → (finishDigest k value s).log = s.log)
      ∧ (c.digestKept value ≠ value → (finishDigest k value s).log =
        logFault (decide (s.cards[c.card].state = .cleared))
          ⟨.sourceDigest, some c.card, some k, none, none, value % 2 ^ 32⟩ s.log) := by
  have hclip := digestSet_clip (s := s) (k := k) (c := c) value
  rw [finishDigest_eq hc]
  split
  · rename_i hsame
    exact ⟨_, hclip, rfl, rfl, fun _ => rfl, fun hne => absurd hsame hne⟩
  · rename_i hdiffer
    obtain ⟨⟨m, w, hz, -⟩, -, -⟩ := raise_onClip (s := digestSet k c value s)
      (y := { c with sourceDigest := some (c.sourceDigest.getD value) })
      (r := ⟨.sourceDigest, some c.card, some k, none, none, value % 2 ^ 32⟩) rfl rfl rfl rfl hclip
    exact ⟨_, hz, raise_channels _ _, rfl, fun heq => absurd heq hdiffer, fun _ => raise_log _ _⟩

/-! ## A good BLOCK (R50) -/

theorem sourceBlock_arrives {f : Fetch} {b : Rx} (hf : s.channels[p].fetches.find? (fun g => g.tag == b.tag) = some f)
    (hk : s.channels[p].clip = some k) (hc : s.clips[k] = some c) (hgood : blockBad b = false) :
    sourceBlock p b s = blockArrived p (k, c) f.block b.payload (dropFetch p b.tag s) := by
  rw [sourceBlock, hf]
  dsimp only
  rw [channelClip_of hk hc]
  dsimp only
  rw [hgood]
  rfl

/-- R50, R53: a block placed, on a channel whose digest is then `y`. -/
theorem blockArrived_digested {y : Channel} (block : Nat) (data : List Byte)
    (hy : ∀ held, held = (s.channels[p].held.map fun b => if b.block = block then ⟨b.block, some data⟩ else b) →
      Channel.digestArrived c.length held.length { s.channels[p] with held := held } = y) :
    blockArrived p (k, c) block data s =
      if s.channels[p].nextDigest < blocksOf c.length ∧ y.nextDigest = blocksOf c.length then
        finishDigest k (digestValue (y.laneA, y.laneB)) (setChannel p y s)
      else setChannel p y s := by
  rw [← hy _ rfl]
  rfl

end Sys2Proof.Machine

namespace Sys2Proof.Proofs
open Machine

/-- Settles O35: a try to repeat (`readyFetch_again`) or a new block (`readyFetch_new`) leaves as `sendFetch_sends` says; none is
ready otherwise (`readyFetch_none`). -/
theorem sendFetch : Obligations.SendFetch := by
  intro s p x hr hx
  subst hx
  have hexec := exec_event (c := .sendFetch p) (f := Machine.sendFetch p) rfl hr
  refine ⟨fun k c hrun hk hc hw hf => ⟨fun hretries hmore hheld hpool => ?_, fun r rest hretries => ?_⟩, fun hnone => ?_⟩
  · rw [hexec, sendFetch_sends hk hc (readyFetch_new hrun hw hf hretries c.length hmore hheld hpool),
      Channel.fetched_new hretries]
  · rw [hexec, sendFetch_sends hk hc (readyFetch_again hrun hw hf hretries _), Channel.fetched_again hretries]
  · refine exec_same (f := Machine.sendFetch p) rfl (sendFetch_waits fun k c hk hc => readyFetch_none ?_)
    rcases hnone with h | h | h | ⟨hretries, h⟩
    · exact .inl h
    · rw [hk] at h
      cases h
    · exact .inr (.inl h)
    · exact .inr (.inr ⟨hretries, h.imp_right fun h => h.imp_right fun hall => hall k c hk hc⟩)

/-- Settles O36: the blocks in turn enter the digest (`digestArrived_turn`), and the last brings its final value
(`finishDigest_leaves`). -/
theorem sourceBlock : Obligations.SourceBlock := by
  intro s p b x f k c held turn lanes y hr hx hf hk hc hstatus hdam hlen hheld hturn hend hlanes hy
  subst hx
  have hexec := exec_event (c := .sourceBlock p b) (f := Machine.sourceBlock p b) rfl hr
  have hgood : blockBad b = false := by
    rw [← Bool.not_eq_true, blockBad_iff]
    simp [hstatus, hdam, hlen]
  have hdropped : (dropFetch p b.tag s.part).channels[p] =
      { s.part.channels[p] with fetches := s.part.channels[p].fetches.filter fun g => g.tag != b.tag } := by
    rw [dropFetch, setChannel_channels, get_set, if_pos rfl]
  have hlanes' : turn.foldl (turnLanes c.length) (s.part.channels[p].laneA, s.part.channels[p].laneB) = lanes := hlanes.symm
  have harrived := blockArrived_digested (s := dropFetch p b.tag s.part) (p := p) (k := k) (c := c) (y := y) f.block b.payload
    (by
      intro placed hplaced
      rw [hdropped] at hplaced ⊢
      have hsame : placed = held := hplaced.trans hheld.symm
      rw [hsame]
      refine (Channel.digestArrived_turn (x := { s.part.channels[p] with
        fetches := s.part.channels[p].fetches.filter fun g => g.tag != b.tag, held := held }) c.length hturn hend).trans ?_
      rw [hy, ← hlanes']
      rfl)
  have hwritten : setChannel p y (dropFetch p b.tag s.part) = setChannel p y s.part := by
    unfold dropFetch setChannel
    rw [Vector.set_set]
  have hstart : (dropFetch p b.tag s.part).channels[p].nextDigest = s.part.channels[p].nextDigest := by rw [hdropped]
  have hblocks : blocksOf c.length = (c.length + 4095) / 4096 := rfl
  have hvalue : digestValue (y.laneA, y.laneB) = lanes.2 * 2 ^ 32 + lanes.1 := by rw [hy]; rfl
  rw [hwritten, hstart, hblocks, hvalue, ← sourceBlock_arrives hf hk hc hgood] at harrived
  refine ⟨fun hmore => ?_, fun hlast hfirst => ?_⟩
  · rw [hexec, harrived, if_neg (by omega)]
    rfl
  · rw [harrived, if_pos ⟨hfirst, hlast⟩] at hexec
    obtain ⟨z, hz, hchannels, hdigest, hsame, hdiffer⟩ := finishDigest_leaves (s := setChannel p y s.part) hc
      (lanes.2 * 2 ^ 32 + lanes.1)
    refine ⟨_, z, hexec, hz, hchannels, hdigest, hsame, fun hne hm hlen => ?_⟩
    dsimp only
    rw [hdiffer hne]
    exact logFault_entries hm hlen

end Sys2Proof.Proofs
end

