-- ==== Sys2Proof/Proofs/Recopying.lean ====
section
/-! PROOF. ROUTE (R61): the set of the ports a list names, and the card it is written on. RECOPY (R69): the clips it lists again,
and the card it settles. -/

namespace Sys2Proof.Machine

variable {s : Part} {h : CardId} {card : Nat} {ports : List Nat}

/-! ## ROUTE (R61) -/

/-- A card written with its state and its source as they were queues nothing. -/
theorem writeCard_still {c : Card} (hst : c.state = s.cards[h].state) (hso : c.source = s.cards[h].source) :
    writeCard h c s = { s with cards := s.cards.set h c } := if_pos ⟨hst.symm, hso.symm⟩

theorem DestSet.one_le_size (a : DestSet) : 1 ≤ a.size ↔ a.isEmpty = false := by
  rw [DestSet.size, DestSet.isEmpty, Nat.one_le_iff_ne_zero, ne_eq, List.length_eq_zero_iff, List.isEmpty_eq_false_iff]

/-- R61 check 3: the fitted ports a list of them names. -/
theorem routePorts_fitted (hfit : ∀ x ∈ ports, x < s.reset.dests ∧ x < 6) :
    ∃ l, routePorts s ports = some l ∧ ∀ d : DestId, d ∈ l ↔ d.val ∈ ports := by
  induction ports with
  | nil => exact ⟨[], rfl, fun d => by simp⟩
  | cons x xs ih =>
    obtain ⟨hdests, hsix⟩ := hfit x List.mem_cons_self
    obtain ⟨l, hl, hmem⟩ := ih fun y hy => hfit y (List.mem_cons_of_mem x hy)
    refine ⟨⟨x, hsix⟩ :: l, ?_, fun d => ?_⟩
    · rw [routePorts, asDest_val s ⟨x, hsix⟩ hdests]
      dsimp only
      rw [hl, Option.map_some]
    · rw [List.mem_cons, List.mem_cons, hmem, Fin.ext_iff]

/-- R61: the set of the ports named. -/
theorem routeSet_eq {l : List DestId} {ds : DestSet} (hmem : ∀ d : DestId, d ∈ l ↔ ds.mem d = true) : routeSet l = ds := by
  refine DestSet.ext_mem fun d => ?_
  rw [routeSet, DestSet.mem_ofPred, Bool.eq_iff_iff, List.contains_iff_mem, hmem]

section Routed

variable {l : List DestId} (hu : usedCard s card = some h) (hst : routeRefusal s.cards[h].state = none)
  (hl : routePorts s ports = some l)
include hu hst hl

theorem route_taken (hsome : 1 ≤ (routeSet l).size) (hreq : s.cards[h].required ≤ (routeSet l).size) :
    route card ports s = ({ s with cards := s.cards.set h { s.cards[h] with route := routeSet l } }, .done) := by
  rw [route, hu]
  dsimp only
  rw [hst]
  dsimp only
  rw [hl]
  dsimp only
  rw [if_neg (not_or.mpr ⟨Bool.eq_false_iff.mp ((DestSet.one_le_size _).mp hsome), not_lt.mpr hreq⟩)]
  exact congrArg (·, Reply.done) (writeCard_still rfl rfl)

theorem route_short (hshort : (routeSet l).size = 0 ∨ (routeSet l).size < s.cards[h].required) :
    route card ports s = (s, .refuse .shortRoute) := by
  rw [route, hu]
  dsimp only
  rw [hst]
  dsimp only
  rw [hl]
  dsimp only
  refine if_pos (hshort.imp_left fun hzero => ?_)
  by_contra hsome
  have hone := (DestSet.one_le_size _).mpr (Bool.eq_false_iff.mpr hsome)
  omega

end Routed

/-! ## RECOPY (R69) -/

variable {k : ClipId} {c : Clip} {required : Nat}

theorem Clip.relisted_eq (required : Nat) (c : Clip) :
    c.relisted required = if c.state = .written ∧ c.live < required then { c with state := .listed } else c := by
  unfold relisted needsCopies
  cases hst : c.state with
  | listed => simp [← hst]
  | inFlight => simp
  | written => simp
  | failed => simp

theorem Clip.relisted_twice (required : Nat) (c : Clip) : (c.relisted required).relisted required = c.relisted required := by
  rw [Clip.relisted_eq required c]
  split
  · rw [Clip.relisted_eq, if_neg (by simp)]
  · rename_i hkept
    rw [Clip.relisted_eq, if_neg hkept]

/-- R69: the clips of the manifest are relisted, the others left alone. -/
theorem relistAll_clip (required : Nat) (ks : List ClipId) (hc : s.clips[k] = some c) :
    (relistAll required ks s).clips[k] = some (if k ∈ ks then c.relisted required else c) := by
  induction ks generalizing s c with
  | nil => exact hc
  | cons j ks ih =>
    have hfirst : (modClip j (Clip.relisted required) s).clips[k] = some (if k = j then c.relisted required else c) := by
      rw [modClip_get]
      by_cases hj : j = k
      · subst hj
        rw [if_pos rfl, if_pos rfl, hc, Option.map_some]
      · rw [if_neg hj, if_neg (Ne.symm hj), hc]
    refine (ih hfirst).trans (congrArg some ?_)
    by_cases hj : k = j
    · subst hj
      rw [if_pos rfl, if_pos List.mem_cons_self, Clip.relisted_twice, ite_self]
    · simp only [List.mem_cons, hj, false_or, if_neg, not_false_eq_true]

section Recopies

variable (hu : usedCard s card = some h) (hst : s.cards[h].state.recopies = true) (hso : s.cards[h].source.isSome = true)
  (hm : s.cards[h].openMarks.isEmpty = true)
include hu hst hso hm

theorem recopy_unmarked : recopy card s =
    if (cardClips s h).any (Clip.needsCopies s.cards[h].required) then
      (afterEvent (moveCard h .copying (relistAll s.cards[h].required s.cards[h].clips s)), .done)
    else (recopyNothing h s, .done) := by
  have hsource : s.cards[h].source.isNone ≠ true := by rw [Option.isNone_eq_false_iff.mpr hso]; decide
  rw [recopy, hu]
  dsimp only
  rw [if_neg (by rw [hst]; decide), if_neg hsource, if_neg (by rw [hm]; decide)]

end Recopies

end Sys2Proof.Machine

namespace Sys2Proof.Proofs
open Machine

/-- Settles O18: the ports named are all fitted (`routePorts_fitted`), and their set is taken or short. -/
theorem route : Obligations.Route := by
  intro s tag card ports h ds hs hcard hlen hst hfit hds
  have hfree : s.part.cards[h].state ≠ .free := by
    rcases hst with e | e | e | e <;> rw [e] <;> decide
  have hrefusal : routeRefusal s.part.cards[h].state = none := by
    rcases hst with e | e | e | e <;> rw [e] <;> rfl
  have hu := usedCard_of_inUse hcard hfree
  have hexec : exec (.route tag card ports) s =
      .next (s.onPart (ingress (.route tag card ports) (directive tag 0x20 false (Machine.route card ports)))) :=
    execCounted (bad := 6 < ports.length) (not_lt.mpr hlen) rfl
  obtain ⟨l, hl, hmem⟩ := routePorts_fitted hfit
  have hset : routeSet l = ds := routeSet_eq fun d => (hmem d).trans (hds d).symm
  refine ⟨fun hsome hreq => ?_, fun hshort => ?_⟩
  · rw [← hset] at hsome hreq ⊢
    exact answers_of hexec hs.1 (.inl hs.2) (route_taken hu hrefusal hl hsome hreq)
  · rw [← hset] at hshort
    exact refuses_of hexec hs.1 (.inl hs.2) (route_short hu hrefusal hl hshort)

/-- Settles O23: `recopy_unmarked` and, with nothing to copy, `recopyNothing`; the relisted clips by `relistAll_clip`. -/
theorem recopy : Obligations.Recopy := by
  refine ⟨fun s tag card h hs hcard hst hso hm => ?_, fun s required ks k c hc => ?_⟩
  · have hfree : s.part.cards[h].state ≠ .free := by
      rcases hst with e | e | e <;> rw [e] <;> decide
    have hrecopies : s.part.cards[h].state.recopies = true := by
      rcases hst with e | e | e <;> rw [e] <;> rfl
    have hrecopy := recopy_unmarked (usedCard_of_inUse hcard hfree) hrecopies hso hm
    have taken {q : Part} (ho : Machine.recopy card s.part = (q, .done)) :
        Answers (.recopy tag card) s ⟨tag, 0x25, .done, .nothing⟩ q := answers_of rfl hs.1 (.inl hs.2) ho
    refine ⟨fun hneeds => taken (by rw [hrecopy, if_pos hneeds]), fun hnothing => ?_⟩
    rw [if_neg (Bool.eq_false_iff.mp hnothing), recopyNothing] at hrecopy
    refine ⟨fun hsettled => taken ?_, fun hhalted hmarked => taken ?_, fun hhalted hclean => taken ?_⟩
    · rw [hrecopy, if_neg]
      rcases hsettled with e | e <;> rw [e] <;> decide
    · rw [hrecopy, if_pos hhalted, if_pos hmarked]
    · rw [hrecopy, if_pos hhalted, if_neg (Bool.eq_false_iff.mp hclean)]
  · rw [relistAll_clip required ks hc, Clip.relisted_eq, ← ite_and]

end Sys2Proof.Proofs
end

