-- ==== Sys2Proof/Proofs/Aborting.lean ====
section
/-! PROOF. ABORT (R67): what stopping a clip in flight leaves, and the card that goes to HALTED. -/

namespace Sys2Proof.Machine

variable {s : Part} {h : CardId} {d : DestId} {k : ClipId} {p : PortId} {c : Clip}

/-! ## A clip in flight stopped (R67 step 1) -/

theorem FailureCounted.of_part {t q : Part} {l m : FaultLog} {x : Vector Copy 6}
    (hf : FailureCounted t l k { c with copies := x } q) (hcards : t.cards = s.cards) (hlog : l = m) :
    FailureCounted s m k c q := by
  subst hlog
  unfold FailureCounted at hf ⊢
  rwa [hcards] at hf

/-- What stopping the clip `k`, whose record was `c`, on the channel `p` leaves: the channel IDLE, the destinations of its
writing set withdrawn, the clip on the queues of the finished ones, a failed attempt counted. -/
structure ClipStops (s q : Part) (p : PortId) (k : ClipId) (c : Clip) : Prop where
  channels : q.channels = s.channels.set p (Channel.idle s.channels[p].tagCounter)
  dests    : ∀ d : DestId, q.dests[d] =
    { s.dests[d] with
      holder := if s.channels[p].writing.mem d then none else s.dests[d].holder
      draining := if s.channels[p].writing.mem d then !s.dests[d].stores.isEmpty else s.dests[d].draining
      queue := if s.channels[p].finished.mem d then s.dests[d].queue ++ [k] else s.dests[d].queue }
  clip     : ∃ y, q.clips[k] = some y ∧ y.restarted = c.restarted ∧ y.sourceDigest = c.sourceDigest
    ∧ ∀ d : DestId, y.copies[d] = if s.channels[p].writing.mem d then .none else c.copies[d]
  clips    : ∀ j : ClipId, j ≠ k → q.clips[j] = s.clips[j]
  counted  : FailureCounted s s.log k c q

theorem stopClip_stops (hc : s.clips[k] = some c)
    (hw : ∀ d : DestId, s.channels[p].writing.mem d = true → s.dests[d].holder = some k) :
    ClipStops s (stopClip p k s) p k c := by
  have hstop : stopClip p k s =
      countFailed k (attemptDropped p k s.channels[p].writing s.channels[p].finished s) := rfl
  have hchannels : (attemptDropped p k s.channels[p].writing s.channels[p].finished s).channels =
      s.channels.set p (Channel.idle s.channels[p].tagCounter) := by
    rw [attemptDropped, joinQueues_channels, idleChannel, setChannel_channels, withdrawAll_channels hw]
  have hcards : (attemptDropped p k s.channels[p].writing s.channels[p].finished s).cards = s.cards := by
    rw [attemptDropped, joinQueues_cards, idleChannel, setChannel_cards, withdrawAll_cards hw]
  have hlog : (attemptDropped p k s.channels[p].writing s.channels[p].finished s).log = s.log := by
    rw [attemptDropped, joinQueues_log, idleChannel, setChannel_log, withdrawAll_log hw]
  have hdests := attemptDropped_dests hw s.channels[p].finished
  have hclips := attemptDropped_clips hw s.channels[p].finished
  have hcopies (d : DestId) : (c.withoutCopies s.channels[p].writing.members).copies[d] =
      if s.channels[p].writing.mem d then .none else c.copies[d] := by
    rw [Clip.withoutCopies_get]
    simp only [DestSet.mem_members]
  have hb := hclips k
  rw [if_pos rfl, hc, Option.map_some, Clip.withoutCopies_eq] at hb
  rw [hstop]
  generalize (c.withoutCopies s.channels[p].writing.members).copies = x at hb hcopies
  generalize attemptDropped p k s.channels[p].writing s.channels[p].finished s = t at hchannels hcards hlog hdests hclips hb ⊢
  obtain ⟨hcounted, hsettled⟩ := countFailed_counts hb
  obtain ⟨y, hy, hrestarted, hdigest, hycopies⟩ := hsettled.clip
  refine ⟨hsettled.channels.trans hchannels, fun d => ?_, ⟨y, hy, hrestarted, hdigest, fun d => ?_⟩, fun j hj => ?_,
    hcounted.of_part hcards hlog⟩
  · rw [hsettled.dests, hdests]
  · rw [hycopies]
    exact hcopies d
  · rw [hsettled.clips j hj, hclips, if_neg (Ne.symm hj)]

/-! ## The card stopped (R67) -/

theorem stopChannel_idle (hp : s.channels[p].state = .idle) : stopChannel p s = s := by rw [stopChannel, hp]

theorem stopChannel_waiting (hp : s.channels[p].state = .waiting) : stopChannel p s = idleChannel p s := by
  rw [stopChannel, hp]

theorem stopChannel_running (hp : s.channels[p].state = .running) (hk : s.channels[p].clip = some k) :
    stopChannel p s = stopClip p k s := by
  rw [stopChannel, hp]
  dsimp only
  rw [hk]

theorem abortCard_bound (hso : s.cards[h].source = some p) : abortCard h s = moveCard h .halted (stopChannel p s) := by
  rw [abortCard, hso]

theorem abortCard_unbound (hso : s.cards[h].source = none) : abortCard h s = moveCard h .halted s := by
  rw [abortCard, hso]

theorem channelBusy_bound (hso : s.cards[h].source = some p) : channelBusy s h = true ↔ s.channels[p].state ≠ .idle := by
  rw [channelBusy, freeChannel, hso]
  dsimp only
  by_cases hp : s.channels[p].state = .idle
  · rw [if_pos hp]
    exact iff_of_false Bool.false_ne_true (not_not_intro hp)
  · rw [if_neg hp]
    exact iff_of_true rfl hp

theorem abort_taken {card : Nat} (hu : usedCard s card = some h) (hst : s.cards[h].state.isCopying = true)
    (hso : s.cards[h].source = some p) : abort card s =
      (if s.channels[p].state = .idle then moveCard h .halted s
        else afterEvent (moveCard h .halted (stopChannel p s)), .done) := by
  rw [abort, hu]
  dsimp only
  rw [if_neg (by rw [hst]; decide), abortCard_bound hso]
  by_cases hp : s.channels[p].state = .idle
  · rw [if_pos hp, if_neg (mt (channelBusy_bound hso).mp (not_not_intro hp)), stopChannel_idle hp]
  · rw [if_neg hp, if_pos ((channelBusy_bound hso).mpr hp)]

theorem Card.toState_halted (c : Card) : c.toState .halted = { c with state := .halted, suspendWaiting := false } := by
  have hflag : (c.suspendWaiting && CardState.halted == .suspending) = false := Bool.and_false _
  rw [Card.toState, hflag]

/-- R67: a card that was not HALTED goes there, its suspend-waiting flag no (R63). -/
theorem moveCard_halted (hst : s.cards[h].state.isCopying = true) (hso : s.cards[h].source = some p) :
    moveCard h .halted s = queueNotice (.cardState h s.cards[h].label .halted (some p))
      { s with cards := s.cards.set h { s.cards[h] with state := .halted, suspendWaiting := false } } := by
  have hne : s.cards[h].state ≠ .halted := fun e => by
    rw [e] at hst
    cases hst
  rw [moveCard_changed (by decide) hne, Card.toState_halted, ← hso]

end Sys2Proof.Machine

namespace Sys2Proof.Proofs
open Machine

/-- Settles O21: `abort_taken` in each state of the channel, with the card's move by `moveCard_halted`; the stopped clip by
`stopClip_stops`. -/
theorem abort : Obligations.Abort := by
  refine ⟨fun s tag card h p hs hcard hst hso => ?_, fun s p k c hc hw => ?_⟩
  · have hcopying := (CardState.isCopying_iff _).mpr hst
    have hfree : s.part.cards[h].state ≠ .free := fun e => by
      rw [e] at hcopying
      cases hcopying
    have habort := abort_taken (usedCard_of_inUse hcard hfree) hcopying hso
    have taken {q : Part} (ho : Machine.abort card s.part = (q, .done)) :
        Answers (.abort tag card) s ⟨tag, 0x24, .done, .nothing⟩ q := answers_of rfl hs.1 (.inl hs.2) ho
    refine ⟨fun hp => taken ?_, fun hp => ⟨_, Channel.idle_idles _, taken ?_⟩, fun k hp hk => taken ?_⟩
    · rw [habort, if_pos hp, moveCard_halted hcopying hso]
    · rw [habort, if_neg (by rw [hp]; decide), stopChannel_waiting hp,
        moveCard_halted (s := idleChannel p s.part) hcopying hso]
      rfl
    · rw [habort, if_neg (by rw [hp]; decide), stopChannel_running hp hk]
  · have hstop := stopClip_stops hc hw
    refine ⟨?_, hstop.counted, hstop.clip, fun d => ?_⟩
    · rw [hstop.channels, get_set, if_pos rfl]
      exact Channel.idle_idles _
    · rw [hstop.dests]
      exact ⟨rfl, fun hd => ⟨if_pos hd, if_pos hd⟩, rfl⟩

end Sys2Proof.Proofs
end

