-- ==== Sys2Proof/Proofs/HaltedCards.lean ====
section
/-! PROOF. HALT-ALL (R68), in every part: the cards it moves to HALTED, the others and the channels; what it leaves of a
destination's verify. -/

namespace Sys2Proof.Machine

variable {s t : Part} {h g : CardId} {d e : DestId} {k : ClipId} {p q : PortId} {c : Clip}

/-! ## The cards (R68) -/

theorem Card.MayReopen.trans {a b c : Card} (hab : a.MayReopen b) (hbc : b.MayReopen c) : a.MayReopen c := by
  obtain ⟨hb, hbst⟩ := hab
  obtain ⟨hc, hcst⟩ := hbc
  refine ⟨by rw [hc, hb], ?_⟩
  rcases hbst with hbst | ⟨ha, hbst⟩
  · rwa [hbst] at hcst
  · rcases hcst with hcst | ⟨hcopied, -⟩
    · exact .inr ⟨ha, hcst.trans hbst⟩
    · rw [hbst] at hcopied
      cases hcopied

theorem Card.MayReopen.source {a b : Card} (hab : a.MayReopen b) : b.source = a.source := by rw [hab.kept]

/-- R155: a card that is not COPIED keeps its state. -/
theorem Card.MayReopen.state_kept {a b : Card} (hab : a.MayReopen b) (ha : a.state ≠ .copied) : b.state = a.state :=
  hab.state.resolve_right fun hcopied => ha hcopied.1

theorem Card.MayReopen.isCopying {a b : Card} (hab : a.MayReopen b) : b.state.isCopying = a.state.isCopying := by
  rcases hab.state with hst | ⟨hcopied, hheld⟩
  · rw [hst]
  · rw [hcopied, hheld]
    rfl

theorem CardState.ne_copied_of_isCopying {st : CardState} (hst : st.isCopying = true) : st ≠ .copied := by
  rintro rfl
  cases hst

theorem stopClip_card (s : Part) (p : PortId) (k : ClipId) (g : CardId) :
    s.cards[g].MayReopen (stopClip p k s).cards[g] := by
  have hcards : (joinQueues k s.channels[p].finished (idleChannel p (withdrawAll s.channels[p].writing s))).cards = s.cards := by
    rw [joinQueues_cards]
    exact (withdrawAll_dropsOut s.channels[p].writing s).cards
  have hcount := countFailed_card (joinQueues k s.channels[p].finished (idleChannel p (withdrawAll s.channels[p].writing s))) g k
  rw [hcards] at hcount
  exact hcount

theorem stopChannel_card (s : Part) (p : PortId) (g : CardId) : s.cards[g].MayReopen (stopChannel p s).cards[g] := by
  unfold stopChannel
  split
  · exact .refl _
  · exact .refl _
  · split
    · exact stopClip_card s p _ g
    · exact .refl _

/-- R68: a card that is not copying is passed over. -/
theorem haltCard_still (hst : s.cards[h].state.isCopying = false) : haltCard s h = s :=
  if_neg (by rw [hst]; decide)

theorem haltCard_copying (hst : s.cards[h].state.isCopying = true) : haltCard s h = abortCard h s := if_pos hst

theorem haltCard_halts (hst : s.cards[h].state.isCopying = true) : (haltCard s h).cards[h].state = .halted := by
  rw [haltCard_copying hst, abortCard, moveCard_self]
  rfl

theorem haltCard_other (hg : h ≠ g) : s.cards[g].MayReopen (haltCard s h).cards[g] := by
  cases hst : s.cards[h].state.isCopying with
  | false =>
    rw [haltCard_still hst]
    exact .refl _
  | true =>
    rw [haltCard_copying hst, abortCard, moveCard_card, if_neg hg]
    split
    · exact stopChannel_card s _ g
    · exact .refl _

/-- R68: a card that is not in the list or not copying has at most marks opened. -/
theorem haltCards_kept (l : List CardId) (s : Part) (hg : g ∉ l ∨ s.cards[g].state.isCopying = false) :
    s.cards[g].MayReopen (l.foldl haltCard s).cards[g] := by
  induction l generalizing s with
  | nil => exact .refl _
  | cons h rest ih =>
    have hstep : s.cards[g].MayReopen (haltCard s h).cards[g] := by
      by_cases hgh : h = g
      · subst hgh
        rw [haltCard_still (hg.resolve_left (not_not_intro List.mem_cons_self))]
        exact .refl _
      · exact haltCard_other hgh
    exact hstep.trans (ih _ (hg.imp (mt (List.mem_cons_of_mem h)) hstep.isCopying.trans))

/-- R68: a copying card of the list is HALTED. -/
theorem haltCards_halted (l : List CardId) (s : Part) (hg : g ∈ l) (hst : s.cards[g].state.isCopying = true) :
    (l.foldl haltCard s).cards[g].state = .halted := by
  induction l generalizing s with
  | nil => cases hg
  | cons h rest ih =>
    rw [List.foldl_cons]
    by_cases hgh : h = g
    · subst hgh
      have hhalted := haltCard_halts hst
      have hkept := haltCards_kept rest (haltCard s h) (.inr (by rw [hhalted]; rfl))
      rw [hkept.state_kept (by rw [hhalted]; decide), hhalted]
    · exact ih _ ((List.mem_cons.mp hg).resolve_left (Ne.symm hgh)) ((haltCard_other hgh).isCopying.trans hst)

/-- R68: no card is left copying. -/
theorem haltCards_none (s : Part) (g : CardId) : (allCards.foldl haltCard s).cards[g].state.isCopying = false := by
  cases hst : s.cards[g].state.isCopying with
  | true =>
    rw [haltCards_halted allCards s (mem_allCards g) hst]
    rfl
  | false => exact (haltCards_kept allCards s (.inr hst)).isCopying.trans hst

/-! ## The channels (R67 step 1, R68) -/

theorem countFailed_channels (s : Part) (k : ClipId) : (countFailed k s).channels = s.channels := by
  unfold countFailed
  split
  · rfl
  · split
    · exact modClip_channels s k _
    · exact (raise_channels _ _).trans (modClip_channels s k _)

theorem stopClip_channels (s : Part) (p : PortId) (k : ClipId) :
    (stopClip p k s).channels = s.channels.set p (Channel.idle s.channels[p].tagCounter) := by
  rw [stopClip, countFailed_channels, joinQueues_channels, idleChannel, setChannel_channels, withdrawAll_channels_kept]

/-- R67: the channel of a card that is stopped is IDLE. -/
theorem stopChannel_channels (s : Part) (p q : PortId) : (stopChannel p s).channels[q] =
    if p = q ∧ s.channels[p].state ≠ .idle then Channel.idle s.channels[p].tagCounter else s.channels[q] := by
  have hset : (s.channels.set p (Channel.idle s.channels[p].tagCounter))[q] =
      if p = q then Channel.idle s.channels[p].tagCounter else s.channels[q] := get_set _ _ _ _
  cases hp : s.channels[p].state with
  | idle => rw [stopChannel_idle hp, if_neg fun hq => hq.2 rfl]
  | waiting =>
    rw [stopChannel_waiting hp, idleChannel, setChannel_channels, hset]
    exact if_congr (by simp) rfl rfl
  | running =>
    cases hk : s.channels[p].clip with
    | some k =>
      rw [stopChannel_running hp hk, stopClip_channels, hset]
      exact if_congr (by simp) rfl rfl
    | none =>
      have hidle : stopChannel p s = idleChannel p s := by
        rw [stopChannel, hp]
        dsimp only
        rw [hk]
      rw [hidle, idleChannel, setChannel_channels, hset]
      exact if_congr (by simp) rfl rfl

theorem moveCard_channels (st : CardState) : (moveCard h st s).channels = s.channels := by rw [moveCard_frame]
theorem moveCard_dests (st : CardState) : (moveCard h st s).dests = s.dests := by rw [moveCard_frame]
theorem moveCard_log (st : CardState) : (moveCard h st s).log = s.log := by rw [moveCard_frame]

/-- R68: of the channels a card stopped leaves its own IDLE. -/
theorem haltCard_bound (hst : s.cards[h].state.isCopying = true) (hso : s.cards[h].source = some p) (q : PortId) :
    (haltCard s h).channels[q] =
      if p = q ∧ s.channels[p].state ≠ .idle then Channel.idle s.channels[p].tagCounter else s.channels[q] := by
  rw [haltCard_copying hst, abortCard_bound hso, moveCard_channels, stopChannel_channels]

theorem haltCard_unbound (hq : s.cards[h].state.isCopying = true → s.cards[h].source ≠ some q) :
    (haltCard s h).channels[q] = s.channels[q] := by
  cases hst : s.cards[h].state.isCopying with
  | false => rw [haltCard_still hst]
  | true =>
    cases hso : s.cards[h].source with
    | none => rw [haltCard_copying hst, abortCard_unbound hso, moveCard_channels]
    | some p => rw [haltCard_bound hst hso, if_neg fun hpq => hq hst (by rw [hso, hpq.1])]

/-! ## The reads of the destinations -/

/-- From `s` to `t` every destination has kept its verify and its FETCHes. -/
def SameReads (s t : Part) : Prop :=
  ∀ d : DestId, t.dests[d].context = s.dests[d].context ∧ t.dests[d].fetches = s.dests[d].fetches

theorem SameReads.of_dests (hd : t.dests = s.dests) : SameReads s t := fun d => by
  rw [hd]
  exact ⟨rfl, rfl⟩

theorem SameReads.trans {u : Part} (hst : SameReads s t) (htu : SameReads t u) : SameReads s u := fun d =>
  ⟨(htu d).1.trans (hst d).1, (htu d).2.trans (hst d).2⟩

theorem SameReads.foldl {α : Type} {f : Part → α → Part} (hf : ∀ t a, SameReads t (f t a)) (l : List α) (s : Part) :
    SameReads s (l.foldl f s) := by
  induction l generalizing s with
  | nil => exact .of_dests rfl
  | cons a as ih => exact (hf s a).trans (ih (f s a))

theorem writeDest_sameReads {x : Dest} (hc : x.context = s.dests[d].context) (hf : x.fetches = s.dests[d].fetches) :
    SameReads s (writeDest d x s) := fun e => by
  rw [writeDest_dests, get_set]
  split
  · rename_i hde
    subst hde
    exact ⟨hc, hf⟩
  · exact ⟨rfl, rfl⟩

theorem dropOut_sameReads (s : Part) (d : DestId) : SameReads s (dropOut d s) := by
  cases hk : s.dests[d].holder with
  | none =>
    rw [dropOut, hk]
    exact .of_dests rfl
  | some k =>
    rw [dropOut_held hk]
    exact (SameReads.of_dests (modClip_dests s k _)).trans
      (writeDest_sameReads (by rw [modClip_dests]; rfl) (by rw [modClip_dests]; rfl))

theorem stopClip_sameReads (s : Part) (p : PortId) (k : ClipId) : SameReads s (stopClip p k s) := by
  have hdrop : SameReads s (withdrawAll s.channels[p].writing s) := .foldl (fun t d => dropOut_sameReads t d) _ s
  have hidle : SameReads (withdrawAll s.channels[p].writing s) (idleChannel p (withdrawAll s.channels[p].writing s)) :=
    .of_dests rfl
  have hjoin (t : Part) (ds : DestSet) : SameReads t (joinQueues k ds t) := by
    unfold joinQueues
    refine .foldl (fun u d => ?_) _ t
    exact writeDest_sameReads rfl rfl
  exact ((hdrop.trans hidle).trans (hjoin _ _)).trans (.of_dests (countFailed_dests _ _))

theorem haltCard_sameReads (s : Part) (h : CardId) : SameReads s (haltCard s h) := by
  unfold haltCard abortCard
  split
  · refine SameReads.trans ?_ (.of_dests (moveCard_dests _))
    split
    · unfold stopChannel
      split
      · exact .of_dests rfl
      · exact .of_dests rfl
      · split
        · exact stopClip_sameReads s _ _
        · exact .of_dests rfl
    · exact .of_dests rfl
  · exact .of_dests rfl

/-! ## The verifies (R68) -/

/-- R68: a destination whose verify, if it has one, has been stopped. -/
def Dest.verifyHalted (x : Dest) : Dest :=
  match x.context with
  | none => x
  | some v => ({ x with queue := v.clip :: x.queue, context := none } : Dest).dropReads.failedRequest

/-- R68: a copy of the clip `k` on a destination whose verify, if it has one, has been stopped. -/
def Copy.verifyHalted (k : ClipId) (o : Option VerifyContext) (x : Copy) : Copy :=
  match o with
  | .none => x
  | .some v => if v.clip = k then .written v.offset else x

theorem Dest.verifyHalted_eq (x : Dest) (reads : List VerifyFetch)
    (hreads : reads = x.fetches.filter fun f => x.context.isNone || f.use.isNone) : x.verifyHalted =
      { x with
        context := none
        queue := (x.context.map VerifyContext.clip).toList ++ x.queue
        fetches := reads
        stallTimer := if x.context.isSome ∧ x.stores = [] ∧ reads = [] then none else x.stallTimer } := by
  subst hreads
  unfold verifyHalted
  cases hv : x.context with
  | none =>
    cases x
    subst hv
    simp
  | some v =>
    simp [Dest.dropReads, Dest.failedRequest, Dest.idleLink]

theorem Dest.verifyHalted_reads {x : Dest} (hx : x.context.isSome = true) : ∀ f ∈ x.verifyHalted.fetches, f.use = none := by
  rw [x.verifyHalted_eq _ rfl]
  intro f hf
  have huse := (List.mem_filter.mp hf).2
  rw [Option.isNone_eq_false_iff.mpr hx, Bool.false_or] at huse
  exact Option.isNone_iff_eq_none.mp huse

theorem haltVerify_dests (s : Part) (d e : DestId) :
    (haltVerify s d).dests[e] = if d = e then s.dests[d].verifyHalted else s.dests[e] := by
  unfold haltVerify Dest.verifyHalted
  cases hv : s.dests[d].context with
  | none =>
    dsimp only
    split
    · rename_i hde
      rw [hde]
    · rfl
  | some v =>
    dsimp only
    rw [writeDest_dests, get_set, stopVerify_dest, hv]
    split
    · rfl
    · rename_i hde
      rw [stopVerify, hv]
      dsimp only
      rw [writeDest_dests, modClip_dests, get_set, if_neg hde]

theorem haltVerify_clip (hc : s.clips[k] = some c) (d : DestId) : ∃ y, (haltVerify s d).clips[k] = some y
    ∧ y = { c with copies := y.copies }
    ∧ ∀ e : DestId, y.copies[e] =
      if d = e then c.copies[e].verifyHalted k s.dests[e].context else c.copies[e] := by
  unfold haltVerify
  cases hv : s.dests[d].context with
  | none =>
    refine ⟨c, hc, rfl, fun e => ?_⟩
    split
    · rename_i hde
      rw [← hde, hv]
      rfl
    · rfl
  | some v =>
    dsimp only
    rw [writeDest_clips]
    by_cases hk : v.clip = k
    · subst hk
      refine ⟨_, by rw [stopVerify_clip hv, hc, Option.map_some], rfl, fun e => ?_⟩
      dsimp only
      rw [get_set]
      refine ite_congr rfl (fun hde => ?_) fun _ => rfl
      rw [← hde, hv]
      exact (if_pos rfl).symm
    · refine ⟨c, ?_, rfl, fun e => ?_⟩
      · rw [stopVerify_other, hc]
        intro w hw
        rw [hv, Option.some.injEq] at hw
        rwa [← hw]
      · split
        · rename_i hde
          rw [← hde, hv]
          exact (if_neg hk).symm
        · rfl

theorem haltVerify_frame (s : Part) (d : DestId) : (haltVerify s d).cards = s.cards
    ∧ (haltVerify s d).channels = s.channels ∧ (haltVerify s d).log = s.log := by
  have hcards : (stopVerify d s).cards = s.cards := by
    unfold stopVerify
    split
    · rfl
    · rw [writeDest_cards, modClip_cards]
  obtain ⟨hchannels, hlog⟩ := stopVerify_frame s d
  unfold haltVerify
  split
  · exact ⟨rfl, rfl, rfl⟩
  · rw [writeDest_cards, writeDest_channels, writeDest_log]
    exact ⟨hcards, hchannels, hlog⟩

/-- What the stop of the verifies of a list of destinations leaves. -/
structure VerifiesHalt (l : List DestId) (s t : Part) : Prop where
  cards    : t.cards = s.cards
  channels : t.channels = s.channels
  log      : t.log = s.log
  dests    : ∀ e : DestId, t.dests[e] = if e ∈ l then s.dests[e].verifyHalted else s.dests[e]
  clips    : ∀ (k : ClipId) (c : Clip), s.clips[k] = some c → ∃ y, t.clips[k] = some y
    ∧ y = { c with copies := y.copies }
    ∧ ∀ e : DestId, y.copies[e] = if e ∈ l then c.copies[e].verifyHalted k s.dests[e].context else c.copies[e]

theorem haltVerifies_halt (l : List DestId) (hl : l.Nodup) (s : Part) : VerifiesHalt l s (l.foldl haltVerify s) := by
  induction l generalizing s with
  | nil => exact ⟨rfl, rfl, rfl, fun e => rfl, fun k c hc => ⟨c, hc, rfl, fun e => rfl⟩⟩
  | cons d rest ih =>
    obtain ⟨hd, hrest⟩ := List.nodup_cons.mp hl
    obtain ⟨hcards, hchannels, hlog⟩ := haltVerify_frame s d
    have later := ih hrest (haltVerify s d)
    have hne (e : DestId) (he : e ∈ rest) : d ≠ e := by
      rintro rfl
      exact hd he
    refine ⟨later.cards.trans hcards, later.channels.trans hchannels, later.log.trans hlog, fun e => ?_, fun k c hc => ?_⟩
    · rw [List.foldl_cons, later.dests, haltVerify_dests]
      by_cases he : e ∈ rest
      · rw [if_pos he, if_neg (hne e he), if_pos (List.mem_cons_of_mem d he)]
      · by_cases hde : d = e
        · subst hde
          rw [if_neg he, if_pos rfl, if_pos List.mem_cons_self]
        · rw [if_neg he, if_neg hde, if_neg (List.not_mem_cons_of_ne_of_not_mem (Ne.symm hde) he)]
    · obtain ⟨x, hx, hxc, hxcopies⟩ := haltVerify_clip hc d
      obtain ⟨y, hy, hyx, hycopies⟩ := later.clips k x hx
      refine ⟨y, hy, by rw [hyx, hxc], fun e => ?_⟩
      rw [hycopies, hxcopies, haltVerify_dests]
      by_cases he : e ∈ rest
      · rw [if_pos he, if_neg (hne e he), if_neg (hne e he), if_pos (List.mem_cons_of_mem d he)]
      · by_cases hde : d = e
        · subst hde
          rw [if_neg he, if_pos rfl, if_pos List.mem_cons_self]
        · rw [if_neg he, if_neg hde, if_neg (List.not_mem_cons_of_ne_of_not_mem (Ne.symm hde) he)]

/-! ## The evaluation that follows -/

/-- R44, R45: with no card in COPYING the evaluation changes nothing. -/
theorem evalGrant_idle (hidle : ∀ g : CardId, s.cards[g].state ≠ .copying) : evalGrant s = s := by
  have hpass : considerAll (cardOrder s.grantPointer) s = (s, []) := considerAll_idle fun g =>
    Option.eq_none_iff_forall_ne_some.mpr fun k hk => hidle g (readyClip_some hk).1
  rw [evalGrant_over (by rw [hpass]; rfl), hpass]

end Sys2Proof.Machine
end

