-- ==== Sys2Proof/Proofs/Halting.lean ====
section
/-! PROOF. HALT-ALL (R68) in a part whose records agree: the attempts it stops, card after card, and the verifies. The proof
goes along the list of the cards: what has been stopped so far is described from the part before the first of them. -/

namespace Sys2Proof.Machine

variable {s t q : Part} {h g : CardId} {d : DestId} {k j : ClipId} {p : PortId} {c : Clip} {l : List CardId}

/-! ## The attempts stopped (R67, R68) -/

/-- A clip in flight of a card of the list. -/
def StoppedOf (s : Part) (l : List CardId) (k : ClipId) : Prop :=
  ∃ c, s.clips[k] = some c ∧ c.state = .inFlight ∧ c.card ∈ l

/-- The destination has finished the clip of a RUNNING channel. -/
def Finished (s : Part) (d : DestId) (k : ClipId) : Prop :=
  ∃ p : PortId, s.channels[p].state = .running ∧ s.channels[p].clip = some k ∧ s.channels[p].finished.mem d = true

/-- The CLIP_FAILED faults of a list of clips and their cards, in its order. -/
def clipsFailed (l : FaultLog) (failed : List (CardId × ClipId)) : FaultLog :=
  failed.foldl (fun l x => logFault false ⟨.clipFailed, some x.1, some x.2, none, none, 3⟩ l) l

/-- The record `y` of the clip `k`, which was `c`, once its attempt has been stopped. -/
structure Clip.StopsTo (s : Part) (k : ClipId) (c y : Clip) : Prop where
  restarted : y.restarted = c.restarted
  digest    : y.sourceDigest = c.sourceDigest
  copies    : ∀ d : DestId, y.copies[d] = if s.dests[d].holder = some k then .none else c.copies[d]
  again     : c.failed + 1 < 3 → y.failed = c.failed + 1 ∧ y.state = .listed ∧ y.openMarks = c.openMarks
  third     : 3 ≤ c.failed + 1 → y.failed = 3 ∧ y.state = .failed ∧ y.openMarks.has .clipFailed = true

/-- From `s` to `t` the attempts of the clips in flight of the cards of the list have been stopped. -/
structure AttemptsStopped (s : Part) (l : List CardId) (t : Part) : Prop where
  dests : ∀ d : DestId, ∃ (out : Bool) (joined : List ClipId),
    (out = true ↔ ∃ k, s.dests[d].holder = some k ∧ StoppedOf s l k)
      ∧ (∀ k, k ∈ joined ↔ StoppedOf s l k ∧ Finished s d k)
      ∧ t.dests[d] =
        { (if out then s.dests[d].dropped else s.dests[d]) with queue := s.dests[d].queue ++ joined }
  clip  : ∀ (k : ClipId) (c : Clip), s.clips[k] = some c → StoppedOf s l k → ∃ y, t.clips[k] = some y ∧ c.StopsTo s k y
  clips : ∀ k : ClipId, ¬ StoppedOf s l k → t.clips[k] = s.clips[k]
  log   : ∃ failed : List (CardId × ClipId), failed.Pairwise (fun a b => a.1 < b.1)
    ∧ (∀ (h : CardId) (k : ClipId), (h, k) ∈ failed ↔
        ∃ c, s.clips[k] = some c ∧ c.card = h ∧ StoppedOf s l k ∧ 3 ≤ c.failed + 1)
    ∧ t.log = clipsFailed s.log failed

theorem stoppedOf_iff (hc : s.clips[k] = some c) : StoppedOf s l k ↔ c.state = .inFlight ∧ c.card ∈ l := by
  unfold StoppedOf
  rw [hc]
  simp

/-- A card with no clip in flight adds none. -/
theorem stoppedOf_grounded (hg : Grounded s h) : StoppedOf s (l ++ [h]) k ↔ StoppedOf s l k := by
  refine exists_congr fun c => and_congr_right fun hc => and_congr_right fun hst => ?_
  rw [List.mem_append, List.mem_singleton, or_iff_left fun hcard => hg k c hc hcard hst]

/-- R47: the clip in flight of a card is the one of its source's channel. -/
theorem stoppedOf_running (hs : AttemptsOk s) (hp : s.channels[p].state = .running) (hk : s.channels[p].clip = some k)
    (hc : s.clips[k] = some c) : StoppedOf s (l ++ [c.card]) j ↔ StoppedOf s l j ∨ j = k := by
  obtain ⟨b, hb, hflies, hso, -⟩ := hs.running hp hk
  obtain rfl : b = c := Option.some.inj (hb.symm.trans hc)
  constructor
  · rintro ⟨x, hx, hst, hcard⟩
    rcases List.mem_append.mp hcard with hl | hl
    · exact .inl ⟨x, hx, hst, hl⟩
    · obtain ⟨-, q, -, hj, hq⟩ := hs.flying hx hst
      rw [Part.card_congr s (List.mem_singleton.mp hl), hso, Option.some.injEq] at hq
      subst hq
      exact .inr (Option.some.inj (hj.symm.trans hk))
  · rintro (⟨x, hx, hst, hl⟩ | rfl)
    · exact ⟨x, hx, hst, List.mem_append_left _ hl⟩
    · exact ⟨b, hb, hflies, List.mem_append_right _ List.mem_cons_self⟩

theorem AttemptsStopped.nil (s : Part) : AttemptsStopped s [] s := by
  have hnone (k : ClipId) : ¬ StoppedOf s [] k := fun ⟨_, _, _, hmem⟩ => List.not_mem_nil hmem
  refine ⟨fun d => ⟨false, [], ?_, fun k => ?_, ?_⟩, fun k c _ hk => absurd hk (hnone k), fun k _ => rfl,
    [], .nil, fun h k => ?_, rfl⟩
  · exact iff_of_false Bool.false_ne_true fun ⟨k, _, hk⟩ => hnone k hk
  · exact iff_of_false List.not_mem_nil fun hk => hnone k hk.1
  · rw [List.append_nil]
    rfl
  · exact iff_of_false List.not_mem_nil fun ⟨_, _, _, hk, _⟩ => hnone k hk

theorem AttemptsStopped.of_eq (ht : AttemptsStopped s l t) (hdests : q.dests = t.dests) (hclips : q.clips = t.clips)
    (hlog : q.log = t.log) : AttemptsStopped s l q := by
  obtain ⟨tdests, tclip, tclips, tlog⟩ := ht
  refine ⟨?_, ?_, ?_, ?_⟩
  · rwa [hdests]
  · rwa [hclips]
  · rwa [hclips]
  · rwa [hlog]

theorem AttemptsStopped.moveCard (ht : AttemptsStopped s l t) (h : CardId) (st : CardState) :
    AttemptsStopped s l (moveCard h st t) := ht.of_eq (moveCard_dests st) (moveCard_clips st) (moveCard_log st)

/-- A card with no clip in flight adds nothing to the attempts. -/
theorem AttemptsStopped.grounded (ht : AttemptsStopped s l t) (hg : Grounded s h) : AttemptsStopped s (l ++ [h]) t := by
  have hsame : StoppedOf s (l ++ [h]) = StoppedOf s l := funext fun k => propext (stoppedOf_grounded hg)
  obtain ⟨tdests, tclip, tclips, tlog⟩ := ht
  refine ⟨?_, ?_, ?_, ?_⟩
  all_goals rwa [hsame]

/-- R67: a channel that is not RUNNING stops no attempt. -/
theorem AttemptsStopped.stopChannel (ht : AttemptsStopped s l t) (hp : t.channels[p].state ≠ .running) :
    AttemptsStopped s l (stopChannel p t) := by
  cases hst : t.channels[p].state with
  | idle => rwa [stopChannel_idle hst]
  | waiting =>
    rw [stopChannel_waiting hst]
    exact ht.of_eq rfl rfl rfl
  | running => exact absurd hst hp

section Stop

variable (hs : AttemptsOk s) (hp : s.channels[p].state = .running) (hk : s.channels[p].clip = some k)
include hs hp hk

/-- R46: the writing set of a RUNNING channel is the set of the destinations its clip holds. -/
theorem writing_iff_holder : s.channels[p].writing.mem d = true ↔ s.dests[d].holder = some k := by
  obtain ⟨-, -, -, -, hw⟩ := hs.running hp hk
  exact ⟨hw d, fun hd => hs.held hd hp hk⟩

theorem finished_iff : Finished s d k ↔ s.channels[p].finished.mem d = true := by
  constructor
  · rintro ⟨q, hq, hj, hf⟩
    rwa [hs.channel_unique hp hk hq hj]
  · exact fun hf => ⟨p, hp, hk, hf⟩

variable (hc : s.clips[k] = some c)
include hc

/-- R67 step 1: a destination when one more attempt is stopped. -/
theorem AttemptsStopped.stop_dest {x y : Dest} {out : Bool} {joined : List ClipId}
    (hout : out = true ↔ ∃ j, s.dests[d].holder = some j ∧ StoppedOf s l j)
    (hjoined : ∀ j, j ∈ joined ↔ StoppedOf s l j ∧ Finished s d j)
    (hx : x = { (if out then s.dests[d].dropped else s.dests[d]) with queue := s.dests[d].queue ++ joined })
    (hy : y = { x with
      holder := if s.channels[p].writing.mem d then none else x.holder
      draining := if s.channels[p].writing.mem d then !x.stores.isEmpty else x.draining
      queue := if s.channels[p].finished.mem d then x.queue ++ [k] else x.queue }) :
    ∃ (out : Bool) (joined : List ClipId),
      (out = true ↔ ∃ j, s.dests[d].holder = some j ∧ StoppedOf s (l ++ [c.card]) j)
        ∧ (∀ j, j ∈ joined ↔ StoppedOf s (l ++ [c.card]) j ∧ Finished s d j)
        ∧ y = { (if out then s.dests[d].dropped else s.dests[d]) with queue := s.dests[d].queue ++ joined } := by
  simp only [stoppedOf_running hs hp hk hc]
  refine ⟨out || s.channels[p].writing.mem d, joined ++ (if s.channels[p].finished.mem d then [k] else []), ?_, fun j => ?_, ?_⟩
  · rw [Bool.or_eq_true, hout, writing_iff_holder hs hp hk]
    constructor
    · rintro (⟨j, hd, hj⟩ | hd)
      · exact ⟨j, hd, .inl hj⟩
      · exact ⟨k, hd, .inr rfl⟩
    · rintro ⟨j, hd, hj | rfl⟩
      · exact .inl ⟨j, hd, hj⟩
      · exact .inr hd
  · rw [List.mem_append, hjoined, or_and_right]
    refine or_congr_right ⟨fun hj => ?_, ?_⟩
    · split at hj
      · rename_i hf
        rw [List.mem_singleton.mp hj]
        exact ⟨rfl, (finished_iff hs hp hk).mpr hf⟩
      · cases hj
    · rintro ⟨rfl, hf⟩
      rw [if_pos ((finished_iff hs hp hk).mp hf)]
      exact List.mem_cons_self
  · have hqueue : (if s.channels[p].finished.mem d then s.dests[d].queue ++ joined ++ [k] else s.dests[d].queue ++ joined) =
        s.dests[d].queue ++ (joined ++ if s.channels[p].finished.mem d then [k] else []) := by
      split <;> simp
    have hstores : (if out then s.dests[d].dropped else s.dests[d]).stores = s.dests[d].stores := by
      split <;> rfl
    subst hx
    rw [hy, ← hqueue]
    cases s.channels[p].writing.mem d with
    | false =>
      rw [Bool.or_false]
      rfl
    | true =>
      rw [Bool.or_true]
      dsimp only
      rw [hstores]
      cases out <;> rfl

/-- R67 step 1: one more attempt stopped. -/
theorem AttemptsStopped.stop (ht : AttemptsStopped s l t) (hchannel : t.channels[p] = s.channels[p])
    (hcard : t.cards[c.card].state ≠ .cleared) (hlast : ∀ g ∈ l, g < c.card) (hq : ClipStops t q p k c) :
    AttemptsStopped s (l ++ [c.card]) q := by
  have hnew (j : ClipId) : StoppedOf s (l ++ [c.card]) j ↔ StoppedOf s l j ∨ j = k := stoppedOf_running hs hp hk hc
  have hcount := hq.counted
  obtain ⟨y, hy, hrestarted, hdigest, hcopies⟩ := hq.clip
  obtain ⟨z, hz, hagain, hthird⟩ := hcount
  obtain rfl : z = y := Option.some.inj (hz.symm.trans hy)
  rw [decide_eq_false hcard] at hthird
  obtain ⟨failed, hsorted, hfailed, hlog⟩ := ht.log
  refine ⟨fun d => ?_, fun j b hb hj => ?_, fun j hj => ?_, ?_⟩
  · obtain ⟨out, joined, hout, hjoined, htd⟩ := ht.dests d
    refine AttemptsStopped.stop_dest hs hp hk hc hout hjoined htd ?_
    rw [hq.dests, hchannel]
  · by_cases hjk : j = k
    · subst hjk
      obtain rfl : b = c := Option.some.inj (hb.symm.trans hc)
      refine ⟨z, hz, hrestarted, hdigest, fun d => ?_, fun hlt => ?_, fun hle => ?_⟩
      · rw [hcopies, hchannel]
        exact if_congr (writing_iff_holder hs hp hk) rfl rfl
      · obtain ⟨hf, hst, hm, -⟩ := hagain hlt
        exact ⟨hf, hst, hm⟩
      · obtain ⟨hf, hst, -, hm⟩ := hthird hle
        exact ⟨hf, hst, hm hcard⟩
    · obtain ⟨x, hx, hstops⟩ := ht.clip j b hb (((hnew j).mp hj).resolve_right hjk)
      exact ⟨x, (hq.clips j hjk).trans hx, hstops⟩
  · rw [hnew, not_or] at hj
    rw [hq.clips j hj.2, ht.clips j hj.1]
  · by_cases hlt : c.failed + 1 < 3
    · refine ⟨failed, hsorted, fun g j => ?_, (hagain hlt).2.2.2.trans hlog⟩
      rw [hfailed]
      refine exists_congr fun b => and_congr_right fun hb => and_congr_right fun _ => and_congr_left fun hle => ?_
      rw [hnew, or_iff_left]
      rintro rfl
      obtain rfl : b = c := Option.some.inj (hb.symm.trans hc)
      omega
    · refine ⟨failed ++ [(c.card, k)], ?_, fun g j => ?_, ?_⟩
      · refine List.pairwise_append.mpr ⟨hsorted, List.pairwise_singleton _ _, fun a ha x hx => ?_⟩
        obtain ⟨b, hb, hg, hj, -⟩ := (hfailed a.1 a.2).mp ha
        rw [List.mem_singleton.mp hx, ← hg]
        exact hlast _ ((stoppedOf_iff hb).mp hj).2
      · rw [List.mem_append, hfailed, List.mem_singleton, Prod.mk.injEq]
        constructor
        · rintro (⟨b, hb, hg, hj, hle⟩ | ⟨rfl, rfl⟩)
          · exact ⟨b, hb, hg, (hnew j).mpr (.inl hj), hle⟩
          · exact ⟨c, hc, rfl, (hnew j).mpr (.inr rfl), not_lt.mp hlt⟩
        · rintro ⟨b, hb, hg, hj, hle⟩
          rcases (hnew j).mp hj with hj | rfl
          · exact .inl ⟨b, hb, hg, hj, hle⟩
          · obtain rfl : b = c := Option.some.inj (hb.symm.trans hc)
            exact .inr ⟨hg.symm, rfl⟩
      · obtain ⟨-, -, hqlog, -⟩ := hthird (not_lt.mp hlt)
        rw [hqlog, hlog, clipsFailed, clipsFailed, List.foldl_append]
        rfl

end Stop

/-! ## The channels of the cards stopped -/

/-- From `s` to `t` the channels of the copying cards of the list have returned to IDLE. -/
structure ChannelsHalted (s : Part) (l : List CardId) (t : Part) : Prop where
  kept  : ∀ p : PortId, (∀ h ∈ l, s.cards[h].state.isCopying = true → s.cards[h].source ≠ some p) →
    t.channels[p] = s.channels[p]
  idled : ∀ (h : CardId) (p : PortId), h ∈ l → s.cards[h].state.isCopying = true → s.cards[h].source = some p →
    s.channels[p].state ≠ .idle → t.channels[p] = Channel.idle s.channels[p].tagCounter

section Fold

variable (hT : TablesOk s)
include hT

/-- R7, R8: the channel of a card that has not been stopped is as it was. -/
theorem ChannelsHalted.unstopped (ht : ChannelsHalted s l t) (hh : h ∉ l) (hso : s.cards[h].source = some p) :
    t.channels[p] = s.channels[p] := ht.kept p fun _ hg _ hsg => hh (hT.source_inj hsg hso ▸ hg)

theorem ChannelsHalted.concat (ht : ChannelsHalted s l t) (hh : h ∉ l) (hcard : s.cards[h].MayReopen t.cards[h]) :
    ChannelsHalted s (l ++ [h]) (haltCard t h) := by
  refine ⟨fun p hp => ?_, fun g p hg hst hso hidle => ?_⟩
  · rw [haltCard_unbound, ht.kept p fun g hg => hp g (List.mem_append_left _ hg)]
    rw [hcard.isCopying, hcard.source]
    exact hp h (List.mem_append_right _ List.mem_cons_self)
  · rcases List.mem_append.mp hg with hg | hg
    · rw [haltCard_unbound, ht.idled g p hg hst hso hidle]
      rw [hcard.source]
      intro _ hsh
      exact hh (hT.source_inj hso hsh ▸ hg)
    · obtain rfl := List.mem_singleton.mp hg
      rw [haltCard_bound (hcard.isCopying.trans hst) (hcard.source.trans hso), ht.unstopped hT hh hso,
        if_pos ⟨rfl, hidle⟩]

variable (hA : AttemptsOk s)
include hA

/-- R67, R68: one more card. -/
theorem AttemptsStopped.concat (ht : AttemptsStopped s l t) (hchannels : ChannelsHalted s l t) (hlast : ∀ g ∈ l, g < h)
    (hcard : s.cards[h].MayReopen t.cards[h]) : AttemptsStopped s (l ++ [h]) (haltCard t h) := by
  have hh : h ∉ l := fun hl => lt_irrefl h (hlast h hl)
  cases hst : s.cards[h].state.isCopying with
  | false =>
    rw [haltCard_still (hcard.isCopying.trans hst)]
    refine ht.grounded (hA.grounded ?_ ?_)
    · intro e
      rw [e] at hst
      cases hst
    · intro e
      rw [e] at hst
      cases hst
  | true =>
    rw [haltCard_copying (hcard.isCopying.trans hst)]
    cases hso : s.cards[h].source with
    | none =>
      rw [abortCard_unbound (hcard.source.trans hso)]
      refine (ht.grounded (hA.grounded_of_source fun p hp => ?_)).moveCard h _
      rw [hso] at hp
      cases hp
    | some p =>
      have hchannel := hchannels.unstopped hT hh hso
      rw [abortCard_bound (hcard.source.trans hso)]
      by_cases hp : s.channels[p].state = .running
      · obtain ⟨k, c, hk, hc, hflies, hsource, hw⟩ := hA.2.1 p hp
        obtain rfl := hT.source_inj hsource hso
        have hnew : ¬ StoppedOf s l k := fun hk => hh ((stoppedOf_iff hc).mp hk).2
        have hcleared : t.cards[c.card].state ≠ .cleared := fun e => by
          rw [← hcard.isCopying, e] at hst
          cases hst
        have hstops : ClipStops t (stopClip p k t) p k c :=
          stopClip_stops ((ht.clips k hnew).trans hc) fun d hd => ?_
        · rw [stopChannel_running (by rw [hchannel, hp]) (by rw [hchannel, hk])]
          exact (ht.stop hA hp hk hc hchannel hcleared hlast hstops).moveCard _ _
        · rw [hchannel] at hd
          obtain ⟨out, joined, hout, -, htd⟩ := ht.dests d
          have hstays : out = false := Bool.eq_false_iff.mpr fun he => by
            obtain ⟨j, hj, hstopped⟩ := hout.mp he
            rw [hw d hd, Option.some.injEq] at hj
            subst hj
            exact hnew hstopped
          rw [htd, hstays]
          exact hw d hd
      · have hground : Grounded s h := hA.grounded_of_source fun r hr => by
          rw [hso, Option.some.injEq] at hr
          rwa [← hr]
        exact ((ht.grounded hground).stopChannel (by rwa [hchannel])).moveCard h _

/-- R68: what stopping the cards of a list leaves. -/
theorem haltCards_stop (l : List CardId) (hl : l.Pairwise (· < ·)) :
    ChannelsHalted s l (l.foldl haltCard s) ∧ AttemptsStopped s l (l.foldl haltCard s) := by
  induction l using List.reverseRecOn with
  | nil => exact ⟨⟨fun _ _ => rfl, fun h p hh => absurd hh List.not_mem_nil⟩, .nil s⟩
  | append_singleton l h ih =>
    obtain ⟨hsorted, -, hlast⟩ := List.pairwise_append.mp hl
    replace hlast : ∀ g ∈ l, g < h := fun g hg => hlast g hg h List.mem_cons_self
    have hh : h ∉ l := fun hl => lt_irrefl h (hlast h hl)
    obtain ⟨hchannels, hattempts⟩ := ih hsorted
    have hcard := haltCards_kept l s (.inl hh)
    rw [List.foldl_concat]
    exact ⟨hchannels.concat hT hh hcard, hattempts.concat hT hA hchannels hlast hcard⟩

end Fold

/-! ## All the cards and all the verifies -/

/-- R68: the part once every card and every verify has been stopped, before the grant is evaluated. -/
def allHalted (s : Part) : Part := allDests.foldl haltVerify (allCards.foldl haltCard s)

theorem allHalted_verifies (s : Part) : VerifiesHalt allDests (allCards.foldl haltCard s) (allHalted s) :=
  haltVerifies_halt allDests (by decide) _

theorem haltCards_sameReads (s : Part) : SameReads s (allCards.foldl haltCard s) :=
  .foldl (fun t h => haltCard_sameReads t h) allCards s

theorem allHalted_none (s : Part) (h : CardId) : (allHalted s).cards[h].state.isCopying = false := by
  rw [(allHalted_verifies s).cards]
  exact haltCards_none s h

theorem allHalted_halted (hst : s.cards[h].state.isCopying = true) : (allHalted s).cards[h].state = .halted := by
  rw [(allHalted_verifies s).cards]
  exact haltCards_halted allCards s (mem_allCards h) hst

/-- R68: no FETCH of a verify is left. -/
theorem allHalted_reads (hd : s.dests[d].context.isSome = true) : ∀ f ∈ (allHalted s).dests[d].fetches, f.use = none := by
  rw [(allHalted_verifies s).dests, if_pos (mem_allDests d)]
  exact Dest.verifyHalted_reads (by rw [(haltCards_sameReads s d).1]; exact hd)

theorem Copy.verifyHalted_unnamed {o : Option VerifyContext} (ho : ∀ v, o = some v → v.clip ≠ k) (x : Copy) :
    x.verifyHalted k o = x := by
  unfold verifyHalted
  split
  · rfl
  · exact if_neg (ho _ rfl)

theorem stoppedOf_all (hc : s.clips[k] = some c) : StoppedOf s allCards k ↔ c.state = .inFlight := by
  rw [stoppedOf_iff hc, and_iff_left (mem_allCards _)]

section Agreeing

variable (hA : AttemptsOk s)
include hA

theorem stoppedOf_running_all (hp : s.channels[p].state = .running) (hk : s.channels[p].clip = some k) :
    StoppedOf s allCards k := by
  obtain ⟨c, hc, hflies, -, -⟩ := hA.running hp hk
  exact (stoppedOf_all hc).mpr hflies

/-- R46: the holder of a destination is a clip in flight. -/
theorem stoppedOf_holder (hd : s.dests[d].holder = some k) : StoppedOf s allCards k := by
  obtain ⟨p, -, hp, hk, -, -, -⟩ := hA.2.2.2.1 d k hd
  exact stoppedOf_running_all hA hp hk

/-- R71: a copy that is VERIFYING is WRITTEN once the verify has been stopped. -/
theorem verifyHalted_verifying {o : Nat} (hc : s.clips[k] = some c) (hd : c.copies[d] = .verifying o) :
    c.copies[d].verifyHalted k s.dests[d].context = .written o := by
  obtain ⟨v, hv, hk, rfl⟩ := (hA.2.2.2.2 d k o).mp ⟨c, hc, hd⟩
  rw [hv]
  exact if_pos hk

/-- R71: a copy that is not VERIFYING is in no verify. -/
theorem context_unnamed (hc : s.clips[k] = some c) (hd : ∀ o, c.copies[d] ≠ .verifying o) (v : VerifyContext)
    (hv : s.dests[d].context = some v) : v.clip ≠ k := by
  rintro rfl
  obtain ⟨b, hb, hco⟩ := (hA.2.2.2.2 d v.clip v.offset).mpr ⟨v, hv, rfl, rfl⟩
  obtain rfl : b = c := Option.some.inj (hb.symm.trans hc)
  exact hd _ hco

variable (hT : TablesOk s)
include hT

theorem allHalted_channel (hst : s.cards[h].state.isCopying = true) (hso : s.cards[h].source = some p)
    (hp : s.channels[p].state ≠ .idle) : (allHalted s).channels[p].Idles s.channels[p].tagCounter := by
  rw [(allHalted_verifies s).channels,
    (haltCards_stop hT hA allCards allCards_sorted).1.idled h p (mem_allCards h) hst hso hp]
  exact Channel.idle_idles _

theorem allHalted_running (hp : s.channels[p].state = .running) :
    (allHalted s).channels[p].Idles s.channels[p].tagCounter := by
  obtain ⟨k, c, -, hc, hflies, hso, -⟩ := hA.2.1 p hp
  refine allHalted_channel hA hT ((CardState.isCopying_iff _).mpr ?_) hso (by rw [hp]; decide)
  exact (hA.flying hc hflies).1.imp_right .inl

/-- R30, R36, R57, R68: a destination once everything has been stopped. -/
theorem allHalted_dest (d : DestId) : ∃ joined : List ClipId, (∀ k, k ∈ joined ↔ Finished s d k)
    ∧ ∀ (x : Dest) (reads : List VerifyFetch), x = s.dests[d] →
      reads = x.fetches.filter (fun f => x.context.isNone || f.use.isNone) → (allHalted s).dests[d] =
        { x with
          holder := none
          draining := if x.holder = none then x.draining else !x.stores.isEmpty
          context := none
          queue := (x.context.map VerifyContext.clip).toList ++ x.queue ++ joined
          fetches := reads
          stallTimer := if x.context.isSome ∧ x.stores = [] ∧ reads = [] then none else x.stallTimer } := by
  obtain ⟨-, hattempts⟩ := haltCards_stop hT hA allCards allCards_sorted
  obtain ⟨out, joined, hout, hjoined, hdest⟩ := hattempts.dests d
  refine ⟨joined, fun k => ?_, fun x reads hx hreads => ?_⟩
  · rw [hjoined, and_iff_right_iff_imp]
    rintro ⟨p, hp, hk, -⟩
    exact stoppedOf_running_all hA hp hk
  · subst hx
    obtain ⟨hcontext, hfetches⟩ := haltCards_sameReads s d
    rw [(allHalted_verifies s).dests, if_pos (mem_allDests d), Dest.verifyHalted_eq _ reads (by rw [hcontext, hfetches, hreads]),
      hdest]
    cases hd : s.dests[d].holder with
    | none =>
      have hstays : out = false := Bool.eq_false_iff.mpr fun he => by
        obtain ⟨k, hk, -⟩ := hout.mp he
        rw [hd] at hk
        cases hk
      simpa [hstays] using hd
    | some k =>
      have hleaves : out = true := hout.mpr ⟨k, hd, stoppedOf_holder hA hd⟩
      simp [hleaves, Dest.dropped]

/-- R67, R68: a clip once everything has been stopped. -/
theorem allHalted_clip (hc : s.clips[k] = some c) : ∃ y, (allHalted s).clips[k] = some y
    ∧ (∀ d : DestId, y.copies[d] =
      if s.dests[d].holder = some k then .none else c.copies[d].verifyHalted k s.dests[d].context)
    ∧ (c.state ≠ .inFlight → y = { c with copies := y.copies })
    ∧ (c.state = .inFlight → ∃ x, c.StopsTo s k x ∧ y = { x with copies := y.copies }) := by
  obtain ⟨-, hattempts⟩ := haltCards_stop hT hA allCards allCards_sorted
  have held (d : DestId) (hd : s.dests[d].holder = some k) (v : VerifyContext) (hv : s.dests[d].context = some v) :
      v.clip ≠ k := context_unnamed hA hc (fun o => by rw [hA.heldCopy hd hc]; exact Copy.noConfusion) v hv
  by_cases hflies : c.state = .inFlight
  · obtain ⟨x, hx, hstops⟩ := hattempts.clip k c hc ((stoppedOf_all hc).mpr hflies)
    obtain ⟨y, hy, hyx, hcopies⟩ := (allHalted_verifies s).clips k x hx
    refine ⟨y, hy, fun d => ?_, fun hne => absurd hflies hne, fun _ => ⟨x, hstops, hyx⟩⟩
    rw [hcopies, if_pos (mem_allDests d), (haltCards_sameReads s d).1, hstops.copies]
    by_cases hd : s.dests[d].holder = some k
    · rw [if_pos hd, if_pos hd, Copy.verifyHalted_unnamed (held d hd)]
    · rw [if_neg hd, if_neg hd]
  · have hkept := hattempts.clips k (mt (stoppedOf_all hc).mp hflies)
    obtain ⟨y, hy, hyc, hcopies⟩ := (allHalted_verifies s).clips k c (hkept.trans hc)
    refine ⟨y, hy, fun d => ?_, fun _ => hyc, fun he => absurd he hflies⟩
    rw [hcopies, if_pos (mem_allDests d), (haltCards_sameReads s d).1,
      if_neg fun hd => hflies ((stoppedOf_all hc).mp (stoppedOf_holder hA hd))]

/-- R147, R148, R67: the CLIP_FAILED faults of all the cards. -/
theorem allHalted_log : ∃ failed : List (CardId × ClipId), failed.Pairwise (fun a b => a.1 < b.1)
    ∧ (∀ (h : CardId) (k : ClipId), (h, k) ∈ failed ↔
        ∃ c, s.clips[k] = some c ∧ c.card = h ∧ c.state = .inFlight ∧ 3 ≤ c.failed + 1)
    ∧ (allHalted s).log = clipsFailed s.log failed := by
  obtain ⟨-, hattempts⟩ := haltCards_stop hT hA allCards allCards_sorted
  obtain ⟨failed, hsorted, hfailed, hlog⟩ := hattempts.log
  refine ⟨failed, hsorted, fun h k => ?_, (allHalted_verifies s).log.trans hlog⟩
  rw [hfailed]
  exact exists_congr fun c => and_congr_right fun hc => and_congr_right fun _ => and_congr_left fun _ => stoppedOf_all hc

end Agreeing

/-! ## The event that follows -/

/-- R45, R72: with no card copying only verifies start. -/
theorem afterEvent_idle (hidle : ∀ g : CardId, s.cards[g].state.isCopying = false) : afterEvent s = startVerifies s := by
  rw [afterEvent, evalGrant_idle fun g hg => by
    have hnot := hidle g
    rw [hg] at hnot
    cases hnot]

section AcceptWith

variable (n : Nat) (s : Part)

theorem acceptWith_cards : (acceptWith n s).cards = s.cards := rfl
theorem acceptWith_clips : (acceptWith n s).clips = s.clips := rfl
theorem acceptWith_channels : (acceptWith n s).channels = s.channels := rfl
theorem acceptWith_dests : (acceptWith n s).dests = s.dests := rfl
theorem acceptWith_log : (acceptWith n s).log = s.log := rfl

end AcceptWith

theorem startVerifies_cards : (startVerifies s).cards = s.cards := by rw [startVerifies_frame]

theorem startVerifies_fetches : (startVerifies s).dests[d].fetches = s.dests[d].fetches := by
  rw [startVerifies_dests, Dest.verifying_kept]

theorem haltCount_eq (s : Part) : haltCount s = allCards.countP fun h =>
    s.cards[h].state == .copying || s.cards[h].state == .suspending || s.cards[h].state == .suspended := by
  refine congrArg (allCards.countP ·) (funext fun h => ?_)
  cases s.cards[h].state <;> rfl

end Sys2Proof.Machine

namespace Sys2Proof.Proofs
open Machine

/-- Settles O22: the part before the grant is `allHalted` in ACCEPTING; the rest is what the lemmas on it say. -/
theorem haltAll : Obligations.HaltAll := by
  intro s tag hs
  have hafter : afterEvent (acceptWith s.part.unit.status.count (allHalted s.part)) =
      startVerifies (acceptWith s.part.unit.status.count (allHalted s.part)) := afterEvent_idle fun g => by
    rw [acceptWith_cards]
    exact allHalted_none s.part g
  refine ⟨_, acceptWith s.part.unit.status.count (allHalted s.part), rfl, ?_, ?_, fun h => ?_, fun d hd => ?_,
    fun hT hA => ⟨fun p hp => ?_, fun d => ?_, fun k c hc => ?_, ?_⟩⟩
  · refine answers_of rfl hs (.inr rfl) ?_
    rw [← haltCount_eq]
    rfl
  · obtain ⟨-, -, -, -, -, -, -, -, -, -, -, hunit, -⟩ :=
      (afterEvent_engine (acceptWith s.part.unit.status.count (allHalted s.part))).fields
    rw [hunit]
    rfl
  · rw [hafter, startVerifies_cards, acceptWith_cards]
    have hnone := allHalted_none s.part h
    refine ⟨fun e => ?_, fun e => ?_, fun e => ?_, fun hst => allHalted_halted ((CardState.isCopying_iff _).mpr hst)⟩
    all_goals
      rw [e] at hnone
      cases hnone
  · rw [hafter, startVerifies_fetches, acceptWith_dests]
    exact allHalted_reads hd
  · rw [acceptWith_channels]
    rcases hp with hp | ⟨hp, h, hso, hst⟩
    · exact allHalted_running hA hT hp
    · exact allHalted_channel hA hT ((CardState.isCopying_iff _).mpr hst) hso (by rw [hp]; decide)
  · rw [acceptWith_dests]
    exact allHalted_dest hA hT d
  · rw [acceptWith_clips]
    obtain ⟨y, hy, hcopies, hstays, hstops⟩ := allHalted_clip hA hT hc
    refine ⟨y, hy, fun d => ?_, hstays, fun hflies => ?_⟩
    · rw [hcopies]
      refine ite_congr rfl (fun _ => rfl) fun _ => ?_
      split
      · rename_i o hco
        exact verifyHalted_verifying hA hc hco
      · rename_i hco
        exact Copy.verifyHalted_unnamed (context_unnamed hA hc hco) _
    · obtain ⟨x, hx, hyx⟩ := hstops hflies
      rw [hyx]
      exact ⟨hx.restarted, hx.digest, hx.again, hx.third⟩
  · rw [acceptWith_log]
    exact allHalted_log hA hT

end Sys2Proof.Proofs
end

