-- ==== Sys2Proof/Proofs/Lines.lean ====
section
/-! PROOF. LINE (R93 to R95, R128): the checks it is dropped for, and what the pixels of a taken one come to. -/

namespace Sys2Proof.Machine

/-! ## What the station link takes -/

/-- R173: the effect of a picture parcel while the station link listens. -/
theorem exec_taken {s : State} {c : Instr} {f : Part → Part} (hexec : exec c s = .next (s.onPart (ingress c f)))
    (hs : s.listens) : exec c s = .next { s with part := f s.part } := by
  rw [hexec, State.onPart, ingress_listens _ _ _ hs.1 hs.2]

/-! ## LINE_ORDER (R93, R96) -/

theorem leNat_lt (l : List Byte) : leNat l < 256 ^ l.length := by
  induction l with
  | nil => decide
  | cons b bs ih =>
    have hb : b.toNat < 256 := b.isLt
    rw [leNat, List.length_cons, Nat.pow_succ]
    omega

/-- R168: a field of two bytes is below 2^16. -/
theorem field_two_mod (bytes : List Byte) (offset : Nat) : field bytes offset 2 % 65536 = field bytes offset 2 := by
  refine Nat.mod_eq_of_lt ((leNat_lt _).trans_le ?_)
  have hlen : (fieldBytes bytes offset 2).length ≤ 2 := List.length_take_le ..
  exact Nat.pow_le_pow_right (by decide) hlen

/-- R147: a fault is raised after clearance when it names a card in CLEARED. -/
theorem afterClearance_eq (s : Part) (r : Report) :
    afterClearance s r = (r.card.map fun h => decide (s.cards[h].state = .cleared)).getD false := by
  unfold afterClearance
  cases r.card <;> rfl

theorem carried_long {p : Rx} (hp : 2 ≤ p.payload.length) (s : Part) : carried p s = (field p.payload 0 2, s) :=
  if_pos hp

theorem lineOrderReport_kind (s : Part) (reason value : Nat) : (lineOrderReport s reason value).kind = .lineOrder := by
  unfold lineOrderReport
  split <;> rfl

/-- R93, R96: a parcel dropped with LINE_ORDER is logged, and nothing else happens. -/
theorem raise_lineOrder (s : Part) (reason value : Nat) : raise (lineOrderReport s reason value) s =
    { s with
      log := logFault (((lineOrderReport s reason value).card.map fun h => decide (s.cards[h].state = .cleared)).getD false)
        (lineOrderReport s reason value) s.log } := by
  rw [raise_unmarked _ _ (by rw [lineOrderReport_kind]; rfl) (by rw [lineOrderReport_kind]; rfl), afterClearance_eq]

/-- R93: the report of a parcel that carries its line index, against no frame. -/
theorem lineOrderReport_none {s : Part} (hf : s.frame = none) (reason : Nat) (bytes : List Byte) :
    lineOrderReport s reason (field bytes 0 2) =
      ⟨.lineOrder, none, none, none, none, reason * 65536 + field bytes 0 2⟩ := by
  rw [lineOrderReport, hf, field_two_mod]

/-- R93: the report of a parcel that carries its line index, against the open frame. -/
theorem lineOrderReport_some {s : Part} {f : OpenFrame} (hf : s.frame = some f) (reason : Nat) (bytes : List Byte) :
    lineOrderReport s reason (field bytes 0 2) =
      ⟨.lineOrder, f.clip.bind (clipCard s), f.clip, none, some (f.number, f.tc), reason * 65536 + field bytes 0 2⟩ := by
  rw [lineOrderReport, hf, field_two_mod]
  rfl

/-! ## The checks of a LINE (R93) -/

theorem outOfOrder_iff (f : OpenFrame) (line column : Nat) : outOfOrder f line column = true ↔
    ∃ l e, f.previous = some (l, e) ∧ (line < l ∨ (line = l ∧ column < e)) := by
  unfold outOfOrder
  cases f.previous with
  | none => simp
  | some prev => simp [Prod.ext_iff]

/-- R93: a LINE that follows the previous parcel. -/
theorem outOfOrder_false {f : OpenFrame} {line column : Nat}
    (hfollows : ∀ l e, f.previous = some (l, e) → l < line ∨ (l = line ∧ e ≤ column)) :
    outOfOrder f line column = false := by
  refine Bool.eq_false_iff.mpr fun hout => ?_
  obtain ⟨l, e, hprev, hbefore⟩ := (outOfOrder_iff f line column).mp hout
  have hafter := hfollows l e hprev
  omega

/-- R93: a LINE that follows the previous parcel begins a line unless it is of the same one. -/
theorem beginsLine_of_follows {f : OpenFrame} {line column : Nat}
    (hfollows : ∀ l e, f.previous = some (l, e) → l < line ∨ (l = line ∧ e ≤ column)) (n : Nat) :
    (if beginsLine f line then n + 1 else n) = if f.previous.map Prod.fst = some line then n else n + 1 := by
  unfold beginsLine
  cases hprev : f.previous with
  | none => rfl
  | some prev =>
    have hafter := hfollows prev.1 prev.2 hprev
    simp only [decide_eq_true_eq, Option.map_some, Option.some.injEq]
    split <;> split <;> omega

/-- R93: the reason a LINE is dropped for, where one of its checks fails. -/
theorem lineArrives_dropped {s : Part} {b : Rx} (monitor : Bool) {reason : Nat}
    (hreason : (reason = 4 ∧ lineDamaged b = true ∧ 2 ≤ b.payload.length)
      ∨ (lineDamaged b = false ∧ ((reason = 1 ∧ s.frame = none)
        ∨ ∃ f, s.frame = some f ∧ ((reason = 2 ∧ f.height ≤ field b.payload 0 2)
          ∨ (reason = 3 ∧ field b.payload 0 2 < f.height
            ∧ outOfOrder f (field b.payload 0 2) (field b.payload 2 2) = true))))) :
    lineArrives b monitor s = raise (lineOrderReport s reason (field b.payload 0 2)) s := by
  unfold lineArrives
  rcases hreason with ⟨rfl, hdamaged, hlong⟩ | ⟨hwhole, hcheck⟩
  · rw [if_pos hdamaged, carried_long hlong]
  · rw [if_neg (by rw [hwhole]; decide)]
    rcases hcheck with ⟨rfl, hf⟩ | ⟨f, hf, ⟨rfl, hbeyond⟩ | ⟨rfl, hwithin, horder⟩⟩ <;> rw [hf] <;> dsimp only
    · rw [if_pos hbeyond]
    · rw [if_neg (by omega), if_pos horder]

theorem lineArrives_taken {s : Part} {b : Rx} (monitor : Bool) {f : OpenFrame} (hwhole : lineDamaged b = false)
    (hf : s.frame = some f) (hwithin : field b.payload 0 2 < f.height)
    (horder : outOfOrder f (field b.payload 0 2) (field b.payload 2 2) = false) :
    lineArrives b monitor s = lineTaken b monitor f s := by
  unfold lineArrives
  rw [if_neg (by rw [hwhole]; decide), hf]
  dsimp only
  rw [if_neg (by omega), if_neg (by rw [horder]; decide)]

/-! ## The pixels of a LINE (R94, R105, R128) -/

/-- R94: the codes of the samples that stand below the width, the first at `column`. -/
def codesTaken (width column : Nat) (samples : List (Rgb Nat)) : List (Rgb Nat) :=
  (samples.take (width - column)).map (Rgb.map sampleCode)

/-- R128: the flags of a watched entry once the codes of a parcel, the first at `column`, have been seen. -/
def WatchEntry.seeAll (line column : Nat) (codes : List (Rgb Nat)) (e : WatchEntry) : WatchEntry :=
  match e.watched with
  | none => e
  | some w =>
    if e.line = line ∧ column ≤ e.column then
      match codes[e.column - column]? with
      | some x => { e with watched := some ⟨true, w.hit || decide (e.level ≤ max x.r (max x.g x.b))⟩ }
      | none => e
    else e

/-- R94, R128: what the codes of a parcel, the first at `column`, come to with their graded pixels. -/
def LineWork.after (looks : Vector LookSlot 8) (line column : Nat) (codes : List (Rgb Nat)) (w : LineWork) : LineWork where
  frame :=
    { w.frame with
      pixelsTaken := w.frame.pixelsTaken + codes.length
      pixelCount := w.frame.pixelCount + codes.length
      highCount := w.frame.highCount + codes.countP fun x => decide (w.frame.profile.highLevel ≤ maxCode x)
      lowCount := w.frame.lowCount + codes.countP fun x => decide (maxCode x ≤ w.frame.profile.lowLevel)
      excCount := w.frame.excCount + (mapFrom (gradePixel looks w.frame) column codes).countP Graded.excursion
      lumaSum := w.frame.lumaSum + (codes.map luma).sum }
  watch := w.watch.map (WatchEntry.seeAll line column codes)
  codes := w.codes ++ (mapFrom (gradePixel looks w.frame) column codes).map Graded.codes

theorem WatchEntry.seeAll_nil (line column : Nat) (e : WatchEntry) : e.seeAll line column [] = e := by
  unfold WatchEntry.seeAll
  split
  · rfl
  · simp

/-- R128: the first code is seen at its column, the others after it. -/
theorem WatchEntry.seeAll_cons (line column : Nat) (x : Rgb Nat) (codes : List (Rgb Nat)) (e : WatchEntry) :
    e.seeAll line column (x :: codes) = (e.see line column x).seeAll line (column + 1) codes := by
  cases hw : e.watched with
  | none => simp [WatchEntry.seeAll, WatchEntry.see, hw]
  | some w =>
    by_cases hline : e.line = line
    · rcases Nat.lt_trichotomy column e.column with hlt | heq | hgt
      · have hindex : e.column - column = (e.column - (column + 1)) + 1 := by omega
        have hsee : e.see line column x = e := by
          simp [WatchEntry.see, hw, Nat.ne_of_gt hlt]
        rw [hsee]
        simp only [WatchEntry.seeAll, hw, hline, hindex, List.getElem?_cons_succ, Nat.le_of_lt hlt, Nat.succ_le_of_lt hlt]
      · have hseen : e.see line column x =
            { e with watched := some ⟨true, w.hit || decide (e.level ≤ maxCode x)⟩ } := by
          simp [WatchEntry.see, hw, hline, heq]
        rw [hseen]
        simp [WatchEntry.seeAll, hw, hline, ← heq, maxCode]
      · have hsee : e.see line column x = e := by
          simp [WatchEntry.see, hw, Nat.ne_of_lt hgt]
        rw [hsee]
        simp only [WatchEntry.seeAll, hw, Nat.not_le_of_lt hgt, Nat.not_le_of_lt (Nat.lt_succ_of_lt hgt), and_false,
          if_false]
    · simp [WatchEntry.seeAll, WatchEntry.see, hw, hline]

theorem LineWork.after_nil (looks : Vector LookSlot 8) (line column : Nat) (w : LineWork) :
    w.after looks line column [] = w := by
  simp only [LineWork.after, mapFrom, List.map_nil, List.append_nil, List.length_nil, List.countP_nil, List.sum_nil,
    Nat.add_zero, funext (WatchEntry.seeAll_nil line column), List.map_id']

/-- R94, R105: a pixel is graded by the frame's slot and compare setting alone. -/
theorem gradePixel_congr (looks : Vector LookSlot 8) {f g : OpenFrame} (hslot : g.slot = f.slot)
    (hon : g.compareOn = f.compareOn) (hsplit : g.split = f.split) : gradePixel looks g = gradePixel looks f := by
  funext column codes
  unfold gradePixel slotAt
  rw [hslot, hon, hsplit]

theorem LineWork.after_cons (looks : Vector LookSlot 8) (line column : Nat) (sample : Rgb Nat) (codes : List (Rgb Nat))
    (w : LineWork) : (takePixel looks line column sample w).after looks line (column + 1) codes =
      w.after looks line column (sample.map sampleCode :: codes) := by
  have hgrade : gradePixel looks (takePixel looks line column sample w).frame = gradePixel looks w.frame :=
    gradePixel_congr looks rfl rfl rfl
  unfold LineWork.after
  rw [hgrade]
  simp only [takePixel, OpenFrame.count, mapFrom, List.length_cons, List.countP_cons, List.map_cons, List.sum_cons,
    List.map_map, decide_eq_true_eq, LineWork.mk.injEq, List.append_assoc, List.singleton_append, and_true,
    OpenFrame.mk.injEq, true_and]
  have joined (a b n : Nat) : a + b + n = a + (n + b) := by omega
  exact ⟨⟨joined _ _ _, joined _ _ _, joined _ _ _, joined _ _ _, joined _ _ _, Nat.add_assoc _ _ _⟩,
    List.map_congr_left fun e _ => (WatchEntry.seeAll_cons line column _ codes e).symm⟩

/-- R94: the pixels of a LINE come to what its codes below the width come to. -/
theorem takePixels_eq (looks : Vector LookSlot 8) (line : Nat) (samples : List (Rgb Nat)) (column : Nat) (w : LineWork) :
    takePixels looks line column samples w = w.after looks line column (codesTaken w.frame.width column samples) := by
  induction samples generalizing column w with
  | nil => rw [takePixels, codesTaken, List.take_nil, List.map_nil, LineWork.after_nil]
  | cons x xs ih =>
    rw [takePixels]
    split
    · rename_i hbelow
      have hwidth : (takePixel looks line column x w).frame.width = w.frame.width := rfl
      have hcodes : codesTaken w.frame.width column (x :: xs) =
          x.map sampleCode :: codesTaken w.frame.width (column + 1) xs := by
        unfold codesTaken
        rw [show w.frame.width - column = (w.frame.width - (column + 1)) + 1 by omega]
        rfl
      rw [ih, hwidth, LineWork.after_cons, hcodes]
    · rename_i hbeyond
      have hnone (c : Nat) (hc : w.frame.width ≤ c) (ys : List (Rgb Nat)) : codesTaken w.frame.width c ys = [] := by
        rw [codesTaken, Nat.sub_eq_zero_of_le hc, List.take_zero, List.map_nil]
      rw [ih, hnone _ (by omega), hnone _ (by omega), LineWork.after_nil, LineWork.after_nil]

theorem map_sampleCode : Rgb.map sampleCode = fun x => ⟨min x.r 4095, min x.g 4095, min x.b 4095⟩ := by
  have capped (w : Nat) : sampleCode w = min w 4095 := by
    unfold sampleCode
    split <;> omega
  exact funext fun x => by simp only [Rgb.map, capped]

/-- R93 to R95, R128: a LINE that is taken. -/
theorem lineTaken_eq (b : Rx) (monitor : Bool) (f : OpenFrame) (s : Part) {line column : Nat} {codes : List (Rgb Nat)}
    {graded : List Graded} (hline : line = field b.payload 0 2) (hcolumn : column = field b.payload 2 2)
    (hcodes : codes = codesTaken f.width column (readPixels (b.payload.drop 6)))
    (hgraded : graded = mapFrom (gradePixel s.looks f) column codes) :
    lineTaken b monitor f s =
      { s with
        frame := some
          { f with
            linesTaken := if beginsLine f line then f.linesTaken + 1 else f.linesTaken
            previous := some (line, column + field b.payload 4 2)
            pixelsTaken := f.pixelsTaken + codes.length
            pixelCount := f.pixelCount + codes.length
            highCount := f.highCount + codes.countP fun x => decide (f.profile.highLevel ≤ maxCode x)
            lowCount := f.lowCount + codes.countP fun x => decide (maxCode x ≤ f.profile.lowLevel)
            excCount := f.excCount + graded.countP Graded.excursion
            lumaSum := f.lumaSum + (codes.map luma).sum }
        watch := s.watch.map (WatchEntry.seeAll line column codes)
        out := if monitor = true ∧ codes ≠ []
          then .monitor (monitorParcel f.number line column (graded.map Graded.codes)) :: s.out else s.out } := by
  subst hline hcolumn hgraded
  have hsent (g : Nat → Rgb Nat → Graded) (i : Nat) :
      ((mapFrom g i codes).map Graded.codes).isEmpty = true ↔ codes = [] := by
    cases codes <;> simp [mapFrom]
  unfold lineTaken
  dsimp only
  rw [takePixels_eq]
  dsimp only
  rw [← hcodes]
  unfold LineWork.after
  rw [List.nil_append]
  congr 1
  refine ite_congr (propext ?_) (fun _ => rfl) fun _ => rfl
  rw [Bool.and_eq_true, Bool.not_eq_true', Bool.eq_false_iff, Ne, hsent]

end Sys2Proof.Machine

namespace Sys2Proof.Proofs
open Machine

/-- Settles O44: a LINE that fails a check is dropped (`lineArrives_dropped`); the pixels of one that is taken come to what
`takePixels_eq` says. -/
theorem line : Obligations.Line := by
  intro s b monitor line column hs hline hcolumn
  have hexec : exec (.line b monitor) s = .next { s with part := lineArrives b monitor s.part } := exec_taken rfl hs
  refine ⟨fun reason r hr hreason => ?_, fun f codes graded hwhole hf hwithin hfollows hcodes hgraded => ?_⟩
  · subst hline hcolumn
    have hreport : lineOrderReport s.part reason (field b.payload 0 2) = r := by
      cases hf : s.part.frame with
      | none => rw [lineOrderReport_none hf, hr, hf]
      | some f =>
        rw [lineOrderReport_some hf, hr, hf]
        rfl
    rw [hexec, lineArrives_dropped monitor (reason := reason) (by simpa only [outOfOrder_iff] using hreason),
      raise_lineOrder, hreport]
  · have htaken : codes = codesTaken f.width column (readPixels (b.payload.drop 6)) := by
      rw [hcodes, codesTaken, map_sampleCode]
    refine ⟨_, hexec, ?_⟩
    dsimp only
    rw [lineArrives_taken monitor hwhole hf (hline ▸ hwithin) (hline ▸ hcolumn ▸ outOfOrder_false hfollows),
      lineTaken_eq b monitor f s.part hline hcolumn htaken hgraded, beginsLine_of_follows hfollows]
    exact ⟨rfl, rfl⟩

end Sys2Proof.Proofs
end

