-- ==== Sys2Proof/Proofs/FrameFaults.lean ====
section
/-! PROOF. The faults of the end of a frame (R97, R131, R135 to R140): raised one after another, what they leave in the log
(`raiseAll_log`) and on the frame's clip and its card (`FrameMarks`). -/

namespace Sys2Proof.Machine

variable {f : OpenFrame} {s t u : Part} {k : ClipId} {c y z : Clip} {after : Bool} {card : Option CardId}

/-! ## Sets of fault kinds -/

/-- R144: the fault kinds in the order of their codes. -/
def allKinds : Vector FaultKind 24 :=
  #v[.sourceRead, .clipFailed, .sourceLost, .sourceDigest, .copyShort, .destShortfall, .storeError, .destStall, .destLost,
    .destFull, .verifyMismatch, .verifyRead, .exposureHigh, .exposureLow, .gamutExcursion, .hotPixel, .frameGap,
    .frameRepeat, .tcBreak, .shortFrame, .tcMalformed, .lineOrder, .orphanPicture, .directiveLock]

theorem allKinds_index (i : Fin 24) : allKinds[i].index = i := by decide +revert

theorem FaultKind.index_inj {a b : FaultKind} (h : a.index = b.index) : a = b := by
  have listed (x : FaultKind) : allKinds[x.index] = x := by cases x <;> rfl
  exact (listed a).symm.trans ((congrArg (fun i : Fin 24 => allKinds[i]) h).trans (listed b))

theorem MarkSet.ext_has {a b : MarkSet} (h : ∀ g, a.has g = b.has g) : a = b := by
  have entry (m : MarkSet) (i : Fin 24) : m.has allKinds[i] = m[i] := congrArg (fun j : Fin 24 => m[j]) (allKinds_index i)
  exact Vector.ext fun i hi => (entry a ⟨i, hi⟩).symm.trans ((h _).trans (entry b ⟨i, hi⟩))

theorem MarkSet.insert_has (m : MarkSet) (a g : FaultKind) : (m.insert a).has g = (m.has g || decide (g = a)) := by
  unfold MarkSet.has MarkSet.insert
  rw [get_set]
  by_cases hg : g = a
  · simp [hg]
  · rw [if_neg (fun e => hg (FaultKind.index_inj e.symm))]
    simp [hg]

/-! ## Faults raised one after another -/

/-- R97: the faults of a frame, each with its detail, raised in their order. -/
def raiseAll (f : OpenFrame) (xs : List (FaultKind × Nat)) (s : Part) : Part :=
  xs.foldl (fun t x => raiseFrame f x.1 x.2 t) s

theorem raiseAll_nil : raiseAll f [] s = s := rfl

theorem raiseAll_cons (x : FaultKind × Nat) (xs : List (FaultKind × Nat)) :
    raiseAll f (x :: xs) s = raiseAll f xs (raiseFrame f x.1 x.2 s) := rfl

theorem raiseAll_append (xs ys : List (FaultKind × Nat)) : raiseAll f (xs ++ ys) s = raiseAll f ys (raiseAll f xs s) :=
  List.foldl_append

/-- R145: a report on the open frame is aimed at the card of its clip. -/
theorem frameReport_aimed (f : OpenFrame) (s : Part) (kind : FaultKind) (n : Nat) : Aimed (frameReport s f kind n) s := by
  intro _ k c hk hc
  have hclip : f.clip = some k := hk
  rw [frameReport, hclip, Option.bind_some, clipCard, hc, Option.map_some]

theorem raiseFrame_frame (f : OpenFrame) (kind : FaultKind) (n : Nat) (s : Part) : raiseFrame f kind n s =
    { s with
      log := (raiseFrame f kind n s).log, cards := (raiseFrame f kind n s).cards
      clips := (raiseFrame f kind n s).clips, notices := (raiseFrame f kind n s).notices } := raise_frame s _

theorem raiseAll_frame (f : OpenFrame) (xs : List (FaultKind × Nat)) (s : Part) : raiseAll f xs s =
    { s with
      log := (raiseAll f xs s).log, cards := (raiseAll f xs s).cards
      clips := (raiseAll f xs s).clips, notices := (raiseAll f xs s).notices } := by
  induction xs generalizing s with
  | nil => rfl
  | cons x xs ih => rw [raiseAll_cons, ih, raiseFrame_frame]

/-! ## The log (R145 to R148) -/

/-- R145, R147: the card of the frame's clip, and whether that card is CLEARED. -/
structure Attached (f : OpenFrame) (card : Option CardId) (after : Bool) (s : Part) : Prop where
  owner   : f.clip.bind (clipCard s) = card
  cleared : (card.map fun h => decide (s.cards[h].state = .cleared)).getD false = after

theorem Attached.of_kept (ha : Attached f card after s) (howner : ∀ k, clipCard t k = clipCard s k)
    (hcleared : ∀ h : CardId, t.cards[h].state = .cleared ↔ s.cards[h].state = .cleared) : Attached f card after t := by
  refine ⟨?_, ?_⟩
  · rw [funext howner]
    exact ha.owner
  · simp only [hcleared]
    exact ha.cleared

/-- R155: no fault takes a card into CLEARED or out of it. -/
theorem raise_cleared (s : Part) (r : Report) (h : CardId) :
    (raise r s).cards[h].state = .cleared ↔ s.cards[h].state = .cleared := by
  rcases (raise_card s h r).state with hsame | ⟨hcopied, hheld⟩
  · rw [hsame]
  · rw [hcopied, hheld]
    decide

theorem Attached.raiseFrame (ha : Attached f card after s) (kind : FaultKind) (n : Nat) :
    Attached f card after (raiseFrame f kind n s) :=
  ha.of_kept (fun k => (raise_keeps s (frameReport s f kind n)).owner k) (raise_cleared s _)

theorem Attached.raiseAll (ha : Attached f card after s) (xs : List (FaultKind × Nat)) :
    Attached f card after (raiseAll f xs s) := by
  induction xs generalizing s with
  | nil => exact ha
  | cons x xs ih => exact ih (ha.raiseFrame x.1 x.2)

theorem Attached.modClip (ha : Attached f card after s) (k : ClipId) {g : Clip → Clip} (hg : ∀ b, (g b).card = b.card) :
    Attached f card after (modClip k g s) :=
  ha.of_kept (modClip_owner s k g hg) fun h => by rw [modClip_cards]

theorem raiseAll_log (ha : Attached f card after s) (xs : List (FaultKind × Nat)) : (raiseAll f xs s).log =
    xs.foldl (fun l x => logFault after ⟨x.1, card, f.clip, none, some (f.number, f.tc), x.2⟩ l) s.log := by
  induction xs generalizing s with
  | nil => rfl
  | cons x xs ih =>
    have hreport : frameReport s f x.1 x.2 = ⟨x.1, card, f.clip, none, some (f.number, f.tc), x.2⟩ := by
      rw [frameReport, ha.owner]
    rw [raiseAll_cons, ih (ha.raiseFrame x.1 x.2), List.foldl_cons, raiseFrame, raise_log, hreport, afterClearance_eq,
      ha.cleared]

/-! ## A frame without a clip -/

/-- R146: a fault of a frame without a clip marks nothing. -/
theorem raiseAll_orphan (hf : f.clip = none) (xs : List (FaultKind × Nat)) (s : Part) :
    (raiseAll f xs s).cards = s.cards ∧ (raiseAll f xs s).clips = s.clips := by
  induction xs generalizing s with
  | nil => exact ⟨rfl, rfl⟩
  | cons x xs ih =>
    have hraise : raiseFrame f x.1 x.2 s = { s with log := (raiseFrame f x.1 x.2 s).log } := by
      have hreport : frameReport s f x.1 x.2 = ⟨x.1, none, none, none, some (f.number, f.tc), x.2⟩ := by
        rw [frameReport, hf]
        rfl
      rw [raiseFrame, hreport]
      simp only [raise, openMark, ite_self]
      rfl
    obtain ⟨hcards, hclips⟩ := ih (raiseFrame f x.1 x.2 s)
    rw [raiseAll_cons, hcards, hclips, hraise]
    exact ⟨rfl, rfl⟩

/-! ## The marks of a frame's clip (R153 to R155) -/

/-- From `s` to `t` the clip `k` goes from `c` to `y` with the marks of `kinds` opened, unless its card is CLEARED, and a
COPIED card goes to HELD where one opens anew. -/
structure FrameMarks (after : Bool) (k : ClipId) (kinds : List FaultKind) (c y : Clip) (s t : Part) : Prop where
  clip  : t.clips[k] = some y
  card  : y.card = c.card
  marks : ∀ g, y.openMarks.has g = (c.openMarks.has g || (!after && g.marksClip && decide (g ∈ kinds)))
  state : t.cards[c.card].state =
    if s.cards[c.card].state = .copied ∧ y.openMarks ≠ c.openMarks then .held else s.cards[c.card].state

/-- A change that opens no mark. -/
theorem FrameMarks.of_kept (hclip : t.clips[k] = some y) (hcard : y.card = c.card) (hmarks : y.openMarks = c.openMarks)
    (hcards : t.cards = s.cards) : FrameMarks after k [] c y s t :=
  ⟨hclip, hcard, by simp [hmarks], by simp [hmarks, hcards]⟩

/-- R155: the card is CLEARED as before. -/
theorem FrameMarks.cleared {kinds : List FaultKind} (hm : FrameMarks after k kinds c y s t) :
    decide (t.cards[y.card].state = .cleared) = decide (s.cards[c.card].state = .cleared) := by
  rw [t.card_congr hm.card, hm.state]
  split
  · rename_i hcopied
    rw [hcopied.1]
    decide
  · rfl

theorem FrameMarks.trans {xs ys : List FaultKind} (a : FrameMarks after k xs c y s t) (b : FrameMarks after k ys y z t u) :
    FrameMarks after k (xs ++ ys) c z s u where
  clip := b.clip
  card := b.card.trans a.card
  marks g := by
    rw [b.marks, a.marks]
    simp only [List.mem_append, Bool.decide_or, Bool.and_or_distrib_left, Bool.or_assoc]
  state := by
    have hstill : z.openMarks = c.openMarks ↔ y.openMarks = c.openMarks ∧ z.openMarks = y.openMarks := by
      refine ⟨fun h => ?_, fun h => h.2.trans h.1⟩
      have hsame : y.openMarks = c.openMarks := MarkSet.ext_has fun g => by
        have hz := b.marks g
        have hy := a.marks g
        rw [h] at hz
        cases hc : c.openMarks.has g <;> cases hyg : y.openMarks.has g <;> simp_all
      exact ⟨hsame, h.trans hsame.symm⟩
    have hstate := b.state
    rw [u.card_congr a.card, t.card_congr a.card, a.state] at hstate
    simp only [hstate, ne_eq, hstill]
    generalize s.cards[c.card].state = st
    by_cases hcopied : st = .copied
    · by_cases hsame : y.openMarks = c.openMarks <;> simp [hcopied, hsame]
    · simp [hcopied]

/-- A clip changed but for its marks. -/
theorem modClip_frameMarks (hc : s.clips[k] = some c) {g : Clip → Clip} (hcard : (g c).card = c.card)
    (hmarks : (g c).openMarks = c.openMarks) : FrameMarks after k [] c (g c) s (modClip k g s) :=
  .of_kept (by rw [modClip_get, if_pos rfl, hc, Option.map_some]) hcard hmarks (modClip_cards s k g)

/-- R146, R147, R153, R155: a fault of the frame, on its clip. -/
theorem raiseFrame_marks (hf : f.clip = some k) (hc : s.clips[k] = some c)
    (hafter : decide (s.cards[c.card].state = .cleared) = after) {kind : FaultKind} (hkind : kind.marksCard = false)
    (n : Nat) :
    ∃ m w, FrameMarks after k [kind] c { c with openMarks := m, waivedMarks := w } s (raiseFrame f kind n s) := by
  have hreport : frameReport s f kind n = ⟨kind, some c.card, some k, none, some (f.number, f.tc), n⟩ := by
    rw [frameReport, hf, Option.bind_some, clipCard, hc, Option.map_some]
  have hraises : afterClearance s ⟨kind, some c.card, some k, none, some (f.number, f.tc), n⟩ = after := hafter
  rw [raiseFrame, hreport]
  have unmarked (l : FaultLog)
      (hnone : ∀ g, c.openMarks.has g = (c.openMarks.has g || (!after && g.marksClip && decide (g ∈ [kind])))) :
      ∃ m w, FrameMarks after k [kind] c { c with openMarks := m, waivedMarks := w } s { s with log := l } :=
    ⟨c.openMarks, c.waivedMarks, hc, rfl, hnone, (if_neg fun h => h.2 rfl).symm⟩
  cases hclip : kind.marksClip with
  | false =>
    rw [raise_unmarked _ _ hkind hclip]
    refine unmarked _ fun g => ?_
    by_cases hg : g = kind
    · simp [hg, hclip]
    · simp [hg]
  | true =>
    cases after with
    | true =>
      rw [raise, if_pos hraises]
      exact unmarked _ fun g => by simp
    | false =>
      have hraise : raise ⟨kind, some c.card, some k, none, some (f.number, f.tc), n⟩ s = openClipMark k kind
          { s with log := logFault false ⟨kind, some c.card, some k, none, some (f.number, f.tc), n⟩ s.log } := by
        rw [raise, if_neg (by rw [hraises]; decide), openMark, hkind, hclip]
        rfl
      rw [hraise]
      generalize logFault false ⟨kind, some c.card, some k, none, some (f.number, f.tc), n⟩ s.log = l
      cases hopen : c.openMarks.has kind with
      | true =>
        rw [openClipMark_open (s := { s with log := l }) hc hopen]
        refine unmarked _ fun g => ?_
        by_cases hg : g = kind
        · simp [hg, hopen]
        · simp [hg]
      | false =>
        obtain ⟨hclips, hcards⟩ := openClipMark_writes (s := { s with log := l }) hc hopen
        refine ⟨c.openMarks.insert kind, c.waivedMarks.erase kind, by rw [hclips, get_set, if_pos rfl], rfl, fun g => ?_, ?_⟩
        · dsimp only
          rw [MarkSet.insert_has]
          by_cases hg : g = kind
          · simp [hg, hclip]
          · simp [hg]
        · have hnew : c.openMarks.insert kind ≠ c.openMarks := fun h => by
            have hhas := MarkSet.has_insert_self c.openMarks kind
            rw [h, hopen] at hhas
            cases hhas
          rw [hcards, get_set, if_pos rfl]
          simp only [ne_eq, hnew, not_false_eq_true, and_true]

theorem raiseAll_marks (hf : f.clip = some k) (hc : s.clips[k] = some c)
    (hafter : decide (s.cards[c.card].state = .cleared) = after) (xs : List (FaultKind × Nat))
    (hkinds : ∀ x ∈ xs, x.1.marksCard = false) :
    ∃ m w, FrameMarks after k (xs.map Prod.fst) c { c with openMarks := m, waivedMarks := w } s (raiseAll f xs s) := by
  induction xs generalizing s c with
  | nil => exact ⟨c.openMarks, c.waivedMarks, .of_kept hc rfl rfl rfl⟩
  | cons x xs ih =>
    obtain ⟨m, w, hfirst⟩ := raiseFrame_marks hf hc hafter (hkinds x List.mem_cons_self) x.2
    obtain ⟨m', w', hrest⟩ := ih hfirst.clip (hfirst.cleared.trans hafter) fun y hy => hkinds y (List.mem_cons_of_mem x hy)
    exact ⟨m', w', hfirst.trans hrest⟩

end Sys2Proof.Machine
end

