-- ==== Sys2Proof/Proofs/FrameEnds.lean ====
section
/-! PROOF. The end of a frame (R96 to R101, R121, R129 to R143): its faults as one list, the fields the check unit and the
commits write, and the clip and the card it is accounted to. -/

namespace Sys2Proof.Machine

variable {f : OpenFrame} {s : Part} {short abandoned : Bool} {runs : RunFlags} {watch : List WatchEntry}

/-! ## The check unit (R129 to R137) -/

/-- The part with the check unit's own fields as given (R130, R131, R135). -/
def Part.tracked (s : Part) (x : CheckedClip) (runs : RunFlags) (watch : List WatchEntry) : Part :=
  { s with checkedClip := x, runs := runs, watch := watch }

section Tracked

variable (x : CheckedClip) (runs : RunFlags) (watch : List WatchEntry) (s : Part)

theorem writeCard_tracked (h : CardId) (c : Card) :
    writeCard h c (s.tracked x runs watch) = (writeCard h c s).tracked x runs watch := by
  unfold writeCard
  rw [apply_ite (fun q : Part => q.tracked x runs watch)]
  rfl

theorem noteOpening_tracked (h : CardId) :
    noteOpening h (s.tracked x runs watch) = (noteOpening h s).tracked x runs watch := writeCard_tracked x runs watch s h _

theorem openCardMark_tracked (h : CardId) (kind : FaultKind) :
    openCardMark h kind (s.tracked x runs watch) = (openCardMark h kind s).tracked x runs watch := by
  unfold openCardMark
  rw [apply_ite (fun q : Part => q.tracked x runs watch), ← noteOpening_tracked]
  rfl

theorem openClipMark_tracked (k : ClipId) (kind : FaultKind) :
    openClipMark k kind (s.tracked x runs watch) = (openClipMark k kind s).tracked x runs watch := by
  have hclip : (s.tracked x runs watch).clips[k] = s.clips[k] := rfl
  unfold openClipMark
  rw [hclip]
  cases s.clips[k] with
  | none => rfl
  | some c =>
    dsimp only
    rw [apply_ite (fun q : Part => q.tracked x runs watch), ← noteOpening_tracked]
    rfl

theorem openMark_tracked (r : Report) :
    openMark r (s.tracked x runs watch) = (openMark r s).tracked x runs watch := by
  unfold openMark
  split
  · split
    · exact openCardMark_tracked x runs watch s _ _
    · rfl
  · split
    · split
      · exact openClipMark_tracked x runs watch s _ _
      · rfl
    · rfl

/-- R146: a fault neither reads nor writes what the check unit tracks. -/
theorem raise_tracked (r : Report) : raise r (s.tracked x runs watch) = (raise r s).tracked x runs watch := by
  unfold raise
  rw [apply_ite (fun q : Part => q.tracked x runs watch), ← openMark_tracked]
  rfl

theorem raiseFrame_tracked (f : OpenFrame) (kind : FaultKind) (n : Nat) :
    raiseFrame f kind n (s.tracked x runs watch) = (raiseFrame f kind n s).tracked x runs watch :=
  raise_tracked x runs watch s (frameReport s f kind n)

end Tracked

theorem raiseAll_tracked (f : OpenFrame) (xs : List (FaultKind × Nat)) (s : Part) (x : CheckedClip) (runs : RunFlags)
    (watch : List WatchEntry) : raiseAll f xs (s.tracked x runs watch) = (raiseAll f xs s).tracked x runs watch := by
  induction xs generalizing s with
  | nil => rfl
  | cons y ys ih => rw [raiseAll_cons, raiseFrame_tracked, ih, ← raiseAll_cons]

/-- R130: the run flags and the watch list that a frame finds, from none after a change of clip. -/
def trackedBefore (f : OpenFrame) (s : Part) : RunFlags × List WatchEntry :=
  if s.checkedClip = checkedOf f.clip then (s.runs, s.watch)
  else (⟨false, false, false⟩, s.watch.map fun e => { e with counter := 0, raised := false })

theorem clipChange_eq (hbefore : (runs, watch) = trackedBefore f s) :
    clipChange f s = s.tracked (checkedOf f.clip) runs watch := by
  unfold trackedBefore at hbefore
  unfold clipChange
  split at hbefore
  · rename_i hsame
    cases hbefore
    rw [if_pos hsame, ← hsame]
    rfl
  · rename_i hother
    cases hbefore
    rw [if_neg hother]
    rfl

/-- R131: the run flags a frame leaves. -/
def OpenFrame.overLimits (f : OpenFrame) : RunFlags :=
  ⟨decide (f.profile.highLimit < f.highCount), decide (f.profile.lowLimit < f.lowCount),
    decide (f.profile.excLimit < f.excCount)⟩

/-- A fault that is raised where a condition holds. -/
def faultIf (p : Prop) [Decidable p] (kind : FaultKind) (n : Nat) : List (FaultKind × Nat) :=
  if p then [(kind, n)] else []

theorem faultIf_noCard {p : Prop} [Decidable p] {kind : FaultKind} {n : Nat} {x : FaultKind × Nat}
    (hkind : kind.marksCard = false) (hx : x ∈ faultIf p kind n) : x.1.marksCard = false := by
  unfold faultIf at hx
  split at hx
  · rw [List.mem_singleton.mp hx]
    exact hkind
  · cases hx

/-- R131: the faults of the counts above their limits whose run flag is no. -/
def runFaultsOf (f : OpenFrame) (runs : RunFlags) : List (FaultKind × Nat) :=
  faultIf (f.profile.highLimit < f.highCount ∧ runs.high = false) .exposureHigh f.highCount
    ++ faultIf (f.profile.lowLimit < f.lowCount ∧ runs.low = false) .exposureLow f.lowCount
    ++ faultIf (f.profile.excLimit < f.excCount ∧ runs.exc = false) .gamutExcursion f.excCount

theorem runFault_eq (f : OpenFrame) (kind : FaultKind) (count limit : Nat) (flag : Bool) (s : Part) :
    runFault f kind count limit flag s = raiseAll f (faultIf (limit < count ∧ flag = false) kind count) s := by
  unfold runFault faultIf
  split <;> rfl

theorem runFaults_eq (s : Part) (x : CheckedClip) : runFaults f (s.tracked x runs watch) =
    (raiseAll f (runFaultsOf f runs) s).tracked x f.overLimits watch := by
  unfold runFaults runFaultsOf
  dsimp only
  rw [runFault_eq, runFault_eq, runFault_eq, ← raiseAll_append, ← raiseAll_append, raiseAll_tracked, ← List.append_assoc]
  rfl

/-- R135: HOT_PIXEL of the watched entries that raise it, in list order. -/
def hotFaultsOf (watch : List WatchEntry) : List (FaultKind × Nat) :=
  (watch.filter WatchEntry.raises).map fun e => (.hotPixel, e.column * 65536 + e.line)

theorem raiseHots_eq (f : OpenFrame) (watch : List WatchEntry) (s : Part) :
    watch.foldl (raiseHot f) s = raiseAll f (hotFaultsOf watch) s := by
  induction watch generalizing s with
  | nil => rfl
  | cons e es ih =>
    rw [List.foldl_cons, ih, raiseHot]
    unfold hotFaultsOf
    rw [List.filter_cons]
    split <;> rfl

theorem hotPixels_eq (s : Part) (x : CheckedClip) : hotPixels f (s.tracked x runs watch) =
    (raiseAll f (hotFaultsOf watch) s).tracked x runs (watch.map WatchEntry.judged) := by
  rw [hotPixels, raiseHots_eq, ← raiseAll_tracked]
  rfl

/-- R136 to R140: the faults of parts 4 and 5, none of a frame without a clip. -/
def clipFaults (f : OpenFrame) (s : Part) : List (FaultKind × Nat) :=
  ((f.clip.bind fun k => s.clips[k]).map fun c => continuityFaults c f.number f.tc).getD []

/-- R136, R138, R140: the continuity fields of the frame's clip follow. -/
def followClip (f : OpenFrame) (s : Part) : Part :=
  match f.clip with
  | none => s
  | some k => modClip k (continuityUpdate f.number f.tc) s

theorem followClip_none (hf : f.clip = none) (s : Part) : followClip f s = s := by rw [followClip, hf]

theorem followClip_some {k : ClipId} (hf : f.clip = some k) (s : Part) :
    followClip f s = modClip k (continuityUpdate f.number f.tc) s := by rw [followClip, hf]

theorem continuity_eq (f : OpenFrame) (s : Part) : continuity f s = followClip f (raiseAll f (clipFaults f s) s) := by
  cases hf : f.clip with
  | none =>
    rw [followClip_none hf, continuity, clipFaults, hf, Option.bind_none, Option.map_none, Option.getD_none, raiseAll_nil]
  | some k =>
    rw [followClip_some hf, continuity, clipFaults, hf, Option.bind_some]
    dsimp only
    cases hc : s.clips[k] with
    | none => rw [Option.map_none, Option.getD_none, raiseAll_nil, modClip, hc]
    | some c => rfl

theorem followClip_tracked (s : Part) (x : CheckedClip) :
    followClip f (s.tracked x runs watch) = (followClip f s).tracked x runs watch := by
  unfold followClip
  split
  · rfl
  · unfold modClip
    dsimp only [Part.tracked]
    split <;> rfl

theorem followClip_frame (f : OpenFrame) (s : Part) : followClip f s = { s with clips := (followClip f s).clips } := by
  unfold followClip modClip
  split
  · rfl
  · split <;> rfl

/-- R146: a fault changes nothing that continuity reads. -/
theorem clipFaults_raiseAll (xs : List (FaultKind × Nat)) (s : Part) : clipFaults f (raiseAll f xs s) = clipFaults f s := by
  induction xs generalizing s with
  | nil => rfl
  | cons x xs ih =>
    rw [raiseAll_cons, ih]
    unfold clipFaults
    cases f.clip with
    | none => rfl
    | some k =>
      rw [Option.bind_some, Option.bind_some]
      rcases (raise_marked s _ (frameReport_aimed f s x.1 x.2)).clip k with hsame | ⟨c, m, w, hc, hmarked, -⟩
      · rw [raiseFrame, hsame]
      · rw [raiseFrame, hmarked, hc]
        rfl

/-- R129 to R137: the faults of the end-of-frame work. -/
def checkFaults (f : OpenFrame) (s : Part) : List (FaultKind × Nat) :=
  runFaultsOf f (trackedBefore f s).1 ++ hotFaultsOf (trackedBefore f s).2 ++ clipFaults f s

/-- R129: the end-of-frame work raises its faults, has the clip's continuity follow, and writes its own fields. -/
theorem endOfFrameChecks_eq (f : OpenFrame) (abandoned : Bool) (s : Part) : endOfFrameChecks f abandoned s =
    offerStats (statsOf f (hotHits s.watch) abandoned) ((followClip f (raiseAll f (checkFaults f s) s)).tracked
      (checkedOf f.clip) f.overLimits ((trackedBefore f s).2.map WatchEntry.judged)) := by
  have htracked (q : Part) (x : CheckedClip) (r : RunFlags) (l : List WatchEntry) :
      clipFaults f (q.tracked x r l) = clipFaults f q := rfl
  rw [endOfFrameChecks, clipChange_eq (runs := (trackedBefore f s).1) (watch := (trackedBefore f s).2) rfl, runFaults_eq,
    hotPixels_eq, continuity_eq, htracked, raiseAll_tracked, followClip_tracked, clipFaults_raiseAll, clipFaults_raiseAll,
    ← raiseAll_append, ← raiseAll_append, ← List.append_assoc]
  rfl

/-! ## The deferred commits (R121) -/

/-- R121: a slot once its commit, if one is PENDING, has been done. -/
def LookSlot.committed (x : LookSlot) : LookSlot :=
  if x.state.isPending then ⟨x.staging, x.staging, .clean⟩ else x

theorem LookSlot.committed_notPending (x : LookSlot) : x.committed.state.isPending = false := by
  unfold LookSlot.committed
  split
  · rfl
  · rename_i hx
    exact Bool.eq_false_iff.mpr hx

theorem LookSlot.committed_still {x : LookSlot} (hx : x.state.isPending = false) : x.committed = x := by
  rw [LookSlot.committed, if_neg (by rw [hx]; decide)]

theorem applyCommit_frame (n : Nat) (s : Part) (k : SlotId) : applyCommit n s k =
    { s with looks := (applyCommit n s k).looks, notices := (applyCommit n s k).notices } := by
  unfold applyCommit
  split <;> rfl

theorem applyCommit_looks (n : Nat) (s : Part) (k m : SlotId) :
    (applyCommit n s k).looks[m] = if k = m then s.looks[m].committed else s.looks[m] := by
  by_cases hk : k = m
  · subst hk
    rw [if_pos rfl, applyCommit, LookSlot.committed]
    cases hst : s.looks[k].state with
    | clean => rfl
    | loaded => rfl
    | pending tag =>
      dsimp only [queueNotice]
      rw [get_set, if_pos rfl]
      rfl
  · rw [if_neg hk]
    unfold applyCommit
    split
    · dsimp only [queueNotice]
      rw [get_set, if_neg hk]
    · rfl

theorem applyCommit_pending {n g : Nat} {k : SlotId} (hk : s.looks[k].state = .pending g) :
    Notice.lookCommitted k g n ∈ (applyCommit n s k).notices := by
  rw [applyCommit, hk]
  exact mem_enqueue_self _ _

/-- R184: the notice of a slot that is not PENDING stays in the queue. -/
theorem applyCommit_told {n g : Nat} {k m : SlotId} (hm : s.looks[m].state.isPending = false)
    (htold : Notice.lookCommitted m g n ∈ s.notices) : Notice.lookCommitted m g n ∈ (applyCommit n s k).notices := by
  unfold applyCommit
  split
  · rename_i tag hk
    refine mem_enqueue_other _ _ _ htold ?_
    have hne : k ≠ m := by
      rintro rfl
      rw [hk] at hm
      cases hm
    simpa [Notice.sameSubject] using hne
  · exact htold

/-- R121: the commits of the slots of a list. -/
theorem applyCommit_foldl (n : Nat) (ks : List SlotId) (s : Part) (m : SlotId) :
    (ks.foldl (applyCommit n) s).looks[m] = (if m ∈ ks then s.looks[m].committed else s.looks[m])
      ∧ ∀ g, (Notice.lookCommitted m g n ∈ s.notices ∧ s.looks[m].state.isPending = false
          ∨ m ∈ ks ∧ s.looks[m].state = .pending g) →
        Notice.lookCommitted m g n ∈ (ks.foldl (applyCommit n) s).notices := by
  induction ks generalizing s with
  | nil => exact ⟨rfl, fun g h => h.elim And.left fun h => nomatch h.1⟩
  | cons k ks ih =>
    obtain ⟨hlooks, htold⟩ := ih (applyCommit n s k)
    rw [applyCommit_looks] at hlooks htold
    rw [List.foldl_cons, hlooks]
    by_cases hk : k = m
    · subst hk
      rw [if_pos rfl, if_pos List.mem_cons_self] at *
      refine ⟨?_, fun g h => htold g (.inl ⟨?_, LookSlot.committed_notPending _⟩)⟩
      · rw [LookSlot.committed_still (LookSlot.committed_notPending _), ite_self]
      · rcases h with ⟨hin, hstill⟩ | ⟨-, hpending⟩
        · exact applyCommit_told hstill hin
        · exact applyCommit_pending hpending
    · rw [if_neg hk] at *
      have hmem : m ∈ k :: ks ↔ m ∈ ks := by simp [Ne.symm hk]
      simp only [hmem, true_and]
      exact fun g h => htold g (h.imp (fun ⟨hin, hstill⟩ => ⟨applyCommit_told hstill hin, hstill⟩) id)

theorem mem_allSlots (m : SlotId) : m ∈ allSlots := by
  fin_cases m <;> simp [allSlots]

theorem applyCommits_frame (n : Nat) (s : Part) : applyCommits n s =
    { s with looks := (applyCommits n s).looks, notices := (applyCommits n s).notices } := by
  unfold applyCommits
  induction allSlots generalizing s with
  | nil => rfl
  | cons k ks ih => rw [List.foldl_cons, ih, applyCommit_frame]

/-! ## The end of a frame (R97, R99) -/

/-- R97 step 1: SHORT_FRAME of a short frame. -/
def shortFaults (f : OpenFrame) (short : Bool) : List (FaultKind × Nat) :=
  faultIf (short = true) .shortFrame (f.linesTaken * 65536 + f.height)

/-- R98: the clip of a frame that has been accounted to it. -/
def Clip.accounted (last : Bool) (c : Clip) : Clip :=
  { c with framesSeen := min (c.framesSeen + 1) Config.max24, lastMarker := c.lastMarker || last }

/-- R97: the part with the faults of a frame raised and its clip's accounting and continuity done. -/
def frameJudged (f : OpenFrame) (short : Bool) (s : Part) : Part :=
  followClip f (raiseAll f (checkFaults f s) (accountFrame f (raiseAll f (shortFaults f short) s)))

/-- R97: the faults of the end of a frame, in their order. -/
def endFaults (f : OpenFrame) (short : Bool) (s : Part) : List (FaultKind × Nat) := shortFaults f short ++ checkFaults f s

theorem accountFrame_frame (f : OpenFrame) (s : Part) : accountFrame f s = { s with clips := (accountFrame f s).clips } := by
  unfold accountFrame modClip
  split
  · rfl
  · split <;> rfl

theorem accountFrame_none (hf : f.clip = none) (s : Part) : accountFrame f s = s := by rw [accountFrame, hf]

theorem accountFrame_some {k : ClipId} (hf : f.clip = some k) (s : Part) :
    accountFrame f s = modClip k (Clip.accounted f.last) s := by
  rw [accountFrame, hf]
  rfl

/-- R98: accounting changes nothing that continuity reads. -/
theorem clipFaults_accountFrame (f : OpenFrame) (s : Part) : clipFaults f (accountFrame f s) = clipFaults f s := by
  cases hf : f.clip with
  | none => rw [accountFrame_none hf]
  | some k =>
    rw [accountFrame_some hf, clipFaults, clipFaults, hf, Option.bind_some, Option.bind_some, modClip_get, if_pos rfl]
    cases s.clips[k] <;> rfl

/-- R97: the six steps of the end of a frame. -/
theorem endFrame_eq (f : OpenFrame) (short abandoned : Bool) (s : Part) : endFrame f short abandoned s =
    clearanceOfFrame f { applyCommits f.number (offerStats (statsOf f (hotHits s.watch) abandoned)
      ((frameJudged f short s).tracked (checkedOf f.clip) f.overLimits ((trackedBefore f s).2.map WatchEntry.judged))) with
      frame := none } := by
  have hshort : (if short then raiseFrame f .shortFrame (shortDetail f) s else s) = raiseAll f (shortFaults f short) s := by
    cases short <;> rfl
  have hbefore : trackedBefore f (accountFrame f (raiseAll f (shortFaults f short) s)) = trackedBefore f s := by
    rw [accountFrame_frame, raiseAll_frame]
    rfl
  have hcheck : checkFaults f (accountFrame f (raiseAll f (shortFaults f short) s)) = checkFaults f s := by
    rw [checkFaults, hbefore, clipFaults_accountFrame, clipFaults_raiseAll, checkFaults]
  have hwatch : (accountFrame f (raiseAll f (shortFaults f short) s)).watch = s.watch := by
    rw [accountFrame_frame, raiseAll_frame]
  unfold endFrame
  dsimp only
  rw [hshort, endOfFrameChecks_eq, hcheck, hbefore, hwatch]
  rfl

theorem frameJudged_frame (f : OpenFrame) (short : Bool) (s : Part) : frameJudged f short s =
    { s with
      log := (frameJudged f short s).log, cards := (frameJudged f short s).cards
      clips := (frameJudged f short s).clips, notices := (frameJudged f short s).notices } := by
  unfold frameJudged
  rw [followClip_frame, raiseAll_frame, accountFrame_frame, raiseAll_frame]

theorem clearanceOfFrame_frame (f : OpenFrame) (s : Part) : clearanceOfFrame f s =
    { s with cards := (clearanceOfFrame f s).cards, notices := (clearanceOfFrame f s).notices } := by
  unfold clearanceOfFrame
  split
  · exact evalClipClearance_frame s _
  · rfl

/-- R184: a clearance evaluation leaves the notices of look slots in the queue. -/
theorem clearanceOfFrame_told {m : SlotId} {g n : Nat} (htold : Notice.lookCommitted m g n ∈ s.notices) :
    Notice.lookCommitted m g n ∈ (clearanceOfFrame f s).notices := by
  have written (h : CardId) (c : Card) (q : Part) (hq : Notice.lookCommitted m g n ∈ q.notices) :
      Notice.lookCommitted m g n ∈ (writeCard h c q).notices := by
    rw [writeCard_notices]
    split
    · exact hq
    · exact mem_enqueue_other _ _ _ hq rfl
  unfold clearanceOfFrame evalClipClearance evalClearance
  split
  · split
    · split
      · exact mem_enqueue_other _ _ _ (written _ _ s htold) rfl
      · exact htold
    · exact htold
  · exact htold

/-- What the end of a frame leaves (R97 to R101, R121, R129 to R143). -/
structure FrameEnded (f : OpenFrame) (short abandoned : Bool) (s t : Part) : Prop where
  frame       : t.frame = none
  reset       : t.reset = s.reset
  unit        : t.unit = s.unit
  stationUp   : t.stationUp = s.stationUp
  log         : t.log = (frameJudged f short s).log
  clips       : t.clips = (frameJudged f short s).clips
  checkedClip : t.checkedClip = checkedOf f.clip
  runs        : t.runs = f.overLimits
  watch       : t.watch = (trackedBefore f s).2.map WatchEntry.judged
  stats       : t.stats = (offerStats (statsOf f (hotHits s.watch) abandoned) s).stats
  looks       : ∀ m : SlotId, t.looks[m] = s.looks[m].committed
  cards       : ∃ q : Part, q.cards = (frameJudged f short s).cards ∧ q.clips = (frameJudged f short s).clips
    ∧ t.cards = (clearanceOfFrame f q).cards
  told        : ∀ (m : SlotId) (g : Nat), s.looks[m].state = .pending g → Notice.lookCommitted m g f.number ∈ t.notices

/-- R97: the part before the clearance evaluation, the frame still open. -/
def frameChecked (f : OpenFrame) (short abandoned : Bool) (s : Part) : Part :=
  offerStats (statsOf f (hotHits s.watch) abandoned)
    ((frameJudged f short s).tracked (checkedOf f.clip) f.overLimits ((trackedBefore f s).2.map WatchEntry.judged))

theorem frameChecked_frame (f : OpenFrame) (short abandoned : Bool) (s : Part) : frameChecked f short abandoned s =
    { s with
      log := (frameJudged f short s).log, cards := (frameJudged f short s).cards, clips := (frameJudged f short s).clips
      notices := (frameJudged f short s).notices, checkedClip := checkedOf f.clip, runs := f.overLimits
      watch := (trackedBefore f s).2.map WatchEntry.judged
      stats := (offerStats (statsOf f (hotHits s.watch) abandoned) s).stats } := by
  have hjudged := frameJudged_frame f short s
  unfold frameChecked offerStats Part.tracked
  generalize frameJudged f short s = q at hjudged
  rw [hjudged]

theorem endFrame_ended (f : OpenFrame) (short abandoned : Bool) (s : Part) :
    FrameEnded f short abandoned s (endFrame f short abandoned s) := by
  have hend : endFrame f short abandoned s =
      clearanceOfFrame f { applyCommits f.number (frameChecked f short abandoned s) with frame := none } :=
    endFrame_eq f short abandoned s
  have hchecked := frameChecked_frame f short abandoned s
  generalize frameChecked f short abandoned s = c at hend hchecked
  have hslots := applyCommit_foldl f.number allSlots c
  have hcommit := applyCommits_frame f.number c
  rw [← applyCommits] at hslots
  generalize applyCommits f.number c = q at hend hslots hcommit
  have hclear := clearanceOfFrame_frame f { q with frame := none }
  have htold (m : SlotId) (g : Nat) (h : Notice.lookCommitted m g f.number ∈ q.notices) :
      Notice.lookCommitted m g f.number ∈ (clearanceOfFrame f { q with frame := none }).notices :=
    clearanceOfFrame_told (s := { q with frame := none }) h
  have hcards : ({ q with frame := none } : Part).cards = (frameJudged f short s).cards
      ∧ ({ q with frame := none } : Part).clips = (frameJudged f short s).clips := by
    rw [hcommit, hchecked]
    exact ⟨rfl, rfl⟩
  have hcleared := congrArg Part.cards hend
  rw [← hend] at hclear htold
  generalize endFrame f short abandoned s = t at hclear htold hcleared
  have hlooks : c.looks = s.looks := by rw [hchecked]
  constructor
  case looks =>
    intro m
    rw [hclear]
    exact ((hslots m).1.trans (if_pos (mem_allSlots m))).trans (by rw [hlooks])
  case told =>
    intro m g hm
    exact htold m g ((hslots m).2 g (.inr ⟨mem_allSlots m, by rw [hlooks, hm]⟩))
  case cards => exact ⟨_, hcards.1, hcards.2, hcleared⟩
  case frame => rw [hclear]
  all_goals rw [hclear, hcommit, hchecked]

/-! ## The log, the clip and the card (R97, R98, R146 to R155, R162) -/

section Judged

variable {card : Option CardId} {after : Bool} {k : ClipId} {c : Clip}

theorem accountFrame_attached (ha : Attached f card after s) : Attached f card after (accountFrame f s) := by
  unfold accountFrame
  split
  · exact ha
  · exact ha.modClip _ fun _ => rfl

theorem frameJudged_log (ha : Attached f card after s) (short : Bool) : (frameJudged f short s).log =
    (endFaults f short s).foldl
      (fun l x => logFault after ⟨x.1, card, f.clip, none, some (f.number, f.tc), x.2⟩ l) s.log := by
  have hraised := accountFrame_attached (ha.raiseAll (shortFaults f short))
  rw [frameJudged, followClip_frame, raiseAll_log hraised, accountFrame_frame, raiseAll_log ha, endFaults, List.foldl_append]

/-- R146: the end of a frame without a clip marks nothing. -/
theorem frameJudged_orphan (hf : f.clip = none) (short : Bool) (s : Part) :
    (frameJudged f short s).cards = s.cards ∧ (frameJudged f short s).clips = s.clips := by
  rw [frameJudged, followClip_none hf, accountFrame_none hf, ← raiseAll_append]
  exact raiseAll_orphan hf _ s

theorem frameNumberFault_noCard {n : Nat} {x : FaultKind × Nat} (hx : frameNumberFault c n = some x) :
    x.1.marksCard = false := by
  unfold frameNumberFault at hx
  split at hx
  · cases hx
  · split at hx
    · cases hx; rfl
    · split at hx <;> cases hx
      rfl

theorem firstTcFault_noCard {x : FaultKind × Nat} (hx : firstTcFault c = some x) : x.1.marksCard = false := by
  unfold firstTcFault at hx
  split at hx
  · split at hx <;> cases hx
    rfl
  · cases hx

theorem breakFault_noCard {n : Nat} {tc : Timecode} {x : FaultKind × Nat} (hx : breakFault c n tc = some x) :
    x.1.marksCard = false := by
  unfold breakFault at hx
  split at hx
  · split at hx <;> cases hx
    rfl
  · cases hx

theorem continuityFaults_noCard {n : Nat} {tc : Timecode} {x : FaultKind × Nat} (hx : x ∈ continuityFaults c n tc) :
    x.1.marksCard = false := by
  unfold continuityFaults at hx
  rcases List.mem_append.mp hx with hnumber | htc
  · exact frameNumberFault_noCard (Option.mem_toList.mp hnumber)
  · split at htc
    · split at htc
      · cases htc
      · rcases List.mem_append.mp htc with hfirst | hbreak
        · exact firstTcFault_noCard (Option.mem_toList.mp hfirst)
        · exact breakFault_noCard (Option.mem_toList.mp hbreak)
    · rw [List.mem_singleton.mp htc]
      rfl

/-- R144: the faults of a frame mark clips, or nothing. -/
theorem checkFaults_noCard {x : FaultKind × Nat} (hx : x ∈ checkFaults f s) : x.1.marksCard = false := by
  simp only [checkFaults, runFaultsOf, List.mem_append] at hx
  rcases hx with ((((hhigh | hlow) | hexc) | hhot) | hclip)
  · exact faultIf_noCard rfl hhigh
  · exact faultIf_noCard rfl hlow
  · exact faultIf_noCard rfl hexc
  · obtain ⟨e, -, rfl⟩ := List.mem_map.mp hhot
    rfl
  · unfold clipFaults at hclip
    cases hc : (f.clip.bind fun k => s.clips[k]) with
    | none =>
      rw [hc] at hclip
      cases hclip
    | some c =>
      rw [hc] at hclip
      exact continuityFaults_noCard hclip

theorem shortFaults_noCard {x : FaultKind × Nat} (hx : x ∈ shortFaults f short) : x.1.marksCard = false :=
  faultIf_noCard rfl hx

/-- R98, R136 to R140: the clip once a frame has been accounted to it and its continuity has followed. -/
def Clip.framed (f : OpenFrame) (c : Clip) : Clip := continuityUpdate f.number f.tc (c.accounted f.last)

theorem continuityUpdate_kept (n : Nat) (tc : Timecode) (c : Clip) : continuityUpdate n tc c =
    { c with lastFrame := (continuityUpdate n tc c).lastFrame, lastCount := (continuityUpdate n tc c).lastCount } := by
  unfold continuityUpdate
  split <;> rfl

/-- A clip record with other marks. -/
def Clip.withMarks (c : Clip) (m w : MarkSet) : Clip := { c with openMarks := m, waivedMarks := w }

/-- R136, R138: continuity follows a clip whatever its marks. -/
theorem continuityUpdate_marks (n : Nat) (tc : Timecode) (c : Clip) (m w : MarkSet) :
    continuityUpdate n tc (c.withMarks m w) = (continuityUpdate n tc c).withMarks m w := by
  have hsame : isRepeat (c.withMarks m w) n = isRepeat c n := rfl
  unfold continuityUpdate
  rw [hsame]
  split <;> rfl

/-- R97, R98, R153: the frame's clip and its card once the frame has been judged. -/
theorem frameJudged_marks (hf : f.clip = some k) (hc : s.clips[k] = some c)
    (hafter : decide (s.cards[c.card].state = .cleared) = after) (short : Bool) :
    ∃ m w, FrameMarks after k ((endFaults f short s).map Prod.fst) c
      ((c.framed f).withMarks m w) s (frameJudged f short s) := by
  obtain ⟨m, w, hshort⟩ := raiseAll_marks hf hc hafter (shortFaults f short) fun _ => shortFaults_noCard
  have haccount := hshort.trans (modClip_frameMarks (after := after) hshort.clip (g := Clip.accounted f.last) rfl rfl)
  obtain ⟨m', w', hcheck⟩ := raiseAll_marks hf haccount.clip (haccount.cleared.trans hafter) (checkFaults f s)
    fun _ => checkFaults_noCard
  have hchecked := haccount.trans hcheck
  have hkept := continuityUpdate_kept f.number f.tc
  have hfollow := hchecked.trans (modClip_frameMarks (after := after) hchecked.clip
    (g := continuityUpdate f.number f.tc) (by rw [hkept]) (by rw [hkept]))
  refine ⟨m', w', ?_⟩
  rw [frameJudged, followClip_some hf, accountFrame_some hf, endFaults, List.map_append, Clip.framed,
    ← continuityUpdate_marks]
  rw [List.append_nil, List.append_nil] at hfollow
  exact hfollow

/-- R155, R162: the state of a frame's card at the end of the frame. -/
theorem FrameEnded.clip_card {t : Part} (he : FrameEnded f short abandoned s t) (hf : f.clip = some k)
    (hc : s.clips[k] = some c) (hafter : decide (s.cards[c.card].state = .cleared) = after) :
    ∃ m w, t.clips[k] = some ((c.framed f).withMarks m w)
      ∧ (∀ g, m.has g = (c.openMarks.has g
        || (!after && g.marksClip && decide (g ∈ (endFaults f short s).map Prod.fst))))
      ∧ (s.cards[c.card].state ≠ .copied → t.cards[c.card].state = s.cards[c.card].state)
      ∧ (s.cards[c.card].state = .copied → t.cards[c.card].state =
        if m ≠ c.openMarks then .held else if clearanceHolds t c.card then .cleared else .copied) := by
  obtain ⟨m, w, hm⟩ := frameJudged_marks hf hc hafter short
  obtain ⟨q, hcards, hclips, hcleared⟩ := he.cards
  have hq : q.clips[k] = some ((c.framed f).withMarks m w) := by
    rw [hclips]
    exact hm.clip
  rw [clearanceOfFrame, hf] at hcleared
  dsimp only at hcleared
  rw [evalClipClearance_of hq, hm.card] at hcleared
  have hcard := evalClearance_card q c.card c.card
  rw [← hcleared] at hcard
  obtain ⟨hholds, -⟩ := clearanceHolds_congr q c.card (t := t) (he.clips.trans hclips.symm) (by
    rw [hcard]
    split <;> rfl)
  have hstate : q.cards[c.card].state =
      if s.cards[c.card].state = .copied ∧ m ≠ c.openMarks then .held else s.cards[c.card].state := by
    rw [hcards]
    exact hm.state
  refine ⟨m, w, he.clips ▸ hm.clip, hm.marks, fun hst => ?_, fun hst => ?_⟩
  · rw [if_neg (fun h => hst h.1)] at hstate
    rw [hcard, if_neg (fun h => hst (hstate.symm.trans h.2.1)), hstate]
  · rw [hcard, hholds]
    by_cases hnew : m ≠ c.openMarks
    · rw [if_pos ⟨hst, hnew⟩] at hstate
      rw [if_pos hnew, if_neg (fun h => by rw [hstate] at h; cases h.2.1), hstate]
    · rw [if_neg (fun h => hnew h.2), hst] at hstate
      rw [if_neg hnew]
      by_cases hclear : clearanceHolds q c.card = true
      · rw [if_pos ⟨rfl, hstate, hclear⟩, if_pos hclear]
        rfl
      · rw [if_neg (fun h => hclear h.2.2), if_neg hclear, hstate]

theorem FrameEnded.orphan {t : Part} (he : FrameEnded f short abandoned s t) (hf : f.clip = none) :
    t.clips = s.clips ∧ t.cards = s.cards := by
  obtain ⟨q, hcards, -, hcleared⟩ := he.cards
  obtain ⟨hsame, hclips⟩ := frameJudged_orphan hf short s
  refine ⟨he.clips.trans hclips, hcleared.trans ?_⟩
  rw [clearanceOfFrame, hf]
  exact hcards.trans hsame

/-! ## The continuity of a clip (R136 to R140) -/

theorem isRepeat_eq (c : Clip) (n : Nat) : isRepeat c n = c.lastFrame.any fun l => decide (n ≤ l) := by
  unfold isRepeat
  cases c.lastFrame <;> rfl

theorem Clip.framed_counts (f : OpenFrame) (c : Clip) :
    (c.framed f).framesSeen = min (c.framesSeen + 1) 16777215 ∧ (c.framed f).lastMarker = (c.lastMarker || f.last) := by
  rw [Clip.framed, continuityUpdate_kept]
  exact ⟨rfl, rfl⟩

theorem Clip.framed_lastFrame (f : OpenFrame) (c : Clip) : (c.framed f).lastFrame = (match c.lastFrame with
    | some l => if f.number ≤ l then some l else some f.number
    | none => some f.number) := by
  have hrepeat : isRepeat (c.accounted f.last) f.number = isRepeat c f.number := rfl
  rw [Clip.framed, continuityUpdate, hrepeat, isRepeat]
  cases hl : c.lastFrame with
  | none => rfl
  | some l =>
    by_cases hle : f.number ≤ l
    · simp [hle, Clip.accounted, hl]
    · simp [hle]

theorem Clip.framed_lastCount (f : OpenFrame) (c : Clip) : (c.framed f).lastCount =
    if (c.lastFrame.any fun l => decide (f.number ≤ l)) then c.lastCount
    else if tcValid c.timebase f.tc then some (tcCount c.timebase f.tc)
    else c.lastCount.map fun n => (n + (f.number - c.lastFrame.getD 0)) % c.timebase.dayLength := by
  have hrepeat : isRepeat (c.accounted f.last) f.number = isRepeat c f.number := rfl
  rw [Clip.framed, continuityUpdate, hrepeat, ← isRepeat_eq]
  split <;> rfl

theorem frameNumberFault_toList (c : Clip) (n : Nat) : (frameNumberFault c n).toList = (match c.lastFrame with
    | none => []
    | some l => if n ≤ l then [(.frameRepeat, l)] else if l + 1 < n then [(.frameGap, n - l - 1)] else []) := by
  unfold frameNumberFault
  cases c.lastFrame with
  | none => rfl
  | some l =>
    dsimp only
    split
    · rfl
    · split <;> rfl

/-- R140: the faults of a valid timecode that is judged. -/
theorem timecodeFaults_eq (c : Clip) (n : Nat) (tc : Timecode) :
    (firstTcFault c).toList ++ (breakFault c n tc).toList = (match c.lastCount, c.firstTc with
      | some k, _ =>
        if tcCount c.timebase tc = (k + (n - c.lastFrame.getD 0)) % c.timebase.dayLength then []
        else [(.tcBreak, expectedDigits c.timebase ((k + (n - c.lastFrame.getD 0)) % c.timebase.dayLength))]
      | none, some t =>
        if tcValid c.timebase t = false then [(.tcMalformed, tcDigits t)]
        else if tcCount c.timebase tc = (tcCount c.timebase t + n) % c.timebase.dayLength then []
        else [(.tcBreak, expectedDigits c.timebase ((tcCount c.timebase t + n) % c.timebase.dayLength))]
      | none, none => []) := by
  unfold firstTcFault breakFault expectedCount advanceBy
  cases c.lastCount with
  | some k =>
    dsimp only
    split <;> rfl
  | none =>
    cases c.firstTc with
    | none => rfl
    | some t =>
      dsimp only
      cases tcValid c.timebase t with
      | false => rfl
      | true =>
        rw [if_pos rfl, if_pos rfl, if_neg (by decide)]
        dsimp only
        split <;> rfl

/-! ## The faults of a frame, spelled out (R97, R131, R135) -/

theorem WatchEntry.raises_eq (e : WatchEntry) : e.raises =
    decide (e.watched = some ⟨true, true⟩ ∧ e.run ≤ min (e.counter + 1) 255 ∧ e.raised = false) := by
  unfold WatchEntry.raises WatchEntry.advanced
  split
  · rename_i hhit
    simp [hhit]
  · rename_i hnot
    exact (decide_eq_false fun h => hnot h.1).symm

theorem WatchEntry.judged_eq (e : WatchEntry) : e.judged = (match e.watched with
    | some ⟨true, true⟩ =>
      { e with
        counter := min (e.counter + 1) 255
        raised := e.raised || decide (e.run ≤ min (e.counter + 1) 255), watched := none }
    | some ⟨true, false⟩ => { e with counter := 0, raised := false, watched := none }
    | _ => { e with watched := none }) := by
  unfold WatchEntry.judged WatchEntry.raises
  rcases e.watched with _ | ⟨_ | _, _ | _⟩
  case some.true.true =>
    have hraised (a b : Bool) : (a || (b && !a)) = (a || b) := by cases a <;> simp
    dsimp only
    rw [hraised]
    rfl
  all_goals rfl

theorem hotHits_eq (watch : List WatchEntry) :
    hotHits watch = watch.countP fun e => decide (e.watched = some ⟨true, true⟩) := by
  refine List.countP_congr fun e _ => ?_
  simp [WatchEntry.isHit]

theorem hotFaultsOf_eq (watch : List WatchEntry) : hotFaultsOf watch =
    (watch.filter fun e =>
        decide (e.watched = some ⟨true, true⟩ ∧ e.run ≤ min (e.counter + 1) 255 ∧ e.raised = false)).map
      fun e => (.hotPixel, e.column * 65536 + e.line) := by
  rw [hotFaultsOf, funext WatchEntry.raises_eq]

theorem endFaults_eq (hbefore : (runs, watch) = trackedBefore f s) (short : Bool) : endFaults f short s =
    faultIf (short = true) .shortFrame (f.linesTaken * 65536 + f.height)
      ++ faultIf (f.profile.highLimit < f.highCount ∧ runs.high = false) .exposureHigh f.highCount
      ++ faultIf (f.profile.lowLimit < f.lowCount ∧ runs.low = false) .exposureLow f.lowCount
      ++ faultIf (f.profile.excLimit < f.excCount ∧ runs.exc = false) .gamutExcursion f.excCount
      ++ hotFaultsOf watch ++ clipFaults f s := by
  rw [endFaults, checkFaults, ← hbefore, runFaultsOf, shortFaults]
  simp only [List.append_assoc]

end Judged

end Sys2Proof.Machine
end

