-- ==== Sys2Proof/Proofs/FrameCloses.lean ====
section
/-! PROOF. FRAME-CLOSE and the station link, which end a frame (R96 to R101, R172), and FRAME-OPEN, which abandons the open
one and opens another (R88 to R91, R127). -/

namespace Sys2Proof.Machine

variable {s : Part} {f : OpenFrame} {b : Rx}

/-! ## FRAME-CLOSE (R96) -/

theorem frameCloseTaken_none (hf : s.frame = none) (hlong : 2 ≤ b.payload.length) : frameCloseTaken b s =
    { s with log := logFault false ⟨.lineOrder, none, none, none, none, 5 * 65536 + field b.payload 0 2⟩ s.log } := by
  have hraise : frameCloseTaken b s = raise (lineOrderReport s 5 (field b.payload 0 2)) s := by
    rw [frameCloseTaken, hf]
    dsimp only
    rw [carried_long hlong]
  rw [hraise, raise_lineOrder, lineOrderReport_none hf]
  rfl

theorem frameCloseTaken_damaged (hf : s.frame = some f) (hdamaged : damaged 0x13 b = true ∨ b.payload.length ≠ 2) :
    frameCloseTaken b s = endFrame f true true s := by
  rw [frameCloseTaken, hf]
  refine if_pos ?_
  simpa [closeDamaged] using hdamaged

theorem frameCloseTaken_whole {short : Bool} (hf : s.frame = some f) (hwhole : damaged 0x13 b = false)
    (hlen : b.payload.length = 2) (hshort : short = true ↔ f.linesTaken < field b.payload 0 2 ∨ f.linesTaken < f.height) :
    frameCloseTaken b s = endFrame f short false s := by
  have hsame : isShort f (field b.payload 0 2) = short := by
    rw [Bool.eq_iff_iff, hshort]
    simp [isShort]
  rw [frameCloseTaken, hf]
  dsimp only
  rw [if_neg (by simp [closeDamaged, hwhole, hlen]), hsame]

theorem abandonFrame_some (hf : s.frame = some f) : abandonFrame s = endFrame f true true s := by
  rw [abandonFrame, hf]

theorem abandonFrame_none (hf : s.frame = none) : abandonFrame s = s := by
  rw [abandonFrame, hf]

/-- R96, R99, R100: the commands that end an open frame. -/
def EndsFrame (c : Instr) (f : OpenFrame) (short abandoned : Bool) (s : State) : Prop :=
  (s.runs ∧ c = .stationLinkDown ∧ short = true ∧ abandoned = true)
    ∨ (s.listens ∧ ∃ b : Rx, c = .frameClose b
      ∧ (((damaged 0x13 b = true ∨ b.payload.length ≠ 2) ∧ short = true ∧ abandoned = true)
        ∨ (damaged 0x13 b = false ∧ b.payload.length = 2 ∧ abandoned = false
          ∧ (short = true ↔ f.linesTaken < field b.payload 0 2 ∨ f.linesTaken < f.height))))

/-- R96, R99, R100: a command that ends the open frame does that, and nothing else but that the link goes down. -/
theorem exec_endsFrame {c : Instr} {short abandoned : Bool} {m : State} (hf : m.part.frame = some f)
    (hends : EndsFrame c f short abandoned m) : exec c m = .next { m with
      part :=
        { endFrame f short abandoned m.part with
          stationUp := if c = .stationLinkDown then false else m.part.stationUp } } := by
  rcases hends with ⟨hruns, rfl, rfl, rfl⟩ | ⟨hlistens, b, rfl, hclose⟩
  · rw [exec_event (f := stationDown) rfl hruns, stationDown, abandonFrame_some hf, if_pos rfl]
  · have hclosed : frameCloseTaken b m.part = endFrame f short abandoned m.part := by
      rcases hclose with ⟨hdamaged, rfl, rfl⟩ | ⟨hwhole, hlen, rfl, hshort⟩
      · exact frameCloseTaken_damaged hf hdamaged
      · exact frameCloseTaken_whole hf hwhole hlen hshort
    rw [exec_taken (f := frameCloseTaken b) rfl hlistens, hclosed, if_neg (by simp),
      ← (endFrame_ended f short abandoned m.part).stationUp]

/-! ## Whose frame it is (R89, R91, R145) -/

/-- R145: the card of the frame's clip, and whether it is CLEARED. -/
theorem attached_of {who : Option (ClipId × Clip)} {card : Option CardId} {after : Bool} (hclip : f.clip = who.map Prod.fst)
    (hwho : ∀ k c, who = some (k, c) → s.clips[k] = some c) (hcard : card = who.map fun x => x.2.card)
    (hafter : after = (card.map fun h => decide (s.cards[h].state = .cleared)).getD false) : Attached f card after s := by
  refine ⟨?_, hafter.symm⟩
  rw [hclip, hcard]
  cases who with
  | none => rfl
  | some x =>
    have hx := hwho x.1 x.2 rfl
    simp only [Option.map_some, Option.bind_some, clipCard, hx]

/-! ## FRAME-OPEN (R88 to R91, R127) -/

/-- R88: a frame that has been abandoned is not abandoned again. -/
theorem frameOpenTaken_abandonFrame (b : Rx) (s : Part) : frameOpenTaken b (abandonFrame s) = frameOpenTaken b s := by
  have hclosed : (abandonFrame s).frame = none := by
    unfold abandonFrame
    split
    · exact (endFrame_ended _ true true s).frame
    · assumption
  unfold frameOpenTaken
  rw [abandonFrame_none hclosed]

theorem abandonFrame_listens {m : State} (hs : m.listens) : State.listens { m with part := abandonFrame m.part } := by
  unfold abandonFrame
  split
  · rename_i f _
    have hended := endFrame_ended f true true m.part
    exact ⟨(congrArg ResetUnit.holding hended.reset).trans hs.1, (congrArg DirectiveUnit.held hended.unit).trans hs.2⟩
  · exact hs

theorem frameOpenTaken_damaged (hf : s.frame = none) (hdamaged : damaged 0x11 b = true ∨ b.payload.length ≠ 14) :
    frameOpenTaken b s = { s with log := logFault false ⟨.orphanPicture, none, none, none, none, 4294967295⟩ s.log } := by
  have hread : readFrameOpen b = none := if_pos (by simpa using hdamaged)
  rw [frameOpenTaken, hread, abandonFrame_none hf]
  dsimp only
  rw [raise_unmarked _ _ rfl rfl]
  rfl

theorem clampNat_eq {lo hi : Nat} (h : lo ≤ hi) (v : Nat) : clampNat lo hi v = max lo (min v hi) := by
  unfold clampNat
  split
  · omega
  · split <;> omega

theorem frameOpenTaken_whole {o : FrameOpening} (hf : s.frame = none) (hwhole : damaged 0x11 b = false)
    (hlen : b.payload.length = 14) (ho : o =
      ⟨field b.payload 0 2, field b.payload 2 3, timecodeAt b.payload 6 ((b.payload.getD 5 0).getLsbD 0),
        (b.payload.getD 5 0).getLsbD 1, field b.payload 10 2, field b.payload 12 2⟩) :
    frameOpenTaken b s = openFrame o s := by
  have hread : readFrameOpen b = some o := ho ▸ if_neg (by simp [hwhole, hlen])
  rw [frameOpenTaken, hread, abandonFrame_none hf]

theorem openedClip_some {handle : Nat} {k : ClipId} {c : Clip} (hk : k.val = handle) (hc : s.clips[k] = some c) :
    openedClip s handle = some (k, c) := by
  subst hk
  rw [openedClip, asClip, dif_pos k.isLt]
  dsimp only
  rw [hc, Option.map_some]

theorem openedClip_none {handle : Nat} (hfree : ∀ k : ClipId, k.val = handle → s.clips[k] = none) :
    openedClip s handle = none := by
  unfold openedClip asClip
  split
  · rename_i k hk
    split at hk <;> cases hk
    rw [hfree _ rfl, Option.map_none]
  · rfl

/-- R127: the watched entries of a frame of a camera. -/
theorem arm_some (t : CameraId) : WatchEntry.arm (some t) =
    fun e => { e with watched := if e.camera = t then some ⟨false, false⟩ else none } := by
  funext e
  simp only [WatchEntry.arm, Option.some.injEq]

/-- R127: no entry is watched in a frame without a camera. -/
theorem arm_none : WatchEntry.arm none = fun e => { e with watched := none } := rfl

/-- R89, R90: a frame of a clip record in use. -/
theorem openFrame_ofClip {o : FrameOpening} {k : ClipId} {c : Clip} (ho : openedClip s o.clip = some (k, c)) :
    openFrame o s = { s with
      frame := some (newFrame s o)
      watch := s.watch.map fun e => { e with watched := if e.camera = c.camera then some ⟨false, false⟩ else none } } := by
  have hcamera : (newFrame s o).camera = some c.camera := by
    rw [newFrame, ho]
    rfl
  rw [openFrame, hcamera, arm_some, ho]
  rfl

/-- R91: an orphan frame. -/
theorem openFrame_orphan {o : FrameOpening} (ho : openedClip s o.clip = none) :
    openFrame o s = { s with
      frame := some (newFrame s o)
      watch := s.watch.map fun e => { e with watched := none }
      log := logFault false ⟨.orphanPicture, none, none, none, some (o.number, o.tc), o.clip⟩ s.log } := by
  have hcamera : (newFrame s o).camera = none := by
    rw [newFrame, ho]
    rfl
  rw [openFrame, hcamera, arm_none, ho, raise_unmarked _ _ rfl rfl]
  rfl

end Sys2Proof.Machine

namespace Sys2Proof.Proofs
open Machine

/-- Settles O45: the commands end the frame (`exec_endsFrame`), and what its end leaves is said field by field (`FrameEnded`),
of its faults (`endFaults_eq`), and of its clip and card (`FrameEnded.clip_card`). -/
theorem frameEnds : Obligations.FrameEnds := by
  intro s
  refine ⟨fun hruns => exec_event (f := stationRises) rfl hruns, fun hruns hf => ?_, fun b hs hf hlong => ?_,
    fun c f who short abandoned card runs watch faults continuity after hf hclip hwho hends hcard hafter hbefore hcont
      hfaults => ?_⟩
  · rw [exec_event (f := stationDown) rfl hruns, stationDown, abandonFrame_none hf]
  · rw [exec_taken (f := frameCloseTaken b) rfl hs, frameCloseTaken_none hf hlong]
  have hended := endFrame_ended f short abandoned s.part
  have hattached := attached_of hclip hwho hcard hafter
  replace hbefore : (runs, watch) = trackedBefore f s.part := hbefore
  have hclipFaults : clipFaults f s.part = continuity := by
    rw [hcont]
    rcases who with _ | ⟨k, cl⟩
    · rw [clipFaults, hclip]
      rfl
    · rw [clipFaults, hclip, Option.map_some, Option.bind_some, hwho k cl rfl, Option.map_some, Option.getD_some,
        continuityFaults, frameNumberFault_toList, timecodeFaults_eq, isRepeat_eq]
      refine congrArg₂ List.append rfl ?_
      cases tcValid cl.timebase f.tc <;> rfl
  have hall : endFaults f short s.part = faults := by
    rw [endFaults_eq hbefore, hotFaultsOf_eq, hclipFaults, hfaults]
    rfl
  refine ⟨_, exec_endsFrame hf hends, ?_⟩
  generalize endFrame f short abandoned s.part = t at hended ⊢
  refine ⟨hended.frame, rfl, ?_, hended.checkedClip, hended.runs, ?_, hended.looks, hended.told, fun hnone => ?_,
    fun r hr => ?_, ?_, ?_⟩
  · rw [← hall]
    exact hended.log.trans (frameJudged_log hattached short)
  · refine hended.watch.trans ?_
    rw [← hbefore]
    exact List.map_congr_left fun e _ => e.judged_eq
  · refine hended.stats.trans ?_
    rw [offerStats, hnone, hotHits_eq]
    rfl
  · refine hended.stats.trans ?_
    rw [offerStats, hr]
    rfl
  · rintro rfl
    exact hended.orphan hclip
  · rintro k cl rfl
    subst hcard
    obtain ⟨m, w, hk, hmarks, hstays, hcopied⟩ := hended.clip_card hclip (hwho k cl rfl) hafter.symm
    obtain ⟨hseen, hlast⟩ := cl.framed_counts f
    rw [hall] at hmarks
    exact ⟨_, hk, hseen, hlast, cl.framed_lastFrame f, cl.framed_lastCount f, hmarks, hstays, hcopied⟩

/-- Settles O43: a FRAME-OPEN abandons the open frame (`frameOpenTaken_abandonFrame`), and then opens the frame it names. -/
theorem frameOpen : Obligations.FrameOpen := by
  intro s b hs
  have hexec : exec (.frameOpen b) s = .next { s with part := frameOpenTaken b s.part } := exec_taken rfl hs
  refine ⟨fun f _ => ?_, fun hf => ⟨fun hdamaged => ?_, fun w h tc hwhole hlen hw hh htc => ?_⟩⟩
  · rw [hexec, exec_taken (f := frameOpenTaken b) rfl (abandonFrame_listens hs), frameOpenTaken_abandonFrame]
  · rw [hexec, frameOpenTaken_damaged hf hdamaged]
  · have hopen := frameOpenTaken_whole hf hwhole hlen rfl
    rw [← clampNat_eq (by decide)] at hw hh
    subst hw hh htc
    refine ⟨fun k c uses hk hc huses => ?_, fun hfree => ?_⟩
    · have hclip := openedClip_some hk hc
      rw [hexec, hopen, openFrame_ofClip hclip, newFrame]
      dsimp only
      rw [hclip]
      subst huses
      rfl
    · have hclip := openedClip_none hfree
      rw [hexec, hopen, openFrame_orphan hclip, newFrame]
      dsimp only
      rw [hclip]
      exact ⟨_, _, rfl, rfl, rfl, rfl, rfl, rfl, rfl, rfl, rfl, rfl, rfl, rfl⟩

end Sys2Proof.Proofs
end

