-- ==== Sys2Proof/Proofs/LooksAndFitted.lean ====
section
/-! PROOF. R103, R120, R186: every step keeps CLEAN slots' STAGING banks equal to their LIVE banks, PENDING slots in use by the
open frame, and the unfitted ports and destinations as they are. What keeps these composes (`KeepsSetup`), so that it holds
of an event when it holds of each of its effects. Most effects leave the looks alone and can wake no destination at rest. -/

namespace Sys2Proof.Machine

/-! ## A destination at rest (R186) -/

/-- R186: a destination that is ABSENT with nothing to do. -/
def Dest.Rests (x : Dest) : Prop :=
  x.state = .absent ∧ x.holder = none ∧ x.stores = [] ∧ x.fetches = [] ∧ x.stallTimer = none

section Rests

variable {x : Dest}

theorem Dest.not_rests_of_state (hx : x.state ≠ .absent) : ¬ x.Rests := fun h => hx h.1

theorem Dest.not_rests_of_holder {k : ClipId} (hx : x.holder = some k) : ¬ x.Rests := fun h => by
  obtain ⟨-, hholder, -⟩ := h
  rw [hx] at hholder
  cases hholder

theorem Dest.not_rests_of_timer (hx : x.stallTimer.isSome = true) : ¬ x.Rests := fun h => by
  obtain ⟨-, -, -, -, htimer⟩ := h
  rw [htimer] at hx
  cases hx

/-- R33: no request is outstanding, so that the timer stays stopped. -/
theorem Dest.Rests.failedRequest (hx : x.Rests) : x.failedRequest.Rests := by
  obtain ⟨hstate, hholder, hstores, hfetches, htimer⟩ := hx
  refine ⟨hstate, hholder, hstores, hfetches, ?_⟩
  rw [Dest.failedRequest, htimer, ite_self]

theorem Dest.Rests.filterFetches (hx : x.Rests) (f : VerifyFetch → Bool) :
    ({ x with fetches := x.fetches.filter f } : Dest).Rests := by
  obtain ⟨hstate, hholder, hstores, hfetches, htimer⟩ := hx
  exact ⟨hstate, hholder, hstores, by rw [hfetches]; rfl, htimer⟩

theorem Dest.Rests.answered (hx : x.Rests) : x.answered.Rests := by
  obtain ⟨hstate, hholder, hstores, hfetches, htimer⟩ := hx
  refine ⟨hstate, hholder, hstores, hfetches, ?_⟩
  rw [Dest.answered, Dest.idleLink, hstores, hfetches]
  rfl

theorem Dest.Rests.storeTaken (hx : x.Rests) (tag : Nat) : (x.storeTaken tag).Rests := by
  obtain ⟨hstate, hholder, hstores, hfetches, htimer⟩ := hx
  exact Dest.Rests.answered ⟨hstate, hholder, by rw [hstores]; rfl, hfetches, htimer⟩

theorem Dest.Rests.verifying (hx : x.Rests) (o : Option (ClipId × Nat)) : (x.verifying o).Rests := by
  cases o <;> exact hx

theorem Dest.Rests.forget (hx : x.Rests) (ks : List ClipId) : (x.forget ks).Rests := by
  obtain ⟨hstate, hholder, hstores, hfetches, htimer⟩ := hx
  have hnone : (x.forget ks).fetches = [] := by
    unfold Dest.forget
    split
    · split
      · exact List.map_eq_nil_iff.mpr hfetches
      · exact hfetches
    · exact hfetches
  rw [Dest.forget_kept]
  exact ⟨hstate, hholder, hstores, hnone, htimer⟩

theorem Dest.Rests.after (hx : x.Rests) : x.after.Rests := by
  obtain ⟨hstate, hholder, hstores, hfetches, htimer⟩ := hx
  exact ⟨hstate, hholder, hstores, List.map_eq_nil_iff.mpr hfetches, Option.map_eq_none_iff.mpr htimer⟩

/-- R73: a destination at rest serves no reads. -/
theorem readyRead_not_rests {s : Part} {d : DestId} {y : VerifyContext × Try} (hy : readyRead s d = some y) :
    ¬ s.dests[d].Rests := by
  refine Dest.not_rests_of_state fun hstate => ?_
  unfold readyRead at hy
  split at hy
  · cases hy
  · split at hy
    · cases hy
    · split at hy
      · rename_i hready
        have hserves := hready.1
        rw [hstate] at hserves
        cases hserves
      · cases hy

/-- R54: a destination at rest is sent no STORE. -/
theorem readyStore_not_rests {s : Part} {d : DestId} {r : ReadyStore} (hr : readyStore s d = some r) :
    ¬ s.dests[d].Rests := by
  unfold readyStore at hr
  split at hr
  · cases hr
  · rename_i k hk
    exact Dest.not_rests_of_holder hk

end Rests

/-! ## What keeps the invariants -/

/-- From `s` to `t` the straps stay, and the invariants of the looks and of the unfitted ports are kept. -/
structure KeepsSetup (s t : Part) : Prop where
  sources : t.reset.sources = s.reset.sources
  dests   : t.reset.dests = s.reset.dests
  looks   : LooksOk s → LooksOk t
  fitted  : FittedOk s → FittedOk t

theorem KeepsSetup.refl (s : Part) : KeepsSetup s s := ⟨rfl, rfl, id, id⟩

theorem KeepsSetup.trans {s t u : Part} (a : KeepsSetup s t) (b : KeepsSetup t u) : KeepsSetup s u :=
  ⟨b.sources.trans a.sources, b.dests.trans a.dests, fun hs => b.looks (a.looks hs), fun hs => b.fitted (a.fitted hs)⟩

theorem KeepsSetup.foldl {α : Type} (f : Part → α → Part) (hf : ∀ t a, KeepsSetup t (f t a)) (l : List α) (s : Part) :
    KeepsSetup s (l.foldl f s) := by
  induction l generalizing s with
  | nil => exact .refl s
  | cons a rest ih => exact (hf s a).trans (ih _)

theorem slotInUse_congr {s t : Part} (hframe : t.frame.map OpenFrame.slotsInUse = s.frame.map OpenFrame.slotsInUse)
    (k : SlotId) : slotInUse t k = slotInUse s k := by
  have huse (q : Part) : slotInUse q k = ((q.frame.map OpenFrame.slotsInUse).getD []).contains k := by
    unfold slotInUse
    cases q.frame <;> rfl
  rw [huse, huse, hframe]

/-- An effect that leaves the straps, the looks and the slots in use alone, and each unfitted port and destination as it is. -/
theorem KeepsSetup.apart {s t : Part}
    (hports : ∀ p : PortId, s.reset.sources ≤ p.val → s.ports[p] = ⟨false, none⟩ → t.ports[p] = ⟨false, none⟩)
    (hrest : ∀ d : DestId, s.reset.dests ≤ d.val → s.dests[d].Rests → t.dests[d].Rests)
    (hsources : t.reset.sources = s.reset.sources := by rfl) (hdests : t.reset.dests = s.reset.dests := by rfl)
    (hlooks : t.looks = s.looks := by rfl)
    (hframe : t.frame.map OpenFrame.slotsInUse = s.frame.map OpenFrame.slotsInUse := by rfl) : KeepsSetup s t where
  sources := hsources
  dests := hdests
  looks hs k := by
    rw [hlooks, slotInUse_congr hframe]
    exact hs k
  fitted hs := by
    obtain ⟨h1, h4, h2, h6, hp, hd⟩ := hs
    unfold FittedOk
    rw [hsources, hdests]
    exact ⟨h1, h4, h2, h6, fun p hun => hports p hun (hp p hun), fun d hun => hrest d hun (hd d hun)⟩

/-- An effect on none of what the invariants speak of. -/
theorem KeepsSetup.quiet {s t : Part} (hports : t.ports = s.ports := by rfl) (hdests : t.dests = s.dests := by rfl)
    (hreset : t.reset = s.reset := by rfl) (hlooks : t.looks = s.looks := by rfl)
    (hframe : t.frame = s.frame := by rfl) : KeepsSetup s t :=
  .apart (fun p _ hp => by rw [hports]; exact hp) (fun d _ hd => by rw [hdests]; exact hd) (by rw [hreset])
    (by rw [hreset]) hlooks (by rw [hframe])

/-- An effect of the engines that wakes no destination. -/
theorem KeepsSetup.engine {s t : Part} (e : EngineFrame s t)
    (hrest : ∀ d : DestId, s.reset.dests ≤ d.val → s.dests[d].Rests → t.dests[d].Rests) : KeepsSetup s t := by
  obtain ⟨hreset, hports, hframe, hlooks, -⟩ := e.fields
  exact .apart (fun p _ hp => by rw [hports]; exact hp) hrest (by rw [hreset]) (by rw [hreset]) hlooks (by rw [hframe])

/-- An effect of the engines that writes no destination. -/
theorem KeepsSetup.still {s t : Part} (e : EngineFrame s t) (hd : t.dests = s.dests) : KeepsSetup s t :=
  .engine e fun d _ hx => by rw [hd]; exact hx

variable (s : Part) (h : CardId) (d : DestId) (k : ClipId) (p : PortId)

/-! ## The writes -/

theorem writeCard_setup (c : Card) : KeepsSetup s (writeCard h c s) := .still (writeCard_engine s h c) (writeCard_dests s h c)

theorem moveCard_setup (st : CardState) : KeepsSetup s (moveCard h st s) := writeCard_setup s h _

theorem modClip_setup (f : Clip → Clip) : KeepsSetup s (modClip k f s) := .still (modClip_engine s k f) (modClip_dests s k f)

theorem raise_setup (r : Report) : KeepsSetup s (raise r s) := .still (raise_engine s r) (raise_dests s r)

theorem idleChannel_setup : KeepsSetup s (idleChannel p s) := .still rfl rfl

/-- A destination written with a record at rest where it was unfitted and at rest. -/
theorem writeDest_setup {y : Dest} (hy : s.reset.dests ≤ d.val → s.dests[d].Rests → y.Rests) :
    KeepsSetup s (writeDest d y s) := by
  refine .engine (writeDest_engine s d y) fun e hun he => ?_
  rw [writeDest_dests, get_set]
  split
  · rename_i hde
    subst hde
    exact hy hun he
  · exact he

/-- A destination written that is not at rest. -/
theorem writeDest_awake {y : Dest} (hd : ¬ s.dests[d].Rests) : KeepsSetup s (writeDest d y s) :=
  writeDest_setup s d fun _ hx => absurd hx hd

/-- A source port written as it was where it is unfitted. -/
theorem setPort_setup {x : SourcePort} (hx : s.reset.sources ≤ p.val → s.ports[p] = ⟨false, none⟩ → x = ⟨false, none⟩) :
    KeepsSetup s (setPort p x s) := by
  refine .apart (fun q hun hq => ?_) fun _ _ => id
  rw [setPort_ports, get_set]
  split
  · rename_i hpq
    subst hpq
    exact hx hun hq
  · exact hq

theorem setPort_fitted {x : SourcePort} (hp : p.val < s.reset.sources) : KeepsSetup s (setPort p x s) :=
  setPort_setup s p fun hun => absurd hp (Nat.not_lt.mpr hun)

theorem setPort_gone : KeepsSetup s (setPort p ⟨false, none⟩ s) := setPort_setup s p fun _ _ => rfl

/-! ## The operations of the engines -/

theorem dropOut_setup : KeepsSetup s (dropOut d s) := by
  unfold dropOut
  split
  · exact .refl s
  · rename_i k hk
    refine (modClip_setup s k _).trans (writeDest_awake _ d ?_)
    rw [modClip_dests]
    exact Dest.not_rests_of_holder hk

theorem withdrawAll_setup (ds : DestSet) : KeepsSetup s (withdrawAll ds s) := .foldl _ (fun t e => dropOut_setup t e) _ s

theorem leaveAttempt_setup : KeepsSetup s (leaveAttempt d s) := by
  unfold leaveAttempt
  split
  · exact .refl s
  · split
    · exact dropOut_setup s d
    · exact (dropOut_setup s d).trans (.still rfl rfl)

theorem drainEnded_setup : KeepsSetup s (drainEnded d s) :=
  .foldl _ (fun t q => .still (drainedFor_engine t d q) (drainedFor_frame t d q).1) _ s

theorem joinQueues_setup (ds : DestSet) : KeepsSetup s (joinQueues k ds s) := by
  refine .engine (joinQueues_engine s k ds) fun e _ he => ?_
  rw [joinQueues_dests]
  split <;> exact he

theorem countFailed_setup : KeepsSetup s (countFailed k s) := .still (countFailed_engine s k) (countFailed_dests s k)

theorem settleCardOf_setup : KeepsSetup s (settleCardOf k s) := .still (settleCardOf_engine s k) (settleCardOf_dests s k)

theorem settleCopying_setup : KeepsSetup s (settleCopying h s) := .still (settleCopying_engine s h) (settleCopying_dests s h)

theorem evalClearance_setup : KeepsSetup s (evalClearance h s) :=
  .still (evalClearance_engine s h) (by rw [evalClearance_frame])

theorem evalClipClearance_setup : KeepsSetup s (evalClipClearance k s) :=
  .still (evalClipClearance_engine s k) (evalClipClearance_dests s k)

theorem closeAttempt_setup : KeepsSetup s (closeAttempt p k s) :=
  (idleChannel_setup s p).trans ((joinQueues_setup _ k _).trans (.still (settleClip_engine _ k) (settleClip_dests _ k)))

theorem endAttempt_setup : KeepsSetup s (endAttempt p s) := by
  unfold endAttempt
  split
  · exact (closeAttempt_setup s _ p).trans (settleCardOf_setup _ _)
  · exact idleChannel_setup s p

theorem endIfEmpty_setup : KeepsSetup s (endIfEmpty p s) := by
  unfold endIfEmpty
  split
  · exact endAttempt_setup s p
  · exact .refl s

theorem endAttemptOf_setup : KeepsSetup s (endAttemptOf k s) := by
  unfold endAttemptOf
  split
  · exact endIfEmpty_setup s _
  · exact .refl s

/-- R44, R46: the grant evaluation changes the state or the holder of an ACTIVE destination alone. -/
theorem evalGrant_setup : KeepsSetup s (evalGrant s) := by
  have arbitrated := evalGrant_arbitrates s
  refine .engine (evalGrant_engine s) fun d _ ⟨hstate, hholder, hrest⟩ => ?_
  have hinactive : s.dests[d].state ≠ .active := by
    rw [hstate]
    decide
  refine ⟨?_, ?_, ?_⟩
  · rcases arbitrated.state d with hkept | ⟨hactive, -⟩
    · exact hkept.trans hstate
    · exact absurd hactive hinactive
  · rcases arbitrated.holder d with hkept | ⟨hactive, -⟩
    · exact hkept.trans hholder
    · exact absurd hactive hinactive
  · rw [arbitrated.dests d]
    exact hrest

theorem startVerifies_setup : KeepsSetup s (startVerifies s) :=
  .engine (startVerifies_engine s) fun d _ hx => by
    rw [startVerifies_dests]
    exact hx.verifying _

theorem afterEvent_setup : KeepsSetup s (afterEvent s) := (evalGrant_setup s).trans (startVerifies_setup _)

theorem stopVerify_setup : KeepsSetup s (stopVerify d s) := by
  unfold stopVerify
  split
  · exact .refl s
  · refine (modClip_setup s _ _).trans (writeDest_setup _ d fun _ hx => ?_)
    rw [modClip_dests] at hx
    exact hx

theorem unbindPort_setup (o : Option PortId) : KeepsSetup s (unbindPort o s) := by
  unfold unbindPort
  split
  · exact setPort_setup s _ fun _ hp => by rw [hp]
  · exact .refl s

/-- R10: a release frees clip records, unbinds a port and takes clips out of the open frame and the destinations. -/
theorem release_setup : KeepsSetup s (release h s) := by
  refine KeepsSetup.trans ?_ (startVerifies_setup _)
  refine KeepsSetup.trans ?_ (writeCard_setup _ h _)
  refine KeepsSetup.trans ?_ (unbindPort_setup _ _)
  rw [freeClipRecords_frame]
  refine .apart (fun _ _ => id) (fun d _ hx => ?_) rfl rfl rfl ?_
  · dsimp only
    rw [mapEach_get]
    exact hx.forget _
  · dsimp only
    rw [Option.map_map]
    refine congrArg (fun f => s.frame.map f) (funext fun f => ?_)
    dsimp only [Function.comp]
    unfold OpenFrame.forget
    split
    · split <;> rfl
    · rfl

/-! ## The directive unit -/

theorem setup_unit : UnitClosed KeepsSetup where
  refl := .refl
  trans := .trans
  answer a s := by
    unfold placeAnswer
    split <;> exact .quiet
  count _ := .quiet
  lock cause s := by
    unfold lockUnit
    split
    · exact .quiet
    · exact KeepsSetup.trans .quiet (raise_setup _ _)
  hold _ _ := .apart (fun _ _ => id) (fun _ _ => id)
  waiting _ _ := .quiet

/-- A directive whose item count or range is checked first (R176 causes 5 and 6). -/
theorem checked_setup (cause tag code : Nat) (bad : Prop) [Decidable bad] (f : Part → Part) (hf : KeepsSetup s (f s)) :
    KeepsSetup s ((if bad then malformed cause tag code else f) s) := by
  split
  · exact setup_unit.malformed cause tag code s
  · exact hf

/-! ## The frame tracker (R97, R103, R121) -/

/-- What the frame tracker raises and counts touches neither the ports nor the destinations. -/
theorem picture_apart : PictureClosed fun s t => t.ports = s.ports ∧ t.dests = s.dests where
  refl _ := ⟨rfl, rfl⟩
  trans a b := ⟨b.1.trans a.1, b.2.trans a.2⟩
  quiet q := ⟨q.ports, q.dests⟩
  raise r s _ := by
    rw [raise_frame]
    exact ⟨rfl, rfl⟩
  clip k f s _ := ⟨modClip_ports s k f, modClip_dests s k f⟩
  commit _ _ _ _ := ⟨rfl, rfl⟩
  clear k s := by
    rw [evalClipClearance_frame]
    exact ⟨rfl, rfl⟩

/-- R120: with no frame open no slot is PENDING. -/
theorem LooksOk.notPending {s : Part} (hs : LooksOk s) (hf : s.frame = none) (k : SlotId) :
    s.looks[k].state.isPending = false := by
  refine Bool.eq_false_iff.mpr fun hpending => ?_
  have huse := (hs k).2 hpending
  rw [slotInUse, hf] at huse
  cases huse

/-- R103, R120: what a frame's end or opening leaves: with no slot PENDING only the CLEAN slots matter. -/
theorem LooksOk.of_none_pending {t : Part}
    (hclean : ∀ k : SlotId, t.looks[k].state = .clean → t.looks[k].staging = t.looks[k].live)
    (hpending : ∀ k : SlotId, t.looks[k].state.isPending = false) : LooksOk t := fun k =>
  ⟨hclean k, fun hp => by rw [hpending k] at hp; cases hp⟩

theorem LookSlot.committed_clean {x : LookSlot} (hx : x.state = .clean → x.staging = x.live)
    (hclean : x.committed.state = .clean) : x.committed.staging = x.committed.live := by
  unfold LookSlot.committed at *
  split
  · rfl
  · rename_i hstill
    rw [if_neg hstill] at hclean
    exact hx hclean

/-- R97, R121: the end of a frame commits every PENDING slot, and no frame is open after it. -/
theorem endFrame_setup (f : OpenFrame) (short abandoned : Bool) : KeepsSetup s (endFrame f short abandoned s) := by
  have ended := endFrame_ended f short abandoned s
  obtain ⟨hports, hdests⟩ := picture_apart.endFrame s f short abandoned
  refine ⟨by rw [ended.reset], by rw [ended.reset], fun hs => .of_none_pending (fun k => ?_) fun k => ?_, fun hs => ?_⟩
  · rw [ended.looks]
    exact LookSlot.committed_clean (hs k).1
  · rw [ended.looks]
    exact LookSlot.committed_notPending _
  · unfold FittedOk
    rw [ended.reset, hports, hdests]
    exact hs

theorem abandonFrame_setup : KeepsSetup s (abandonFrame s) := by
  unfold abandonFrame
  split
  · exact endFrame_setup s _ true true
  · exact .refl s

/-- R90: a frame opens where none is open, so that no slot is PENDING. -/
theorem openFrame_setup (o : FrameOpening) (hf : s.frame = none) : KeepsSetup s (openFrame o s) := by
  have opened (t : Part) (ht : t.frame = none) (f : OpenFrame) (w : List WatchEntry) :
      KeepsSetup t { t with frame := some f, watch := w } :=
    ⟨rfl, rfl, fun hs => .of_none_pending (fun k => (hs k).1) (hs.notPending ht), id⟩
  unfold openFrame
  dsimp only
  split
  · exact opened s hf _ _
  · have raised := raise_setup s ⟨.orphanPicture, none, none, none, some (o.number, o.tc), o.clip⟩
    exact raised.trans (opened _ (by rw [raise_frame]; exact hf) _ _)

theorem frameOpenTaken_setup (b : Rx) : KeepsSetup s (frameOpenTaken b s) := by
  unfold frameOpenTaken
  split
  · exact (abandonFrame_setup s).trans (raise_setup _ _)
  · refine (abandonFrame_setup s).trans (openFrame_setup _ _ ?_)
    unfold abandonFrame
    split
    · exact (endFrame_ended _ true true s).frame
    · assumption

theorem carried_setup (b : Rx) : KeepsSetup s (carried b s).2 := by
  unfold carried
  split <;> exact .quiet

/-- R94: the pixels of a LINE leave the slots in use as they are. -/
theorem lineTaken_setup (b : Rx) (monitorTakes : Bool) {f : OpenFrame} (hf : s.frame = some f) :
    KeepsSetup s (lineTaken b monitorTakes f s) := by
  refine .apart (fun _ _ => id) (fun _ _ => id) rfl rfl rfl ?_
  unfold lineTaken
  dsimp only
  rw [takePixels_eq, hf]
  rfl

theorem lineArrives_setup (b : Rx) (monitorTakes : Bool) : KeepsSetup s (lineArrives b monitorTakes s) := by
  unfold lineArrives
  split
  · exact (carried_setup s b).trans (raise_setup _ _)
  · split
    · exact raise_setup s _
    · rename_i f hf
      split
      · exact raise_setup s _
      · split
        · exact raise_setup s _
        · exact lineTaken_setup s b monitorTakes hf

theorem frameCloseTaken_setup (b : Rx) : KeepsSetup s (frameCloseTaken b s) := by
  unfold frameCloseTaken
  split
  · exact (carried_setup s b).trans (raise_setup _ _)
  · split <;> exact endFrame_setup s _ _ _

/-! ## The directives on looks (R116, R120) -/

/-- A slot written with its STAGING bank equal to its LIVE bank where it is CLEAN, and PENDING only while it is in use. -/
theorem writeSlot_setup (k : SlotId) (x : LookSlot) (hclean : x.state = .clean → x.staging = x.live)
    (hpending : LooksOk s → x.state.isPending = true → slotInUse s k = true) :
    KeepsSetup s { s with looks := s.looks.set k x } := by
  refine ⟨rfl, rfl, fun hs j => ?_, id⟩
  change ((s.looks.set k x)[j].state = .clean → (s.looks.set k x)[j].staging = (s.looks.set k x)[j].live)
    ∧ ((s.looks.set k x)[j].state.isPending = true → slotInUse s j = true)
  rw [get_set]
  split
  · rename_i hkj
    subst hkj
    exact ⟨hclean, hpending hs⟩
  · exact hs j

theorem stagingWrite_setup (slot : Nat) (adjusted : Bool) (f : Bank → Bank) :
    KeepsSetup s (stagingWrite slot adjusted f s).1 := by
  unfold stagingWrite
  split
  · exact .refl s
  · split
    · exact .refl s
    · exact writeSlot_setup s _ _ nofun fun _ => nofun

theorem commitLook_setup (tag slot : Nat) : KeepsSetup s (commitLook tag slot s).1 := by
  unfold commitLook
  split
  · exact .refl s
  · rename_i k _
    unfold commitSlot
    split
    · exact .refl s
    · split
      · rename_i huse
        exact writeSlot_setup s k _ nofun fun _ _ => huse
      · exact writeSlot_setup s k _ (fun _ => rfl) fun _ => nofun
    · rename_i hpending
      exact writeSlot_setup s k _ nofun fun hs _ => (hs k).2 (by rw [hpending]; rfl)

/-! ## The directives on cards -/

variable {s} in
theorem asPort_fitted {target : Nat} (hp : asPort s target = some p) : p.val < s.reset.sources := by
  unfold asPort at hp
  split at hp
  · split at hp
    · cases hp
      assumption
    · cases hp
  · cases hp

theorem mount_setup (port : Nat) (label : List Byte) (copies review mode : Nat) :
    KeepsSetup s (mount port label copies review mode s).1 := by
  unfold mount
  split
  · exact .refl s
  · rename_i p hp
    have bound (g : CardId) (c : Card) (x : SourcePort) : KeepsSetup s (writeCard g c (setPort p x s)) :=
      (setPort_fitted s p (asPort_fitted p hp)).trans (writeCard_setup _ g c)
    split
    · exact .refl s
    · split
      · split
        · exact .refl s
        · split
          · exact bound _ _ _
          · exact .refl s
      · split
        · exact .refl s
        · exact bound _ _ _

theorem listClips_setup (card : Nat) (items : List ClipItem) : KeepsSetup s (listClips card items s).1 := by
  have appended (h : CardId) : KeepsSetup s (appendClips h items s) := by
    rw [appendClips_eq]
    exact .quiet
  unfold listClips
  split
  · exact .refl s
  · split
    · exact .refl s
    · split
      · exact .refl s
      · dsimp only
        split
        · exact (appended _).trans (afterEvent_setup _)
        · exact appended _

theorem dismount_setup (card : Nat) : KeepsSetup s (dismount card s).1 := by
  unfold dismount
  split
  · exact .refl s
  · rename_i h _
    split
    · exact .refl s
    · exact .refl s
    · exact .refl s
    · dsimp only
      exact release_setup s h
    · dsimp only
      exact (unbindPort_setup s _).trans (writeCard_setup _ h _)

theorem retire_setup (card : Nat) : KeepsSetup s (retire card s).1 := by
  unfold retire
  split
  · exact .refl s
  · split
    · exact .refl s
    · dsimp only
      exact release_setup s _

theorem route_setup (card : Nat) (ports : List Nat) : KeepsSetup s (route card ports s).1 := by
  unfold route
  split
  · exact .refl s
  · split
    · exact .refl s
    · split
      · exact .refl s
      · split
        · exact .refl s
        · exact writeCard_setup s _ _

theorem beginsCopying_setup : KeepsSetup s (settleCopying h (moveCard h .copying s)) :=
  (moveCard_setup s h _).trans (settleCopying_setup _ h)

theorem start_setup (card : Nat) : KeepsSetup s (start card s).1 := by
  unfold start
  split
  · exact .refl s
  · split
    · exact .refl s
    · split
      · exact .refl s
      · split
        · exact .refl s
        · dsimp only
          exact (beginsCopying_setup s _).trans (afterEvent_setup _)

/-- R64, R67: an attempt whose destinations are withdrawn and whose finished ones queue the clip. -/
theorem attemptDropped_setup (ds fin : DestSet) : KeepsSetup s (attemptDropped p k ds fin s) :=
  (withdrawAll_setup s ds).trans ((idleChannel_setup _ p).trans (joinQueues_setup _ k fin))

theorem promptAbandon_setup : KeepsSetup s (promptAbandon h p k s) := by
  have abandoned : KeepsSetup s (abandonClip p k s) := (attemptDropped_setup s k p _ _).trans (modClip_setup _ k _)
  refine abandoned.trans (KeepsSetup.trans ?_ (afterEvent_setup _))
  unfold settleAbandon
  split
  · exact moveCard_setup _ h _
  · have waits (c : Channel) (t : Part) : KeepsSetup t (setChannel p c t) := .still rfl rfl
    exact (waits _ _).trans (moveCard_setup _ h _)

theorem suspend_setup (card : Nat) : KeepsSetup s (suspend card s).1 := by
  unfold suspend
  split
  · exact .refl s
  · rename_i h _
    split
    · exact .refl s
    · split
      · exact moveCard_setup s h _
      · unfold suspendInFlight
        dsimp only
        split
        · exact moveCard_setup s h _
        · split
          · exact writeCard_setup s h _
          · split
            · exact promptAbandon_setup s h _ _
            · exact moveCard_setup s h _

theorem resume_setup (card : Nat) : KeepsSetup s (resume card s).1 := by
  unfold resume
  split
  · exact .refl s
  · rename_i h _
    split
    · exact .refl s
    · unfold resumeCard
      dsimp only
      split
      · exact (beginsCopying_setup s h).trans (afterEvent_setup _)
      · exact beginsCopying_setup s h

theorem stopChannel_setup : KeepsSetup s (stopChannel p s) := by
  unfold stopChannel
  split
  · exact .refl s
  · exact idleChannel_setup s p
  · split
    · exact (attemptDropped_setup s _ p _ _).trans (countFailed_setup _ _)
    · exact idleChannel_setup s p

theorem abortCard_setup : KeepsSetup s (abortCard h s) := by
  unfold abortCard
  refine KeepsSetup.trans ?_ (moveCard_setup _ h _)
  split
  · exact stopChannel_setup s _
  · exact .refl s

theorem abort_setup (card : Nat) : KeepsSetup s (abort card s).1 := by
  unfold abort
  split
  · exact .refl s
  · split
    · exact .refl s
    · dsimp only
      split
      · exact (abortCard_setup s _).trans (afterEvent_setup _)
      · exact abortCard_setup s _

theorem haltCard_setup : KeepsSetup s (haltCard s h) := by
  unfold haltCard
  split
  · exact abortCard_setup s h
  · exact .refl s

theorem haltVerify_setup : KeepsSetup s (haltVerify s d) := by
  unfold haltVerify
  split
  · exact .refl s
  · exact (stopVerify_setup s d).trans (writeDest_setup _ d fun _ hx => (hx.filterFetches _).failedRequest)

theorem haltAll_setup : KeepsSetup s (haltAll s).1 := by
  have stopped : KeepsSetup s (allDests.foldl haltVerify (allCards.foldl haltCard s)) :=
    (KeepsSetup.foldl haltCard haltCard_setup allCards s).trans (.foldl haltVerify haltVerify_setup allDests _)
  have accepted (n : Nat) (t : Part) : KeepsSetup t (acceptWith n t) := .quiet
  unfold haltAll
  dsimp only
  exact stopped.trans ((accepted _ _).trans (afterEvent_setup _))

theorem recopy_setup (card : Nat) : KeepsSetup s (recopy card s).1 := by
  have relisted (required : Nat) (ks : List ClipId) : KeepsSetup s (relistAll required ks s) :=
    .foldl _ (fun t k => modClip_setup t k _) _ s
  unfold recopy
  split
  · exact .refl s
  · rename_i h _
    split
    · exact .refl s
    · split
      · exact .refl s
      · split
        · exact .refl s
        · split
          · dsimp only
            exact (relisted _ _).trans ((moveCard_setup _ h _).trans (afterEvent_setup _))
          · unfold recopyNothing
            dsimp only
            split
            · split
              · exact moveCard_setup s h _
              · exact (moveCard_setup s h _).trans (evalClearance_setup _ h)
            · exact .refl s

theorem waive_setup (card generation : Nat) : KeepsSetup s (waive card generation s).1 := by
  unfold waive
  split
  · exact .refl s
  · rename_i h _
    split
    · exact .refl s
    · split
      · exact .refl s
      · have waived : KeepsSetup s (waiveClips s.cards[h].clips s) := .foldl _ (fun t k => modClip_setup t k _) _ s
        dsimp only
        exact waived.trans ((writeCard_setup _ h _).trans (evalClearance_setup _ h))

/-! ## The directives on destinations -/

/-- R45: the write of a destination that is not at rest. -/
theorem changeDest_setup {y : Dest} (hd : s.dests[d].state ≠ .absent) : KeepsSetup s (changeDest d y s) := by
  have written : KeepsSetup s (writeDest d y s) := writeDest_awake s d (Dest.not_rests_of_state hd)
  unfold changeDest
  split
  · exact written
  · exact written.trans (afterEvent_setup _)

theorem setRegion_setup (port base length : Nat) : KeepsSetup s (setRegion port base length s).1 := by
  unfold setRegion
  split
  · exact .refl s
  · split
    · exact .refl s
    · rename_i hst
      split
      · exact .refl s
      · exact changeDest_setup s _ hst

theorem setStall_setup (port limit : Nat) : KeepsSetup s (setStall port limit s).1 := by
  unfold setStall
  split
  · exact .refl s
  · exact writeDest_setup s _ fun _ => id

theorem closeDest_setup (port : Nat) : KeepsSetup s (closeDest port s).1 := by
  unfold closeDest
  split
  · exact .refl s
  · split
    case h_1 hst => exact changeDest_setup s _ (by rw [hst]; decide)
    case h_2 hst => exact changeDest_setup s _ (by rw [hst]; decide)
    all_goals exact .refl s

theorem reviveDest_setup (port : Nat) : KeepsSetup s (reviveDest port s).1 := by
  unfold reviveDest
  split
  · exact .refl s
  · split
    · rename_i st hst
      refine changeDest_setup s _ fun habsent => ?_
      rw [Dest.revivesTo, habsent] at hst
      cases hst
    · exact .refl s

theorem setPacing_setup (port q e : Nat) : KeepsSetup s (setPacing port q e s).1 := by
  unfold setPacing
  split
  · exact .refl s
  · exact writeDest_setup s _ fun _ => id

/-! ## The directives and the station stream -/

theorem mapCamera_setup (camera code : Nat) : KeepsSetup s (mapCamera camera code s).1 := by
  unfold mapCamera
  split <;> exact .quiet

theorem setProfile_setup (camera : Nat) (item : ProfileItem) : KeepsSetup s (setProfile camera item s).1 := by
  unfold setProfile
  split <;> exact .quiet

theorem watchPixel_setup (items : List WatchItem) : KeepsSetup s (watchPixel items s).1 := by
  unfold watchPixel
  split
  · exact .quiet
  · split <;> exact .quiet

theorem unwatchPixel_setup (items : List UnwatchItem) : KeepsSetup s (unwatchPixel items s).1 := by
  unfold unwatchPixel
  split <;> exact .quiet

theorem queryCard_setup (card : Nat) : KeepsSetup s (queryCard card s).1 := by
  unfold queryCard
  split <;> exact .refl s

theorem queryClip_setup (clip : Nat) : KeepsSetup s (queryClip clip s).1 := by
  unfold queryClip
  split <;> exact .refl s

theorem queryDest_setup (port : Nat) : KeepsSetup s (queryDest port s).1 := by
  unfold queryDest
  split <;> exact .refl s

/-- R179: every directive. -/
theorem takeDirective_setup (c : Instr) : KeepsSetup s (takeDirective c s) := by
  have own {owner : Part → Part × Reply} (tag code : Nat) (both : Bool) (ho : KeepsSetup s (owner s).1) :
      KeepsSetup s (directive tag code both owner s) := setup_unit.directive tag code both s ho
  cases c
  case mount tag port label copies review mode =>
    exact own tag 0x10 false (mount_setup s port label copies review mode)
  case listClips tag card items =>
    exact checked_setup s 5 tag 0x11 _ _ (own tag 0x11 false (listClips_setup s card items))
  case dismount tag card => exact own tag 0x12 false (dismount_setup s card)
  case retire tag card => exact own tag 0x13 false (retire_setup s card)
  case queryCard tag card => exact own tag 0x14 true (queryCard_setup s card)
  case queryClip tag clip => exact own tag 0x15 true (queryClip_setup s clip)
  case route tag card ports => exact checked_setup s 5 tag 0x20 _ _ (own tag 0x20 false (route_setup s card ports))
  case start tag card => exact own tag 0x21 false (start_setup s card)
  case suspend tag card => exact own tag 0x22 false (suspend_setup s card)
  case resume tag card => exact own tag 0x23 false (resume_setup s card)
  case abort tag card => exact own tag 0x24 false (abort_setup s card)
  case recopy tag card => exact own tag 0x25 false (recopy_setup s card)
  case haltAll tag => exact own tag 0x26 true (haltAll_setup s)
  case setRegion tag port base length => exact own tag 0x30 false (setRegion_setup s port base length)
  case setStall tag port limit => exact own tag 0x31 false (setStall_setup s port limit)
  case closeDest tag port => exact own tag 0x32 false (closeDest_setup s port)
  case reviveDest tag port => exact own tag 0x33 false (reviveDest_setup s port)
  case queryDest tag port => exact own tag 0x34 true (queryDest_setup s port)
  case setPacing tag port q e => exact own tag 0x38 false (setPacing_setup s port q e)
  case setLook tag slot item => exact own tag 0x40 false (stagingWrite_setup s slot _ _)
  case loadCurve tag slot channel start entries =>
    exact checked_setup s 5 tag 0x41 _ _ (checked_setup s 6 tag 0x41 _ _
      (own tag 0x41 false (stagingWrite_setup s slot _ _)))
  case loadLattice tag slot start entries =>
    exact checked_setup s 5 tag 0x42 _ _ (checked_setup s 6 tag 0x42 _ _
      (own tag 0x42 false (stagingWrite_setup s slot _ _)))
  case commitLook tag slot => exact own tag 0x43 false (commitLook_setup s tag slot)
  case mapCamera tag camera code => exact own tag 0x44 false (mapCamera_setup s camera code)
  case setCompare tag on split => exact own tag 0x45 false .quiet
  case setProfile tag camera item => exact own tag 0x50 false (setProfile_setup s camera item)
  case watchPixel tag items => exact checked_setup s 5 tag 0x51 _ _ (own tag 0x51 false (watchPixel_setup s items))
  case unwatchPixel tag items => exact checked_setup s 5 tag 0x52 _ _ (own tag 0x52 false (unwatchPixel_setup s items))
  case waive tag card generation => exact own tag 0x60 false (waive_setup s card generation)
  case clearStatus tag => exact own tag 0x70 true .quiet
  case resetPart => exact setup_unit.hold .directive s
  case queryPart tag => exact own tag 0x72 true (.refl s)
  all_goals exact .refl s

theorem setup_station : StationClosed KeepsSetup where
  toUnitClosed := setup_unit
  directives c s := takeDirective_setup s c
  frameOpen b s := frameOpenTaken_setup s b
  line b monitorTakes s := lineArrives_setup s b monitorTakes
  frameClose b s := frameCloseTaken_setup s b

/-! ## The events of the ports -/

theorem detachChannel_setup : KeepsSetup s (detachChannel p s) := by
  unfold detachChannel
  split
  · exact .refl s
  · exact idleChannel_setup s p
  · split
    · exact (withdrawAll_setup s _).trans (closeAttempt_setup _ _ p)
    · exact idleChannel_setup s p

theorem detachCopying_setup : KeepsSetup s (detachCopying h p s) := by
  have taken : KeepsSetup s (sourceTaken h p s) := (raise_setup s _).trans (writeCard_setup _ h _)
  rw [detachCopying_eq]
  split
  · exact taken
  · exact taken.trans ((detachChannel_setup _ p).trans (afterEvent_setup _))

theorem detach_setup : KeepsSetup s (detach p s) := by
  unfold detach
  split
  · refine (setPort_gone s p).trans ?_
    unfold detachCard
    split
    · exact release_setup _ _
    · exact detachCopying_setup _ _ p
    · exact detachCopying_setup _ _ p
    · exact detachCopying_setup _ _ p
    · exact writeCard_setup _ _ _
  · exact setPort_gone s p

theorem sourceDetach_setup : KeepsSetup s (sourceDetach p s) := by
  unfold sourceDetach
  split
  · exact detach_setup s p
  · exact .refl s

/-- R7, R186: only a fitted port is attached. -/
theorem sourceAttach_setup : KeepsSetup s (sourceAttach p s) := by
  unfold sourceAttach
  split
  · rename_i hp
    split
    · have detached := detach_setup s p
      exact detached.trans (setPort_fitted _ p (detached.sources ▸ hp))
    · exact setPort_fitted s p hp
  · exact .refl s

/-- R26, R186: only a fitted destination leaves ABSENT. -/
theorem destLinkUp_setup : KeepsSetup s (destLinkUp d s) := by
  unfold destLinkUp
  split
  · rename_i hup
    exact (writeDest_setup s d fun hun => absurd hup.1 (Nat.not_lt.mpr hun)).trans (afterEvent_setup _)
  · exact .refl s

/-- R28, R35: the loss of the service of a destination that is not at rest. -/
theorem loseDest_setup (st : DestState) (ret : Option Service) (kind : FaultKind) (hd : ¬ s.dests[d].Rests) :
    KeepsSetup s (loseDest d st ret kind s) := by
  have down : KeepsSetup s (destDown d st ret kind s) :=
    (writeDest_awake s d hd).trans ((leaveAttempt_setup _ d).trans ((stopVerify_setup _ d).trans (raise_setup _ _)))
  have heard : KeepsSetup s
      (if s.dests[d].draining then drainEnded d (destDown d st ret kind s) else destDown d st ret kind s) := by
    split
    · exact down.trans (drainEnded_setup _ d)
    · exact down
  rw [loseDest_eq]
  refine KeepsSetup.trans ?_ (afterEvent_setup _)
  unfold destGone
  split
  · exact heard.trans (endAttemptOf_setup _ _)
  · exact heard

theorem destLinkDown_setup : KeepsSetup s (destLinkDown d s) := by
  unfold destLinkDown
  split
  · rename_i hup
    exact loseDest_setup s d _ _ _ (Dest.not_rests_of_state hup.2)
  · exact .refl s

theorem stallTimeout_setup : KeepsSetup s (stallTimeout d s) := by
  unfold stallTimeout
  split
  · rename_i hruns
    exact loseDest_setup s d _ _ _ (Dest.not_rests_of_timer hruns)
  · exact .refl s

/-! ## Requests and answers of a source port -/

theorem sendFetch_setup : KeepsSetup s (sendFetch p s) := by
  unfold sendFetch
  split
  · exact .refl s
  · split
    · exact .quiet
    · exact .refl s

theorem finishDigest_setup (value : Nat) : KeepsSetup s (finishDigest k value s) := by
  unfold finishDigest
  split
  · exact .refl s
  · split
    · dsimp only
      split
      · exact (modClip_setup s k _).trans (raise_setup _ _)
      · exact modClip_setup s k _
    · split
      · exact .refl s
      · exact raise_setup s _

theorem blockArrived_setup (x : ClipId × Clip) (block : Nat) (data : List Byte) :
    KeepsSetup s (blockArrived p x block data s) := by
  have placed (c : Channel) : KeepsSetup s (setChannel p c s) := .quiet
  unfold blockArrived
  dsimp only
  split
  · exact (placed _).trans (finishDigest_setup _ _ _)
  · exact placed _

theorem tryFailed_setup (f : Fetch) : KeepsSetup s (tryFailed p k f s) := by
  unfold tryFailed
  split
  · exact .quiet
  · unfold blockFailed
    dsimp only
    refine KeepsSetup.trans ?_ ((countFailed_setup _ k).trans ((settleCardOf_setup _ k).trans (afterEvent_setup _)))
    exact (raise_setup s _).trans ((withdrawAll_setup _ _).trans (idleChannel_setup _ p))

theorem dropFetch_setup (tag : Nat) : KeepsSetup s (dropFetch p tag s) := .quiet

theorem sourceBlock_setup (b : Rx) : KeepsSetup s (sourceBlock p b s) := by
  unfold sourceBlock
  split
  · exact .refl s
  · split
    · exact dropFetch_setup s p _
    · refine (dropFetch_setup s p b.tag).trans ?_
      split
      · exact tryFailed_setup _ _ p _
      · exact blockArrived_setup _ p _ _ _

theorem fetchTimeout_setup (tag : Nat) : KeepsSetup s (fetchTimeout p tag s) := by
  unfold fetchTimeout
  split
  · exact .refl s
  · split
    · exact dropFetch_setup s p tag
    · exact (dropFetch_setup s p tag).trans (tryFailed_setup _ _ p _)

/-! ## Requests and answers of a destination port -/

theorem sendStore_setup : KeepsSetup s (sendStore d s) := by
  unfold sendStore
  split
  · rename_i r hr _
    refine KeepsSetup.trans ?_ (writeDest_awake _ d ?_)
    · exact .quiet
    · exact readyStore_not_rests (s := s) hr
  · exact .refl s

theorem sendVerifyFetch_setup : KeepsSetup s (sendVerifyFetch d s) := by
  unfold sendVerifyFetch
  split
  · exact .refl s
  · rename_i x hx
    refine KeepsSetup.trans ?_ (writeDest_awake _ d ?_)
    · exact .quiet
    · exact readyRead_not_rests (s := s) hx

theorem completeDest_setup (sectors : Nat) : KeepsSetup s (completeDest d k p sectors s) := by
  unfold completeDest
  dsimp only
  refine KeepsSetup.trans ?_ ((endIfEmpty_setup _ p).trans (afterEvent_setup _))
  have moved (c : Channel) (t : Part) : KeepsSetup t (setChannel p c t) := .still rfl rfl
  refine KeepsSetup.trans ?_ (moved _ _)
  refine (modClip_setup s k _).trans (writeDest_setup _ d fun _ hx => ?_)
  obtain ⟨hstate, -, hrest⟩ := hx
  exact ⟨hstate, rfl, hrest⟩

theorem storeSucceeded_setup : KeepsSetup s (storeSucceeded d k s) := by
  have earned : KeepsSetup s (writeDest d s.dests[d].earned s) := writeDest_setup s d fun _ => id
  unfold storeSucceeded
  dsimp only
  split
  · split
    · exact earned.trans (completeDest_setup _ d k _ _)
    · exact earned
  · exact earned

theorem storeFailed_setup (block : Nat) : KeepsSetup s (storeFailed d k block s) :=
  (raise_setup s _).trans ((leaveAttempt_setup _ d).trans ((endAttemptOf_setup _ k).trans (afterEvent_setup _)))

theorem drainingAnswer_setup : KeepsSetup s (drainingAnswer d s) := by
  unfold drainingAnswer
  split
  · have ended : KeepsSetup s (writeDest d { s.dests[d] with draining := false } s) := writeDest_setup s d fun _ => id
    exact ended.trans ((drainEnded_setup _ d).trans (afterEvent_setup _))
  · exact .refl s

theorem storeDone_setup (b : Rx) : KeepsSetup s (storeDone d b s) := by
  unfold storeDone
  split
  · exact .refl s
  · split
    · exact .refl s
    · refine (writeDest_setup s d (y := s.dests[d].storeTaken b.tag) fun _ hx => hx.storeTaken b.tag).trans ?_
      dsimp only
      split
      · exact drainingAnswer_setup _ d
      · split
        · split
          · exact storeSucceeded_setup _ d _
          · exact storeFailed_setup _ d _ _
        · exact .refl _

theorem endVerify_setup (v : VerifyContext) (verdict : Copy) (fault : Option (FaultKind × Nat)) :
    KeepsSetup s (endVerify d v verdict fault s) := by
  have freed : KeepsSetup s (writeDest d s.dests[d].verifyOver
      (modClip v.clip (fun c => { c with copies := c.copies.set d verdict }) s)) := by
    refine (modClip_setup s v.clip _).trans (writeDest_setup _ d fun _ hx => ?_)
    rw [modClip_dests] at hx
    exact (Dest.Rests.filterFetches (x := { s.dests[d] with context := none }) hx _).failedRequest
  cases fault with
  | none => exact freed.trans ((evalClipClearance_setup _ _).trans (startVerifies_setup _))
  | some x =>
    exact freed.trans ((raise_setup _ _).trans ((evalClipClearance_setup _ _).trans (startVerifies_setup _)))

theorem readFailed_setup (v : VerifyContext) (t : Try) : KeepsSetup s (readFailed d v t s) := by
  unfold readFailed
  split
  · exact writeDest_setup s d fun _ => id
  · exact endVerify_setup s d _ _ _

theorem compareDigest_setup (v : VerifyContext) (c : Clip) : KeepsSetup s (compareDigest d v c s) := by
  unfold compareDigest
  split <;> exact endVerify_setup s d _ _ _

theorem readArrived_setup (v : VerifyContext) (block : Nat) (data : List Byte) :
    KeepsSetup s (readArrived d v block data s) := by
  unfold readArrived
  split
  · exact .refl s
  · have written (w : VerifyContext) : KeepsSetup s (writeDest d { s.dests[d] with context := some w } s) :=
      writeDest_setup s d fun _ => id
    dsimp only
    split
    · exact (written _).trans (compareDigest_setup _ d _ _)
    · exact written _

theorem verifyBlock_setup (b : Rx) : KeepsSetup s (verifyBlock d b s) := by
  unfold verifyBlock
  split
  · exact .refl s
  · refine (writeDest_setup s d (y := (s.dests[d].withoutFetch b.tag).answered)
      fun _ hx => (hx.filterFetches _).answered).trans ?_
    dsimp only
    split
    · split
      · exact readFailed_setup _ d _ _
      · exact readArrived_setup _ d _ _ _
    · exact .refl _

theorem verifyFetchTimeout_setup (tag : Nat) : KeepsSetup s (verifyFetchTimeout d tag s) := by
  unfold verifyFetchTimeout
  split
  · exact .refl s
  · refine (writeDest_setup s d (y := (s.dests[d].withoutFetch tag).failedRequest)
      fun _ hx => (hx.filterFetches _).failedRequest).trans ?_
    dsimp only
    split
    · exact readFailed_setup _ d _ _
    · exact .refl _

theorem portParcelTaken_setup (port : Port) (kind : Nat) (b : Rx) : KeepsSetup s (portParcelTaken port kind b s) := by
  unfold portParcelTaken
  split
  · exact sourceBlock_setup s _ b
  · exact verifyBlock_setup s _ b
  · exact storeDone_setup s _ b
  · exact .refl s

/-! ## Station egress, the full reset and the step -/

theorem noticeSent_setup (n : Notice) : KeepsSetup s (noticeSent n s) := by
  unfold noticeSent
  split
  · unfold releaseHeld
    split
    · exact KeepsSetup.trans .quiet (setup_station.offerWaiting _)
    · exact .refl s
  · exact writeCard_setup s _ _
  · exact .refl s

variable {s} in
theorem sendFault_setup {t : Part} (ht : sendFault s = some t) : KeepsSetup s t := by
  unfold sendFault at ht
  split at ht
  · cases ht
    exact .quiet
  · split at ht
    · cases ht
      exact .quiet
    · cases ht

theorem egress_setup : KeepsSetup s (egress s) := by
  unfold egress
  split
  · exact .refl s
  · split
    · exact KeepsSetup.trans .quiet (noticeSent_setup _ _)
    · split
      · rename_i t ht
        exact sendFault_setup ht
      · unfold sendStats
        split
        · exact .quiet
        · exact .refl s

theorem takeEvent_setup (c : Instr) : KeepsSetup s (takeEvent c s) := by
  cases c
  case egressSend => exact egress_setup s
  case portForeignParcel port kind b => exact portParcelTaken_setup s port kind b
  case sourceAttach p => exact sourceAttach_setup s p
  case sourceDetach p => exact sourceDetach_setup s p
  case destLinkUp d => exact destLinkUp_setup s d
  case destLinkDown d => exact destLinkDown_setup s d
  case stationLinkDown => exact (abandonFrame_setup s).trans .quiet
  case stationLinkUp => exact .quiet
  case sendFetch p => exact sendFetch_setup s p
  case sourceBlock p b => exact sourceBlock_setup s p b
  case fetchTimeout p tag => exact fetchTimeout_setup s p tag
  case sendStore d => exact sendStore_setup s d
  case storeDone d b => exact storeDone_setup s d b
  case stallTimeout d => exact stallTimeout_setup s d
  case sendVerifyFetch d => exact sendVerifyFetch_setup s d
  case verifyBlock d b => exact verifyBlock_setup s d b
  case verifyFetchTimeout d tag => exact verifyFetchTimeout_setup s d tag
  all_goals exact .refl s

theorem passMillisecond_setup : KeepsSetup s (passMillisecond s) := by
  refine .apart (fun _ _ => id) fun d _ hd => ?_
  rw [passMillisecond, mapEach_get]
  exact hd.after

section Reset

variable (cause : ResetCause) (src : BitVec 2) (dst : BitVec 3) (present : BitVec 4) (up : BitVec 6) (station : Bool)

/-- R102, R103: every slot is CLEAN with the identity look in both banks. -/
theorem afterReset_looksOk : LooksOk (Part.afterReset cause src dst present up station) := by
  have hslot (k : SlotId) : (Part.afterReset cause src dst present up station).looks[k] = LookSlot.initial :=
    Vector.getElem_replicate _
  refine .of_none_pending (fun k _ => ?_) fun k => ?_ <;> rw [hslot] <;> rfl

/-- R22, R24, R186: what the straps leave unfitted is DETACHED or ABSENT. -/
theorem afterReset_fittedOk : FittedOk (Part.afterReset cause src dst present up station) := by
  have hsrc : src.toNat < 4 := src.isLt
  refine ⟨Nat.le_add_left 1 _, hsrc, ?_, Nat.min_le_right _ _, fun p hun => ?_, fun d hun => ?_⟩
  · exact Nat.le_min.mpr ⟨Nat.le_add_left 2 _, by decide⟩
  · have hport : (portsAfterReset (fittedSources src) present)[p] = ⟨false, none⟩ := by
      rw [portsAfterReset, tabulate_get, decide_eq_false (p := p.val < fittedSources src) (Nat.not_lt.mpr hun),
        Bool.false_and]
    exact hport
  · have hdest : (destsAfterReset (fittedDests dst) up)[d] = Dest.blank .absent := by
      rw [destsAfterReset, tabulate_get, if_neg fun hup => absurd hup.1 (Nat.not_lt.mpr hun)]
    change (destsAfterReset (fittedDests dst) up)[d].Rests
    rw [hdest]
    exact ⟨rfl, rfl, rfl, rfl, rfl⟩

/-- R187: the end of a full reset leaves the invariants true, or nothing changed. -/
theorem resetEnds_setup : (LooksOk s → LooksOk (resetEnds src dst present up station s))
    ∧ (FittedOk s → FittedOk (resetEnds src dst present up station s)) := by
  unfold resetEnds
  split
  · rename_i cause _
    exact ⟨fun _ => afterReset_looksOk cause src dst present up station,
      fun _ => afterReset_fittedOk cause src dst present up station⟩
  · exact ⟨id, id⟩

end Reset

/-- Every step keeps both invariants. -/
theorem step_setup {m t : State} (hstep : step m = .next t) :
    (LooksOk m.part → LooksOk t.part) ∧ (FittedOk m.part → FittedOk t.part) := by
  have kept {q : Part} (hq : KeepsSetup m.part q) : (LooksOk m.part → LooksOk q) ∧ (FittedOk m.part → FittedOk q) :=
    ⟨hq.looks, hq.fitted⟩
  unfold step at hstep
  split at hstep
  · cases hstep
    unfold tick
    split
    · exact ⟨id, id⟩
    · exact kept (passMillisecond_setup _)
  · rcases exec_cases hstep with ht | ht | ⟨cause, ht⟩ | ⟨src, dst, present, up, station, -, ht⟩ <;> rw [ht]
    · exact kept (setup_station.ingress _ _)
    · unfold unlessReset
      split
      · exact ⟨id, id⟩
      · exact kept (takeEvent_setup _ _)
    · exact kept (setup_unit.hold cause _)
    · exact resetEnds_setup _ src dst present up station

end Sys2Proof.Machine

namespace Sys2Proof.Proofs
open Machine

/-- Settles O56: each effect of a command keeps the straps and both invariants (`KeepsSetup`), a full reset puts values in
place that meet them, and so every step keeps them. -/
theorem looksAndFittedKept : Obligations.LooksAndFittedKept := fun _ _ hstep => step_setup hstep

end Sys2Proof.Proofs
end

