-- ==== Sys2Proof/Proofs/LookDirectives.lean ====
section
/-! PROOF. The directives on looks and on the settings of the picture (R116 to R120, R123, R124, R126), CLEAR-STATUS (R182), and
the malformed outcome of a directive whose range is refused (R176, R177). -/

namespace Sys2Proof.Machine

/-! ## Targets and outcomes -/

theorem asSlot_val {slot : Nat} {k : SlotId} (hk : k.val = slot) : asSlot slot = some k := by
  subst hk
  simp [asSlot]

theorem asSlot_none {slot : Nat} (hslot : 8 ≤ slot) : asSlot slot = none := dif_neg (Nat.not_lt.mpr hslot)

theorem asCamera_val {camera : Nat} {t : CameraId} (ht : t.val = camera) : asCamera camera = some t := by
  subst ht
  simp [asCamera]

theorem asCamera_none {camera : Nat} (hcamera : 16 ≤ camera) : asCamera camera = none := dif_neg (Nat.not_lt.mpr hcamera)

/-- R179: DONE where nothing was adjusted, ADJUSTED otherwise. -/
theorem Reply.taken_of_iff {adjusted : Bool} {same : Prop} [Decidable same] (hsame : adjusted = true ↔ ¬ same)
    (data : AnswerData) : Reply.taken adjusted data = ⟨if same then .done else .adjusted, data⟩ := by
  unfold Reply.taken
  by_cases h : same
  · rw [if_pos h, if_neg fun ha => hsame.mp ha h]
  · rw [if_neg h, if_pos (hsame.mpr h)]

section Malformed

variable {s : State} {c : Instr} {cause tag code : Nat}

/-- A directive whose item count or range is refused. -/
theorem execRefused {bad : Prop} [Decidable bad] {f g : Part → Part} (hbad : bad)
    (hexec : exec c s = .next (s.onPart (ingress c (if bad then f else g)))) :
    exec c s = .next (s.onPart (ingress c f)) := by
  rw [hexec, if_pos hbad]

/-- R177: in ACCEPTING a malformed directive locks the unit with its cause, and DIRECTIVE_LOCK marks nothing. -/
theorem lockUnit_accepting {p : Part} (hlock : p.unit.status.locked = false) : lockUnit cause p =
    { p with
      unit := { p.unit with status := ⟨true, some cause, p.unit.status.count⟩ }
      log := logFault false ⟨.directiveLock, none, none, none, none, cause⟩ p.log } := by
  rw [lockUnit, if_neg (by rw [hlock]; decide)]
  rfl

theorem answers_malformed (hexec : exec c s = .next (s.onPart (ingress c (malformed cause tag code)))) (hs : s.accepts) :
    Answers c s ⟨tag, code, .malformed cause, .nothing⟩
      { s.part with
        unit := { s.part.unit with status := ⟨true, some cause, s.part.unit.status.count⟩ }
        log := logFault false ⟨.directiveLock, none, none, none, none, cause⟩ s.part.log } := by
  obtain ⟨⟨hruns, hheld⟩, hlock⟩ := hs
  unfold Answers
  rw [hexec, State.onPart, ingress_listens _ _ _ hruns hheld, malformed, lockUnit_accepting hlock]
  rfl

end Malformed

/-! ## The staging write (R103, R116) -/

section Staging

variable {s : Part} {slot : Nat} {k : SlotId} (adjusted : Bool) (f : Bank → Bank)

theorem stagingWrite_notFound (hslot : 8 ≤ slot) : stagingWrite slot adjusted f s = (s, .refuse .notFound) := by
  rw [stagingWrite, asSlot_none hslot]

theorem stagingWrite_collision (hk : k.val = slot) {g : Nat} (hst : s.looks[k].state = .pending g) :
    stagingWrite slot adjusted f s = (s, .refuse .collision) := by
  rw [stagingWrite, asSlot_val hk]
  exact if_pos (by rw [hst]; rfl)

theorem stagingWrite_taken (hk : k.val = slot) (hst : s.looks[k].state.isPending = false) :
    stagingWrite slot adjusted f s =
      ({ s with
          looks := s.looks.set k { live := s.looks[k].live, staging := f s.looks[k].staging, state := .loaded } },
        .taken adjusted .nothing) := by
  rw [stagingWrite, asSlot_val hk]
  exact if_neg (by rw [hst]; decide)

end Staging

/-! ## SET-LOOK (R117) -/

theorem clampInt_eq {lo hi : Int} (h : lo ≤ hi) (v : Int) : clampInt lo hi v = max lo (min v hi) := by
  unfold clampInt
  split
  · omega
  · split <;> omega

/-- R117: each scalar value is clamped into its range, and the lattice enable is taken as it is. -/
theorem adjustLook_eq (i : LookItem) : adjustLook i =
    ⟨⟨min i.slopes.r 65535, min i.slopes.g 65535, min i.slopes.b 65535⟩,
      ⟨max (-65536) (min i.offsets.r 65535), max (-65536) (min i.offsets.g 65535), max (-65536) (min i.offsets.b 65535)⟩,
      min i.saturation 16383, i.lattice⟩ := by
  have hclamp (v : Int) : clampInt (-65536) 65535 v = max (-65536) (min v 65535) := clampInt_eq (by decide) v
  simp only [adjustLook, Rgb.map, hclamp]

/-- R179: SET-LOOK is DONE where the three values it clamps were in range. -/
theorem setLook_adjusted_iff (i : LookItem) : decide (adjustLook i ≠ i) = true ↔
    ¬ ((adjustLook i).slopes = i.slopes ∧ (adjustLook i).offsets = i.offsets ∧ (adjustLook i).saturation = i.saturation) := by
  rw [decide_eq_true_iff, not_iff_not]
  refine ⟨fun h => by rw [h]; exact ⟨rfl, rfl, rfl⟩, fun ⟨hslopes, hoffsets, hsaturation⟩ => ?_⟩
  obtain ⟨slopes, offsets, saturation, lattice⟩ := i
  exact (LookItem.mk.injEq ..).mpr ⟨hslopes, hoffsets, hsaturation, rfl⟩

/-! ## COMMIT-LOOK (R120) -/

theorem slotInUse_iff {s : Part} {k : SlotId} : slotInUse s k = true ↔ ∃ f, s.frame = some f ∧ k ∈ f.slotsInUse := by
  unfold slotInUse
  cases s.frame <;> simp

section Commit

variable {s : Part} {slot : Nat} {k : SlotId} (tag : Nat)

theorem commitLook_notFound (hslot : 8 ≤ slot) : commitLook tag slot s = (s, .refuse .notFound) := by
  rw [commitLook, asSlot_none hslot]

theorem commitLook_clean (hk : k.val = slot) (hst : s.looks[k].state = .clean) :
    commitLook tag slot s = (s, .done) := by
  simp only [commitLook, asSlot_val hk, commitSlot, hst]

/-- R120: a LOADED slot that the open frame does not use is committed at once. -/
theorem commitLook_free (hk : k.val = slot) (hst : s.looks[k].state = .loaded) (huse : slotInUse s k = false) :
    commitLook tag slot s = ({ s with looks := s.looks.set k s.looks[k].commit }, .done) := by
  simp only [commitLook, asSlot_val hk, commitSlot, hst, huse, Bool.false_eq_true, if_false]

/-- R120: a slot in use, or one whose commit is pending, waits for the end of the frame with the tag of this directive. -/
theorem commitLook_deferred (hk : k.val = slot)
    (hst : s.looks[k].state = .loaded ∧ slotInUse s k = true ∨ ∃ g, s.looks[k].state = .pending g) :
    commitLook tag slot s =
      ({ s with looks := s.looks.set k { s.looks[k] with state := .pending tag } }, ⟨.deferred, .nothing⟩) := by
  rcases hst with ⟨hloaded, huse⟩ | ⟨g, hpending⟩
  · simp only [commitLook, asSlot_val hk, commitSlot, hloaded, huse, if_true]
  · simp only [commitLook, asSlot_val hk, commitSlot, hpending]

end Commit

/-! ## LOAD-CURVE and LOAD-LATTICE (R118, R119) -/

/-- An entry of a table into which a list is written from `start` on; past its end no entry is read. -/
theorem writtenEntry_eq {α : Type} (start i : Nat) (entries : List α) (old none : α) :
    (if start ≤ i then (entries[i - start]?).getD old else old) =
      if start ≤ i ∧ i < start + entries.length then (entries[i - start]?).getD none else old := by
  by_cases hstart : start ≤ i
  · rw [if_pos hstart]
    by_cases hend : i < start + entries.length
    · have hlt : i - start < entries.length := by omega
      rw [if_pos ⟨hstart, hend⟩, List.getElem?_eq_getElem hlt]
      rfl
    · rw [if_neg fun h => hend h.2, List.getElem?_eq_none (by omega)]
      rfl
  · rw [if_neg hstart, if_neg fun h => hstart h.1]

theorem curveWritten_get (start : Nat) (entries : List Nat) (curve : Vector Nat 257) (i : Fin 257) :
    (curveWritten start entries curve)[i] =
      if start ≤ i.val ∧ i.val < start + entries.length then (entries[i.val - start]?).getD 0 else curve[i] := by
  rw [curveWritten, mapEach_get]
  exact writtenEntry_eq start i.val entries curve[i] 0

/-- R118: the curve of the channel named is written, and the two others stay. -/
theorem withCurve_curve {channel start : Nat} {entries : List Nat} {x : Bank} (hchannel : channel ≤ 2) :
    (x.withCurve channel start entries).curve =
      ⟨if channel = 0 then curveWritten start entries x.curve.r else x.curve.r,
        if channel = 1 then curveWritten start entries x.curve.g else x.curve.g,
        if channel = 2 then curveWritten start entries x.curve.b else x.curve.b⟩ := by
  interval_cases channel <;> rfl

theorem withCurve_frame (channel start : Nat) (entries : List Nat) (x : Bank) :
    x.withCurve channel start entries = { x with curve := (x.withCurve channel start entries).curve } := by
  unfold Bank.withCurve
  split <;> rfl

/-- R118: an entry of a curve that is written where it is that of the channel named. -/
theorem curveWritten_if_get (named : Prop) [Decidable named] (start : Nat) (entries : List Nat) (curve : Vector Nat 257)
    (i : Fin 257) : (if named then curveWritten start entries curve else curve)[i] =
      if named ∧ start ≤ i.val ∧ i.val < start + entries.length then (entries[i.val - start]?).getD 0 else curve[i] := by
  by_cases hnamed : named
  · rw [if_pos hnamed, curveWritten_get]
    exact if_congr (by tauto) rfl rfl
  · rw [if_neg hnamed, if_neg fun h => hnamed h.1]

theorem withLattice_get (start : Nat) (entries : List (Rgb Nat)) (x : Bank) (r g b : Fin 17) :
    (x.withLattice start entries).lattice[b][g][r] =
      if start ≤ r.val + 17 * g.val + 289 * b.val ∧ r.val + 17 * g.val + 289 * b.val < start + entries.length
        then (entries[r.val + 17 * g.val + 289 * b.val - start]?).getD ⟨0, 0, 0⟩ else x.lattice[b][g][r] := by
  simp only [Bank.withLattice, mapEach_get]
  exact writtenEntry_eq start (latticeIndex r g b) entries x.lattice[b][g][r] ⟨0, 0, 0⟩

theorem curveRangeBad_iff (channel start n : Nat) : curveRangeBad channel start n = true ↔ 2 < channel ∨ 257 < start + n := by
  simp [curveRangeBad]

theorem latticeRangeBad_iff (start n : Nat) : latticeRangeBad start n = true ↔ 4913 < start + n := by
  simp [latticeRangeBad]

section Loads

variable {s : State} {tag slot channel start : Nat}

/-- R118, R176: what LOAD-CURVE does when its count is in range. -/
theorem exec_loadCurve {entries : List Nat} (hsome : 1 ≤ entries.length) (hmost : entries.length ≤ 257) :
    exec (.loadCurve tag slot channel start entries) s =
      .next (s.onPart (ingress (.loadCurve tag slot channel start entries)
        (if curveRangeBad channel start entries.length then malformed 6 tag 0x41
          else directive tag 0x41 false (loadCurve slot channel start entries)))) :=
  execCounted (bad := entries.length = 0 ∨ 257 < entries.length) (by omega) rfl

theorem exec_loadCurve_good {entries : List Nat} (hsome : 1 ≤ entries.length) (hchannel : channel ≤ 2)
    (hend : start + entries.length ≤ 257) :
    exec (.loadCurve tag slot channel start entries) s =
      .next (s.onPart (ingress (.loadCurve tag slot channel start entries)
        (directive tag 0x41 false (loadCurve slot channel start entries)))) :=
  execCounted (by rw [curveRangeBad_iff]; omega) (exec_loadCurve hsome (by omega))

/-- R119, R176: what LOAD-LATTICE does when its count is in range. -/
theorem exec_loadLattice {entries : List (Rgb Nat)} (hsome : 1 ≤ entries.length) (hmost : entries.length ≤ 512) :
    exec (.loadLattice tag slot start entries) s =
      .next (s.onPart (ingress (.loadLattice tag slot start entries)
        (if latticeRangeBad start entries.length then malformed 6 tag 0x42
          else directive tag 0x42 false (loadLattice slot start entries)))) :=
  execCounted (bad := entries.length = 0 ∨ 512 < entries.length) (by omega) rfl

theorem exec_loadLattice_good {entries : List (Rgb Nat)} (hsome : 1 ≤ entries.length) (hmost : entries.length ≤ 512)
    (hend : start + entries.length ≤ 4913) :
    exec (.loadLattice tag slot start entries) s =
      .next (s.onPart (ingress (.loadLattice tag slot start entries)
        (directive tag 0x42 false (loadLattice slot start entries)))) :=
  execCounted (by rw [latticeRangeBad_iff]; omega) (exec_loadLattice hsome hmost)

end Loads

/-! ## MAP-CAMERA, SET-COMPARE and SET-PROFILE (R123, R124, R126) -/

section Settings

variable {s : Part} {camera code : Nat} {t : CameraId}

theorem mapCamera_notFound (hcamera : 16 ≤ camera) : mapCamera camera code s = (s, .refuse .notFound) := by
  rw [mapCamera, asCamera_none hcamera]

theorem mapCamera_slot (ht : t.val = camera) {k : SlotId} (hk : k.val = code) :
    mapCamera camera code s = ({ s with cameraMap := s.cameraMap.set t (some k) }, .done) := by
  have hin : slotCodeAdjusted code = false := by
    rw [slotCodeAdjusted, decide_eq_false (by omega), Bool.false_and]
  simp only [mapCamera, asCamera_val ht, slotOfCode, asSlot_val hk, hin]
  rfl

/-- R123: a code that names no slot maps the camera to none; only FFh says so without being adjusted. -/
theorem mapCamera_none (ht : t.val = camera) (hcode : 8 ≤ code) :
    mapCamera camera code s =
      ({ s with cameraMap := s.cameraMap.set t none }, ⟨if code = 255 then .done else .adjusted, .nothing⟩) := by
  have hreply : Reply.taken (slotCodeAdjusted code) .nothing = ⟨if code = 255 then .done else .adjusted, .nothing⟩ :=
    Reply.taken_of_iff (by rw [slotCodeAdjusted, decide_eq_true hcode, Bool.true_and, bne_iff_ne]) _
  simp only [mapCamera, asCamera_val ht, slotOfCode, asSlot_none hcode, hreply]

theorem setCompare_eq (on split : Nat) : setCompare on split s =
    ({ s with compare := ⟨on != 0, if 4096 < split then 4096 else split⟩ },
      ⟨if 4096 < split then .adjusted else .done, .nothing⟩) := by
  have hmin : min split 4096 = if 4096 < split then 4096 else split := by
    split <;> omega
  have hresult : (if decide (4096 < split) = true then Result.adjusted else .done) =
      if 4096 < split then .adjusted else .done := if_congr decide_eq_true_iff rfl rfl
  simp only [setCompare, Reply.taken, hmin, hresult]

theorem setProfile_notFound (item : ProfileItem) (hcamera : 16 ≤ camera) :
    setProfile camera item s = (s, .refuse .notFound) := by
  rw [setProfile, asCamera_none hcamera]

/-- R126: the profile taken is the item where every value was in range. -/
theorem profileAdjusted_iff (i : ProfileItem) : profileAdjusted i = true ↔
    ¬ adjustProfile i = ⟨i.highLevel, i.highLimit, i.lowLevel, i.lowLimit, i.excLimit⟩ := by
  simp only [profileAdjusted, adjustProfile, Profile.mk.injEq, Bool.or_eq_true, decide_eq_true_eq, min_eq_left_iff]
  omega

theorem setProfile_taken (ht : t.val = camera) (item : ProfileItem) :
    setProfile camera item s = ({ s with profiles := s.profiles.set t (adjustProfile item) },
      ⟨if adjustProfile item = ⟨item.highLevel, item.highLimit, item.lowLevel, item.lowLimit, item.excLimit⟩
        then .done else .adjusted, .nothing⟩) := by
  rw [setProfile, asCamera_val ht, ← Reply.taken_of_iff (profileAdjusted_iff item)]

end Settings

end Sys2Proof.Machine

namespace Sys2Proof.Proofs
open Machine

/-- Settles O27: each STAGING state by the equation of its case (`stagingWrite_taken`, `commitLook_free`,
`commitLook_deferred`). -/
theorem setAndCommitLook : Obligations.SetAndCommitLook := by
  refine ⟨fun s tag slot i hs => ⟨fun hslot => ?_, fun k hk => ⟨fun g hst => ?_, fun hst => ?_⟩⟩,
    fun s tag slot hs => ⟨fun hslot => ?_, fun k hk => ⟨fun hst => ?_, fun hst hfree => ?_, fun f hf huse hst => ?_,
      fun g hst => ?_⟩⟩⟩
  · exact refuses_of rfl hs.1 (.inl hs.2) (stagingWrite_notFound _ _ hslot)
  · exact refuses_of rfl hs.1 (.inl hs.2) (stagingWrite_collision _ _ hk hst)
  · have hstill : s.part.looks[k].state.isPending = false := by
      rcases hst with hst | hst <;> rw [hst] <;> rfl
    have htaken := stagingWrite_taken (decide (adjustLook i ≠ i)) (Bank.withScalars (adjustLook i)) hk hstill
    rw [Reply.taken_of_iff (setLook_adjusted_iff i)] at htaken
    refine ⟨_, _, _, rfl, rfl, rfl, answers_of rfl hs.1 (.inl hs.2) (htaken.trans ?_)⟩
    rw [adjustLook_eq]
    rfl
  · exact refuses_of rfl hs.1 (.inl hs.2) (commitLook_notFound tag hslot)
  · exact answers_of rfl hs.1 (.inl hs.2) (commitLook_clean tag hk hst)
  · have huse : slotInUse s.part k = false := by
      rw [Bool.eq_false_iff, ne_eq, slotInUse_iff]
      exact fun ⟨f, hf, hmem⟩ => hfree f hf hmem
    exact answers_of rfl hs.1 (.inl hs.2) (commitLook_free tag hk hst huse)
  · exact answers_of rfl hs.1 (.inl hs.2) (commitLook_deferred tag hk (.inl ⟨hst, slotInUse_iff.mpr ⟨f, hf, huse⟩⟩))
  · exact answers_of rfl hs.1 (.inl hs.2) (commitLook_deferred tag hk (.inr ⟨g, hst⟩))

/-- Settles O28: the refusals by the staging write's checks, the malformed ones by `answers_malformed`, and the entries by
`curveWritten_get` and `withLattice_get`. -/
theorem loadCurveAndLattice : Obligations.LoadCurveAndLattice := by
  refine ⟨fun s tag slot channel first start entries colours hs hsome hchannel hend hsome' hmost hend' => ?_,
    fun s tag slot channel first entries k hs hk hst hsome hmost => ⟨fun hbad => ?_, fun hchannel hend => ?_⟩,
    fun s tag slot first entries k hs hk hst hsome hmost => ⟨fun hbad => ?_, fun hend => ?_⟩⟩
  · have hcurve := exec_loadCurve_good (s := s) (tag := tag) (slot := slot) hsome hchannel hend
    have hlattice := exec_loadLattice_good (s := s) (tag := tag) (slot := slot) hsome' hmost hend'
    refine ⟨fun hslot => ⟨?_, ?_⟩, fun k g hk hst => ⟨?_, ?_⟩⟩
    · exact refuses_of hcurve hs.1 (.inl hs.2) (stagingWrite_notFound _ _ hslot)
    · exact refuses_of hlattice hs.1 (.inl hs.2) (stagingWrite_notFound _ _ hslot)
    · exact refuses_of hcurve hs.1 (.inl hs.2) (stagingWrite_collision _ _ hk hst)
    · exact refuses_of hlattice hs.1 (.inl hs.2) (stagingWrite_collision _ _ hk hst)
  · exact answers_malformed (execRefused ((curveRangeBad_iff ..).mpr hbad) (exec_loadCurve hsome hmost)) hs
  · refine ⟨_, answers_of (exec_loadCurve_good hsome hchannel hend) hs.1 (.inl hs.2) (stagingWrite_taken _ _ hk hst),
      withCurve_frame _ _ _ _, fun j => ?_⟩
    rw [withCurve_curve hchannel]
    exact ⟨curveWritten_if_get .., curveWritten_if_get .., curveWritten_if_get ..⟩
  · exact answers_malformed (execRefused ((latticeRangeBad_iff ..).mpr hbad) (exec_loadLattice hsome hmost)) hs
  · exact ⟨_, answers_of (exec_loadLattice_good hsome hmost hend) hs.1 (.inl hs.2) (stagingWrite_taken _ _ hk hst), rfl,
      fun x y z => withLattice_get first entries _ x y z⟩

/-- Settles O29: each directive by the equation of its owner. -/
theorem settings : Obligations.Settings := by
  refine fun s tag => ⟨fun hs => answers_of rfl hs (.inr rfl) rfl, fun hs => ⟨fun camera code t ht => ⟨fun k hk => ?_,
    fun hcode => ?_⟩, fun on split => ?_, fun camera i t x ht hx => ?_, fun camera code i hcamera => ⟨?_, ?_⟩⟩⟩
  · exact answers_of rfl hs.1 (.inl hs.2) (mapCamera_slot ht hk)
  · exact answers_of rfl hs.1 (.inl hs.2) (mapCamera_none ht hcode)
  · exact answers_of rfl hs.1 (.inl hs.2) (setCompare_eq on split)
  · subst hx
    exact answers_of rfl hs.1 (.inl hs.2) (setProfile_taken ht i)
  · exact refuses_of rfl hs.1 (.inl hs.2) (mapCamera_notFound hcamera)
  · exact refuses_of rfl hs.1 (.inl hs.2) (setProfile_notFound i hcamera)

end Sys2Proof.Proofs
end

