-- ==== Sys2Proof/Proofs/Grading.lean ====
section
/-! PROOF. The stages of the grading pipeline (R106 to R112): the curve and the lattice take weighted means of their entries and
round them, so that they stay among them. Through the identity look (R114) each stage returns its input, but for the top of
the range of the curve and of the lattice. -/

namespace Sys2Proof.Machine

/-! ## Rounded means -/

/-- A sum between two multiples of `n` stays between the two factors when it is divided by `n` and rounded. -/
theorem rounded_between {n h x lo hi : Int} (hh : 0 ≤ h) (hn : h < n) (hlo : lo * n ≤ x) (hhi : x ≤ hi * n) :
    lo ≤ (x + h) / n ∧ (x + h) / n ≤ hi := by
  have hpos : 0 < n := by omega
  refine ⟨(Int.le_ediv_iff_mul_le hpos).mpr (by omega), Int.lt_add_one_iff.mp ((Int.ediv_lt_iff_lt_mul hpos).mpr ?_)⟩
  rw [add_mul, one_mul]
  omega

/-- The mean of two values with weights that come to 256. -/
theorem mean_between {a b lo hi f : Int} (hf : 0 ≤ f) (hf' : f ≤ 256) (hla : lo ≤ a) (hlb : lo ≤ b) (hah : a ≤ hi)
    (hbh : b ≤ hi) : lo * 256 ≤ 256 * a + (b - a) * f ∧ 256 * a + (b - a) * f ≤ hi * 256 := by
  have hrest : 0 ≤ 256 - f := by omega
  constructor
  · linarith [mul_nonneg (sub_nonneg.mpr hla) hrest, mul_nonneg (sub_nonneg.mpr hlb) hf]
  · linarith [mul_nonneg (sub_nonneg.mpr hah) hrest, mul_nonneg (sub_nonneg.mpr hbh) hf]

/-- The mean of four values along a walk, its fractions falling, with weights that come to 65,536. -/
theorem walk_between {a b c e lo hi f1 f2 f3 : Int} (h3 : 0 ≤ f3) (h23 : f3 ≤ f2) (h12 : f2 ≤ f1) (h1 : f1 ≤ 65536)
    (hla : lo ≤ a) (hlb : lo ≤ b) (hlc : lo ≤ c) (hle : lo ≤ e) (hah : a ≤ hi) (hbh : b ≤ hi) (hch : c ≤ hi)
    (heh : e ≤ hi) :
    lo * 65536 ≤ 65536 * a + f1 * (b - a) + f2 * (c - b) + f3 * (e - c)
      ∧ 65536 * a + f1 * (b - a) + f2 * (c - b) + f3 * (e - c) ≤ hi * 65536 := by
  have hfirst : 0 ≤ 65536 - f1 := by omega
  constructor
  · linarith [mul_nonneg (sub_nonneg.mpr hla) hfirst, mul_nonneg (sub_nonneg.mpr hlb) (sub_nonneg.mpr h12),
      mul_nonneg (sub_nonneg.mpr hlc) (sub_nonneg.mpr h23), mul_nonneg (sub_nonneg.mpr hle) h3]
  · linarith [mul_nonneg (sub_nonneg.mpr hah) hfirst, mul_nonneg (sub_nonneg.mpr hbh) (sub_nonneg.mpr h12),
      mul_nonneg (sub_nonneg.mpr hch) (sub_nonneg.mpr h23), mul_nonneg (sub_nonneg.mpr heh) h3]

/-! ## Expansion and output (R106, R112) -/

theorem expand_strictMono : StrictMono expand := fun c e h => by
  have hdiv : c / 256 ≤ e / 256 := Nat.div_le_div_right h.le
  unfold expand
  omega

theorem monitorCode_mono : Monotone monitorCode := fun _ _ h =>
  Nat.div_le_div_right (Nat.add_le_add_right (Nat.mul_le_mul_right 1023 h) 32768)

/-! ## The curve (R108) -/

/-- R108: the rounded mean of the two entries of the segment. -/
theorem curveStage_eq (curve : Vector Nat 257) {t a b : Nat} (ht : t < 65536) (ha : curve[t / 256]'(by omega) = a)
    (hb : curve[t / 256 + 1]'(by omega) = b) :
    curveStage curve t = ((256 * (a : Int) + ((b : Int) - a) * (t % 256 : Nat) + 128) / 256).toNat := by
  have hentry (i : Nat) (hi : i < 257) : curveEntry curve i = (curve[i] : Nat) := by
    rw [curveEntry, Vector.getElem?_eq_getElem hi, Option.getD_some]
  unfold curveStage
  rw [hentry _ (by omega), hentry _ (by omega), ha, hb, add_assoc, mul_comm 256, Int.mul_add_ediv_right _ _ (by decide)]

theorem curveStage_between (curve : Vector Nat 257) {t a b : Nat} (ht : t < 65536) (ha : curve[t / 256]'(by omega) = a)
    (hb : curve[t / 256 + 1]'(by omega) = b) : curveStage curve t ≤ max a b ∧ min a b ≤ curveStage curve t := by
  have hmean := mean_between (a := a) (b := b) (lo := (min a b : Nat)) (hi := (max a b : Nat)) (f := (t % 256 : Nat))
    (by omega) (by omega) (by omega) (by omega) (by omega) (by omega)
  obtain ⟨hlo, hhi⟩ := rounded_between (h := 128) (by decide) (by decide) hmean.1 hmean.2
  rw [curveStage_eq curve ht ha hb]
  omega

/-- R108: an entry is met at the start of its segment. -/
theorem curveStage_start (curve : Vector Nat 257) {t a : Nat} (ht : t < 65536) (ha : curve[t / 256]'(by omega) = a)
    (hstart : t % 256 = 0) : curveStage curve t = a := by
  rw [curveStage_eq curve ht ha rfl, hstart, Nat.cast_zero, mul_zero, add_zero]
  omega

/-! ## The interpolation (R111) -/

theorem interpolate_between {f1 f2 f3 : Nat} (a b c e : Nat) (h23 : f3 ≤ f2) (h12 : f2 ≤ f1) (h1 : f1 < 65536) :
    min (min a b) (min c e) ≤ interpolate f1 f2 f3 a b c e ∧ interpolate f1 f2 f3 a b c e ≤ max (max a b) (max c e) := by
  have hwalk := walk_between (a := a) (b := b) (c := c) (e := e) (f1 := f1) (f2 := f2) (f3 := f3)
    (lo := (min (min a b) (min c e) : Nat)) (hi := (max (max a b) (max c e) : Nat)) (by omega) (by omega) (by omega)
    (by omega) (by omega) (by omega) (by omega) (by omega) (by omega) (by omega) (by omega) (by omega)
  obtain ⟨hlo, hhi⟩ := rounded_between (h := 32768) (by decide) (by decide) hwalk.1 hwalk.2
  unfold interpolate
  omega

/-- R111: at equal fractions the vertex between the two steps has no weight. -/
theorem interpolate_second {f1 f2 f3 : Nat} (a b b' c e : Nat) (h : f1 = f2) :
    interpolate f1 f2 f3 a b c e = interpolate f1 f2 f3 a b' c e := by
  subst h
  unfold interpolate
  ring_nf

theorem interpolate_third {f1 f2 f3 : Nat} (a b c c' e : Nat) (h : f2 = f3) :
    interpolate f1 f2 f3 a b c e = interpolate f1 f2 f3 a b c' e := by
  subst h
  unfold interpolate
  ring_nf

/-! ## The identity look: slope, offset, saturation and curve (R114) -/

theorem slopeOffset_identity (v : Nat) : slopeOffset 4096 0 v = v := by
  unfold slopeOffset
  omega

theorem saturate_identity (l x : Nat) : saturate 4096 l x = x := by
  unfold saturate
  omega

theorem identityCurve_getElem (i : Nat) (hi : i < 257) : Bank.identityCurve[i] = if i = 256 then 65535 else 256 * i :=
  tabulate_getElem _ i hi

/-- R114: the last segment of the identity curve rises by 255 over 256 values, so that its upper half is lowered by 1. -/
theorem curveStage_identity {t : Nat} (ht : t ≤ 65535) :
    curveStage Bank.identityCurve t = if t ≤ 65408 then t else t - 1 := by
  have hfirst : Bank.identityCurve[t / 256]'(by omega) = 256 * (t / 256) := by
    rw [identityCurve_getElem, if_neg (by omega)]
  rcases Nat.lt_or_ge (t / 256) 255 with hlow | hlast
  · have hsecond : Bank.identityCurve[t / 256 + 1]'(by omega) = 256 * (t / 256) + 256 := by
      rw [identityCurve_getElem, if_neg (by omega), Nat.mul_succ]
    have hrise : ((256 * (t / 256) + 256 : Nat) : Int) - (256 * (t / 256) : Nat) = 256 := by omega
    rw [curveStage_eq _ (by omega) hfirst hsecond, hrise]
    split <;> omega
  · have htop : t / 256 = 255 := by omega
    have hsecond : Bank.identityCurve[t / 256 + 1]'(by omega) = 65535 := by
      rw [identityCurve_getElem, if_pos (by omega)]
    have hrise : ((65535 : Nat) : Int) - (256 * (t / 256) : Nat) = 255 := by omega
    rw [curveStage_eq _ (by omega) hfirst hsecond, hrise]
    split <;> omega

/-- R106, R114: the codes whose expanded value lies above 65,408. -/
theorem expand_lowered_iff {c : Nat} (hc : c ≤ 4095) : 65408 < expand c ↔ 4088 ≤ c := by
  unfold expand
  omega

theorem expand_le {c : Nat} (hc : c ≤ 4095) : expand c ≤ 65535 := by
  unfold expand
  omega

/-! ## The identity look: the lattice (R110, R111, R114) -/

/-- The rounded mean of the two lattice values about a coordinate, by its fraction in the cell. -/
def blend (f a b : Nat) : Nat := ((65536 * (a : Int) + f * ((b : Int) - a) + 32768) / 65536).toNat

/-- A component that changes at one step of the walk alone is blended by that step's fraction. -/
theorem interpolate_step1 (f1 f2 f3 a b : Nat) : interpolate f1 f2 f3 a b b b = blend f1 a b := by
  simp [interpolate, blend]

theorem interpolate_step2 (f1 f2 f3 a b : Nat) : interpolate f1 f2 f3 a a b b = blend f2 a b := by
  simp [interpolate, blend]

theorem interpolate_step3 (f1 f2 f3 a b : Nat) : interpolate f1 f2 f3 a a a b = blend f3 a b := by
  simp [interpolate, blend]

/-- R114: the last cell of the identity lattice rises by 4,095 over 4,096 values, so that its upper half is lowered by 1. -/
theorem blend_identity {x : Nat} (hx : x ≤ 65535) :
    blend (latticeFraction x) (Bank.identityLevel (latticeCell x)) (Bank.identityLevel (latticeCell x + 1)) =
      if x ≤ 63488 then x else x - 1 := by
  unfold latticeFraction latticeCell
  have hfirst : Bank.identityLevel (16 * x / 65536) = 4096 * (16 * x / 65536) := if_neg (by omega)
  rcases Nat.lt_or_ge (16 * x / 65536) 15 with hlow | hlast
  · have hsecond : Bank.identityLevel (16 * x / 65536 + 1) = 4096 * (16 * x / 65536) + 4096 :=
      (if_neg (by omega)).trans (Nat.mul_succ _ _)
    have hrise : ((4096 * (16 * x / 65536) + 4096 : Nat) : Int) - (4096 * (16 * x / 65536) : Nat) = 4096 := by omega
    rw [blend, hfirst, hsecond, hrise]
    split <;> omega
  · have hsecond : Bank.identityLevel (16 * x / 65536 + 1) = 65535 := if_pos (by omega)
    have hrise : ((65535 : Nat) : Int) - (4096 * (16 * x / 65536) : Nat) = 4095 := by omega
    rw [blend, hfirst, hsecond, hrise]
    split <;> omega

theorem latticeAt_identity {r g b : Nat} (hr : r ≤ 16) (hg : g ≤ 16) (hb : b ≤ 16) :
    latticeAt Bank.identity ⟨r, g, b⟩ = ⟨Bank.identityLevel r, Bank.identityLevel g, Bank.identityLevel b⟩ := by
  have hr' : r < 17 := by omega
  have hg' : g < 17 := by omega
  have hb' : b < 17 := by omega
  simp [latticeAt, Bank.identity, hr', hg', hb']

/-- R110, R114: whatever the order of the axes, each component changes at its own step alone. -/
theorem latticeStage_identity (x : Rgb Nat) (hr : x.r ≤ 65535) (hg : x.g ≤ 65535) (hb : x.b ≤ 65535) :
    latticeStage Bank.identity x =
      ⟨if x.r ≤ 63488 then x.r else x.r - 1, if x.g ≤ 63488 then x.g else x.g - 1,
        if x.b ≤ 63488 then x.b else x.b - 1⟩ := by
  have hcell {v : Nat} (hv : v ≤ 65535) : latticeCell v + 1 ≤ 16 := by
    unfold latticeCell
    omega
  have hcr := hcell hr
  have hcg := hcell hg
  have hcb := hcell hb
  rw [← blend_identity hr, ← blend_identity hg, ← blend_identity hb]
  unfold latticeStage rankAxes
  dsimp only [Rgb.map]
  split_ifs <;>
    simp (disch := omega) only [Axis.step, Axis.of, latticeAt_identity, interpolate_step1, interpolate_step2,
      interpolate_step3]

/-! ## The identity look: the whole pipeline (R114) -/

theorem clampGraded_natCast {v : Nat} (hv : v ≤ 65535) : clampGraded v = v := by
  unfold clampGraded
  split_ifs <;> omega

theorem clampsGraded_natCast {v : Nat} (hv : v ≤ 65535) : clampsGraded v = false := by
  unfold clampsGraded
  rw [decide_eq_false (by omega), decide_eq_false (by omega)]
  rfl

/-- Three values as integers in the graded range clamp to themselves. -/
theorem map_clampGraded_natCast {x : Rgb Nat} (hr : x.r ≤ 65535) (hg : x.g ≤ 65535) (hb : x.b ≤ 65535) :
    (x.map Nat.cast).map clampGraded = x ∧ anyClamp (x.map Nat.cast) = false := by
  dsimp only [Rgb.map, anyClamp]
  rw [clampGraded_natCast hr, clampGraded_natCast hg, clampGraded_natCast hb, clampsGraded_natCast hr,
    clampsGraded_natCast hg, clampsGraded_natCast hb]
  exact ⟨rfl, rfl⟩

theorem stage2_identity (c : Rgb Nat) : stage2 Bank.identity c = (c.map expand).map Nat.cast := by
  simp only [stage2, Bank.identity, slopeOffset_identity, Rgb.map]

theorem stage4_identity (u : Rgb Nat) : stage4 Bank.identity u = u.map Nat.cast := by
  simp only [stage4, Bank.identity, saturate_identity, Rgb.map]

/-- R114: lowering the expanded value of a code by 1 at the top of the range leaves its monitor code. -/
theorem monitorCode_curveStage {c : Nat} (hc : c ≤ 4095) :
    monitorCode (curveStage Bank.identityCurve (expand c)) = monitorCode (expand c) := by
  rw [curveStage_identity (expand_le hc)]
  split
  · rfl
  · rename_i hhigh
    have hlast := (expand_lowered_iff hc).mp (not_le.mp hhigh)
    unfold monitorCode expand
    interval_cases c <;> rfl

/-- The values of a code's three channels after the curve of the identity look. -/
def curved (c : Rgb Nat) : Rgb Nat := c.map fun v => curveStage Bank.identityCurve (expand v)

theorem curved_le {v : Nat} (hv : v ≤ 4095) : curveStage Bank.identityCurve (expand v) ≤ 65535 := by
  have hexpand := expand_le hv
  rw [curveStage_identity hexpand]
  split <;> omega

section Pixel

variable {c : Rgb Nat} (hr : c.r ≤ 4095) (hg : c.g ≤ 4095) (hb : c.b ≤ 4095)
include hr hg hb

/-- R114: through the identity look, with its lattice or without, no value clamps on its way to the lattice. -/
theorem gradeThrough_identity (on : Bool) : gradeThrough { Bank.identity with latticeOn := on } c =
    ⟨(if on then latticeStage { Bank.identity with latticeOn := on } (curved c) else curved c).map monitorCode, false⟩ := by
  obtain ⟨hclamp, hin⟩ := map_clampGraded_natCast (x := c.map expand) (expand_le hr) (expand_le hg) (expand_le hb)
  obtain ⟨hclamp', hin'⟩ := map_clampGraded_natCast (x := curved c) (curved_le hr) (curved_le hg) (curved_le hb)
  have h2 : stage2 { Bank.identity with latticeOn := on } c = (c.map expand).map Nat.cast := stage2_identity c
  have h3 : stage3 { Bank.identity with latticeOn := on } (c.map expand) = curved c := rfl
  have h4 : stage4 { Bank.identity with latticeOn := on } (curved c) = (curved c).map Nat.cast := stage4_identity _
  unfold gradeThrough
  dsimp only
  rw [h2, hclamp, hin, h3, h4, hclamp', hin']
  rfl

theorem gradeThrough_identity_plain : gradeThrough Bank.identity c = gradePlain c := by
  have hcodes : (curved c).map monitorCode = c.map fun v => monitorCode (expand v) := by
    simp only [curved, Rgb.map, monitorCode_curveStage hr, monitorCode_curveStage hg, monitorCode_curveStage hb]
  have hgrade := gradeThrough_identity hr hg hb false
  rw [if_neg Bool.false_ne_true, hcodes] at hgrade
  exact hgrade

end Pixel

end Sys2Proof.Machine

namespace Sys2Proof.Proofs
open Machine

/-- Settles O48: expansion and output are monotone, and the curve and the interpolation take rounded means of their entries
(`curveStage_between`, `interpolate_between`). -/
theorem gradingStages : Obligations.GradingStages := by
  refine ⟨⟨rfl, rfl, fun c e h => expand_strictMono h⟩, fun curve t ht => ?_, fun f1 f2 f3 a b c e h23 h12 h1 => ?_, rfl, rfl,
    fun x y h => monitorCode_mono h⟩
  · obtain ⟨hhi, hlo⟩ := curveStage_between curve ht rfl rfl
    exact ⟨hhi, hlo, curveStage_start curve ht rfl⟩
  · obtain ⟨hlo, hhi⟩ := interpolate_between a b c e h23 h12 h1
    exact ⟨hlo, hhi, fun h b' => interpolate_second a b b' c e h, fun h c' => interpolate_third a b c c' e h⟩

/-- Settles O49: each stage returns its input but for the top of the range (`curveStage_identity`, `latticeStage_identity`), and
what the curve lowers there has the same monitor code (`monitorCode_curveStage`). -/
theorem identityLook : Obligations.IdentityLook := by
  refine ⟨fun v => ⟨slopeOffset_identity v, slopeOffset_identity v, slopeOffset_identity v⟩, saturate_identity,
    fun t ht => ⟨curveStage_identity ht, curveStage_identity ht, curveStage_identity ht⟩, fun c hc => ?_,
    latticeStage_identity, fun c hr hg hb => ⟨gradeThrough_identity_plain hr hg hb, rfl, ?_⟩⟩
  · have hcurve : curveStage Bank.identity.curve.g (expand c) = if expand c ≤ 65408 then expand c else expand c - 1 :=
      curveStage_identity (expand_le hc)
    rw [hcurve, ← expand_lowered_iff hc]
    split <;> omega
  · rw [gradeThrough_identity hr hg hb true]

end Sys2Proof.Proofs
end

