-- ==== Sys2Proof/Proofs/WatchLists.lean ====
section
/-! PROOF. WATCH-PIXEL and UNWATCH-PIXEL (R133, R134). -/

namespace Sys2Proof.Machine

variable {s : Part} {tag : Nat}

section Watch

variable {items : List WatchItem}

/-- R133, R176: what WATCH-PIXEL does when its count is in range. -/
theorem exec_watchPixel {m : State} (hsome : 1 ≤ items.length) (hmost : items.length ≤ 65535) :
    exec (.watchPixel tag items) m =
      .next (m.onPart (ingress (.watchPixel tag items) (directive tag 0x51 false (watchPixel items)))) :=
  execCounted (bad := items.length = 0 ∨ 65535 < items.length) (by omega) rfl

theorem watchPixel_notFound (hcamera : ∃ i ∈ items, 15 < i.camera) : watchPixel items s = (s, .refuse .notFound) :=
  if_pos (by simpa using hcamera)

/-- R133: an item is adjusted where one of its values is out of range. -/
theorem any_watchAdjusted_iff : items.any watchAdjusted = true ↔
    ¬ ∀ i ∈ items, i.column ≤ 4095 ∧ i.line ≤ 2303 ∧ i.level ≤ 4095 ∧ i.run ≠ 0 := by
  have hitem (i : WatchItem) : watchAdjusted i = true ↔
      ¬ (i.column ≤ 4095 ∧ i.line ≤ 2303 ∧ i.level ≤ 4095 ∧ i.run ≠ 0) := by
    simp only [watchAdjusted, Bool.or_eq_true, decide_eq_true_eq, beq_iff_eq]
    omega
  simp only [List.any_eq_true, hitem, not_forall, exists_prop]

variable (hcameras : ∀ i ∈ items, i.camera ≤ 15)
include hcameras

theorem watchPixel_tableFull (hfull : 128 - s.watch.length < items.length) :
    watchPixel items s = (s, .refuse .tableFull) := by
  rw [watchPixel, if_neg (by simpa using hcameras)]
  exact if_pos hfull

theorem watchPixel_taken (hroom : s.watch.length + items.length ≤ 128) :
    watchPixel items s = ({ s with watch := s.watch ++ items.map watchEntryOf },
      .taken (items.any watchAdjusted) (.count (s.watch.length + items.length))) := by
  have hfits : ¬ Config.watchEntries - s.watch.length < items.length := by unfold Config.watchEntries; omega
  rw [watchPixel, if_neg (by simpa using hcameras), if_neg hfits]

end Watch

section Unwatch

variable {items : List UnwatchItem} {hit : WatchEntry → Bool}

/-- R134, R176: what UNWATCH-PIXEL does when its count is in range. -/
theorem exec_unwatchPixel {m : State} (hsome : 1 ≤ items.length) (hmost : items.length ≤ 65535) :
    exec (.unwatchPixel tag items) m =
      .next (m.onPart (ingress (.unwatchPixel tag items) (directive tag 0x52 false (unwatchPixel items)))) :=
  execCounted (bad := items.length = 0 ∨ 65535 < items.length) (by omega) rfl

/-- R134: the entries at a position the directive names. -/
theorem any_unwatchHits
    (hhit : ∀ e, hit e = true ↔ ∃ i ∈ items, e.camera.val = i.camera ∧ e.column = i.column ∧ e.line = i.line) :
    (fun e => items.any (unwatchHits e)) = hit := by
  funext e
  rw [Bool.eq_iff_iff, hhit]
  simp only [List.any_eq_true, unwatchHits, Bool.and_eq_true, beq_iff_eq, and_assoc]

/-- R134: UNWATCH-PIXEL by the entries it hits. -/
theorem unwatchPixel_eq (hhit : (fun e => items.any (unwatchHits e)) = hit) : unwatchPixel items s =
    if (s.watch.filter hit).isEmpty then (s, .refuse .notFound)
    else ({ s with watch := s.watch.filter fun e => !hit e }, ⟨.done, .count (s.watch.filter hit).length⟩) := by
  subst hhit
  rfl

end Unwatch

end Sys2Proof.Machine

namespace Sys2Proof.Proofs
open Machine

/-- Settles O30: WATCH-PIXEL by its two refusals and `watchPixel_taken`, UNWATCH-PIXEL by `unwatchPixel_eq`. -/
theorem watchList : Obligations.WatchList := by
  refine ⟨fun s tag items hs hsome hmost => ⟨fun hcamera => ?_, fun hcameras hfull => ?_, fun hcameras hroom => ?_⟩,
    fun s tag items hit hs hsome hmost hhit => ⟨fun hnone => ?_, fun ⟨e, hmem, he⟩ => ?_⟩⟩
  · exact refuses_of (exec_watchPixel hsome hmost) hs.1 (.inl hs.2) (watchPixel_notFound hcamera)
  · exact refuses_of (exec_watchPixel hsome hmost) hs.1 (.inl hs.2) (watchPixel_tableFull hcameras hfull)
  · have htaken := watchPixel_taken hcameras hroom
    rw [Reply.taken_of_iff any_watchAdjusted_iff] at htaken
    refine ⟨items.map watchEntryOf, answers_of (exec_watchPixel hsome hmost) hs.1 (.inl hs.2) htaken, List.length_map _,
      fun n i e hi he => ?_⟩
    rw [List.getElem?_map, hi] at he
    cases he
    have hcamera : i.camera < 16 := Nat.lt_succ_of_le (hcameras i (List.mem_of_getElem? hi))
    exact ⟨Nat.mod_eq_of_lt hcamera, rfl, rfl, rfl, rfl, rfl, rfl, rfl⟩
  · have hempty : s.part.watch.filter hit = [] := List.filter_eq_nil_iff.mpr fun e he => by simp [hnone e he]
    refine refuses_of (exec_unwatchPixel hsome hmost) hs.1 (.inl hs.2) ?_
    rw [unwatchPixel_eq (any_unwatchHits hhit), hempty]
    rfl
  · have hne : ¬ (s.part.watch.filter hit).isEmpty = true := by
      rw [List.isEmpty_iff]
      exact List.ne_nil_of_mem (List.mem_filter.mpr ⟨hmem, he⟩)
    refine answers_of (exec_unwatchPixel hsome hmost) hs.1 (.inl hs.2) ?_
    rw [unwatchPixel_eq (any_unwatchHits hhit), if_neg hne]

end Sys2Proof.Proofs
end

