-- ==== Sys2Proof/Proofs/Egress.lean ====
section
/-! PROOF. Station egress (R143, R151, R165, R173, R180, R185): what leaves, and what its owner then does. -/

namespace Sys2Proof.Machine

/-! ## The parcels that waited at the link (R173, R180) -/

/-- R173: a parcel of the station link is offered to ingress. -/
theorem exec_onStation {c : Instr} (hc : onStation c = true) (s : State) :
    exec c s = .next (s.onPart (ingress c (takeStation c))) := by
  cases c
  case portForeignParcel | sourceAttach | sourceDetach | destLinkUp | destLinkDown | stationLinkDown | stationLinkUp | powerOn
      | resetPin | resetEnd | sendFetch | sourceBlock | fetchTimeout | sendStore | storeDone | stallTimeout | sendVerifyFetch
      | verifyBlock | verifyFetchTimeout | egressSend =>
    exact absurd hc Bool.false_ne_true
  all_goals rfl

theorem runAll_onStation {cs : List Instr} (hcs : ∀ c ∈ cs, onStation c = true) (s : State) :
    runAll cs s = some { s with part := cs.foldl (fun t c => ingress c (takeStation c) t) s.part } := by
  induction cs generalizing s with
  | nil => rfl
  | cons c rest ih =>
    obtain ⟨hc, hrest⟩ := List.forall_mem_cons.mp hcs
    rw [runAll, exec_onStation hc]
    exact ih hrest _

/-- R184: no answer takes the place of a notice. -/
theorem enqueue_answer (a : Answer) (q : List Notice) : enqueue (.answer a) q = q ++ [.answer a] := by
  have hother : ¬ q.any (Notice.answer a).sameSubject = true := by
    rw [List.any_eq_true]
    rintro ⟨m, -, hm⟩
    cases m <;> cases hm
  exact if_neg hother

variable {s : Part}

/-- R180: the held answer joins the queue and the parcels that waited are offered in turn. -/
theorem releaseHeld_held {a : Answer} (ha : s.unit.held = some a) : releaseHeld s =
    offerWaiting { s with notices := s.notices ++ [.answer a], unit := { s.unit with held := none } } := by
  rw [releaseHeld, ha]
  dsimp only
  rw [queueNotice, enqueue_answer]

/-! ## What a notice's owner does when it has left (R165, R180) -/

theorem noticeSent_plain {n : Notice} (hanswer : n.isAnswer = false) (hcleared : ∀ h label m, n ≠ .cleared h label m) :
    noticeSent n s = s := by
  cases n
  case answer => exact absurd hanswer nofun
  case cleared h label m => exact absurd rfl (hcleared h label m)
  all_goals rfl

/-- R165, R2: a CLEARED notice that leaves sets its card's flag, which queues no notice. -/
theorem noticeSent_cleared (h : CardId) (label : List Byte) (m : Nat) : noticeSent (.cleared h label m) s =
    { s with cards := s.cards.set h { s.cards[h] with clearedUnsent := false } } :=
  if_pos ⟨rfl, rfl⟩

theorem noticeSent_answer {n : Notice} (hanswer : n.isAnswer = true) : noticeSent n s = releaseHeld s := by
  cases n
  case answer => rfl
  all_goals exact absurd hanswer Bool.false_ne_true

theorem releaseHeld_none (hheld : s.unit.held = none) : releaseHeld s = s := by rw [releaseHeld, hheld]

/-! ## What leaves (R185) -/

theorem exec_egressSend {m : State} (hruns : m.runs) : exec .egressSend m = .next { m with part := egress m.part } := by
  change Host.Outcome.next (m.onPart (unlessReset egress)) = _
  rw [State.onPart, unlessReset_runs _ _ hruns]

theorem egress_down (hdown : s.stationUp = false) : egress s = s := if_pos hdown

variable (hup : s.stationUp = true)
include hup

theorem egress_notice {n : Notice} {rest : List Notice} (hn : s.notices = n :: rest) :
    egress s = noticeSent n { s with notices := rest, out := .station n.parcel :: s.out } := by
  rw [egress, if_neg (by rw [hup]; decide), hn]
  rfl

theorem egress_fault (hn : s.notices = []) {t : Part} (ht : sendFault s = some t) : egress s = t := by
  rw [egress, if_neg (by rw [hup]; decide), hn]
  dsimp only
  rw [ht]

theorem egress_stats (hn : s.notices = []) (ht : sendFault s = none) : egress s = (sendStats s).getD s := by
  rw [egress, if_neg (by rw [hup]; decide), hn]
  dsimp only
  rw [ht]

end Sys2Proof.Machine

namespace Sys2Proof.Proofs
open Machine

/-- Settles O46: the parcel that leaves by the state of the queue, the fault log and the statistics slot (`egress_notice`,
`egress_fault`, `egress_stats`), and the parcels that waited by `runAll_onStation`. -/
theorem egress : Obligations.Egress := by
  rintro s fill hruns rfl
  rw [exec_egressSend hruns]
  refine ⟨fun hdown => by rw [egress_down hdown], fun hup => ⟨fun n rest hn => ?_, fun hn => ?_⟩⟩
  · rw [egress_notice hup hn]
    refine ⟨fun hanswer hcleared => ?_, fun h label m hcleared => ?_, fun hanswer hheld => ?_,
      fun a hanswer hheld hwaiting => ?_⟩
    · rw [noticeSent_plain hanswer hcleared]
    · rw [hcleared, noticeSent_cleared]
    · rw [noticeSent_answer hanswer, releaseHeld_none (by exact hheld)]
    · rw [noticeSent_answer hanswer, releaseHeld_held (by exact hheld)]
      exact ⟨_, rfl, runAll_onStation hwaiting _⟩
  · refine ⟨fun e rest he => ?_, fun m he hm => ?_, fun he hm => ⟨fun r hr => ?_, fun hr => ?_⟩⟩
    · rw [egress_fault hup hn (by rw [sendFault, he])]
      rfl
    · rw [egress_fault hup hn (by rw [sendFault, he, hm])]
      rfl
    · rw [egress_stats hup hn (by rw [sendFault, he, hm]), sendStats, hr]
      rfl
    · rw [egress_stats hup hn (by rw [sendFault, he, hm]), sendStats, hr]
      rfl

end Sys2Proof.Proofs
end

