-- ==== Sys2Proof/Proofs/Timecodes.lean ====
section
/-! PROOF. Timecodes and counts (R138, R139, R141): the digits of a number of frames, the 30D count that leaves the dropped
numbers out, and the correspondence of the valid timecodes with the counts of a day. -/

namespace Sys2Proof.Machine

/-! ## BCD bytes -/

theorem toBcd_bcdValue {b : Byte} (hb : bcdOk b = true) : toBcd (bcdValue b) = b.toNat := by
  simp only [bcdOk, Bool.and_eq_true, decide_eq_true_eq] at hb
  unfold toBcd bcdValue
  omega

/-- The BCD byte of a value below 100. -/
def bcdByte (n : Nat) : Byte := BitVec.ofNat 8 (toBcd n)

theorem bcdByte_toNat {n : Nat} (hn : n < 100) : (bcdByte n).toNat = toBcd n :=
  Nat.mod_eq_of_lt (by unfold toBcd; omega)

theorem bcdOk_bcdByte {n : Nat} (hn : n < 100) : bcdOk (bcdByte n) = true := by
  simp only [bcdOk, bcdByte_toNat hn, Bool.and_eq_true, decide_eq_true_eq]
  unfold toBcd
  omega

theorem bcdValue_bcdByte {n : Nat} (hn : n < 100) : bcdValue (bcdByte n) = n := by
  rw [bcdValue, bcdByte_toNat hn]
  unfold toBcd
  omega

/-! ## Digits and numbers of frames -/

/-- R138: the digits of a timecode form a time of day with frame digits below the rate. -/
structure TcInDay (r : Nat) (t : Timecode) : Prop where
  hhBcd   : bcdOk t.hh = true
  mmBcd   : bcdOk t.mm = true
  ssBcd   : bcdOk t.ss = true
  ffBcd   : bcdOk t.ff = true
  hours   : bcdValue t.hh ≤ 23
  minutes : bcdValue t.mm ≤ 59
  seconds : bcdValue t.ss ≤ 59
  frames  : bcdValue t.ff < r

/-- R139: the number of frames from midnight to a timecode when no number is dropped. -/
def tcNumber (r : Nat) (t : Timecode) : Nat := (tcMinutes t * 60 + bcdValue t.ss) * r + bcdValue t.ff

/-- R141: the eight digits of a number of frames. -/
def numberDigits (r n : Nat) : Nat :=
  toBcd (n / (3600 * r)) * 2 ^ 24 + toBcd (n / (60 * r) % 60) * 2 ^ 16 + toBcd (n / r % 60) * 2 ^ 8 + toBcd (n % r)

/-- The timecode of a number of frames. -/
def timecodeOf (r : Nat) (drop : Bool) (n : Nat) : Timecode where
  ff := bcdByte (n % r)
  ss := bcdByte (n / r % 60)
  mm := bcdByte (n / (60 * r) % 60)
  hh := bcdByte (n / (3600 * r))
  drop := drop

theorem div_minutes (r n : Nat) : n / (60 * r) = n / r / 60 := by rw [Nat.div_div_eq_div_mul, Nat.mul_comm]

theorem div_hours (r n : Nat) : n / (3600 * r) = n / r / 3600 := by rw [Nat.div_div_eq_div_mul, Nat.mul_comm]

section Number

variable {r : Nat} {t : Timecode}

theorem TcInDay.tcNumber_lt (ht : TcInDay r t) : tcNumber r t < 86400 * r := by
  have hseconds : tcMinutes t * 60 + bcdValue t.ss + 1 ≤ 86400 := by
    have hh := ht.hours
    have hm := ht.minutes
    have hs := ht.seconds
    unfold tcMinutes
    omega
  calc tcNumber r t < (tcMinutes t * 60 + bcdValue t.ss) * r + r := Nat.add_lt_add_left ht.frames _
    _ = (tcMinutes t * 60 + bcdValue t.ss + 1) * r := (Nat.succ_mul _ _).symm
    _ ≤ 86400 * r := Nat.mul_le_mul_right r hseconds

/-- R141: the number of a timecode forms back into its digits. -/
theorem TcInDay.numberDigits_tcNumber (ht : TcInDay r t) : numberDigits r (tcNumber r t) = tcDigits t := by
  have hseconds : tcNumber r t / r = tcMinutes t * 60 + bcdValue t.ss := by
    rw [tcNumber, Nat.mul_comm, Nat.mul_add_div (Nat.zero_lt_of_lt ht.frames), Nat.div_eq_of_lt ht.frames, Nat.add_zero]
  have hframes : tcNumber r t % r = bcdValue t.ff := by
    rw [tcNumber, Nat.mul_comm, Nat.mul_add_mod, Nat.mod_eq_of_lt ht.frames]
  have hm := ht.minutes
  have hs := ht.seconds
  have hhh : (tcMinutes t * 60 + bcdValue t.ss) / 3600 = bcdValue t.hh := by unfold tcMinutes; omega
  have hmm : (tcMinutes t * 60 + bcdValue t.ss) / 60 % 60 = bcdValue t.mm := by unfold tcMinutes; omega
  have hss : (tcMinutes t * 60 + bcdValue t.ss) % 60 = bcdValue t.ss := by omega
  rw [numberDigits, div_minutes, div_hours, hseconds, hframes, hhh, hmm, hss, toBcd_bcdValue ht.hhBcd, toBcd_bcdValue ht.mmBcd,
    toBcd_bcdValue ht.ssBcd, toBcd_bcdValue ht.ffBcd]
  rfl

variable {n : Nat} (hr : 0 < r) (hr100 : r ≤ 100) (hn : n < 86400 * r) (drop : Bool)
include hr hr100 hn

/-- The number of frames of a day gives a timecode of that number. -/
theorem timecodeOf_inDay : TcInDay r (timecodeOf r drop n) ∧ tcNumber r (timecodeOf r drop n) = n := by
  have hframes : n % r < r := Nat.mod_lt n hr
  have hday : n / r < 86400 := (Nat.div_lt_iff_lt_mul hr).mpr hn
  have hhh : bcdValue (timecodeOf r drop n).hh = n / r / 3600 := by
    rw [← div_hours]; exact bcdValue_bcdByte (by rw [div_hours]; omega)
  have hmm : bcdValue (timecodeOf r drop n).mm = n / r / 60 % 60 := by
    rw [← div_minutes]; exact bcdValue_bcdByte (by omega)
  have hss : bcdValue (timecodeOf r drop n).ss = n / r % 60 := bcdValue_bcdByte (by omega)
  have hff : bcdValue (timecodeOf r drop n).ff = n % r := bcdValue_bcdByte (by omega)
  constructor
  · refine ⟨bcdOk_bcdByte (by rw [div_hours]; omega), bcdOk_bcdByte (by omega), bcdOk_bcdByte (by omega),
      bcdOk_bcdByte (by omega), ?_, ?_, ?_, ?_⟩
    · omega
    · omega
    · omega
    · rw [hff]; exact hframes
  · have hseconds : tcMinutes (timecodeOf r drop n) * 60 + n / r % 60 = n / r := by
      rw [tcMinutes, hhh, hmm]
      omega
    rw [tcNumber, hss, hseconds, hff, Nat.mul_comm]
    exact Nat.div_add_mod n r

end Number

/-! ## The numbers 30D drops -/

/-- R138: the numbers of frames that no 30D timecode has: the first two of every minute but each tenth. -/
def Dropped (n : Nat) : Prop := n % 1800 < 2 ∧ n / 1800 % 10 ≠ 0

/-- R139: the 30D count of a number of frames: the numbers dropped before it are left out. -/
def nonDropToDrop (n : Nat) : Nat := n - 2 * (n / 1800 - n / 18000)

theorem dropToNonDrop_nonDropToDrop {n : Nat} (hn : ¬ Dropped n) : dropToNonDrop (nonDropToDrop n) = n := by
  unfold Dropped at hn
  unfold dropToNonDrop nonDropToDrop
  split <;> omega

theorem nonDropToDrop_dropToNonDrop (e : Nat) : nonDropToDrop (dropToNonDrop e) = e := by
  unfold dropToNonDrop nonDropToDrop
  split <;> omega

theorem dropToNonDrop_not_dropped (e : Nat) : ¬ Dropped (dropToNonDrop e) := by
  unfold Dropped dropToNonDrop
  split <;> omega

theorem nonDropToDrop_lt {n : Nat} (hn : n < 2592000) : nonDropToDrop n < 2589408 := by
  unfold nonDropToDrop
  omega

theorem dropToNonDrop_lt {e : Nat} (he : e < 2589408) : dropToNonDrop e < 2592000 := by
  unfold dropToNonDrop
  split <;> omega

/-! ## Counts (R138, R139, R141) -/

/-- R139: the count of a number of frames in a timebase. -/
def countOf (tb : Timebase) (n : Nat) : Nat := if tb = .t30D then nonDropToDrop n else n

/-- R141: the number of frames of a count in a timebase. -/
def numberOf (tb : Timebase) (e : Nat) : Nat := if tb = .t30D then dropToNonDrop e else e

theorem expectedDigits_eq (tb : Timebase) (e : Nat) : expectedDigits tb e = numberDigits tb.rate (numberOf tb e) := rfl

section Count

variable {tb : Timebase} {t : Timecode}

theorem Timebase.rate_pos (tb : Timebase) : 0 < tb.rate := by cases tb <;> decide

theorem Timebase.rate_le (tb : Timebase) : tb.rate ≤ 100 := by cases tb <;> decide

/-- R139: no number is dropped but in 30D, whose day is shorter by the dropped ones. -/
theorem Timebase.dayLength_eq (tb : Timebase) : tb.dayLength = if tb = .t30D then 2589408 else 86400 * tb.rate := by
  cases tb <;> rfl

/-- R138: the dropped numbers by the digits of a timecode. -/
theorem dropped_tcNumber (ht : TcInDay 30 t) :
    Dropped (tcNumber 30 t) ↔ bcdValue t.ff < 2 ∧ bcdValue t.ss = 0 ∧ bcdValue t.mm % 10 ≠ 0 := by
  have hm := ht.minutes
  have hs := ht.seconds
  have hf := ht.frames
  unfold Dropped tcNumber tcMinutes
  omega

/-- R138: the first eight conditions of a valid timecode. -/
theorem tcInDay_iff {r : Nat} : TcInDay r t ↔
    (bcdOk t.hh && bcdOk t.mm && bcdOk t.ss && bcdOk t.ff && decide (bcdValue t.hh ≤ 23) && decide (bcdValue t.mm ≤ 59)
      && decide (bcdValue t.ss ≤ 59) && decide (bcdValue t.ff < r)) = true := by
  simp only [Bool.and_eq_true, decide_eq_true_eq]
  constructor
  · intro ⟨hh, mm, ss, ff, hours, minutes, seconds, frames⟩
    exact ⟨⟨⟨⟨⟨⟨⟨hh, mm⟩, ss⟩, ff⟩, hours⟩, minutes⟩, seconds⟩, frames⟩
  · intro ⟨⟨⟨⟨⟨⟨⟨hh, mm⟩, ss⟩, ff⟩, hours⟩, minutes⟩, seconds⟩, frames⟩
    exact ⟨hh, mm, ss, ff, hours, minutes, seconds, frames⟩

/-- R138: a valid timecode is a time of day whose number is not dropped, with the drop flag of its timebase. -/
theorem tcValid_iff : tcValid tb t = true ↔
    TcInDay tb.rate t ∧ (tb = .t30D → ¬ Dropped (tcNumber 30 t)) ∧ t.drop = (tb == .t30D) := by
  rw [tcValid, Bool.and_eq_true, Bool.and_eq_true, ← tcInDay_iff, and_assoc, beq_iff_eq]
  refine and_congr_right fun ht => and_congr_left fun _ => ?_
  by_cases htb : tb = .t30D
  · subst htb
    have hdropped := dropped_tcNumber ht
    simp only [beq_self_eq_true, Bool.true_and, Bool.not_eq_true', Bool.and_eq_false_iff, decide_eq_false_iff_not,
      bne_eq_false_iff_eq, beq_eq_false_iff_ne, forall_const]
    tauto
  · simp [htb]

/-- R139: the count of a timecode is that of its number of frames. -/
theorem tcCount_eq (ht : TcInDay tb.rate t) : tcCount tb t = countOf tb (tcNumber tb.rate t) := by
  cases tb
  case t30D =>
    have hs := ht.seconds
    have hf : bcdValue t.ff < 30 := ht.frames
    have hminutes : tcNumber 30 t / 1800 = tcMinutes t := by unfold tcNumber; omega
    have htens : tcNumber 30 t / 18000 = tcMinutes t / 10 := by rw [← hminutes, Nat.div_div_eq_div_mul]
    change tcNumber 30 t - 2 * (tcMinutes t - tcMinutes t / 10) = nonDropToDrop (tcNumber 30 t)
    rw [nonDropToDrop, hminutes, htens]
  all_goals rfl

/-- R139, R141: a number of frames of the day that is not dropped has a count of the day, and is that count's. -/
theorem countOf_spec {n : Nat} (hn : n < 86400 * tb.rate) (hkept : tb = .t30D → ¬ Dropped n) :
    countOf tb n < tb.dayLength ∧ numberOf tb (countOf tb n) = n := by
  rw [tb.dayLength_eq, numberOf, countOf]
  by_cases htb : tb = .t30D
  · subst htb
    exact ⟨nonDropToDrop_lt hn, dropToNonDrop_nonDropToDrop (hkept rfl)⟩
  · simpa only [if_neg htb, and_true] using hn

/-- R139, R141: a count of the day has a number of frames of the day, one that is not dropped, and is that number's. -/
theorem numberOf_spec {e : Nat} (he : e < tb.dayLength) : numberOf tb e < 86400 * tb.rate
    ∧ (tb = .t30D → ¬ Dropped (numberOf tb e)) ∧ countOf tb (numberOf tb e) = e := by
  rw [tb.dayLength_eq] at he
  rw [numberOf, countOf]
  by_cases htb : tb = .t30D
  · subst htb
    exact ⟨dropToNonDrop_lt he, fun _ => dropToNonDrop_not_dropped e, nonDropToDrop_dropToNonDrop e⟩
  · simp only [if_neg htb, and_true] at he ⊢
    exact ⟨he, fun h => absurd h htb⟩

end Count

end Sys2Proof.Machine

namespace Sys2Proof.Proofs
open Machine

/-- Settles O50: a valid timecode's digits are those of its number of frames (`numberDigits_tcNumber`, `timecodeOf_inDay`), and
the numbers that are not dropped correspond to the counts (`countOf_spec`, `numberOf_spec`). -/
theorem timecodeRoundTrip : Obligations.TimecodeRoundTrip := by
  refine fun tb => ⟨fun t hvalid => ?_, fun e he => ?_⟩
  · obtain ⟨hday, hkept, -⟩ := tcValid_iff.mp hvalid
    obtain ⟨hlt, hnumber⟩ := countOf_spec hday.tcNumber_lt fun htb => htb ▸ hkept htb
    rw [tcCount_eq hday, expectedDigits_eq, hnumber]
    exact ⟨hlt, hday.numberDigits_tcNumber⟩
  · obtain ⟨hlt, hkept, hcount⟩ := numberOf_spec he
    obtain ⟨hday, hnumber⟩ := timecodeOf_inDay tb.rate_pos tb.rate_le hlt (tb == .t30D)
    refine ⟨timecodeOf tb.rate (tb == .t30D) (numberOf tb e), tcValid_iff.mpr ⟨hday, fun htb => ?_, rfl⟩, ?_, ?_⟩
    · subst htb
      exact hnumber.symm ▸ hkept rfl
    · rw [tcCount_eq hday, hnumber, hcount]
    · rw [← hday.numberDigits_tcNumber, hnumber, expectedDigits_eq]

end Sys2Proof.Proofs
end
